-- ==== Sys2Proof/Word.lean ====
section
/-! DEFINITION. The word types of the node and their plainest arithmetic. -/

namespace Sys2Proof

/-- One byte of a frame (R177). -/
abbrev Byte := BitVec 8

/-- A pack tag: a 32-bit number, nonzero where it identifies a pack (00_scope, terms). -/
abbrev Tag := BitVec 32

/-- Node time in milliseconds since the end of the last reset, 32-bit, wrapping (00_scope, conventions; R196). -/
abbrev NodeTime := BitVec 32

/-- A bus address 0 to 15 (09, section 9.1). -/
abbrev Address := BitVec 4

/-- A node number 0 to 11: the index of a peer entry (R172). -/
abbrev NodeNo := Fin 12

/-- A bay number 0 to 3 (R1). -/
abbrev BayNo := Fin 4

/-- A terminal, counted from 0: its address is 12 plus this (R178). -/
abbrev TerminalNo := Fin 3

/-- A running timer holds its remaining milliseconds, or for an age the milliseconds it has run. A stopped one is none. -/
abbrev Timer := Option Nat

end Sys2Proof
end

