-- ==== Sys2Proof/Syntax.lean ====
section
/-! DEFINITION. The commands of the node, one constructor for each row of spec/opcode_table.json, with what each row
takes from outside: a frame's fields, a conversion's readings, the levels sampled at the end of a reset. -/

namespace Sys2Proof

/-- What one conversion of a bay yields (R20): presence, the voltage and current codes as converted, and the
temperature in °C, absent when the sensor is open. -/
structure BayReading where
  presence : Bool
  v : Nat
  i : Nat
  t : Option Int
  deriving DecidableEq, Repr

/-- What one atmosphere sample reads (R107): the two loop currents in µA, and the pressure in Pa gauge, absent when
that sensor is open. -/
structure AtmosReading where
  o2a : Nat
  o2b : Nat
  pressure : Option Int
  deriving DecidableEq, Repr

/-- What one fire sample reads (R127 to R129): the four isolation keys, the conversions of D0 and D1 in 0.1 °C and of
D2 in ppm (absent when open), and the loop resistance of D3 in ohms. -/
structure FireReading where
  key0 : Bool
  key1 : Bool
  key2 : Bool
  key3 : Bool
  d0 : Option Int
  d1 : Option Int
  d2 : Option Int
  loop : Nat
  deriving DecidableEq, Repr

/-- The four strap groups (R194). -/
structure Straps where
  node : BitVec 4
  role : BitVec 2
  profile : BitVec 2
  power : BitVec 2
  deriving DecidableEq, Repr

/-- What is sampled at the end of a reset: the straps (R194), the presence of each bay (R16), and the levels of the
chute arrival sensor (R77), the feed-confirm sensor and the rotor feedback (R87). -/
structure ResetSample where
  straps : Straps
  presence : Vector Bool 4
  chute : Bool
  confirm : Bool
  feedback : Bool
  deriving DecidableEq, Repr

/-- A REQUEST frame without its code byte (R177): the row gives the code. -/
structure RequestFrame where
  src : Address
  dst : Address
  bay : Byte
  tag : Tag
  s : Byte
  capacity : BitVec 16
  timeCode : Byte
  index : Byte
  node : Byte
  headAction : Byte
  record : Byte
  number : BitVec 16
  deriving DecidableEq, Repr

/-- A HANDOFF frame without its message byte (R63, R177): the row gives the message. -/
structure HandoffFrame where
  src : Address
  dst : Address
  bay : Byte
  s : Byte
  reason : Byte
  tag : Tag
  energy : BitVec 32
  restV : BitVec 16
  spare : BitVec 16
  deriving DecidableEq, Repr

/-- The 32 bytes of a STATUS (R177). `block` is bytes 16 to 31, byte 16 its least significant. -/
structure StatusFrame where
  seq : Byte
  role : Byte
  lifecycle : Byte
  zone : Byte
  flags : Byte
  profile : Byte
  power : Byte
  pending : Byte
  time : NodeTime
  causes : BitVec 24
  spare : Byte
  block : BitVec 128
  deriving DecidableEq, Repr

/-- The 64 bytes of a TALLY (R177). `body` is bytes 6 to 63, byte 6 its least significant. -/
structure TallyFrame where
  record : Byte
  seq : Byte
  time : NodeTime
  body : BitVec 464
  deriving DecidableEq, Repr

/-- The 16 bytes of an ALARM (R177). -/
structure AlarmFrame where
  cause : Byte
  priority : Byte
  count : Byte
  active : Byte
  zone : Byte
  placeKind : Byte
  placeNo : Byte
  seq : Byte
  first : NodeTime
  tag : Tag
  deriving DecidableEq, Repr

/-- Any frame as the controller receives it: its format, the kind, source and destination of its identifier, and its
data bytes (R159, R160). -/
structure WireFrame where
  classic : Bool
  extended : Bool
  kind : BitVec 3
  src : Address
  dst : Address
  data : List Byte
  deriving DecidableEq, Repr

/-- The commands, in the order of the table. -/
inductive Instr where
  | powerOnReset
  | resetPinAsserted
  | endOfReset (e : ResetSample)
  | listenTimerExpiry
  | bayConversion (b : BayNo) (x : BayReading)
  | restTimerExpiry (b : BayNo)
  | headroomComputation
  | offerCheck
  | answerTimerExpiry (b : BayNo)
  | offerBackoffExpiry (b : BayNo)
  | releaseTimerExpiry (b : BayNo)
  | transitTimerExpiry (b : BayNo)
  | offerReceived (f : HandoffFrame)
  | takeReceived (f : HandoffFrame)
  | declineReceived (f : HandoffFrame)
  | withdrawReceived (f : HandoffFrame)
  | settleReceived (f : HandoffFrame)
  | chuteArrival
  | arrivalTimerExpiry
  | feedPeriodExpiry
  | rotorFeedbackOn
  | rotorFeedbackOff
  | startTimerExpiry
  | stopTimerExpiry
  | idleTimerExpiry
  | feedConfirmSet
  | feedTimerExpiry
  | atmosSample (x : AtmosReading)
  | purgeSlowDeadline
  | purgeLockoutDeadline
  | fireSample (x : FireReading)
  | statusReceived (src dst : Address) (f : StatusFrame)
  | tallyReceived (src dst : Address) (f : TallyFrame)
  | alarmReceived (src dst : Address) (f : AlarmFrame)
  | foreignFrameReceived (w : WireFrame)
  | receiveError
  | peerAgeStale (n : NodeNo)
  | peerAgeLost (n : NodeNo)
  | repeatWindowExpiry (a : Fin 15)
  | silenceTimerExpiry
  | statusPeriodExpiry
  | tallyPeriodExpiry
  | transmitSelection
  | transmitSuccess
  | arbitrationLost
  | transmitError (ackOnly : Bool)
  | busIdleSighting
  | admitPack (f : RequestFrame)
  | abort (f : RequestFrame)
  | resume (f : RequestFrame)
  | quarantineIn (f : RequestFrame)
  | quarantineOut (f : RequestFrame)
  | accountClear (f : RequestFrame)
  | alarmReset (f : RequestFrame)
  | purgeReset (f : RequestFrame)
  | flush (f : RequestFrame)
  | shredReset (f : RequestFrame)
  | peerForget (f : RequestFrame)
  | readRecord (f : RequestFrame)
  | readTally (f : RequestFrame)
  | readQuarantine (f : RequestFrame)
  | identify (f : RequestFrame)
  | nodeReset (f : RequestFrame)
  | unknownRequest (code : Byte) (f : RequestFrame)
  | chuteArrivalSensorClear
  | feedConfirmClear
  | framePassedBy (w : WireFrame)
  deriving DecidableEq, Repr

end Sys2Proof
end

