-- ==== Sys2Proof/Decode.lean ====
section
/-! DEFINITION. Bytes of frames and what they spell (R159 to R161, R177): little-endian fields, the kind table, the
reading of a received frame as the row of the opcode table it belongs to (`decodeFrame`), the frame that a row stands
for (`encodeFrame`), and the host's `decodeTableWord`. The opcode table gives no row any bits. -/

namespace Sys2Proof

/-- The `n` bytes of a number, least significant first (R177). -/
def leBytes : Nat → Nat → List Byte
  | 0, _ => []
  | n + 1, x => BitVec.ofNat 8 x :: leBytes n (x / 256)

/-- The number that bytes spell, least significant first (R177). -/
def leNat : List Byte → Nat
  | [] => 0
  | b :: bs => b.toNat + 256 * leNat bs

/-- Bytes `k` to `k + n - 1` of a frame, as a number. -/
def fieldAt (bytes : List Byte) (k n : Nat) : Nat := leNat ((bytes.drop k).take n)

/-- The kinds of R159 by their numbers. -/
def kindAlarm : BitVec 3 := 0
def kindHandoff : BitVec 3 := 1
def kindRequest : BitVec 3 := 2
def kindReply : BitVec 3 := 3
def kindStatus : BitVec 3 := 4
def kindTally : BitVec 3 := 5

/-- The length that R159 gives for a kind, where it gives one length. -/
def kindLength (kind : BitVec 3) : Option Nat :=
  if kind = kindAlarm ∨ kind = kindHandoff ∨ kind = kindRequest then some 16
  else if kind = kindStatus then some 32
  else if kind = kindTally then some 64
  else none

/-- Whether the table of R161 allows the source for the kind. -/
def sourceAllowed (kind : BitVec 3) (src : Address) : Bool :=
  if kind = kindRequest then decide (12 ≤ src.toNat ∧ src.toNat ≤ 14)
  else if kind = kindAlarm ∨ kind = kindHandoff ∨ kind = kindStatus ∨ kind = kindTally then decide (src.toNat ≤ 11)
  else false

/-- Whether the table of R161 allows the destination for the kind, at a node to which the frame is addressed either
alone or, with destination 15, with all others. -/
def destinationAllowed (kind : BitVec 3) (dst : Address) : Bool :=
  if kind = kindHandoff ∨ kind = kindRequest then decide (dst.toNat ≤ 11)
  else if kind = kindAlarm ∨ kind = kindStatus ∨ kind = kindTally then decide (dst = 15)
  else false

/-- The 11-bit identifier of R159: kind × 256 + source × 16 + destination. -/
def identifier (kind : BitVec 3) (src dst : Address) : BitVec 11 :=
  BitVec.ofNat 11 (kind.toNat * 256 + src.toNat * 16 + dst.toNat)

/-- The 16 data bytes of a REQUEST (R177). -/
def RequestFrame.bytes (code : Byte) (f : RequestFrame) : List Byte :=
  code :: f.bay :: (leBytes 4 f.tag.toNat ++ (f.s :: (leBytes 2 f.capacity.toNat ++
    (f.timeCode :: f.index :: f.node :: f.headAction :: f.record :: leBytes 2 f.number.toNat))))

/-- The 16 data bytes of a HANDOFF (R177). -/
def HandoffFrame.bytes (message : Byte) (f : HandoffFrame) : List Byte :=
  message :: f.bay :: f.s :: f.reason :: (leBytes 4 f.tag.toNat ++ (leBytes 4 f.energy.toNat ++
    (leBytes 2 f.restV.toNat ++ leBytes 2 f.spare.toNat)))

/-- The 32 data bytes of a STATUS (R177). -/
def StatusFrame.bytes (f : StatusFrame) : List Byte :=
  f.seq :: f.role :: f.lifecycle :: f.zone :: f.flags :: f.profile :: f.power :: f.pending ::
    (leBytes 4 f.time.toNat ++ (leBytes 3 f.causes.toNat ++ (f.spare :: leBytes 16 f.block.toNat)))

/-- The 64 data bytes of a TALLY (R177). -/
def TallyFrame.bytes (f : TallyFrame) : List Byte :=
  f.record :: f.seq :: (leBytes 4 f.time.toNat ++ leBytes 58 f.body.toNat)

/-- The 16 data bytes of an ALARM (R177). -/
def AlarmFrame.bytes (f : AlarmFrame) : List Byte :=
  f.cause :: f.priority :: f.count :: f.active :: f.zone :: f.placeKind :: f.placeNo :: f.seq ::
    (leBytes 4 f.first.toNat ++ leBytes 4 f.tag.toNat)

/-- The fields of a REQUEST read from its data bytes. -/
def RequestFrame.ofBytes (src dst : Address) (d : List Byte) : RequestFrame :=
  { src := src, dst := dst
    bay := BitVec.ofNat 8 (fieldAt d 1 1), tag := BitVec.ofNat 32 (fieldAt d 2 4)
    s := BitVec.ofNat 8 (fieldAt d 6 1), capacity := BitVec.ofNat 16 (fieldAt d 7 2)
    timeCode := BitVec.ofNat 8 (fieldAt d 9 1), index := BitVec.ofNat 8 (fieldAt d 10 1)
    node := BitVec.ofNat 8 (fieldAt d 11 1), headAction := BitVec.ofNat 8 (fieldAt d 12 1)
    record := BitVec.ofNat 8 (fieldAt d 13 1), number := BitVec.ofNat 16 (fieldAt d 14 2) }

/-- The fields of a HANDOFF read from its data bytes. -/
def HandoffFrame.ofBytes (src dst : Address) (d : List Byte) : HandoffFrame :=
  { src := src, dst := dst
    bay := BitVec.ofNat 8 (fieldAt d 1 1), s := BitVec.ofNat 8 (fieldAt d 2 1)
    reason := BitVec.ofNat 8 (fieldAt d 3 1), tag := BitVec.ofNat 32 (fieldAt d 4 4)
    energy := BitVec.ofNat 32 (fieldAt d 8 4), restV := BitVec.ofNat 16 (fieldAt d 12 2)
    spare := BitVec.ofNat 16 (fieldAt d 14 2) }

/-- The fields of a STATUS read from its data bytes. -/
def StatusFrame.ofBytes (d : List Byte) : StatusFrame :=
  { seq := BitVec.ofNat 8 (fieldAt d 0 1), role := BitVec.ofNat 8 (fieldAt d 1 1)
    lifecycle := BitVec.ofNat 8 (fieldAt d 2 1), zone := BitVec.ofNat 8 (fieldAt d 3 1)
    flags := BitVec.ofNat 8 (fieldAt d 4 1), profile := BitVec.ofNat 8 (fieldAt d 5 1)
    power := BitVec.ofNat 8 (fieldAt d 6 1), pending := BitVec.ofNat 8 (fieldAt d 7 1)
    time := BitVec.ofNat 32 (fieldAt d 8 4), causes := BitVec.ofNat 24 (fieldAt d 12 3)
    spare := BitVec.ofNat 8 (fieldAt d 15 1), block := BitVec.ofNat 128 (fieldAt d 16 16) }

/-- The fields of a TALLY read from its data bytes. -/
def TallyFrame.ofBytes (d : List Byte) : TallyFrame :=
  { record := BitVec.ofNat 8 (fieldAt d 0 1), seq := BitVec.ofNat 8 (fieldAt d 1 1)
    time := BitVec.ofNat 32 (fieldAt d 2 4), body := BitVec.ofNat 464 (fieldAt d 6 58) }

/-- The fields of an ALARM read from its data bytes. -/
def AlarmFrame.ofBytes (d : List Byte) : AlarmFrame :=
  { cause := BitVec.ofNat 8 (fieldAt d 0 1), priority := BitVec.ofNat 8 (fieldAt d 1 1)
    count := BitVec.ofNat 8 (fieldAt d 2 1), active := BitVec.ofNat 8 (fieldAt d 3 1)
    zone := BitVec.ofNat 8 (fieldAt d 4 1), placeKind := BitVec.ofNat 8 (fieldAt d 5 1)
    placeNo := BitVec.ofNat 8 (fieldAt d 6 1), seq := BitVec.ofNat 8 (fieldAt d 7 1)
    first := BitVec.ofNat 32 (fieldAt d 8 4), tag := BitVec.ofNat 32 (fieldAt d 12 4) }

/-- The row that a HANDOFF of 16 bytes belongs to, by its message byte (R177). A message byte above 4 names no step of
the exchange, and the frame is foreign (R63). -/
def decodeHandoff (w : WireFrame) : Instr :=
  let f := HandoffFrame.ofBytes w.src w.dst w.data
  match fieldAt w.data 0 1 with
  | 0 => .offerReceived f
  | 1 => .takeReceived f
  | 2 => .declineReceived f
  | 3 => .withdrawReceived f
  | 4 => .settleReceived f
  | _ => .foreignFrameReceived w

/-- The row that a REQUEST of 16 bytes belongs to, by its request code (R177, R180). -/
def decodeRequest (w : WireFrame) : Instr :=
  let f := RequestFrame.ofBytes w.src w.dst w.data
  match fieldAt w.data 0 1 with
  | 1 => .admitPack f
  | 2 => .abort f
  | 3 => .resume f
  | 4 => .quarantineIn f
  | 5 => .quarantineOut f
  | 6 => .accountClear f
  | 7 => .alarmReset f
  | 8 => .purgeReset f
  | 9 => .flush f
  | 10 => .shredReset f
  | 11 => .peerForget f
  | 12 => .readRecord f
  | 13 => .readTally f
  | 14 => .readQuarantine f
  | 15 => .identify f
  | 16 => .nodeReset f
  | c => .unknownRequest (BitVec.ofNat 8 c) f

/-- The row of the opcode table that a received frame belongs to, by its format, kind, length and first byte. Whether
the frame is a clash, foreign by its source or destination, or passed by, depends on the node's own number and is
decided when the row is executed (R160). -/
def decodeFrame (w : WireFrame) : Instr :=
  if w.classic || w.extended then .foreignFrameReceived w
  else if kindLength w.kind ≠ some w.data.length then .foreignFrameReceived w
  else if w.kind = kindAlarm then .alarmReceived w.src w.dst (AlarmFrame.ofBytes w.data)
  else if w.kind = kindHandoff then decodeHandoff w
  else if w.kind = kindRequest then decodeRequest w
  else if w.kind = kindStatus then .statusReceived w.src w.dst (StatusFrame.ofBytes w.data)
  else if w.kind = kindTally then .tallyReceived w.src w.dst (TallyFrame.ofBytes w.data)
  else .foreignFrameReceived w

/-- A CAN FD frame with an 11-bit identifier (R159). -/
def plainFrame (kind : BitVec 3) (src dst : Address) (data : List Byte) : WireFrame :=
  { classic := false, extended := false, kind := kind, src := src, dst := dst, data := data }

/-- The HANDOFF frame of a row. -/
def handoffWire (message : Byte) (f : HandoffFrame) : WireFrame :=
  plainFrame kindHandoff f.src f.dst (f.bytes message)

/-- The REQUEST frame of a row. -/
def requestWire (code : Byte) (f : RequestFrame) : WireFrame :=
  plainFrame kindRequest f.src f.dst (f.bytes code)

/-- The frame on the bus that a row's command stands for; none for a row that is no received frame. -/
def encodeFrame : Instr → Option WireFrame
  | .offerReceived f => some (handoffWire 0 f)
  | .takeReceived f => some (handoffWire 1 f)
  | .declineReceived f => some (handoffWire 2 f)
  | .withdrawReceived f => some (handoffWire 3 f)
  | .settleReceived f => some (handoffWire 4 f)
  | .statusReceived src dst f => some (plainFrame kindStatus src dst f.bytes)
  | .tallyReceived src dst f => some (plainFrame kindTally src dst f.bytes)
  | .alarmReceived src dst f => some (plainFrame kindAlarm src dst f.bytes)
  | .foreignFrameReceived w => some w
  | .framePassedBy w => some w
  | .admitPack f => some (requestWire 1 f)
  | .abort f => some (requestWire 2 f)
  | .resume f => some (requestWire 3 f)
  | .quarantineIn f => some (requestWire 4 f)
  | .quarantineOut f => some (requestWire 5 f)
  | .accountClear f => some (requestWire 6 f)
  | .alarmReset f => some (requestWire 7 f)
  | .purgeReset f => some (requestWire 8 f)
  | .flush f => some (requestWire 9 f)
  | .shredReset f => some (requestWire 10 f)
  | .peerForget f => some (requestWire 11 f)
  | .readRecord f => some (requestWire 12 f)
  | .readTally f => some (requestWire 13 f)
  | .readQuarantine f => some (requestWire 14 f)
  | .identify f => some (requestWire 15 f)
  | .nodeReset f => some (requestWire 16 f)
  | .unknownRequest code f => some (requestWire code f)
  | .powerOnReset | .resetPinAsserted | .endOfReset _ | .listenTimerExpiry | .bayConversion _ _ | .restTimerExpiry _
  | .headroomComputation | .offerCheck | .answerTimerExpiry _ | .offerBackoffExpiry _ | .releaseTimerExpiry _
  | .transitTimerExpiry _ | .chuteArrival | .arrivalTimerExpiry | .feedPeriodExpiry | .rotorFeedbackOn
  | .rotorFeedbackOff | .startTimerExpiry | .stopTimerExpiry | .idleTimerExpiry | .feedConfirmSet | .feedTimerExpiry
  | .atmosSample _ | .purgeSlowDeadline | .purgeLockoutDeadline | .fireSample _ | .receiveError | .peerAgeStale _
  | .peerAgeLost _ | .repeatWindowExpiry _ | .silenceTimerExpiry | .statusPeriodExpiry | .tallyPeriodExpiry
  | .transmitSelection | .transmitSuccess | .arbitrationLost | .transmitError _ | .busIdleSighting
  | .chuteArrivalSensorClear | .feedConfirmClear => none

/-- The command that a table word spells: none, since the opcode table gives no row any bits. -/
def decodeTableWord (_nbits _w : Nat) : Option Instr := none

end Sys2Proof
end

