-- ==== Sys2Proof/Config.lean ====
section
/-! DEFINITION. What the part and its straps fix: the constants of R195 and of the chapters, the entries of a profile,
and the ceilings of counters. The values of the four profiles stand in Machine/Profiles.lean. The spec leaves no
result of an instruction undefined, so no free value stands here. -/

namespace Sys2Proof.Config

/-- The entries that a chemistry profile supplies (R195). Voltages in 10 mV a cell, currents in 10 mA, temperatures in °C. -/
structure Profile where
  nominalCell : Nat
  taperCell : Nat
  safeCell : Nat
  reboundLimit : Nat
  iMax : Nat
  iTaper : Nat
  tDerate : Int
  tStop : Int
  restSeconds : Nat
  maxRounds : Nat
  defaultMinutes : Nat
  quarantineCapacity : Nat
  batchWatermark : Nat
  deriving DecidableEq, Repr

/-- The ceiling of a 32-bit counter, of Q, E and the discharge time (R29, R30, R188). -/
def max32 : Nat := 4294967295
/-- The ceiling of a 64-bit total (R188). -/
def max64 : Nat := 18446744073709551615

/-- The largest valid voltage code (R21). -/
def vLimit : Nat := 12000
/-- The largest valid current code (R21), and the largest power limit I_pow (R35). -/
def iLimit : Nat := 6000
/-- The abuse temperature in °C (R195, R47, R48). -/
def abuseT : Int := 80
/-- The node maximum power in W (R57, R195). -/
def nodeMaxPower : Nat := 8000
/-- The allowance rise in W (R57, R195). -/
def allowanceRise : Nat := 250
/-- The current ramp in codes a sample (R36, R195). -/
def ramp : Nat := 200

/-- 100 ms: the period of conversions, computations, offer checks, feed checks and STATUS (R20, R52, R64, R87, R165). -/
def fastPeriod : Nat := 100
/-- 1,000 ms: the period of the atmosphere and fire samples and of TALLY (R107, R127, R165). -/
def slowPeriod : Nat := 1000
/-- The listen timer (R197). -/
def listenMs : Nat := 500
/-- The silence timer (R153). -/
def silenceMs : Nat := 500
/-- The answer timer (R66). -/
def answerMs : Nat := 500
/-- The offer backoff (R67). -/
def backoffMs : Nat := 2000
/-- The release timer (R68). -/
def releaseMs : Nat := 20000
/-- The transit timer (R69). -/
def transitMs : Nat := 40000
/-- The arrival timer (R76). -/
def arrivalMs : Nat := 30000
/-- The start timer of the rotor (R90). -/
def startMs : Nat := 10000
/-- The stop timer of the rotor (R93). -/
def stopMs : Nat := 30000
/-- The idle timer of the rotor (R92). -/
def idleMs : Nat := 60000
/-- The feed timer (R94). -/
def feedMs : Nat := 15000
/-- The longest wait an entry counts, and the age of the age flush (R83, R90). -/
def waitMs : Nat := 120000
/-- The first and the second deadline of a purge (R116). -/
def purgeSlowMs : Nat := 600000
def purgeLockoutMs : Nat := 1200000
/-- The repeat window (R162). -/
def repeatMs : Nat := 100
/-- The ages at which a peer entry becomes STALE and LOST (R174). -/
def staleMs : Nat := 300
def lostMs : Nat := 1000

/-- The handoff FIFO holds up to 4 frames (R163). -/
def fifoDepth : Nat := 4
/-- The intake queue with its reservation (R86). -/
def intakeBound : Nat := 8
/-- The part code and the silicon revision (R199). -/
def partCode : Nat := 4104
def siliconRevision : Nat := 2

end Sys2Proof.Config
end

