-- ==== Sys2Proof/Machine/Profiles.lean ====
section
/-! DEFINITION. The four chemistry profiles and the four power classes (R194, R195). -/

namespace Sys2Proof.Machine

open Sys2Proof.Config

/-- P0, NMC (R195). -/
def profileP0 : Profile :=
  { nominalCell := 365, taperCell := 300, safeCell := 100, reboundLimit := 140, iMax := 4000, iTaper := 1000
    tDerate := 45, tStop := 60, restSeconds := 120, maxRounds := 3, defaultMinutes := 480, quarantineCapacity := 6
    batchWatermark := 3 }

/-- P1, LFP (R195). -/
def profileP1 : Profile :=
  { nominalCell := 320, taperCell := 260, safeCell := 100, reboundLimit := 150, iMax := 5000, iTaper := 1200
    tDerate := 50, tStop := 65, restSeconds := 90, maxRounds := 3, defaultMinutes := 360, quarantineCapacity := 4
    batchWatermark := 4 }

/-- P2, high-energy (R195). -/
def profileP2 : Profile :=
  { nominalCell := 360, taperCell := 310, safeCell := 80, reboundLimit := 120, iMax := 2500, iTaper := 600
    tDerate := 40, tStop := 55, restSeconds := 180, maxRounds := 4, defaultMinutes := 720, quarantineCapacity := 8
    batchWatermark := 2 }

/-- P3, unsorted (R195). -/
def profileP3 : Profile :=
  { nominalCell := 360, taperCell := 320, safeCell := 80, reboundLimit := 110, iMax := 1500, iTaper := 400
    tDerate := 40, tStop := 50, restSeconds := 240, maxRounds := 4, defaultMinutes := 900, quarantineCapacity := 8
    batchWatermark := 1 }

/-- The profile that the PROFILE strap group selects (R194). -/
def profileOf (p : BitVec 2) : Profile :=
  if p = 0 then profileP0 else if p = 1 then profileP1 else if p = 2 then profileP2 else profileP3

/-- The power of a class code in W: 6,000, 12,000, 18,000, 24,000 (R177, R194). -/
def classWatts (code : Nat) : Nat := 6000 * (code + 1)

end Sys2Proof.Machine
end

