-- ==== Sys2Proof/Machine/State.lean ====
section
/-! DEFINITION. The state of the node: every register, counter, list, flag and output the spec gives it, as plain data,
block by block, and the state right after a power-on reset has begun. -/

namespace Sys2Proof.Machine

/-- No event of the spec stops the node, so there is no fault: no constructor, and nothing raises one (log entry 25). -/
inductive Fault where
  deriving DecidableEq, Repr

/-- Why a command has no outcome. -/
inductive Refusal where
  /-- The row has no meaning in the model yet. Raised by an arm of exec only. Safe: nothing is claimed of the row. -/
  | notModelled (mnemonic : String)
  deriving DecidableEq, Repr

/-! ## Start-up controller (chapter 11) -/

/-- The lifecycle of R197, and the time while a reset lasts (R196; R198, column Reset). -/
inductive Lifecycle where
  | inReset | halted | listen | running | safeStop
  deriving DecidableEq, Repr

/-- The reset causes (R196). -/
inductive ResetCause where
  | powerOn | pin | request
  deriving DecidableEq, Repr

/-- The roles that the ROLE strap selects (R194). -/
inductive Role where
  | bay | shred | watch
  deriving DecidableEq, Repr

structure Startup where
  life : Lifecycle
  /-- the reset in progress, while `life` is inReset -/
  resetting : ResetCause
  resetCause : ResetCause
  lineResets : Nat
  straps : Straps
  nodeTime : NodeTime
  listenTimer : Timer
  deriving DecidableEq, Repr

/-! ## Pack records and bays (chapters 1, 2, 4) -/

/-- The hold causes (R3, R41). -/
inductive HoldCause where
  | lineStop | thermal | fault
  deriving DecidableEq, Repr

/-- The end causes of a record (R3). -/
inductive EndCause where
  | safeVoltage | timeLimit | chargeLimit | abort | rebound | fireExposed
  deriving DecidableEq, Repr

/-- The pack record (R3). The hold cause and the target node stand in the bay state. -/
structure Record where
  tag : Tag
  bay : BayNo
  s : Nat
  capacity : Option Nat
  timeLimit : Nat
  admittedAt : NodeTime
  readmitted : Bool
  fireExposed : Bool
  round : Nat
  q : Nat
  e : Nat
  eRem : Nat
  setpoint : Nat
  lastV : Nat
  lastI : Nat
  lastT : Int
  peakT : Int
  dischargeMs : Nat
  restStartV : Option Nat
  reboundV : Option Nat
  endCause : Option EndCause
  settleEarly : Bool
  offers : Nat
  deriving DecidableEq, Repr

/-- The ten bay states that hold a record (section 1.1.1). HELD carries its hold cause, which a record has exactly while
its bay is HELD (R3). OFFERED, RELEASING and IN_TRANSIT carry the target node, which stands in exactly these (R64). -/
inductive PackState where
  | admitted
  | discharging
  | held (cause : HoldCause)
  | resting
  | safe
  | offered (target : NodeNo)
  | releasing (target : NodeNo)
  | inTransit (target : NodeNo)
  | rejected
  | missing
  deriving DecidableEq, Repr

/-- A bay entry's state: two states without a record, and ten with one (R1). -/
inductive Slot where
  | empty
  | orphan
  | pack (st : PackState) (r : Record)
  deriving DecidableEq, Repr

/-- The readings of a conversion as judged by R21; none is an invalid reading. -/
structure Readings where
  presence : Bool
  v : Option Nat
  i : Option Nat
  t : Option Int
  deriving DecidableEq, Repr

structure Bay where
  slot : Slot
  /-- contactor output; true is closed (R24) -/
  contactor : Bool
  sink : Nat
  prevSetpoint : Nat
  deviation : Nat
  restTimer : Timer
  restOwed : Bool
  /-- the thermal flag (R23) -/
  thermal : Bool
  /-- the latest conversion (R20) -/
  latest : Readings
  /-- the latest valid T (R48) -/
  validT : Option Int
  convTimer : Timer
  share : Option Nat
  /-- the bay product, in 0.01 mW·s per 100 ms (R52) -/
  product : Nat
  answerTimer : Timer
  backoff : Timer
  releaseTimer : Timer
  transitTimer : Timer
  /-- release gate output; true is open (R64) -/
  gate : Bool
  /-- returned to SAFE by a jam and not yet left SAFE (R69) -/
  jammed : Bool
  /-- settled by a release timeout, presence not yet seen clear (R72) -/
  stuck : Bool
  deriving DecidableEq, Repr

/-- The reasons of a quarantine entry (R11). -/
inductive QuarantineReason where
  | ended (cause : EndCause)
  | orphan
  deriving DecidableEq, Repr

/-- An entry of the quarantine store (R11); an orphan entry has no tag. -/
structure QuarantineEntry where
  tag : Option Tag
  bay : BayNo
  reason : QuarantineReason
  time : NodeTime
  deriving DecidableEq, Repr

/-- An entry of the unaccounted list (R13). -/
structure UnaccountedEntry where
  tag : Tag
  bay : BayNo
  shred : NodeNo
  time : NodeTime
  deriving DecidableEq, Repr

/-- The headroom unit (R52), its bay products and shares standing with the bays. -/
structure Headroom where
  basis : Nat
  limit : Nat
  others : Nat
  allowance : Nat
  timer : Timer
  deriving DecidableEq, Repr

/-! ## Handoff agent (chapter 4) -/

/-- The node-wide state of the bay side (R64, R80). -/
structure Handoff where
  offerTimer : Timer
  differences : Nat
  deriving DecidableEq, Repr

/-- What an OFFER says of a pack (R63), as the reservation and a queue entry keep it (R74, R82). -/
structure Offered where
  tag : Tag
  source : NodeNo
  bay : BayNo
  s : Nat
  energy : Nat
  restV : Nat
  deriving DecidableEq, Repr

/-- The shred side (R74, R77). -/
structure Chute where
  reservation : Option Offered
  arrivalTimer : Timer
  conveyor : Bool
  /-- the level of the chute arrival sensor last seen; true is set -/
  sensor : Bool
  deriving DecidableEq, Repr

/-! ## Feed controller (chapter 5) -/

/-- An entry of the intake queue (R82); `feeding` is the entry state FEEDING. -/
structure QueueEntry where
  pack : Offered
  wait : Nat
  feeding : Bool
  deriving DecidableEq, Repr

inductive Rotor where
  | stopped | starting | running | stopping
  deriving DecidableEq, Repr

inductive FeedKind where
  | none | active | abandoned
  deriving DecidableEq, Repr

inductive HoldReason where
  | stray | feed | rotor
  deriving DecidableEq, Repr

/-- The set of feed hold reasons (R87). -/
structure HoldSet where
  stray : Bool
  feed : Bool
  rotor : Bool
  deriving DecidableEq, Repr

structure Feed where
  queue : List QueueEntry
  rotor : Rotor
  /-- rotor run output; true is on -/
  run : Bool
  startTimer : Timer
  stopTimer : Timer
  idleTimer : Timer
  /-- feed gate output; true is open -/
  gate : Bool
  feedTimer : Timer
  kind : FeedKind
  hold : HoldSet
  /-- the flush request flag (R100) -/
  flush : Bool
  periodTimer : Timer
  /-- the level of the feed-confirm sensor last seen; true is set -/
  confirm : Bool
  /-- the level of the rotor running feedback last seen; true is on -/
  feedback : Bool
  deriving DecidableEq, Repr

/-! ## Atmosphere controller (chapter 6) -/

inductive AtmosState where
  | air | purging | inert | flood | lockout
  deriving DecidableEq, Repr

/-- The state of R112; valve outputs are true when open. -/
structure Atmos where
  state : AtmosState
  purge : Bool
  flood : Bool
  /-- effective oxygen in 0.01 %, or absent (R109) -/
  oxygen : Option Nat
  o2ValidA : Bool
  o2ValidB : Bool
  pressureValid : Bool
  disagree : Nat
  qualify : Nat
  lowPressure : Nat
  /-- stopped, or the milliseconds run since the entry to PURGING (R116) -/
  stageTimer : Timer
  /-- purge stage 1 (R112) -/
  slow : Bool
  /-- the loss flag (R112) -/
  loss : Bool
  sampleTimer : Timer
  deriving DecidableEq, Repr

/-! ## Fire detection unit (chapter 7) -/

inductive Zone where
  | normal | pre | fire
  deriving DecidableEq, Repr

inductive Grade where
  | none | pre | fire
  deriving DecidableEq, Repr

/-- The memories of one source (R126, R132). -/
structure Source where
  grade : Grade
  preMem : Nat
  fireMem : Nat
  run : Option Nat
  deriving DecidableEq, Repr

/-- One detector channel (R126); the ring is used by D0 and D1 only. -/
structure Channel where
  isolated : Bool
  faulted : Bool
  /-- the last readings, oldest first (R130) -/
  ring : List Int
  source : Source
  deriving DecidableEq, Repr

structure Fire where
  zone : Zone
  impaired : Bool
  channels : Vector Channel 4
  bayHeat : Source
  clearCount : Nat
  /-- relay outputs; true is energised (R136) -/
  fireRelay : Bool
  preRelay : Bool
  sampleTimer : Timer
  deriving DecidableEq, Repr

/-! ## Cause latch, reaction unit and fault record (chapter 8) -/

/-- The eighteen causes in priority order (R145). -/
inductive Cause where
  | zoneFire | zonePre | bayOverheat | atmosLost | purgeLockout | strayPack | transitLost | feedFault | rotorFault
  | channelFault | zoneImpaired | purgeSlow | sensorDisagree | quarantineFull | jam | peerLost | reconcile | sensorStuck
  deriving DecidableEq, Repr

/-- A place with its kind (R144, R156). -/
inductive Place where
  | none
  | bay (n : Nat)
  | channel (n : Nat)
  | node (n : Nat)
  deriving DecidableEq, Repr

/-- An entry of the pending set (R144). -/
structure PendingEntry where
  cause : Cause
  count : Nat
  first : NodeTime
  place : Place
  tag : Option Tag
  deriving DecidableEq, Repr

structure Latch where
  /-- the pending set, in priority order, one entry a cause at most -/
  entries : List PendingEntry
  /-- the raises of the cause under attempt that were taken after its frame was formed (R147) -/
  after : Option PendingEntry
  deriving DecidableEq, Repr

/-- The line view (R151 to R153). -/
structure LineView where
  lineFire : Bool
  linePre : Bool
  silent : Bool
  silenceTimer : Timer
  deriving DecidableEq, Repr

/-- The fault causes (R156). -/
inductive FaultCause where
  | measurement | deviation | stray | feedTimeout | reboundHigh | feedUnexpected | rotorStart | rotorStall | rotorStop
  | rotorUncommanded | o2SensorFault | pressureFault | purgeLockout | atmosSensorsLost | atmosO2High
  | atmosPressureLow | zoneFire | channelFault | clash
  deriving DecidableEq, Repr

structure FaultEntry where
  cause : FaultCause
  place : Place
  tag : Option Tag
  time : NodeTime
  deriving DecidableEq, Repr

structure FaultRecord where
  first : Option FaultEntry
  last : Option FaultEntry
  count : Nat
  deriving DecidableEq, Repr

/-! ## Line link (chapter 9) -/

inductive LinkState where
  | active | passive | off
  deriving DecidableEq, Repr

/-- The five messages of a HANDOFF, in the order of their codes (R63, R177). -/
inductive HandoffMessage where
  | offer | take | decline | withdraw | settle
  deriving DecidableEq, Repr

/-- The reasons of a DECLINE (R63). -/
inductive DeclineReason where
  | notReady | notInert | lineFire | chuteBusy | queueFull | duplicate
  deriving DecidableEq, Repr

/-- A HANDOFF frame as the handoff agent places it in the FIFO (R63). -/
structure HandoffOut where
  dst : NodeNo
  message : HandoffMessage
  bay : BayNo
  s : Nat
  reason : Option DeclineReason
  tag : Tag
  energy : Nat
  restV : Nat
  deriving DecidableEq, Repr

/-- The refusal reasons (R177, R183). -/
inductive Reason where
  | badBay | wrongRole | bayOccupied | bayState | quarantineFull | lineStop | zoneImpaired | cellsMismatch | badField
  | duplicateTag | notFound | notClear | busy | notRunning
  deriving DecidableEq, Repr

/-- A REPLY in its slot (R177, R180); `reason` is none with DONE. -/
structure Reply where
  code : Byte
  reason : Option Reason
  bay : Byte
  number : BitVec 16
  role : Byte
  payload : List Byte
  deriving DecidableEq, Repr

/-- The buffer that the frame under attempt stands in (R163). -/
inductive Buffer where
  | alarm (c : Cause)
  | handoff
  | reply (t : TerminalNo)
  | status
  | tally
  deriving DecidableEq, Repr

/-- The attempt in progress: whose frame it is, and the identifier and data bytes on the bus (R159, R164). -/
structure Attempt where
  buffer : Buffer
  ident : BitVec 11
  data : List Byte
  deriving DecidableEq, Repr

structure Link where
  txErrors : Nat
  rxErrors : Nat
  state : LinkState
  /-- sightings of eleven recessive bits since the entry to OFF (R169) -/
  sightings : Nat
  attempt : Option Attempt
  fifo : List HandoffOut
  replies : Vector (Option Reply) 3
  status : Option StatusFrame
  tally : Option TallyFrame
  statusSeq : Byte
  tallySeq : Byte
  alarmSeq : Byte
  statusTimer : Timer
  tallyTimer : Timer
  /-- a formation put off to the end of the attempt (R165) -/
  statusDue : Bool
  tallyDue : Bool
  deriving DecidableEq, Repr

inductive PeerState where
  | absent | present | stale | lost
  deriving DecidableEq, Repr

/-- A peer entry (R172); the last sequence is the sequence of the stored fields. -/
structure Peer where
  state : PeerState
  fields : Option StatusFrame
  gaps : Nat
  /-- stopped, or the milliseconds run since the last STATUS taken -/
  age : Timer
  deriving DecidableEq, Repr

/-- A place of the repeat filter (R162). -/
structure FilterPlace where
  bytes : Option (List Byte)
  window : Timer
  deriving DecidableEq, Repr

/-! ## Request unit and tally store (chapter 10) -/

/-- A held request (R178). -/
structure HeldRequest where
  code : Byte
  bay : Byte
  number : BitVec 16
  deriving DecidableEq, Repr

structure Requests where
  held : Vector (Option HeldRequest) 3
  resetPending : Bool
  deriving DecidableEq, Repr

/-- T1, throughput (R189). -/
structure Tally1 where
  admitted : Nat
  settled : Nat
  quarantined : Nat
  quarantinedOrphans : Nat
  orphaned : Nat
  writtenOff : Nat
  rejected : Nat
  readmitted : Nat
  deriving DecidableEq, Repr

/-- T2, discharge (R190). -/
structure Tally2 where
  completed : Nat
  charge : Nat
  energy : Nat
  time : Nat
  maxTime : Nat
  maxEnergy : Nat
  deriving DecidableEq, Repr

/-- T3, transfer, without unaccounted_now, which is read from the list (R191). -/
structure Tally3 where
  offers : Nat
  declines : Nat
  jams : Nat
  transitLost : Nat
  lateSettles : Nat
  deriving DecidableEq, Repr

/-- T4, shred (R192). -/
structure Tally4 where
  settledFrom : Vector Nat 12
  shredded : Nat
  shreddedEnergy : Nat
  strays : Nat
  arrivalMissed : Nat
  rotorStarts : Nat
  byWatermark : Nat
  byAge : Nat
  byIdleLine : Nat
  byRequest : Nat
  headsRemoved : Nat
  deriving DecidableEq, Repr

/-- T5, atmosphere (R193, R113). -/
structure Tally5 where
  purgeEntries : Nat
  inertEntries : Nat
  atmosLost : Nat
  lockouts : Nat
  floods : Nat
  deriving DecidableEq, Repr

/-- T6, fire and link (R193). -/
structure Tally6 where
  preCount : Nat
  fireCount : Nat
  channelFaults : Nat
  alarmResets : Nat
  passiveEntries : Nat
  offEntries : Nat
  peersLost : Nat
  statusOverrun : Nat
  foreign : Nat
  handoffDropped : Nat
  deriving DecidableEq, Repr

structure Tally where
  t1 : Tally1
  t2 : Tally2
  t3 : Tally3
  t4 : Tally4
  t5 : Tally5
  t6 : Tally6
  deriving DecidableEq, Repr

/-! ## Lamps (R15, R136, R198) -/

/-- A lamp's pattern: off, steady on, or a blink with its on and off times in ms. -/
inductive Pattern where
  | off
  | steady
  | blink (on off : Nat)
  deriving DecidableEq, Repr

/-- A pattern and the milliseconds since the beginning of its on time. -/
structure Lamp where
  pattern : Pattern
  phase : Nat
  deriving DecidableEq, Repr

structure Lamps where
  bays : Vector Lamp 4
  beacon : Lamp
  node : Lamp
  deriving DecidableEq, Repr

/-! ## The node -/

structure State where
  startup : Startup
  bays : Vector Bay 4
  store : List QuarantineEntry
  unaccounted : List UnaccountedEntry
  headroom : Headroom
  handoff : Handoff
  chute : Chute
  feed : Feed
  atmos : Atmos
  fire : Fire
  latch : Latch
  view : LineView
  faults : FaultRecord
  link : Link
  peers : Vector Peer 12
  filter : Vector FilterPlace 15
  requests : Requests
  tally : Tally
  lamps : Lamps
  /-- the commands that wait, first in, first out -/
  pending : List Instr
  deriving DecidableEq, Repr

/-! ## Values after a reset -/

/-- No conversion yet (log entry 5). -/
def Readings.reset : Readings := { presence := false, v := none, i := none, t := none }

/-- R1, R23, R24, R52, R64. -/
def Bay.reset : Bay :=
  { slot := .empty, contactor := false, sink := 0, prevSetpoint := 0, deviation := 0, restTimer := none
    restOwed := false, thermal := false, latest := Readings.reset, validT := none, convTimer := none, share := none
    product := 0, answerTimer := none, backoff := none, releaseTimer := none, transitTimer := none, gate := false
    jammed := false, stuck := false }

/-- R194: until they are sampled the straps read 0 (log entry 1). -/
def Straps.reset : Straps := { node := 0, role := 0, profile := 0, power := 0 }

/-- R196, R197. -/
def Startup.reset : Startup :=
  { life := .inReset, resetting := .powerOn, resetCause := .powerOn, lineResets := 0, straps := Straps.reset
    nodeTime := 0, listenTimer := none }

/-- R52, with the class of straps that read 0 (log entry 1). -/
def Headroom.reset : Headroom := { basis := 0, limit := 6000, others := 0, allowance := 0, timer := none }

/-- R64, R80. -/
def Handoff.reset : Handoff := { offerTimer := none, differences := 0 }

/-- R74; the level of the sensor is log entry 24. -/
def Chute.reset : Chute := { reservation := none, arrivalTimer := none, conveyor := false, sensor := false }

def HoldSet.none : HoldSet := { stray := false, feed := false, rotor := false }

/-- R85, R87; the levels of the sensors are log entry 24. -/
def Feed.reset : Feed :=
  { queue := [], rotor := .stopped, run := false, startTimer := none, stopTimer := none, idleTimer := none
    gate := false, feedTimer := none, kind := .none, hold := HoldSet.none, flush := false, periodTimer := none
    confirm := false, feedback := false }

/-- R112. -/
def Atmos.reset : Atmos :=
  { state := .air, purge := false, flood := false, oxygen := none, o2ValidA := true, o2ValidB := true
    pressureValid := true, disagree := 0, qualify := 0, lowPressure := 0, stageTimer := none, slow := false
    loss := false, sampleTimer := none }

/-- R126: no grade, both memories run out, no run. -/
def Source.reset : Source := { grade := .none, preMem := 31, fireMem := 31, run := none }

/-- R126. -/
def Channel.reset : Channel := { isolated := false, faulted := false, ring := [], source := Source.reset }

/-- R126. -/
def Fire.reset : Fire :=
  { zone := .normal, impaired := false, channels := Vector.replicate 4 Channel.reset, bayHeat := Source.reset
    clearCount := 0, fireRelay := false, preRelay := false, sampleTimer := none }

/-- R144. -/
def Latch.reset : Latch := { entries := [], after := none }

/-- R151, R152, R153. -/
def LineView.reset : LineView := { lineFire := false, linePre := false, silent := false, silenceTimer := none }

/-- R156. -/
def FaultRecord.reset : FaultRecord := { first := none, last := none, count := 0 }

/-- R163, R165, R167, R169, R177. -/
def Link.reset : Link :=
  { txErrors := 0, rxErrors := 0, state := .active, sightings := 0, attempt := none, fifo := []
    replies := Vector.replicate 3 none, status := none, tally := none, statusSeq := 0, tallySeq := 0, alarmSeq := 0
    statusTimer := none, tallyTimer := none, statusDue := false, tallyDue := false }

/-- R172. -/
def Peer.reset : Peer := { state := .absent, fields := none, gaps := 0, age := none }

/-- R162. -/
def FilterPlace.reset : FilterPlace := { bytes := none, window := none }

/-- R178. -/
def Requests.reset : Requests := { held := Vector.replicate 3 none, resetPending := false }

/-- R188: after a power-on reset every counter is 0. -/
def Tally.reset : Tally :=
  { t1 := ⟨0, 0, 0, 0, 0, 0, 0, 0⟩, t2 := ⟨0, 0, 0, 0, 0, 0⟩, t3 := ⟨0, 0, 0, 0, 0⟩
    t4 := ⟨Vector.replicate 12 0, 0, 0, 0, 0, 0, 0, 0, 0, 0, 0⟩, t5 := ⟨0, 0, 0, 0, 0⟩
    t6 := ⟨0, 0, 0, 0, 0, 0, 0, 0, 0, 0⟩ }

def Lamp.reset : Lamp := { pattern := .off, phase := 0 }

/-- R198: all lamps off in reset. -/
def Lamps.reset : Lamps := { bays := Vector.replicate 4 Lamp.reset, beacon := Lamp.reset, node := Lamp.reset }

/-- The node in a power-on reset: every state of every block at its initial value and every output at its reset level
(R196). It leaves this state by END_OF_RESET (log entry 1). -/
def State.reset : State :=
  { startup := Startup.reset, bays := Vector.replicate 4 Bay.reset, store := [], unaccounted := []
    headroom := Headroom.reset, handoff := Handoff.reset, chute := Chute.reset, feed := Feed.reset
    atmos := Atmos.reset, fire := Fire.reset, latch := Latch.reset, view := LineView.reset
    faults := FaultRecord.reset, link := Link.reset, peers := Vector.replicate 12 Peer.reset
    filter := Vector.replicate 15 FilterPlace.reset, requests := Requests.reset, tally := Tally.reset
    lamps := Lamps.reset, pending := [] }

end Sys2Proof.Machine
end

