-- ==== Sys2Proof/Machine/Operands.lean ====
section
/-! DEFINITION. Every operand form: how a raw reading is judged valid or invalid (R21, R108, R111, R129), how an
address names a node or a terminal, how the fields of a received frame and the arguments of a request are read, and
the code tables of section 9.8. -/

namespace Sys2Proof.Machine

open Sys2Proof.Config

/-! ## Readings -/

/-- R21: an invalid reading is none. -/
def judgeBay (x : BayReading) : Readings :=
  { presence := x.presence
    v := if x.v ≤ vLimit then some x.v else none
    i := if x.i ≤ iLimit then some x.i else none
    t := match x.t with
      | some t => if -40 ≤ t ∧ t ≤ 150 then some t else none
      | none => none }

/-- R108: a loop current in µA as a reading in 0.01 %, none when the sensor is faulted. -/
def o2Reading (i : Nat) : Option Nat :=
  if i < 3600 then none
  else if i < 4000 then some 0
  else if i ≤ 20000 then some ((i - 4000) * 2500 / 16000)
  else if i ≤ 21000 then some 2500
  else none

/-- R111: the pressure reading, none when it is invalid. -/
def pressureReading (p : Option Int) : Option Int :=
  match p with
  | some x => if -500 ≤ x ∧ x ≤ 2000 then some x else none
  | none => none

/-- R111: low when invalid or below 50 Pa. -/
def pressureLow (p : Option Int) : Bool :=
  match pressureReading p with
  | some x => decide (x < 50)
  | none => true

/-- R129, D0 and D1: a heat reading in 0.1 °C, none when the channel is faulted. -/
def heatReading (c : Option Int) : Option Int :=
  match c with
  | some x => if -400 ≤ x ∧ x ≤ 2000 then some x else none
  | none => none

/-- R129, D2: ppm, clamped at 1,000, none when the channel is faulted. -/
def gasReading (c : Option Int) : Option Int :=
  match c with
  | some x => if x < 0 then none else some (min x 1000)
  | none => none

/-- R129, D3: whether the supervised loop is active, none when it is short or open. -/
def loopReading (ohms : Nat) : Option Bool :=
  if ohms < 100 then none
  else if ohms ≤ 1500 then some true
  else if ohms ≤ 15000 then some false
  else none

/-! ## Addresses -/

/-- The node a bus address names, 0 to 11. -/
def nodeOf (a : Address) : Option NodeNo :=
  if h : a.toNat < 12 then some ⟨a.toNat, h⟩ else none

/-- The terminal a bus address names, 12 to 14. -/
def terminalOf (a : Address) : Option TerminalNo :=
  if h : 12 ≤ a.toNat ∧ a.toNat ≤ 14 then some ⟨a.toNat - 12, by omega⟩ else none

/-- The place of the repeat filter for a source, 0 to 14 (R162). -/
def filterOf (a : Address) : Option (Fin 15) :=
  if h : a.toNat < 15 then some ⟨a.toNat, h⟩ else none

/-- The bus address of a node. -/
def nodeAddress (n : NodeNo) : Address := BitVec.ofNat 4 n.val

/-- The bus address of a terminal. -/
def terminalAddress (t : TerminalNo) : Address := BitVec.ofNat 4 (12 + t.val)

/-! ## Fields -/

/-- A bay field of 0 to 3. -/
def bayOf (b : Byte) : Option BayNo :=
  if h : b.toNat < 4 then some ⟨b.toNat, h⟩ else none

/-- A node argument of 0 to 11. -/
def nodeArg (b : Byte) : Option NodeNo :=
  if h : b.toNat < 12 then some ⟨b.toNat, h⟩ else none

/-- R4: the time limit in minutes that a time code selects, none where it is not decoded. -/
def timeLimitOf (p : Profile) (code : Nat) : Option Nat :=
  if code = 0 then some p.defaultMinutes
  else if code ≤ 180 then some code
  else if code ≤ 250 then some ((code - 180) * 30 + 180)
  else none

/-- R63: the bay of a HANDOFF whose tag is nonzero and whose bay is 0 to 3; none otherwise. -/
def handoffBay (f : HandoffFrame) : Option BayNo := if f.tag = 0 then none else bayOf f.bay

/-- R173: the role, zone state, profile and power class codes lie in the ranges of 9.8. -/
def statusInRange (f : StatusFrame) : Bool :=
  decide (f.role.toNat ≤ 2) && decide (f.zone.toNat ≤ 2) && decide (f.profile.toNat ≤ 3) && decide (f.power.toNat ≤ 3)

/-- The role codes (R177). -/
def codeBay : Byte := 0
def codeShred : Byte := 1
def codeWatch : Byte := 2

/-- The zone state codes (R177). -/
def codeNormal : Byte := 0
def codePre : Byte := 1
def codeFire : Byte := 2

/-- STATUS flags, bit 4: accepting or admitting (R177). -/
def statusAccepting (f : StatusFrame) : Bool := f.flags.getLsbD 4

/-- STATUS of a BAY node, bytes 16 to 17: P_own (R177). -/
def statusPower (f : StatusFrame) : Nat := (f.block.extractLsb' 0 16).toNat

/-- STATUS of a BAY node, byte 22: the releasable count (R177). -/
def statusReleasable (f : StatusFrame) : Nat := (f.block.extractLsb' 48 8).toNat

/-- TALLY with T4, bytes 6 to 53: settled_from of a node (R177). -/
def tallySettledFrom (f : TallyFrame) (n : NodeNo) : Nat := (f.body.extractLsb' (32 * n.val) 32).toNat

/-! ## Code tables (section 9.8) -/

def Role.code : Role → Byte
  | .bay => codeBay
  | .shred => codeShred
  | .watch => codeWatch

def Lifecycle.code : Lifecycle → Byte
  | .inReset => 0
  | .halted => 0
  | .listen => 1
  | .running => 2
  | .safeStop => 3

def Zone.code : Zone → Byte
  | .normal => codeNormal
  | .pre => codePre
  | .fire => codeFire

def AtmosState.code : AtmosState → Byte
  | .air => 0
  | .purging => 1
  | .inert => 2
  | .flood => 3
  | .lockout => 4

def Rotor.code : Rotor → Byte
  | .stopped => 0
  | .starting => 1
  | .running => 2
  | .stopping => 3

def Slot.code : Slot → Byte
  | .empty => 0
  | .orphan => 1
  | .pack .admitted _ => 2
  | .pack .discharging _ => 3
  | .pack (.held _) _ => 4
  | .pack .resting _ => 5
  | .pack .safe _ => 6
  | .pack (.offered _) _ => 7
  | .pack (.releasing _) _ => 8
  | .pack (.inTransit _) _ => 9
  | .pack .rejected _ => 10
  | .pack .missing _ => 11

def Reason.code : Reason → Byte
  | .badBay => 1
  | .wrongRole => 2
  | .bayOccupied => 3
  | .bayState => 4
  | .quarantineFull => 5
  | .lineStop => 6
  | .zoneImpaired => 7
  | .cellsMismatch => 8
  | .badField => 9
  | .duplicateTag => 10
  | .notFound => 11
  | .notClear => 12
  | .busy => 13
  | .notRunning => 14

def HoldCause.code : HoldCause → Byte
  | .lineStop => 1
  | .thermal => 2
  | .fault => 3

def EndCause.code : EndCause → Byte
  | .safeVoltage => 1
  | .timeLimit => 2
  | .chargeLimit => 3
  | .abort => 4
  | .rebound => 5
  | .fireExposed => 6

def QuarantineReason.code : QuarantineReason → Byte
  | .ended c => c.code
  | .orphan => 7

def ResetCause.code : ResetCause → Byte
  | .powerOn => 0
  | .pin => 1
  | .request => 2

def HandoffMessage.code : HandoffMessage → Byte
  | .offer => 0
  | .take => 1
  | .decline => 2
  | .withdraw => 3
  | .settle => 4

def DeclineReason.code : DeclineReason → Byte
  | .notReady => 1
  | .notInert => 2
  | .lineFire => 3
  | .chuteBusy => 4
  | .queueFull => 5
  | .duplicate => 6

/-- The priority of a cause, 1 the highest, which is also its code (R145, R177). -/
def Cause.priority : Cause → Nat
  | .zoneFire => 1
  | .zonePre => 2
  | .bayOverheat => 3
  | .atmosLost => 4
  | .purgeLockout => 5
  | .strayPack => 6
  | .transitLost => 7
  | .feedFault => 8
  | .rotorFault => 9
  | .channelFault => 10
  | .zoneImpaired => 11
  | .purgeSlow => 12
  | .sensorDisagree => 13
  | .quarantineFull => 14
  | .jam => 15
  | .peerLost => 16
  | .reconcile => 17
  | .sensorStuck => 18

def FaultCause.code : FaultCause → Byte
  | .measurement => 1
  | .deviation => 2
  | .stray => 3
  | .feedTimeout => 4
  | .reboundHigh => 5
  | .feedUnexpected => 6
  | .rotorStart => 7
  | .rotorStall => 8
  | .rotorStop => 9
  | .rotorUncommanded => 10
  | .o2SensorFault => 11
  | .pressureFault => 12
  | .purgeLockout => 13
  | .atmosSensorsLost => 14
  | .atmosO2High => 15
  | .atmosPressureLow => 16
  | .zoneFire => 17
  | .channelFault => 18
  | .clash => 19

/-- Place kind: 0 none, 1 bay, 2 channel, 3 node (R177). -/
def Place.kindCode : Place → Byte
  | .none => 0
  | .bay _ => 1
  | .channel _ => 2
  | .node _ => 3

/-- Place number; 0 when the kind is none (R177). -/
def Place.number : Place → Nat
  | .none => 0
  | .bay n => n
  | .channel n => n
  | .node n => n

end Sys2Proof.Machine
end

