-- ==== Sys2Proof/Machine/Flags.lean ====
section
/-! DEFINITION. Every flag, condition and count that the blocks read from the state: role and lifecycle tests, the
line view's inputs (R151, R152), the permissive (R89), the accepting and admitting flags (R103, R170), the conditions of
the eighteen causes (R145), and the counts of the laws L1, L4 and L10. -/

namespace Sys2Proof.Machine

open Sys2Proof.Config

/-! ## Role and lifecycle -/

/-- The role that the ROLE strap selects; 3 is not a role (R194). -/
def roleOf (x : Straps) : Option Role :=
  if x.role = 0 then some .bay else if x.role = 1 then some .shred else if x.role = 2 then some .watch else none

/-- The straps are valid when the node number is 0 to 11 and the role is 0 to 2 (R194). -/
def strapsValid (x : Straps) : Bool := decide (x.node.toNat ≤ 11) && (roleOf x).isSome

def State.role (s : State) : Option Role := roleOf s.startup.straps
def State.isBay (s : State) : Bool := decide (s.role = some .bay)
def State.isShred (s : State) : Bool := decide (s.role = some .shred)
def State.running (s : State) : Bool := decide (s.startup.life = .running)

/-- The profile in force (R195). -/
def State.profile (s : State) : Profile := profileOf s.startup.straps.profile

/-- The node's own power class in W (R194). -/
def State.ownClass (s : State) : Nat := classWatts s.startup.straps.power.toNat

/-- The lifecycles in which frames are received and station events of the shredder are taken: not in reset and not
HALTED (R77, R104, R161). -/
def State.awake (s : State) : Bool :=
  decide (s.startup.life = .listen ∨ s.startup.life = .running ∨ s.startup.life = .safeStop)

/-- Frames are received: not in reset, not HALTED, and the link is not OFF (R161, R169). -/
def State.receiving (s : State) : Bool := s.awake && decide (s.link.state ≠ .off)

/-! ## Bays -/

/-- The record that a bay holds. -/
def Slot.record : Slot → Option Record
  | .pack _ r => some r
  | .empty => none
  | .orphan => none

/-- The states counted under L1 (section 1.1.1). -/
def Slot.counted : Slot → Bool
  | .pack .admitted _ => true
  | .pack .discharging _ => true
  | .pack (.held _) _ => true
  | .pack .resting _ => true
  | .pack .safe _ => true
  | .pack (.offered _) _ => true
  | .pack (.releasing _) _ => true
  | .pack .rejected _ => true
  | .pack (.inTransit _) _ => false
  | .pack .missing _ => false
  | .empty => false
  | .orphan => false

def Slot.isDischarging : Slot → Bool
  | .pack .discharging _ => true
  | _ => false

def Slot.isOffered : Slot → Bool
  | .pack (.offered _) _ => true
  | _ => false

/-- The states counted under L10: OFFERED, RELEASING and IN_TRANSIT (R81). -/
def Slot.inFlight : Slot → Bool
  | .pack (.offered _) _ => true
  | .pack (.releasing _) _ => true
  | .pack (.inTransit _) _ => true
  | _ => false

/-- The releasable states: SAFE and OFFERED (R90, R170). -/
def Slot.releasable : Slot → Bool
  | .pack .safe _ => true
  | .pack (.offered _) _ => true
  | _ => false

/-- DISCHARGING, RELEASING or IN_TRANSIT: the states that keep NODE_RESET from being accepted (R182). -/
def Slot.busy : Slot → Bool
  | .pack .discharging _ => true
  | .pack (.releasing _) _ => true
  | .pack (.inTransit _) _ => true
  | _ => false

/-- EMPTY or ORPHAN. -/
def Slot.free : Slot → Bool
  | .empty => true
  | .orphan => true
  | .pack _ _ => false

/-- The target node: set through OFFERED, RELEASING and IN_TRANSIT (R64). -/
def Slot.target : Slot → Option NodeNo
  | .pack (.offered n) _ => some n
  | .pack (.releasing n) _ => some n
  | .pack (.inTransit n) _ => some n
  | _ => none

/-- The hold cause: present exactly while the bay is HELD (R3). -/
def Slot.holdCause : Slot → Option HoldCause
  | .pack (.held c) _ => some c
  | _ => none

/-- How many bays meet a test. -/
def State.countBays (s : State) (p : Slot → Bool) : Nat := s.bays.toList.countP (fun b => p b.slot)

/-- The quarantine capacity of the profile (section 1.6). -/
def State.capacity (s : State) : Nat := s.profile.quarantineCapacity

/-- The count taken by L1 (R17). -/
def State.l1Count (s : State) : Nat := s.countBays Slot.counted + s.store.length

/-- There is room for one more (R5 condition 8, R10, R170). -/
def State.hasRoom (s : State) : Bool := decide (s.l1Count + 1 ≤ s.capacity)

/-- The count taken by L10 (R81). -/
def State.transfers (s : State) : Nat := s.countBays Slot.inFlight + s.unaccounted.length

/-- The tags of the bay table, the quarantine store and the unaccounted list (R5 condition 3, R18). -/
def State.bayTags (s : State) : List Tag :=
  s.bays.toList.filterMap (fun b => b.slot.record.map Record.tag) ++ s.store.filterMap QuarantineEntry.tag ++
    s.unaccounted.map UnaccountedEntry.tag

/-- The tags of the intake queue and the reservation (R18, R75). -/
def State.shredTags (s : State) : List Tag :=
  s.feed.queue.map (fun e => e.pack.tag) ++ s.chute.reservation.toList.map Offered.tag

/-- A bay that holds a record with last T of 80 °C or more (R47). -/
def Bay.overheated (b : Bay) : Bool :=
  match b.slot with
  | .pack _ r => decide (abuseT ≤ r.lastT)
  | _ => false

/-- The latest valid T of the bay is 80 °C or more (R48). -/
def Bay.hot (b : Bay) : Bool :=
  match b.validT with
  | some t => decide (abuseT ≤ t)
  | none => false

/-- The bay heat indication (R48). -/
def State.bayHeat (s : State) : Bool := s.bays.toList.any Bay.hot

/-- The node's measured power P_own in W (R53). -/
def State.ownPower (s : State) : Nat := (s.bays.toList.map Bay.product).sum / 10000

/-! ## Line view -/

/-- A peer entry that is not ABSENT and whose last STATUS shows FIRE (R151). -/
def Peer.showsFire (p : Peer) : Bool :=
  match p.fields with
  | some f => decide (p.state ≠ .absent) && decide (f.zone = codeFire)
  | none => false

/-- A peer entry in PRESENT or STALE whose last STATUS shows PRE or FIRE (R152). -/
def Peer.showsPre (p : Peer) : Bool :=
  match p.fields with
  | some f => decide (p.state = .present ∨ p.state = .stale) && decide (f.zone = codePre ∨ f.zone = codeFire)
  | none => false

/-- What line_fire is to be (R151). -/
def State.lineFireNow (s : State) : Bool := decide (s.fire.zone = .fire) || s.peers.toList.any Peer.showsFire

/-- What line_pre is to be (R152). -/
def State.linePreNow (s : State) : Bool :=
  decide (s.fire.zone = .pre ∨ s.fire.zone = .fire) || s.peers.toList.any Peer.showsPre

/-- The node is RUNNING and not SILENT, and line_fire is false (R25, R41, R65, R68, R89). -/
def State.lineClear (s : State) : Bool := s.running && !s.view.silent && !s.view.lineFire

/-! ## Shredder -/

def HoldSet.isSet (h : HoldSet) : Bool := h.stray || h.feed || h.rotor

/-- The feed controller's permissive (R89). -/
def State.permissive (s : State) : Bool :=
  decide (s.atmos.state = .inert) && s.lineClear && !s.feed.hold.isSet

/-- Queue entries plus the reservation (R86). -/
def State.intake (s : State) : Nat := s.feed.queue.length + s.chute.reservation.toList.length

/-- The accepting flag (R103). -/
def State.accepting (s : State) : Bool :=
  s.permissive && s.chute.reservation.isNone && decide (s.intake < intakeBound)

/-- The admitting flag (R170). -/
def State.admitting (s : State) : Bool :=
  decide (s.fire.zone ≠ .fire) && !s.fire.impaired && !s.view.lineFire && decide (0 < s.countBays Slot.free) && s.hasRoom

/-! ## Peers -/

/-- A PRESENT or STALE peer whose last STATUS gave the role BAY (R56, R90). -/
def Peer.heardBay (p : Peer) : Option StatusFrame :=
  match p.fields with
  | some f => if (p.state = .present ∨ p.state = .stale) ∧ f.role = codeBay then some f else none
  | none => none

/-- The power a peer adds to S (R56). -/
def Peer.power (p : Peer) : Nat :=
  match p.heardBay with
  | some f => statusPower f
  | none => 0

/-- The class in W of a peer that is not ABSENT (R55). -/
def Peer.watts (p : Peer) : Option Nat :=
  match p.fields with
  | some f => if p.state ≠ .absent then some (classWatts f.power.toNat) else none
  | none => none

/-- A PRESENT peer whose last STATUS gave the role SHRED with the accepting flag set (R65). -/
def Peer.acceptingShred (p : Peer) : Bool :=
  match p.fields with
  | some f => decide (p.state = .present) && decide (f.role = codeShred) && statusAccepting f
  | none => false

/-- A heard BAY peer that reports a releasable count above 0 (R90). -/
def Peer.hasReleasable (p : Peer) : Bool :=
  match p.heardBay with
  | some f => decide (0 < statusReleasable f)
  | none => false

/-! ## Conditions of the causes -/

/-- The condition of each cause (R145). -/
def State.condition (s : State) : Cause → Bool
  | .zoneFire => decide (s.fire.zone = .fire)
  | .zonePre => decide (s.fire.zone = .pre)
  | .bayOverheat => s.bays.toList.any Bay.overheated
  | .atmosLost => s.atmos.loss
  | .purgeLockout => decide (s.atmos.state = .lockout)
  | .strayPack => s.feed.hold.stray
  | .transitLost => !s.unaccounted.isEmpty
  | .feedFault => s.feed.hold.feed
  | .rotorFault => s.feed.hold.rotor
  | .channelFault => s.fire.channels.toList.any (fun c => c.faulted && !c.isolated)
  | .zoneImpaired => s.fire.impaired
  | .purgeSlow => s.atmos.slow
  | .sensorDisagree => decide (s.atmos.disagree = 5)
  | .quarantineFull => decide (s.capacity ≤ s.store.length)
  | .jam => s.bays.toList.any Bay.jammed
  | .peerLost => s.peers.toList.any (fun p => decide (p.state = .lost))
  | .reconcile => decide (s.handoff.differences = 2)
  | .sensorStuck => s.bays.toList.any Bay.stuck

/-- The eighteen causes in priority order. -/
def Cause.all : List Cause :=
  [.zoneFire, .zonePre, .bayOverheat, .atmosLost, .purgeLockout, .strayPack, .transitLost, .feedFault, .rotorFault,
    .channelFault, .zoneImpaired, .purgeSlow, .sensorDisagree, .quarantineFull, .jam, .peerLost, .reconcile, .sensorStuck]

/-- The active set (R144). -/
def State.activeSet (s : State) : List Cause := Cause.all.filter s.condition

end Sys2Proof.Machine
end

