-- ==== Sys2Proof/Machine/Frames.lean ====
section
/-! DEFINITION. The frames the node forms: STATUS (R170), TALLY (R171), ALARM (R148), HANDOFF (R63), REPLY (R180), their
bytes and identifiers (R159, R177), and the payload layouts of the read requests (R177, R184 to R187, R199). -/

namespace Sys2Proof.Machine

open Sys2Proof.Config

/-- A number as one byte. -/
def byteOf (n : Nat) : Byte := BitVec.ofNat 8 n

/-- The flag as a bit of weight `2 ^ k`. -/
def bitAt (b : Bool) (k : Nat) : Nat := if b then 2 ^ k else 0

/-- An absent voltage code or oxygen value is carried as 65,535 (R177, R184). -/
def orAbsent16 (x : Option Nat) : Nat := x.getD 65535

/-- A counter carried in a 2-byte field: at most the field's largest value (R171). -/
def cap16 (n : Nat) : Nat := min n 65535

/-- A counter carried in a 4-byte field: at most the field's largest value (R171). -/
def cap32 (n : Nat) : Nat := min n max32

/-- A signed 16-bit field in two's complement (R177). -/
def signed16 (t : Int) : Nat := (BitVec.ofInt 16 t).toNat

/-! ## STATUS -/

/-- Bytes 16 to 31 of a STATUS by the role (R170, R177). -/
def State.roleBlock (s : State) : List Byte :=
  match s.role with
  | some .bay =>
    leBytes 2 s.ownPower ++ s.bays.toList.map (fun b => b.slot.code) ++
      [byteOf (s.countBays Slot.releasable), byteOf s.unaccounted.length]
  | some .shred =>
    s.atmos.state.code :: (leBytes 2 (orAbsent16 s.atmos.oxygen) ++
      [byteOf s.feed.queue.length, byteOf (bitAt s.chute.reservation.isSome 0), s.feed.rotor.code])
  | some .watch => []
  | none => []

/-- The accepting flag at a SHRED node, the admitting flag at a BAY node, clear at a WATCH node (R170). -/
def State.roleFlag (s : State) : Bool :=
  match s.role with
  | some .bay => s.admitting
  | some .shred => s.accepting
  | some .watch => false
  | none => false

/-- The flags byte of a STATUS (R177, byte 4). -/
def State.statusFlags (s : State) : Byte :=
  byteOf (bitAt s.fire.impaired 0 + bitAt s.view.silent 1 + bitAt s.view.lineFire 2 + bitAt s.view.linePre 3 +
    bitAt s.roleFlag 4)

/-- The eighteen active-cause flags: the flag of priority p is bit p − 1 (R150, R177). -/
def State.causeFlags (s : State) : BitVec 24 :=
  BitVec.ofNat 24 ((Cause.all.map (fun c => bitAt (s.condition c) (c.priority - 1))).sum)

/-- The role code of the node (R177). -/
def State.roleCode (s : State) : Byte :=
  match s.role with
  | some r => r.code
  | none => 3

/-- A STATUS formed from the state as it stands (R165, R170). -/
def State.formStatus (s : State) : StatusFrame :=
  { seq := s.link.statusSeq, role := s.roleCode, lifecycle := s.startup.life.code, zone := s.fire.zone.code
    flags := s.statusFlags, profile := byteOf s.startup.straps.profile.toNat
    power := byteOf s.startup.straps.power.toNat, pending := byteOf s.latch.entries.length
    time := s.startup.nodeTime, causes := s.causeFlags, spare := 0
    block := BitVec.ofNat 128 (leNat s.roleBlock) }

/-! ## TALLY -/

/-- The eight counters of T1 in the order of the TALLY frame. -/
def Tally1.counters (t : Tally1) : List Nat :=
  [t.admitted, t.settled, t.quarantined, t.quarantinedOrphans, t.orphaned, t.writtenOff, t.rejected, t.readmitted]

/-- The ten counters of T6 in the order of the TALLY frame. -/
def Tally6.counters (t : Tally6) : List Nat :=
  [t.preCount, t.fireCount, t.channelFaults, t.alarmResets, t.passiveEntries, t.offEntries, t.peersLost,
    t.statusOverrun, t.foreign, t.handoffDropped]

/-- Counters as 4-byte fields. -/
def words32 (l : List Nat) : List Byte := l.flatMap (fun n => leBytes 4 (cap32 n))

/-- Bytes 6 to 63 of a TALLY (R171, R177): T1 at a BAY node, T4 at a SHRED node, T6 at a WATCH node. -/
def State.tallyBody (s : State) : List Byte :=
  match s.role with
  | some .bay => words32 s.tally.t1.counters
  | some .shred =>
    words32 (s.tally.t4.settledFrom.toList ++ [s.tally.t4.shredded]) ++ leBytes 2 (cap16 s.tally.t4.strays) ++
      leBytes 2 (cap16 s.tally.t4.arrivalMissed) ++ leBytes 2 (cap16 s.tally.t4.rotorStarts)
  | some .watch => words32 s.tally.t6.counters
  | none => words32 s.tally.t6.counters

/-- The record number of a TALLY by the role (R171). -/
def State.tallyNumber (s : State) : Byte :=
  match s.role with
  | some .bay => 1
  | some .shred => 4
  | some .watch => 6
  | none => 6

/-- A TALLY formed from the state as it stands (R165, R171). -/
def State.formTally (s : State) : TallyFrame :=
  { record := s.tallyNumber, seq := s.link.tallySeq, time := s.startup.nodeTime
    body := BitVec.ofNat 464 (leNat s.tallyBody) }

/-! ## ALARM, HANDOFF, REPLY -/

/-- An ALARM formed from a pending entry (R147, R148, R177). -/
def State.formAlarm (s : State) (e : PendingEntry) : AlarmFrame :=
  { cause := byteOf e.cause.priority, priority := byteOf e.cause.priority, count := byteOf e.count
    active := byteOf (bitAt (s.condition e.cause) 0), zone := s.fire.zone.code, placeKind := e.place.kindCode
    placeNo := byteOf e.place.number, seq := s.link.alarmSeq, first := e.first, tag := e.tag.getD 0 }

/-- The bytes of an outgoing HANDOFF: fields without meaning for the message are 0 (R63, R177). -/
def HandoffOut.bytes (own : Address) (f : HandoffOut) : List Byte :=
  HandoffFrame.bytes f.message.code
    { src := own, dst := nodeAddress f.dst, bay := byteOf f.bay.val, s := byteOf f.s
      reason := match f.reason with
        | some r => r.code
        | none => 0
      tag := f.tag, energy := BitVec.ofNat 32 f.energy, restV := BitVec.ofNat 16 f.restV, spare := 0 }

/-- The lengths a REPLY may have (R159). -/
def replyLengths : List Nat := [8, 12, 16, 20, 24, 32, 48, 64]

/-- The shortest allowed length that holds the header and the payload (R177). -/
def replyLength (payload : Nat) : Nat := (replyLengths.find? (fun n => decide (8 + payload ≤ n))).getD 64

/-- The bytes of a REPLY: header, payload, padding of zeros (R177). -/
def Reply.bytes (r : Reply) : List Byte :=
  let header : List Byte :=
    [r.code, byteOf (bitAt r.reason.isSome 0),
      match r.reason with
        | some x => x.code
        | none => 0,
      r.bay] ++ leBytes 2 r.number.toNat ++ [byteOf r.payload.length, r.role]
  header ++ r.payload ++ List.replicate (replyLength r.payload.length - (8 + r.payload.length)) 0

/-! ## Payloads -/

/-- READ_RECORD (R185), 50 bytes. -/
def recordPayload (slot : Slot) (r : Record) : List Byte :=
  [slot.code, byteOf ((slot.target.map Fin.val).getD 255)] ++ leBytes 4 r.tag.toNat ++ [byteOf r.s, byteOf r.round] ++
    leBytes 2 (r.capacity.getD 0) ++ leBytes 2 r.timeLimit ++ leBytes 4 r.admittedAt.toNat ++
    [byteOf (bitAt r.readmitted 0 + bitAt r.fireExposed 1 + bitAt r.settleEarly 2), byteOf r.offers] ++
    leBytes 4 r.q ++ leBytes 4 r.e ++ leBytes 4 r.eRem ++ leBytes 2 r.setpoint ++ leBytes 2 r.lastV ++
    leBytes 2 r.lastI ++ leBytes 2 (signed16 r.lastT) ++ leBytes 2 (signed16 r.peakT) ++ leBytes 4 r.dischargeMs ++
    [match slot.holdCause with
      | some c => c.code
      | none => 0,
     match r.endCause with
      | some c => c.code
      | none => 0] ++ leBytes 2 (orAbsent16 r.restStartV) ++ leBytes 2 (orAbsent16 r.reboundV)

/-- READ_QUARANTINE of a quarantine entry (R186), 12 bytes. -/
def quarantinePayload (count capacity : Nat) (e : QuarantineEntry) : List Byte :=
  [byteOf count, byteOf capacity] ++ leBytes 4 (e.tag.getD 0).toNat ++ [byteOf e.bay.val, e.reason.code] ++
    leBytes 4 e.time.toNat

/-- READ_QUARANTINE of an unaccounted entry (R186), 12 bytes. -/
def unaccountedPayload (count : Nat) (e : UnaccountedEntry) : List Byte :=
  [byteOf count, 0] ++ leBytes 4 e.tag.toNat ++ [byteOf e.bay.val, byteOf e.shred.val] ++ leBytes 4 e.time.toNat

/-- A fault record entry, 12 bytes; an absent entry is 0 in every byte (R177). -/
def faultBytes : Option FaultEntry → List Byte
  | none => List.replicate 12 0
  | some e =>
    [1, e.cause.code, e.place.kindCode, byteOf e.place.number] ++ leBytes 4 (e.tag.getD 0).toNat ++
      leBytes 4 e.time.toNat

/-- The average discharge time of T2, 0 when no pack is counted (R190). -/
def Tally2.average (t : Tally2) : Nat := if t.completed = 0 then 0 else t.time / t.completed

/-- READ_TALLY (R187): the part that a record number and an index select, none where there is no such part. -/
def State.tallyPayload (s : State) (record index : Nat) : Option (List Byte) :=
  if record = 1 ∧ index = 0 then some (words32 s.tally.t1.counters)
  else if record = 2 ∧ index = 0 then
    some (leBytes 4 s.tally.t2.completed ++ leBytes 8 s.tally.t2.charge ++ leBytes 8 s.tally.t2.energy ++
      leBytes 8 s.tally.t2.time ++ leBytes 4 s.tally.t2.maxTime ++ leBytes 4 s.tally.t2.maxEnergy ++
      leBytes 8 s.tally.t2.average)
  else if record = 3 ∧ index = 0 then
    some (words32 [s.tally.t3.offers, s.tally.t3.declines, s.tally.t3.jams, s.tally.t3.transitLost,
      s.tally.t3.lateSettles] ++ [byteOf s.unaccounted.length])
  else if record = 4 ∧ index = 0 then some (words32 s.tally.t4.settledFrom.toList)
  else if record = 4 ∧ index = 1 then
    some (leBytes 4 s.tally.t4.shredded ++ leBytes 8 s.tally.t4.shreddedEnergy ++
      words32 [s.tally.t4.strays, s.tally.t4.arrivalMissed, s.tally.t4.rotorStarts, s.tally.t4.byWatermark,
        s.tally.t4.byAge, s.tally.t4.byIdleLine, s.tally.t4.byRequest, s.tally.t4.headsRemoved])
  else if record = 5 ∧ index = 0 then
    some (words32 [s.tally.t5.purgeEntries, s.tally.t5.inertEntries, s.tally.t5.atmosLost, s.tally.t5.lockouts,
      s.tally.t5.floods])
  else if record = 6 ∧ index = 0 then some (words32 s.tally.t6.counters)
  else if record = 6 ∧ index = 1 then
    some (faultBytes s.faults.first ++ faultBytes s.faults.last ++ leBytes 2 s.faults.count)
  else none

/-- IDENTIFY (R199), 14 bytes. -/
def State.identityPayload (s : State) : List Byte :=
  leBytes 2 partCode ++
    [byteOf siliconRevision, byteOf s.startup.straps.node.toNat, byteOf s.startup.straps.role.toNat,
      byteOf s.startup.straps.profile.toNat, byteOf s.startup.straps.power.toNat, s.startup.resetCause.code] ++
    leBytes 2 s.startup.lineResets ++ leBytes 4 s.startup.nodeTime.toNat

/-- The payload of an accepted PEER_FORGET: the entry's last role, zone state, power class, sequence and gap count
(R175). An entry that is LOST always has stored fields. -/
def Peer.forgetPayload (p : Peer) : List Byte :=
  match p.fields with
  | some f => [f.role, f.zone, f.power, f.seq, byteOf p.gaps]
  | none => [0, 0, 0, 0, byteOf p.gaps]

end Sys2Proof.Machine
end

