-- ==== Sys2Proof/Machine/Ops.lean ====
section
/-! DEFINITION. The operations that the blocks share: saturating counters, bays and records, the cause latch and the
fault record, the handoff FIFO, the feed hold and the permissive, the atmosphere's states, the line view and its
reactions, formation of STATUS and TALLY, reception and the repeat filter, replies, lamps, SAFE-STOP, resets and the
clock. -/

namespace Sys2Proof.Machine

open Sys2Proof.Config

/-! ## Counters -/

/-- An addition that would pass the ceiling leaves the counter at the ceiling (R188). -/
def satAdd (ceiling a b : Nat) : Nat := min (a + b) ceiling

/-- A 32-bit counter increased by 1 (R188). -/
def bump (n : Nat) : Nat := satAdd max32 n 1

def State.onT1 (s : State) (f : Tally1 → Tally1) : State := { s with tally := { s.tally with t1 := f s.tally.t1 } }
def State.onT2 (s : State) (f : Tally2 → Tally2) : State := { s with tally := { s.tally with t2 := f s.tally.t2 } }
def State.onT3 (s : State) (f : Tally3 → Tally3) : State := { s with tally := { s.tally with t3 := f s.tally.t3 } }
def State.onT4 (s : State) (f : Tally4 → Tally4) : State := { s with tally := { s.tally with t4 := f s.tally.t4 } }
def State.onT5 (s : State) (f : Tally5 → Tally5) : State := { s with tally := { s.tally with t5 := f s.tally.t5 } }
def State.onT6 (s : State) (f : Tally6 → Tally6) : State := { s with tally := { s.tally with t6 := f s.tally.t6 } }

/-- The foreign frames tally rises by 1 (R63, R160, R179). -/
def State.countForeign (s : State) : State := s.onT6 (fun t => { t with foreign := bump t.foreign })

/-! ## Bays -/

def State.bay (s : State) (b : BayNo) : Bay := s.bays[b]

def State.setBay (s : State) (b : BayNo) (x : Bay) : State := { s with bays := s.bays.set b.val x b.isLt }

/-- The same change at every bay. -/
def State.mapBays (s : State) (f : Bay → Bay) : State := { s with bays := Vector.ofFn (fun i => f s.bays[i]) }

/-- What belongs to one bay state ends with it: contactor, sink and share of DISCHARGING (R24, R58), the rest timer and
the rest test of RESTING (R24, R44), the backoff and the jam of SAFE (R64, R69), the answer timer of OFFERED, the
release timer and the gate of RELEASING, the transit timer of IN_TRANSIT (R64). -/
def Bay.quiet (x : Bay) : Bay :=
  { x with contactor := false, sink := 0, share := none, restTimer := none, restOwed := false, answerTimer := none
           backoff := none, releaseTimer := none, transitTimer := none, gate := false, jammed := false }

/-- The bay takes another state that holds the record; the setpoint is 0 outside DISCHARGING (R24). -/
def Bay.enter (x : Bay) (st : PackState) (r : Record) : Bay := { x.quiet with slot := .pack st { r with setpoint := 0 } }

/-- The record leaves the bay, and the bay becomes EMPTY: every timer of the bay is stopped (R24, R64). -/
def Bay.vacate (x : Bay) : Bay := { x.quiet with slot := .empty }

/-- Entry to DISCHARGING (R26). -/
def Bay.discharge (x : Bay) (r : Record) : Bay :=
  { x.enter .discharging { r with endCause := none } with contactor := true, prevSetpoint := 0, deviation := 0 }

/-- The return to SAFE from OFFERED or RELEASING with the offer backoff of 2 s (R67, R68, R69, R73). -/
def Bay.backToSafe (x : Bay) (r : Record) : Bay := { x.enter .safe r with backoff := some backoffMs }

/-- Outcomes 2 to 4 of the start check, with `clear` for a node that is RUNNING, not SILENT and without line_fire
(R25, R41, R43, R45). -/
def Bay.startOrHold (x : Bay) (clear : Bool) (r : Record) : Bay :=
  if !clear then x.enter (.held .lineStop) r
  else if x.thermal then x.enter (.held .thermal) r
  else x.discharge r

/-- The bay becomes REJECTED with an end cause, and the rejected tally rises by 1 (R2). -/
def State.reject (s : State) (b : BayNo) (r : Record) (c : EndCause) : State :=
  (s.setBay b ((s.bay b).enter .rejected { r with endCause := some c })).onT1
    (fun t => { t with rejected := bump t.rejected })

/-- The record of a settled pack is destroyed and settled of T1 rises by 1 (R71, R72). -/
def State.settle (s : State) (b : BayNo) : State :=
  (s.setBay b (s.bay b).vacate).onT1 (fun t => { t with settled := bump t.settled })

/-! ## Cause latch and fault record -/

/-- The entry of a cause with one more raise folded in (R146). -/
def foldRaise (now : NodeTime) (c : Cause) (place : Place) (tag : Option Tag) : Option PendingEntry → PendingEntry
  | none => { cause := c, count := 1, first := now, place := place, tag := tag }
  | some e => { e with count := satAdd 255 e.count 1, place := place, tag := tag }

/-- The entry takes its cause's place in the priority order. -/
def insertEntry (e : PendingEntry) : List PendingEntry → List PendingEntry
  | [] => [e]
  | x :: xs =>
    if e.cause = x.cause then e :: xs
    else if e.cause.priority < x.cause.priority then e :: x :: xs
    else x :: insertEntry e xs

/-- The pending entry of a cause. -/
def findEntry (c : Cause) (l : List PendingEntry) : Option PendingEntry := l.find? (fun e => decide (e.cause = c))

/-- An ALARM for this cause is under attempt. -/
def State.attempting (s : State) (c : Cause) : Bool :=
  match s.link.attempt with
  | some a => decide (a.buffer = .alarm c)
  | none => false

/-- A cause is raised (R146). A raise of the cause under attempt is kept apart as well, for the success (R147). -/
def State.raise (s : State) (c : Cause) (place : Place) (tag : Option Tag) : State :=
  { s with latch :=
    { entries := insertEntry (foldRaise s.startup.nodeTime c place tag (findEntry c s.latch.entries)) s.latch.entries
      after := if s.attempting c then some (foldRaise s.startup.nodeTime c place tag s.latch.after) else s.latch.after } }

/-- The fault record takes an entry (R157). -/
def State.enterFault (s : State) (c : FaultCause) (place : Place) (tag : Option Tag) : State :=
  let e : FaultEntry := { cause := c, place := place, tag := tag, time := s.startup.nodeTime }
  { s with faults :=
    { first := match s.faults.first with
        | some f => some f
        | none => some e
      last := some e
      count := satAdd 65535 s.faults.count 1 } }

/-- The bay becomes HELD with hold cause FAULT, with its fault record entry (R42). -/
def State.holdFault (s : State) (b : BayNo) (r : Record) (c : FaultCause) : State :=
  (s.setBay b ((s.bay b).enter (.held .fault) r)).enterFault c (.bay b.val) (some r.tag)

/-! ## Handoff FIFO -/

/-- The handoff agent places a frame: none while the node is not RUNNING (R63), and a frame that finds the FIFO full is
dropped and counted (R163). -/
def State.placeHandoff (s : State) (f : HandoffOut) : State :=
  if !s.running then s
  else if fifoDepth ≤ s.link.fifo.length then s.onT6 (fun t => { t with handoffDropped := bump t.handoffDropped })
  else { s with link := { s.link with fifo := s.link.fifo ++ [f] } }

/-- A frame that carries a tag and a bay only. -/
def plainHandoff (m : HandoffMessage) (dst : NodeNo) (tag : Tag) (b : BayNo) : HandoffOut :=
  { dst := dst, message := m, bay := b, s := 0, reason := none, tag := tag, energy := 0, restV := 0 }

/-! ## Feed controller -/

/-- Entry to STOPPING; with the feedback already off the rotor is STOPPED at once (R93). R91 speaks of feedback that comes on
during the STOPPING that a loss of the permissive in STARTING begins; the model follows R93 there too, so that the rotor is
STOPPED and such feedback is uncommanded rotation (DESIGN CHOICE, log entry 29). -/
def Feed.enterStopping (f : Feed) : Feed :=
  let g := { f with run := false, startTimer := none, idleTimer := none }
  if f.feedback then { g with rotor := .stopping, stopTimer := some stopMs }
  else { g with rotor := .stopped, stopTimer := none }

/-- A feed that is ACTIVE becomes ABANDONED: the gate closes, the feed timer runs on (R97). -/
def Feed.abandon (f : Feed) : Feed :=
  if f.kind = .active then { f with gate := false, kind := .abandoned } else f

/-- What the loss of the permissive does to the feed controller (R89). -/
def Feed.losePermissive (f : Feed) : Feed :=
  let g := f.abandon
  if g.rotor = .starting ∨ g.rotor = .running then g.enterStopping else g

def State.losePermissive (s : State) : State := { s with feed := s.feed.losePermissive }

/-- The idle timer runs while the rotor is RUNNING, the queue is empty and no reservation stands; it starts with 60 s
when the last of these becomes true (R92). -/
def State.refreshIdle (s : State) : State :=
  if s.feed.rotor = .running ∧ s.feed.queue = [] ∧ s.chute.reservation = none then
    match s.feed.idleTimer with
    | some _ => s
    | none => { s with feed := { s.feed with idleTimer := some idleMs } }
  else { s with feed := { s.feed with idleTimer := none } }

def HoldSet.add (h : HoldSet) : HoldReason → HoldSet
  | .stray => { h with stray := true }
  | .feed => { h with feed := true }
  | .rotor => { h with rotor := true }

/-- The cause that a feed hold reason raises (R88). -/
def HoldReason.cause : HoldReason → Cause
  | .stray => .strayPack
  | .feed => .feedFault
  | .rotor => .rotorFault

/-- A reason is added to the feed hold: it raises its cause, the fault record takes an entry, and when the set passes
from empty to not empty the permissive is lost (R88). -/
def State.addReason (s : State) (h : HoldReason) (c : FaultCause) (place : Place) (tag : Option Tag) : State :=
  let s1 := (s.raise h.cause place tag).enterFault c place tag
  let s2 := { s1 with feed := { s1.feed with hold := s1.feed.hold.add h } }
  if s.feed.hold.isSet then s2 else s2.losePermissive

/-- The head leaves the queue; with the last entry the flush request flag goes (R84). -/
def State.removeHead (s : State) : State :=
  let rest := s.feed.queue.tail
  ({ s with feed := { s.feed with queue := rest, flush := s.feed.flush && !rest.isEmpty } }).refreshIdle

/-- The head returns to QUEUED (R96, R97). -/
def requeueHead : List QueueEntry → List QueueEntry
  | [] => []
  | e :: es => { e with feeding := false } :: es

/-- The head becomes FEEDING (R94). -/
def feedHead : List QueueEntry → List QueueEntry
  | [] => []
  | e :: es => { e with feeding := true } :: es

/-- The reservation is dropped: the chute becomes free, the conveyor goes off, and the idle timer may start
(R78, R79, R92). -/
def State.dropReservation (s : State) : State :=
  ({ s with chute := { s.chute with reservation := none, arrivalTimer := none, conveyor := false } }).refreshIdle

/-! ## Atmosphere controller -/

/-- Entry to PURGING (R113, R115), with the loss flag it stands under (R120). -/
def State.enterPurging (s : State) (loss : Bool) : State :=
  ({ s with atmos := { s.atmos with
    state := .purging, purge := true, flood := false, qualify := 0, stageTimer := some 0, slow := false, loss := loss } }).onT5
    (fun t => { t with purgeEntries := bump t.purgeEntries })

/-- Entry to INERT: the purge valve keeps its open position (R113, R118). -/
def State.enterInert (s : State) : State :=
  ({ s with atmos := { s.atmos with
    state := .inert, flood := false, stageTimer := none, slow := false, loss := false, lowPressure := 0 } }).onT5
    (fun t => { t with inertEntries := bump t.inertEntries })

/-- Entry to LOCKOUT (R113, R116). -/
def State.enterLockout (s : State) : State :=
  ({ s with atmos := { s.atmos with
    state := .lockout, purge := false, flood := false, stageTimer := none, slow := false, loss := false } }).onT5
    (fun t => { t with lockouts := bump t.lockouts })

/-- Entry to FLOOD from whichever state (R113, R121); from INERT it loses the permissive. -/
def State.enterFlood (s : State) : State :=
  (({ s with atmos := { s.atmos with
    state := .flood, purge := true, flood := true, stageTimer := none, slow := false, loss := false } }).onT5
    (fun t => { t with floods := bump t.floods })).losePermissive

/-! ## Lamps -/

/-- The lamp of a bay by its state (R15); all four are off in HALTED and in reset (R198). -/
def bayPattern (life : Lifecycle) (slot : Slot) : Pattern :=
  if life = .halted ∨ life = .inReset then .off
  else
    match slot with
    | .empty => .off
    | .orphan => .blink 125 125
    | .pack .admitted _ => .blink 500 500
    | .pack .discharging _ => .blink 500 500
    | .pack .resting _ => .blink 500 500
    | .pack (.held _) _ => .blink 500 1500
    | .pack .safe _ => .steady
    | .pack (.offered _) _ => .steady
    | .pack (.releasing _) _ => .steady
    | .pack .rejected _ => .blink 125 125
    | .pack .missing _ => .blink 125 125
    | .pack (.inTransit _) _ => .off

/-- The beacon (R136); off in reset (R198). -/
def beaconPattern (life : Lifecycle) (zone : Zone) (impaired : Bool) : Pattern :=
  if life = .inReset then .off
  else
    match zone with
    | .normal => if impaired then .blink 250 1750 else .off
    | .pre => .blink 500 500
    | .fire => .steady

/-- The node lamp (R198); the duty of the 4 Hz and 1 Hz blinks is log entry 18. -/
def nodePattern : Lifecycle → Pattern
  | .inReset => .off
  | .halted => .blink 125 125
  | .listen => .blink 500 500
  | .running => .steady
  | .safeStop => .blink 500 1500

/-- A pattern that differs from the one before starts at the beginning of its on time (R15, R136). -/
def Lamp.show (l : Lamp) (p : Pattern) : Lamp := if l.pattern = p then l else { pattern := p, phase := 0 }

/-- Whether the lamp is lit. -/
def Lamp.lit (l : Lamp) : Bool :=
  match l.pattern with
  | .off => false
  | .steady => true
  | .blink on off => decide (l.phase % (on + off) < on)

/-- The lamps take the patterns of the state as it stands (R15, R136, R198). -/
def State.light (s : State) : State :=
  { s with lamps :=
    { bays := Vector.ofFn (fun i => (s.lamps.bays[i]).show (bayPattern s.startup.life s.bays[i].slot))
      beacon := s.lamps.beacon.show (beaconPattern s.startup.life s.fire.zone s.fire.impaired)
      node := s.lamps.node.show (nodePattern s.startup.life) } }

/-! ## Line view and reactions -/

/-- What line_fire, SILENT or leaving RUNNING does to one bay (R38). -/
def Bay.lineStop (x : Bay) : Bay :=
  match x.slot with
  | .pack .discharging r => x.enter (.held .lineStop) r
  | .pack .admitted r => x.enter (.held .lineStop) r
  | .pack (.held .thermal) r => x.enter (.held .lineStop) r
  | _ => x

/-- On line_fire a RELEASING bay with settle_early false returns to SAFE, with a WITHDRAW to its target (R73). -/
def State.recallRelease (s : State) (b : BayNo) : State :=
  match (s.bay b).slot with
  | .pack (.releasing n) r =>
    if r.settleEarly then s
    else (s.setBay b ((s.bay b).backToSafe r)).placeHandoff (plainHandoff .withdraw n r.tag b)
  | _ => s

/-- line_fire becomes true (R38, R73, R89, R154). The bays are taken in ascending order (log entry 8). -/
def State.lineFireRises (s : State) : State :=
  (((((s.mapBays Bay.lineStop).recallRelease 0).recallRelease 1).recallRelease 2).recallRelease 3).losePermissive.light

/-- The line view is recomputed, and line_fire becoming true is handed to the blocks at this event (R151, R152, R154). -/
def State.reviewLine (s : State) : State :=
  let t := { s with view := { s.view with lineFire := s.lineFireNow, linePre := s.linePreNow } }
  if s.lineFireNow && !s.view.lineFire then t.lineFireRises else t

/-! ## STATUS and TALLY formation -/

/-- The status_overrun tally rises by 1 (R165). -/
def State.countOverrun (s : State) : State := s.onT6 (fun t => { t with statusOverrun := bump t.statusOverrun })

/-- A STATUS is formed and takes its slot; an unsent one is replaced and counted (R165). -/
def State.placeStatus (s : State) : State :=
  let f := s.formStatus
  let t := if s.link.status.isSome then s.countOverrun else s
  { t with link := { t.link with status := some f, statusSeq := t.link.statusSeq + 1 } }

/-- A TALLY is formed and takes its slot; an unsent one is replaced and counted (R165, R171). -/
def State.placeTally (s : State) : State :=
  let f := s.formTally
  let t := if s.link.tally.isSome then s.countOverrun else s
  { t with link := { t.link with tally := some f, tallySeq := t.link.tallySeq + 1 } }

/-- The attempt is over, and a formation that waited for its end is made (R165). -/
def State.endAttempt (s : State) : State :=
  let t := { s with link := { s.link with attempt := none }, latch := { s.latch with after := none } }
  let u := if t.link.statusDue then ({ t with link := { t.link with statusDue := false } }).placeStatus else t
  if u.link.tallyDue then ({ u with link := { u.link with tallyDue := false } }).placeTally else u

/-! ## Link state -/

/-- The error counts change, and the link state follows them (R167, R168, R169). While OFF they stand (log entry 12). -/
def State.setErrors (s : State) (tx rx : Nat) : State :=
  if s.link.state = .off then s
  else if 255 < tx then
    ({ s with link := { s.link with txErrors := 256, rxErrors := rx, state := .off, sightings := 0 } }).onT6
      (fun t => { t with offEntries := bump t.offEntries })
  else if 128 ≤ tx ∨ 128 ≤ rx then
    let t := { s with link := { s.link with txErrors := tx, rxErrors := rx, state := .passive } }
    if s.link.state = .active then t.onT6 (fun t => { t with passiveEntries := bump t.passiveEntries }) else t
  else { s with link := { s.link with txErrors := tx, rxErrors := rx, state := .active } }

/-! ## SAFE-STOP -/

/-- What the entry to SAFE-STOP does to one bay: every gate closes, and OFFERED, and RELEASING with settle_early false,
return to SAFE with the timers stopped and the target cleared (R38, R73). -/
def Bay.safeStop (x : Bay) : Bay :=
  match x.slot with
  | .pack (.offered _) r => x.enter .safe r
  | .pack (.releasing _) r => if r.settleEarly then { x with gate := false } else x.enter .safe r
  | _ => { x.lineStop with gate := false }

/-- The entry to SAFE-STOP (R73, R79, R89, R153, R166, R176, R178, R197). -/
def State.enterSafeStop (s : State) : State :=
  let t := { s with
    startup := { s.startup with life := .safeStop, listenTimer := none }
    view := { s.view with silent := false, silenceTimer := none }
    link := { s.link with attempt := none, fifo := [], replies := Vector.replicate 3 none, status := none, tally := none
                          statusTimer := none, tallyTimer := none, statusDue := false, tallyDue := false }
    latch := { s.latch with after := none }
    requests := Requests.reset }
  ((t.mapBays Bay.safeStop).losePermissive).dropReservation.light

/-- A clash: in LISTEN or RUNNING the node enters SAFE-STOP and the fault record takes CLASH; in SAFE-STOP the frame is
counted foreign (R176). -/
def State.clash (s : State) : State :=
  if s.startup.life = .safeStop then s.countForeign
  else (s.enterSafeStop).enterFault .clash (.node s.startup.straps.node.toNat) none

/-! ## Reception -/

/-- The tests of R160 in their order. `odd` is a frame in classic format or with a 29-bit identifier. -/
inductive Verdict where
  | clash | foreign | passedBy | delivered
  deriving DecidableEq, Repr

def State.judge (s : State) (odd : Bool) (kind : BitVec 3) (src dst : Address) (length : Nat) : Verdict :=
  if src = s.startup.straps.node then .clash
  else if odd ∨ 6 ≤ kind.toNat ∨ src = 15 then .foreign
  else if dst ≠ s.startup.straps.node ∧ dst ≠ 15 then .passedBy
  else if sourceAllowed kind src ∧ destinationAllowed kind dst ∧ kindLength kind = some length then .delivered
  else .foreign

/-- A frame of another station is received without error (R160, R167): the receive error count falls, the tests of R160
are made, and a frame that passes them is delivered. -/
def State.receive (s : State) (odd : Bool) (kind : BitVec 3) (src dst : Address) (length : Nat)
    (deliver : State → State) : State :=
  if !s.receiving then s
  else
    let t := s.setErrors s.link.txErrors (s.link.rxErrors - 1)
    match t.judge odd kind src dst length with
    | .clash => t.clash
    | .foreign => t.countForeign
    | .passedBy => t
    | .delivered => deliver t

/-- The repeat filter (R162): a repeat within the window is discarded, any other frame is delivered and held. -/
def State.filtered (s : State) (a : Fin 15) (bytes : List Byte) (deliver : State → State) : State :=
  if s.filter[a].bytes = some bytes ∧ s.filter[a].window.isSome then s
  else deliver { s with filter := s.filter.set a.val { bytes := some bytes, window := some repeatMs } a.isLt }

/-- A HANDOFF frame: reception, repeat filter, and the tests of R63 on tag and bay; then the handoff agent's own rule,
with the source node and the bay. -/
def State.receiveHandoff (s : State) (message : Byte) (f : HandoffFrame)
    (take : NodeNo → BayNo → State → State) : State :=
  s.receive false kindHandoff f.src f.dst 16 (fun s =>
    match filterOf f.src, nodeOf f.src with
    | some a, some n =>
      s.filtered a (f.bytes message) (fun s =>
        match handoffBay f with
        | some b => take n b s
        | none => s.countForeign)
    | _, _ => s.countForeign)

/-! ## Requests -/

/-- What the block that owns a request answers (R180): refused with a reason and no change of state, or done with the
new state and a payload. -/
inductive Answer where
  | refused (r : Reason)
  | done (s : State) (payload : List Byte)
  deriving DecidableEq, Repr

/-- A REPLY takes the slot of its terminal (R178). -/
def State.placeReply (s : State) (t : TerminalNo) (r : Reply) : State :=
  { s with link := { s.link with replies := s.link.replies.set t.val (some r) t.isLt } }

/-- The REPLY that carries an outcome (R180). -/
def State.replyOf (s : State) (code bay : Byte) (number : BitVec 16) (reason : Option Reason) (payload : List Byte) :
    Reply :=
  { code := code, reason := reason, bay := bay, number := number, role := s.roleCode, payload := payload }

/-- The request unit takes a delivered REQUEST (R179, R180, R182). -/
def State.takeRequest (s : State) (code : Byte) (f : RequestFrame) (t : TerminalNo) (eval : State → Answer) : State :=
  if !s.running then s.countForeign
  else if s.link.replies[t].isSome then
    { s with requests := { s.requests with
      held := s.requests.held.set t.val (some { code := code, bay := f.bay, number := f.number }) t.isLt } }
  else if s.requests.resetPending then s.placeReply t (s.replyOf code f.bay f.number (some .busy) [])
  else
    match eval s with
    | .refused r => s.placeReply t (s.replyOf code f.bay f.number (some r) [])
    | .done u payload => u.placeReply t (u.replyOf code f.bay f.number none payload)

/-- A REQUEST frame: reception, repeat filter, request unit. -/
def State.serve (s : State) (code : Byte) (f : RequestFrame) (eval : State → Answer) : State :=
  s.receive false kindRequest f.src f.dst 16 (fun s =>
    match filterOf f.src, terminalOf f.src with
    | some a, some t => s.filtered a (f.bytes code) (fun s => s.takeRequest code f t eval)
    | _, _ => s.countForeign)

/-- The common checks of a request in bay form, at a BAY node alone (R2). -/
def State.bayForm (s : State) (f : RequestFrame) (k : BayNo → Answer) : Answer :=
  if !s.isBay then .refused .wrongRole
  else if !s.running then .refused .notRunning
  else
    match bayOf f.bay with
    | some b => k b
    | none => .refused .badBay

/-- The common checks of a request in node form, at the roles that take it (R2, R99, R123, R138, R175, R182, R187). -/
def State.nodeForm (s : State) (roleTakes : Bool) (f : RequestFrame) (k : Answer) : Answer :=
  if !roleTakes then .refused .wrongRole
  else if !s.running then .refused .notRunning
  else if f.bay ≠ 15 then .refused .badBay
  else k

/-! ## Relays -/

/-- The relays follow the zone state (R136). -/
def State.driveRelays (s : State) : State :=
  { s with fire := { s.fire with
    fireRelay := decide (s.fire.zone = .fire), preRelay := decide (s.fire.zone = .pre ∨ s.fire.zone = .fire) } }

/-! ## Resets -/

/-- The power-on reset: every state of every block at its initial value (R196). The queue of commands is not the
block's and stays (log entry 26). -/
def State.powerOn (s : State) : State := { State.reset with pending := s.pending }

/-- The queue is kept through a line reset: a FEEDING entry returns to QUEUED, and every wait is set to 0 (R85). -/
def keepQueue (q : List QueueEntry) : List QueueEntry := q.map (fun e => { e with wait := 0, feeding := false })

/-- The start of a line reset (R196): the kept state stays, each record is discarded and counted orphaned (R16), and
everything else takes its value after a line reset, every output its reset level (log entry 6). -/
def State.lineReset (s : State) (cause : ResetCause) : State :=
  { State.reset with
    startup := { Startup.reset with resetting := cause, resetCause := s.startup.resetCause
                                    lineResets := s.startup.lineResets, straps := s.startup.straps }
    headroom := { Headroom.reset with limit := s.ownClass }
    store := s.store
    unaccounted := s.unaccounted
    feed := { Feed.reset with queue := keepQueue s.feed.queue }
    faults := s.faults
    tally := { s.tally with t1 := { s.tally.t1 with
      orphaned := satAdd max32 s.tally.t1.orphaned (s.countBays (fun x => x.record.isSome)) } }
    pending := s.pending }

/-! ## The clock -/

/-- A running timer has one millisecond less to run; one that has run out stands at 0 until its expiry is taken
(log entry 3). -/
def countDown : Timer → Timer
  | none => none
  | some n => some (n - 1)

/-- An age counts up to its last deadline. -/
def countUp (limit : Nat) : Timer → Timer
  | none => none
  | some n => some (min (n + 1) limit)

def Lamp.tick (l : Lamp) : Lamp :=
  match l.pattern with
  | .off => l
  | .steady => l
  | .blink on off => { l with phase := (l.phase + 1) % (on + off) }

def Bay.tick (x : Bay) : Bay :=
  { x with restTimer := countDown x.restTimer, convTimer := countDown x.convTimer, answerTimer := countDown x.answerTimer
           backoff := countDown x.backoff, releaseTimer := countDown x.releaseTimer, transitTimer := countDown x.transitTimer }

/-- One millisecond passes with no event (log entry 2): node time and every running timer move. In a reset the timers
are stopped and node time waits for its end (R196). -/
def State.tick (s : State) : State :=
  if s.startup.life = .inReset then s
  else
    { s.mapBays Bay.tick with
      startup := { s.startup with nodeTime := s.startup.nodeTime + 1, listenTimer := countDown s.startup.listenTimer }
      headroom := { s.headroom with timer := countDown s.headroom.timer }
      handoff := { s.handoff with offerTimer := countDown s.handoff.offerTimer }
      chute := { s.chute with arrivalTimer := countDown s.chute.arrivalTimer }
      feed := { s.feed with startTimer := countDown s.feed.startTimer, stopTimer := countDown s.feed.stopTimer
                            idleTimer := countDown s.feed.idleTimer, feedTimer := countDown s.feed.feedTimer
                            periodTimer := countDown s.feed.periodTimer }
      atmos := { s.atmos with stageTimer := countUp purgeLockoutMs s.atmos.stageTimer
                              sampleTimer := countDown s.atmos.sampleTimer }
      fire := { s.fire with sampleTimer := countDown s.fire.sampleTimer }
      view := { s.view with silenceTimer := countDown s.view.silenceTimer }
      link := { s.link with statusTimer := countDown s.link.statusTimer, tallyTimer := countDown s.link.tallyTimer }
      peers := Vector.ofFn (fun i => { s.peers[i] with age := countUp lostMs s.peers[i].age })
      filter := Vector.ofFn (fun i => { s.filter[i] with window := countDown s.filter[i].window })
      lamps := { bays := Vector.ofFn (fun i => (s.lamps.bays[i]).tick)
                 beacon := s.lamps.beacon.tick, node := s.lamps.node.tick } }

end Sys2Proof.Machine
end

