-- ==== Sys2Proof/Machine/Atmosphere.lean ====
section
/-! DEFINITION. The atmosphere controller (chapter 6): the 1 s sample, the deadlines of a purge, and PURGE_RESET. -/

namespace Sys2Proof.Machine

open Sys2Proof.Config

/-! ## The sample -/

/-- The effective oxygen: the greater of the valid readings (R109). -/
def effectiveOxygen (a b : Option Nat) : Option Nat :=
  match a, b with
  | some x, some y => some (max x y)
  | some x, none => some x
  | none, some y => some y
  | none, none => none

/-- The disagreement count after a sample (R110). -/
def disagreeNext (a b : Option Nat) (count : Nat) : Nat :=
  match a, b with
  | some x, some y => if 100 < (x - y) + (y - x) then min (count + 1) 5 else 0
  | _, _ => 0

/-- A fault record entry when a sensor passes from valid to faulted (R108, R111). -/
def State.enterIfFaulted (s : State) (before now : Bool) (c : FaultCause) (place : Place) : State :=
  if before && !now then s.enterFault c place none else s

/-- Steps 1 and 2 of a sample: readings, validity, effective oxygen and the disagreement count (R107 to R111). -/
def State.readAtmos (s : State) (x : AtmosReading) : State :=
  let a := o2Reading x.o2a
  let b := o2Reading x.o2b
  let p := (pressureReading x.pressure).isSome
  let d := disagreeNext a b s.atmos.disagree
  let t := ((s.enterIfFaulted s.atmos.o2ValidA a.isSome .o2SensorFault (.channel 0)).enterIfFaulted
    s.atmos.o2ValidB b.isSome .o2SensorFault (.channel 1)).enterIfFaulted s.atmos.pressureValid p .pressureFault .none
  let u : State := { t with atmos := { t.atmos with oxygen := effectiveOxygen a b, o2ValidA := a.isSome, o2ValidB := b.isSome
                                                    pressureValid := p, disagree := d, sampleTimer := some slowPeriod } }
  if d = 5 ∧ s.atmos.disagree = 4 then u.raise .sensorDisagree .none none else u

/-- A sample qualifies: both sensors valid and effective oxygen 400 or less (R115). -/
def Atmos.qualifies (a : Atmos) : Bool :=
  a.o2ValidA && a.o2ValidB &&
    match a.oxygen with
    | some x => decide (x ≤ 400)
    | none => false

/-- The qualification test of PURGING (R115). -/
def State.qualify (s : State) : State :=
  let q := if s.atmos.qualifies then s.atmos.qualify + 1 else 0
  let t : State := { s with atmos := { s.atmos with qualify := q } }
  if 30 ≤ q then t.enterInert else t

/-- The first loss condition that holds at a sample in INERT, with the low-pressure count just advanced (R120). -/
def Atmos.lossCause (a : Atmos) : Option FaultCause :=
  match a.oxygen with
  | none => some .atmosSensorsLost
  | some x => if 500 < x then some .atmosO2High else if 10 ≤ a.lowPressure then some .atmosPressureLow else none

/-- INERT is lost (R120): PURGING with the loss flag, ATMOS_LOST, and the permissive is lost. -/
def State.loseInert (s : State) (c : FaultCause) : State :=
  (((s.enterPurging true).raise .atmosLost .none none).enterFault c .none none).onT5
    (fun t => { t with atmosLost := bump t.atmosLost }) |>.losePermissive

/-- The purge valve in INERT (R118). -/
def valveNext (oxygen : Option Nat) (purge : Bool) : Bool :=
  match oxygen with
  | some x => if 300 < x then true else if x ≤ 200 then false else purge
  | none => purge

/-- The tests of INERT: the low-pressure count (R111), the loss conditions (R120), then regulation (R118). -/
def State.holdInert (s : State) (low : Bool) : State :=
  let t : State := { s with atmos := { s.atmos with lowPressure := if low then min (s.atmos.lowPressure + 1) 10 else 0 } }
  match t.atmos.lossCause with
  | some c => t.loseInert c
  | none => { t with atmos := { t.atmos with purge := valveNext t.atmos.oxygen t.atmos.purge } }

/-- One atmosphere sample (R107). -/
def State.sampleAtmos (s : State) (x : AtmosReading) : State :=
  let t := s.readAtmos x
  match t.atmos.state with
  | .purging => t.qualify
  | .inert => t.holdInert (pressureLow x.pressure)
  | .air => t
  | .flood => t
  | .lockout => t

/-- ATMOS_SAMPLE: made while the sample timer runs, at a SHRED node (R107). -/
def execAtmosSample (x : AtmosReading) (s : State) : Host.Outcome State Fault Refusal :=
  .next (if s.atmos.sampleTimer.isSome then s.sampleAtmos x else s)

/-! ## Deadlines -/

/-- PURGE_SLOW_DEADLINE: the stage timer passes 600 s (R116). It passes it once in a PURGING. -/
def execPurgeSlowDeadline (s : State) : Host.Outcome State Fault Refusal :=
  .next (if s.atmos.stageTimer.isSome && !s.atmos.slow then
    ({ s with atmos := { s.atmos with slow := true } }).raise .purgeSlow .none none
    else s)

/-- PURGE_LOCKOUT_DEADLINE: the stage timer reaches 1,200 s (R116). -/
def execPurgeLockoutDeadline (s : State) : Host.Outcome State Fault Refusal :=
  .next (if s.atmos.stageTimer.isSome then
    (s.enterLockout.raise .purgeLockout .none none).enterFault .purgeLockout .none none
    else s)

/-! ## Request -/

/-- PURGE_RESET (R123). -/
def evalPurgeReset (f : RequestFrame) (s : State) : Answer :=
  s.nodeForm s.isShred f
    (if s.atmos.state = .lockout then
      .done (s.enterPurging false) (AtmosState.code .purging :: leBytes 2 (orAbsent16 s.atmos.oxygen))
     else .refused .notClear)

/-- PURGE_RESET -/
def execPurgeReset (f : RequestFrame) (s : State) : Host.Outcome State Fault Refusal :=
  .next (s.serve 8 f (evalPurgeReset f))

end Sys2Proof.Machine
end

