-- ==== Sys2Proof/Machine/HandoffAgent.lean ====
section
/-! DEFINITION. The handoff agent (chapter 4): offers and their answers, release, transit and settle at a BAY node; the
chute reservation and the arrival at a SHRED node. -/

namespace Sys2Proof.Machine

open Sys2Proof.Config

/-! ## Offering -/

/-- The bay's own part of eligibility: SAFE, backoff stopped, not fire_exposed (R65). -/
def Bay.offerable (x : Bay) : Bool :=
  match x.slot with
  | .pack .safe r => x.backoff.isNone && !r.fireExposed
  | _ => false

/-- The lowest-numbered bay that meets a test. -/
def State.lowestBay (s : State) (p : Bay → Bool) : Option BayNo :=
  ([0, 1, 2, 3] : List BayNo).find? (fun b => p (s.bay b))

/-- The lowest-numbered peer that meets a test. -/
def State.lowestPeer (s : State) (p : Peer → Bool) : Option NodeNo :=
  ([0, 1, 2, 3, 4, 5, 6, 7, 8, 9, 10, 11] : List NodeNo).find? (fun n => p s.peers[n])

/-- The node's own part of eligibility (R65). -/
def State.mayOffer (s : State) : Bool :=
  s.lineClear && decide (s.countBays Slot.isOffered = 0) && decide (s.transfers < 4)

/-- The offer of a bay to a node (R66). -/
def State.offer (s : State) (b : BayNo) (n : NodeNo) (r : Record) : State :=
  let x := (s.bay b).enter (.offered n) { r with offers := satAdd 255 r.offers 1 }
  ((s.setBay b { x with answerTimer := some answerMs }).placeHandoff
    { dst := n, message := .offer, bay := b, s := r.s, reason := none, tag := r.tag, energy := r.e
      restV := r.reboundV.getD 0 }).onT3 (fun t => { t with offers := bump t.offers })

/-- The offer check (R65). -/
def State.checkOffers (s : State) : State :=
  if !s.mayOffer then s
  else
    match s.lowestBay Bay.offerable, s.lowestPeer Peer.acceptingShred with
    | some b, some n =>
      match (s.bay b).slot with
      | .pack _ r => (s.offer b n r).light
      | _ => s
    | _, _ => s

/-- OFFER_CHECK: made while the offer period timer runs (R64, R65). -/
def execOfferCheck (s : State) : Host.Outcome State Fault Refusal :=
  .next (if s.handoff.offerTimer.isSome then
    ({ s with handoff := { s.handoff with offerTimer := some fastPeriod } }).checkOffers else s)

/-- The answer timer of an OFFERED bay expires (R67). -/
def State.answerExpires (s : State) (b : BayNo) : State :=
  match (s.bay b).slot with
  | .pack (.offered _) r => (s.setBay b ((s.bay b).backToSafe r)).light
  | _ => s.setBay b { s.bay b with answerTimer := none }

/-- ANSWER_TIMER_EXPIRY -/
def execAnswerTimerExpiry (b : BayNo) (s : State) : Host.Outcome State Fault Refusal :=
  .next (if (s.bay b).answerTimer.isSome then s.answerExpires b else s)

/-- OFFER_BACKOFF_EXPIRY: the backoff is stopped (R64). -/
def execOfferBackoffExpiry (b : BayNo) (s : State) : Host.Outcome State Fault Refusal :=
  .next (s.setBay b { s.bay b with backoff := none })

/-! ## Release and transit -/

/-- A release has jammed (R69). -/
def State.jam (s : State) (b : BayNo) (n : NodeNo) (r : Record) : State :=
  ((((s.setBay b { (s.bay b).backToSafe r with jammed := true }).placeHandoff (plainHandoff .withdraw n r.tag b)).raise
    .jam (.bay b.val) (some r.tag))).onT3 (fun t => { t with jams := bump t.jams })

/-- A release with settle_early ends by its timer: the pack is settled and SENSOR_STUCK is raised (R72). -/
def State.stick (s : State) (b : BayNo) (r : Record) : State :=
  let t := s.settle b
  (t.setBay b { t.bay b with stuck := true }).raise .sensorStuck (.bay b.val) (some r.tag)

/-- The release timer of a RELEASING bay expires (R69, R72). -/
def State.releaseExpires (s : State) (b : BayNo) : State :=
  match (s.bay b).slot with
  | .pack (.releasing n) r => (if r.settleEarly then s.stick b r else s.jam b n r).light
  | _ => s.setBay b { s.bay b with releaseTimer := none }

/-- RELEASE_TIMER_EXPIRY -/
def execReleaseTimerExpiry (b : BayNo) (s : State) : Host.Outcome State Fault Refusal :=
  .next (if (s.bay b).releaseTimer.isSome then s.releaseExpires b else s)

/-- A pack is not confirmed in time: it moves to the unaccounted list (R70). -/
def State.loseTransit (s : State) (b : BayNo) (n : NodeNo) (r : Record) : State :=
  let e : UnaccountedEntry := { tag := r.tag, bay := b, shred := n, time := s.startup.nodeTime }
  let t := ({ s.setBay b (s.bay b).vacate with unaccounted := s.unaccounted ++ [e] }).onT3
    (fun t => { t with transitLost := bump t.transitLost })
  if s.unaccounted.isEmpty then t.raise .transitLost (.bay b.val) (some r.tag) else t

/-- The transit timer of an IN_TRANSIT bay expires (R70). -/
def State.transitExpires (s : State) (b : BayNo) : State :=
  match (s.bay b).slot with
  | .pack (.inTransit n) r => (s.loseTransit b n r).light
  | _ => s.setBay b { s.bay b with transitTimer := none }

/-- TRANSIT_TIMER_EXPIRY -/
def execTransitTimerExpiry (b : BayNo) (s : State) : Host.Outcome State Fault Refusal :=
  .next (if (s.bay b).transitTimer.isSome then s.transitExpires b else s)

/-! ## Frames at the bay side -/

/-- The gate opens for a bay whose offer was taken (R68). -/
def State.release (s : State) (b : BayNo) (n : NodeNo) (r : Record) : State :=
  s.setBay b { (s.bay b).enter (.releasing n) r with releaseTimer := some releaseMs, gate := true }

/-- A TAKE delivered to the handoff agent (R63, R68, R73). -/
def State.takeTaken (f : HandoffFrame) (n : NodeNo) (b : BayNo) (s : State) : State :=
  if !s.isBay || !s.running then s.countForeign
  else
    let answered := s.placeHandoff (plainHandoff .withdraw n f.tag b)
    match (s.bay b).slot with
    | .pack (.offered m) r =>
      if m = n ∧ r.tag = f.tag then
        if s.lineClear && !r.fireExposed then (s.release b n r).light
        else ((s.setBay b ((s.bay b).backToSafe r)).placeHandoff (plainHandoff .withdraw n f.tag b)).light
      else answered
    | _ => answered

/-- TAKE_RECEIVED -/
def execTakeReceived (f : HandoffFrame) (s : State) : Host.Outcome State Fault Refusal :=
  .next (s.receiveHandoff 1 f (State.takeTaken f))

/-- A DECLINE delivered to the handoff agent (R63, R67, R73). -/
def State.takeDecline (f : HandoffFrame) (n : NodeNo) (b : BayNo) (s : State) : State :=
  if !s.isBay || !s.running then s.countForeign
  else
    match (s.bay b).slot with
    | .pack (.offered m) r =>
      if m = n ∧ r.tag = f.tag then
        ((s.setBay b ((s.bay b).backToSafe r)).onT3 (fun t => { t with declines := bump t.declines })).light
      else s.countForeign
    | _ => s.countForeign

/-- DECLINE_RECEIVED -/
def execDeclineReceived (f : HandoffFrame) (s : State) : Host.Outcome State Fault Refusal :=
  .next (s.receiveHandoff 2 f (State.takeDecline f))

/-- The bay in IN_TRANSIT that carries the tag and whose target node is the source (R71). -/
def Bay.settles (x : Bay) (tag : Tag) (n : NodeNo) : Bool :=
  match x.slot with
  | .pack (.inTransit m) r => decide (m = n ∧ r.tag = tag)
  | _ => false

/-- The bay in RELEASING, not yet settled, that carries the tag and whose target node is the source (R71). -/
def Bay.settlesEarly (x : Bay) (tag : Tag) (n : NodeNo) : Bool :=
  match x.slot with
  | .pack (.releasing m) r => decide (m = n ∧ r.tag = tag) && !r.settleEarly
  | _ => false

/-- A late settle: the unaccounted entry is removed (R71). -/
def State.settleLate (s : State) (k : Nat) : State :=
  (({ s with unaccounted := s.unaccounted.eraseIdx k }).onT1 (fun t => { t with settled := bump t.settled })).onT3
    (fun t => { t with lateSettles := bump t.lateSettles })

/-- An early settle: settle_early is set and the gate closes (R71, R72). -/
def Bay.settleEarly (x : Bay) : Bay :=
  match x.slot with
  | .pack st r => { x with slot := .pack st { r with settleEarly := true }, gate := false }
  | _ => x

/-- A SETTLE delivered to the handoff agent: taken in RUNNING and SAFE-STOP by where its tag stands (R71, R73). -/
def State.takeSettle (f : HandoffFrame) (n : NodeNo) (_b : BayNo) (s : State) : State :=
  if !s.isBay || decide (s.startup.life = .listen) then s.countForeign
  else
    match s.lowestBay (fun x => x.settles f.tag n) with
    | some k => (s.settle k).light
    | none =>
      match s.unaccounted.findIdx? (fun e => decide (e.tag = f.tag ∧ e.shred = n)) with
      | some k => s.settleLate k
      | none =>
        match s.lowestBay (fun x => x.settlesEarly f.tag n) with
        | some k => s.setBay k (s.bay k).settleEarly
        | none => s.countForeign

/-- SETTLE_RECEIVED -/
def execSettleReceived (f : HandoffFrame) (s : State) : Host.Outcome State Fault Refusal :=
  .next (s.receiveHandoff 4 f (State.takeSettle f))

/-! ## The shred side -/

/-- The tag stands in the queue or the reservation (R75, condition 7). -/
def State.queued (s : State) (tag : Tag) : Bool := decide (tag ∈ s.shredTags)

/-- The first failing condition of R75, in its order. -/
def State.declineReason (s : State) (f : HandoffFrame) (n : NodeNo) : Option DeclineReason :=
  if s.view.silent then some .notReady
  else if s.atmos.state ≠ .inert then some .notInert
  else if s.view.lineFire then some .lineFire
  else if s.feed.hold.isSet then some .notReady
  else if s.chute.reservation.isSome then some .chuteBusy
  else if intakeBound ≤ s.intake then some .queueFull
  else if s.queued f.tag then some .duplicate
  else if (s.peers[n]).state ≠ .present then some .notReady
  else none

/-- An OFFER is taken: the reservation is made and a TAKE is placed (R76). -/
def State.reserve (s : State) (f : HandoffFrame) (n : NodeNo) (b : BayNo) : State :=
  let e : Offered := { tag := f.tag, source := n, bay := b, s := f.s.toNat, energy := f.energy.toNat, restV := f.restV.toNat }
  ({ s with chute := { s.chute with reservation := some e, arrivalTimer := some arrivalMs, conveyor := true } }).refreshIdle.placeHandoff
    (plainHandoff .take n f.tag b)

/-- An OFFER delivered to the handoff agent (R63, R75, R76). -/
def State.takeOffer (f : HandoffFrame) (n : NodeNo) (b : BayNo) (s : State) : State :=
  if !s.isShred || !s.running then s.countForeign
  else if f.s.toNat < 1 ∨ 32 < f.s.toNat then s.countForeign
  else
    match s.declineReason f n with
    | some r => s.placeHandoff { plainHandoff .decline n f.tag b with reason := some r }
    | none => s.reserve f n b

/-- OFFER_RECEIVED -/
def execOfferReceived (f : HandoffFrame) (s : State) : Host.Outcome State Fault Refusal :=
  .next (s.receiveHandoff 0 f (State.takeOffer f))

/-- The reservation is the one that tag and source name (R78). -/
def State.reservedFor (s : State) (tag : Tag) (n : NodeNo) : Bool :=
  match s.chute.reservation with
  | some e => decide (e.tag = tag ∧ e.source = n)
  | none => false

/-- A WITHDRAW delivered to the handoff agent (R63, R78, R79). -/
def State.takeWithdraw (f : HandoffFrame) (n : NodeNo) (_b : BayNo) (s : State) : State :=
  if s.isShred && s.running && s.reservedFor f.tag n then s.dropReservation else s.countForeign

/-- WITHDRAW_RECEIVED -/
def execWithdrawReceived (f : HandoffFrame) (s : State) : Host.Outcome State Fault Refusal :=
  .next (s.receiveHandoff 3 f (State.takeWithdraw f))

/-- The arrival of the reserved pack: it joins the queue's tail, a SETTLE is placed and settled_from rises (R77, R83). -/
def State.arrive (s : State) (e : Offered) : State :=
  let t : State := { s with
    chute := { s.chute with reservation := none, arrivalTimer := none, conveyor := false }
    feed := { s.feed with queue := s.feed.queue ++ [QueueEntry.mk e 0 false] } }
  (t.refreshIdle.placeHandoff (plainHandoff .settle e.source e.tag e.bay)).onT4 (fun t =>
    { t with settledFrom := t.settledFrom.set e.source.val (bump t.settledFrom[e.source]) e.source.isLt })

/-- An arrival without a reservation (R77, R88). -/
def State.stray (s : State) : State :=
  (s.onT4 (fun t => { t with strays := bump t.strays })).addReason .stray .stray .none none

/-- The chute arrival sensor passes from clear to set (R77). -/
def State.arrival (s : State) : State :=
  let t : State := { s with chute := { s.chute with sensor := true } }
  match s.chute.reservation with
  | some e => t.arrive e
  | none => t.stray

/-- The node has the shredder's sensors and takes their events (R77, R104). -/
def State.shredAwake (s : State) : Bool := s.isShred && s.awake

/-- CHUTE_ARRIVAL: an event where the sensor was clear (log entry 4). -/
def execChuteArrival (s : State) : Host.Outcome State Fault Refusal :=
  .next (if s.shredAwake && !s.chute.sensor then s.arrival else s)

/-- CHUTE_ARRIVAL_SENSOR_CLEAR: a further arrival can be seen (R77). -/
def execChuteArrivalSensorClear (s : State) : Host.Outcome State Fault Refusal :=
  .next (if s.shredAwake then { s with chute := { s.chute with sensor := false } } else s)

/-- ARRIVAL_TIMER_EXPIRY: the reservation is dropped and arrival_missed rises (R78). -/
def execArrivalTimerExpiry (s : State) : Host.Outcome State Fault Refusal :=
  .next (if s.chute.arrivalTimer.isSome then
    s.dropReservation.onT4 (fun t => { t with arrivalMissed := bump t.arrivalMissed }) else s)

/-! ## Reconciliation -/

/-- The count of consecutive differing comparisons after one more (R80). -/
def differencesNext (equal : Bool) (count : Nat) : Nat := if equal then 0 else min (count + 1) 2

/-- A TALLY with T4 from a peer is compared with the own settled tally (R80). -/
def State.reconcile (s : State) (f : TallyFrame) (own n : NodeNo) : State :=
  let d := differencesNext (decide (tallySettledFrom f own = s.tally.t1.settled)) s.handoff.differences
  let t : State := { s with handoff := { s.handoff with differences := d } }
  if d = 2 ∧ s.handoff.differences = 1 then t.raise .reconcile (.node n.val) none else t

/-- A delivered TALLY: compared at a BAY node when it carries T4, discarded otherwise (R80, R161). -/
def State.takeTally (src : Address) (f : TallyFrame) (s : State) : State :=
  if s.isBay && decide (f.record = 4) then
    match nodeOf s.startup.straps.node, nodeOf src with
    | some own, some n => s.reconcile f own n
    | _, _ => s
  else s

/-- A TALLY frame as received. -/
def State.receiveTally (src dst : Address) (f : TallyFrame) (s : State) : State :=
  s.receive false kindTally src dst 64 (State.takeTally src f)

/-- TALLY_RECEIVED -/
def execTallyReceived (src dst : Address) (f : TallyFrame) (s : State) : Host.Outcome State Fault Refusal :=
  .next (s.receiveTally src dst f)

end Sys2Proof.Machine
end

