-- ==== Sys2Proof/Machine/FeedControl.lean ====
section
/-! DEFINITION. The feed controller (chapter 5): the feed period with its start check and feed start check, the rotor's
feedback and timers, the feed-confirm sensor, FLUSH and SHRED_RESET. -/

namespace Sys2Proof.Machine

open Sys2Proof.Config

/-! ## The feed period -/

/-- The waits advance by 100 ms, up to 120,000 (R83). -/
def advanceWaits (q : List QueueEntry) : List QueueEntry := q.map (fun e => { e with wait := min (e.wait + 100) waitMs })

/-- The flush conditions in the order of R90. -/
inductive Flush where
  | watermark | age | idleLine | request
  deriving DecidableEq, Repr

/-- The head has waited to the age limit (R90, condition 2). -/
def headAged (q : List QueueEntry) : Bool :=
  match q with
  | e :: _ => decide (waitMs ≤ e.wait)
  | [] => false

/-- The chute is free and no heard BAY peer has a releasable pack (R90, condition 3). -/
def State.idleLine (s : State) : Bool := s.chute.reservation.isNone && !s.peers.toList.any Peer.hasReleasable

/-- The first flush condition that holds (R90). -/
def State.flushCause (s : State) : Option Flush :=
  if s.profile.batchWatermark ≤ s.feed.queue.length then some .watermark
  else if headAged s.feed.queue then some .age
  else if s.idleLine then some .idleLine
  else if s.feed.flush then some .request
  else none

/-- The flush tally of the counted condition (R90). -/
def Tally4.countFlush (t : Tally4) : Flush → Tally4
  | .watermark => { t with byWatermark := bump t.byWatermark }
  | .age => { t with byAge := bump t.byAge }
  | .idleLine => { t with byIdleLine := bump t.byIdleLine }
  | .request => { t with byRequest := bump t.byRequest }

/-- The rotor starts (R90). -/
def State.startRotor (s : State) (c : Flush) : State :=
  ({ s with feed := { s.feed with run := true, startTimer := some startMs, rotor := .starting, flush := false } }).onT4
    (fun t => { t with rotorStarts := bump t.rotorStarts }.countFlush c)

/-- The requirements of a start other than the flush condition (R90). -/
def State.mayStart (s : State) : Bool :=
  decide (s.feed.rotor = .stopped) && s.permissive && !s.fire.impaired && !s.feed.feedback && !s.feed.queue.isEmpty

/-- The start check (R90). -/
def State.checkStart (s : State) : State :=
  if !s.mayStart then s
  else
    match s.flushCause with
    | some c => s.startRotor c
    | none => s

/-- The requirements of a feed other than the head test (R94). -/
def State.mayFeed (s : State) : Bool :=
  decide (s.feed.rotor = .running) && s.permissive && decide (s.feed.kind = .none) && !s.feed.confirm

/-- The feed start check, with the head test on the node's own rebound limit (R94). -/
def State.checkFeed (s : State) : State :=
  if !s.mayFeed then s
  else
    match s.feed.queue with
    | [] => s
    | e :: _ =>
      if e.pack.restV ≤ e.pack.s * s.profile.reboundLimit then
        { s with feed := { s.feed with gate := true, queue := feedHead s.feed.queue, kind := .active
                                       feedTimer := some feedMs } }
      else s.addReason .feed .reboundHigh (.bay e.pack.bay.val) (some e.pack.tag)

/-- FEED_PERIOD_EXPIRY: the waits advance, then the start check and the feed start check are made (R83). -/
def execFeedPeriodExpiry (s : State) : Host.Outcome State Fault Refusal :=
  .next (if s.feed.periodTimer.isSome then
    ({ s with feed := { s.feed with queue := advanceWaits s.feed.queue
                                    periodTimer := some fastPeriod } }).checkStart.checkFeed
    else s)

/-! ## The rotor -/

/-- The feedback passes from off to on (R91, R93). -/
def State.feedbackRises (s : State) : State :=
  let t : State := { s with feed := { s.feed with feedback := true } }
  match s.feed.rotor with
  | .starting => ({ t with feed := { t.feed with rotor := .running, startTimer := none } }).refreshIdle
  | .stopped => t.addReason .rotor .rotorUncommanded .none none
  | .running => t
  | .stopping => t

/-- ROTOR_FEEDBACK_ON: an event where the feedback was off (log entry 4). -/
def execRotorFeedbackOn (s : State) : Host.Outcome State Fault Refusal :=
  .next (if s.shredAwake && !s.feed.feedback then s.feedbackRises else s)

/-- The rotor has stalled: an ACTIVE feed is abandoned and the rotor is STOPPED (R92). -/
def Feed.stall (f : Feed) : Feed := { f.abandon with run := false, rotor := .stopped, idleTimer := none }

/-- The feedback passes from on to off (R92, R93). -/
def State.feedbackFalls (s : State) : State :=
  let t : State := { s with feed := { s.feed with feedback := false } }
  match s.feed.rotor with
  | .running => ({ t with feed := t.feed.stall }).addReason .rotor .rotorStall .none none
  | .stopping => { t with feed := { t.feed with rotor := .stopped, stopTimer := none } }
  | .stopped => t
  | .starting => t

/-- ROTOR_FEEDBACK_OFF: an event where the feedback was on (log entry 4). -/
def execRotorFeedbackOff (s : State) : Host.Outcome State Fault Refusal :=
  .next (if s.shredAwake && s.feed.feedback then s.feedbackFalls else s)

/-- START_TIMER_EXPIRY: the rotor has failed to start (R91). -/
def execStartTimerExpiry (s : State) : Host.Outcome State Fault Refusal :=
  .next (if s.feed.startTimer.isSome then
    ({ s with feed := { s.feed with run := false, startTimer := none, rotor := .stopped } }).addReason
      .rotor .rotorStart .none none
    else s)

/-- STOP_TIMER_EXPIRY: the rotor has not stopped (R93). -/
def execStopTimerExpiry (s : State) : Host.Outcome State Fault Refusal :=
  .next (if s.feed.stopTimer.isSome then
    ({ s with feed := { s.feed with run := false, stopTimer := none, rotor := .stopped } }).addReason
      .rotor .rotorStop .none none
    else s)

/-- IDLE_TIMER_EXPIRY: the rotor enters STOPPING (R92). -/
def execIdleTimerExpiry (s : State) : Host.Outcome State Fault Refusal :=
  .next (if s.feed.idleTimer.isSome then { s with feed := s.feed.enterStopping } else s)

/-! ## Feeding -/

/-- The feed of the head is confirmed (R95). -/
def State.confirmFeed (s : State) : State :=
  let t : State := { s with feed := { s.feed with feedTimer := none, gate := false, kind := .none } }
  match s.feed.queue with
  | [] => t
  | e :: _ =>
    t.removeHead.onT4 (fun t => { t with shredded := bump t.shredded
                                         shreddedEnergy := satAdd max64 t.shreddedEnergy e.pack.energy })

/-- The feed-confirm sensor passes from clear to set (R95, R98). -/
def State.confirmRises (s : State) : State :=
  let t : State := { s with feed := { s.feed with confirm := true } }
  match s.feed.kind with
  | .none => t.addReason .feed .feedUnexpected .none none
  | .active => t.confirmFeed
  | .abandoned => t.confirmFeed

/-- FEED_CONFIRM_SET: an event where the sensor was clear (log entry 4). -/
def execFeedConfirmSet (s : State) : Host.Outcome State Fault Refusal :=
  .next (if s.shredAwake && !s.feed.confirm then s.confirmRises else s)

/-- FEED_CONFIRM_CLEAR: read by the feed start check and by SHRED_RESET (R98). -/
def execFeedConfirmClear (s : State) : Host.Outcome State Fault Refusal :=
  .next (if s.shredAwake then { s with feed := { s.feed with confirm := false } } else s)

/-- The end of a feed without a confirmation: the head returns to QUEUED (R96, R97). -/
def Feed.giveUp (f : Feed) : Feed :=
  { f with gate := false, queue := requeueHead f.queue, kind := .none, feedTimer := none }

/-- The place and tag of the head entry (R88). -/
def headPlace (q : List QueueEntry) : Place × Option Tag :=
  match q with
  | e :: _ => (.bay e.pack.bay.val, some e.pack.tag)
  | [] => (.none, none)

/-- The feed timer expires: an ACTIVE feed has failed, an ABANDONED one ends (R96, R97). -/
def State.feedExpires (s : State) : State :=
  let t : State := { s with feed := s.feed.giveUp }
  match s.feed.kind with
  | .active => t.addReason .feed .feedTimeout (headPlace s.feed.queue).1 (headPlace s.feed.queue).2
  | .abandoned => t
  | .none => t

/-- FEED_TIMER_EXPIRY -/
def execFeedTimerExpiry (s : State) : Host.Outcome State Fault Refusal :=
  .next (if s.feed.feedTimer.isSome then s.feedExpires else s)

/-! ## Requests -/

/-- FLUSH (R99, R100). -/
def evalFlush (f : RequestFrame) (s : State) : Answer :=
  s.nodeForm s.isShred f
    (if s.feed.queue = [] then .refused .notClear
     else .done { s with feed := { s.feed with flush := true } } [s.feed.rotor.code, byteOf s.feed.queue.length])

/-- FLUSH -/
def execFlush (f : RequestFrame) (s : State) : Host.Outcome State Fault Refusal := .next (s.serve 9 f (evalFlush f))

/-- The feed hold reasons are emptied (R102). -/
def State.clearHold (s : State) : State := { s with feed := { s.feed with hold := HoldSet.none } }

/-- SHRED_RESET: the conditions of R101 in their order, then R102. -/
def evalShredReset (f : RequestFrame) (s : State) : Answer :=
  s.nodeForm s.isShred f
    (if 1 < f.headAction.toNat then .refused .badField
     else if s.feed.rotor ≠ .stopped ∨ s.feed.feedback then .refused .notClear
     else if s.feed.kind ≠ .none then .refused .notClear
     else if s.feed.confirm then .refused .notClear
     else if s.chute.sensor then .refused .notClear
     else if f.headAction = 0 then .done s.clearHold [byteOf s.feed.queue.length]
     else if s.feed.queue = [] then .refused .notFound
     else .done (s.removeHead.clearHold.onT4 (fun t => { t with headsRemoved := bump t.headsRemoved }))
       [byteOf (s.feed.queue.length - 1)])

/-- SHRED_RESET -/
def execShredReset (f : RequestFrame) (s : State) : Host.Outcome State Fault Refusal :=
  .next (s.serve 10 f (evalShredReset f))

end Sys2Proof.Machine
end

