-- ==== Sys2Proof/Machine/Pack.lean ====
section
/-! DEFINITION. The pack table (chapter 1): ADMIT, ABORT, QUARANTINE_IN, QUARANTINE_OUT, ACCOUNT_CLEAR, and the
presence step of a conversion. -/

namespace Sys2Proof.Machine

open Sys2Proof.Config

/-! ## Bay overheat -/

/-- BAY_OVERHEAT is raised at the onset of its condition, with the bay and tag of the record that made it (R47). -/
def State.raiseHeat (s : State) (before : Bool) (b : BayNo) : State :=
  if !before && s.condition .bayOverheat then
    s.raise .bayOverheat (.bay b.val) ((s.bay b).slot.record.map Record.tag)
  else s

/-! ## Admission -/

/-- The bound on V of R5, condition 5. -/
def admitBound (nominal s : Nat) : Nat := s * nominal * 5 / 4

/-- The record that ADMIT creates (R6). -/
def admittedRecord (f : RequestFrame) (b : BayNo) (minutes v : Nat) (x : Bay) (now : NodeTime) : Record :=
  let t := x.latest.t.getD (-40)
  { tag := f.tag, bay := b, s := f.s.toNat
    capacity := if f.capacity = 0 then none else some f.capacity.toNat
    timeLimit := minutes, admittedAt := now, readmitted := decide (x.slot = .orphan), fireExposed := false, round := 1
    q := 0, e := 0, eRem := 0, setpoint := 0, lastV := v, lastI := x.latest.i.getD 0, lastT := t, peakT := t
    dischargeMs := 0, restStartV := none, reboundV := none, endCause := none, settleEarly := false, offers := 0 }

/-- The effect of an accepted ADMIT (R6, R47). -/
def State.admitPack (s : State) (f : RequestFrame) (b : BayNo) (minutes v : Nat) : State :=
  let x := s.bay b
  let t := (s.setBay b (x.enter .admitted (admittedRecord f b minutes v x s.startup.nodeTime))).onT1 (fun t =>
    { t with admitted := bump t.admitted
             readmitted := if x.slot = .orphan then bump t.readmitted else t.readmitted })
  (t.raiseHeat (s.condition .bayOverheat) b).light

/-- ADMIT: the conditions of R5 in their order, then R6. -/
def evalAdmit (f : RequestFrame) (s : State) : Answer :=
  s.bayForm f (fun b =>
    if !(s.bay b).slot.free then .refused .bayOccupied
    else if !(s.bay b).latest.presence then .refused .bayState
    else if f.tag = 0 ∨ f.tag ∈ s.bayTags then .refused .duplicateTag
    else if f.s.toNat < 1 ∨ 32 < f.s.toNat ∨ 2000 < f.capacity.toNat then .refused .badField
    else
      match timeLimitOf s.profile f.timeCode.toNat with
      | none => .refused .badField
      | some minutes =>
        match (s.bay b).latest.v with
        | none => .refused .cellsMismatch
        | some v =>
          if admitBound s.profile.nominalCell f.s.toNat < v then .refused .cellsMismatch
          else if s.fire.zone = .fire ∨ s.fire.impaired then .refused .zoneImpaired
          else if s.view.lineFire then .refused .lineStop
          else if !s.hasRoom then .refused .quarantineFull
          else .done (s.admitPack f b minutes v) (leBytes 2 minutes))

/-- ADMIT -/
def execAdmit (f : RequestFrame) (s : State) : Host.Outcome State Fault Refusal := .next (s.serve 1 f (evalAdmit f))

/-! ## Abort -/

/-- ABORT (R7). -/
def evalAbort (f : RequestFrame) (s : State) : Answer :=
  s.bayForm f (fun b =>
    match (s.bay b).slot with
    | .empty => .refused .bayState
    | .orphan => .refused .bayState
    | .pack st r =>
      match st with
      | .admitted | .discharging | .held _ | .resting | .safe => .done (s.reject b r .abort).light []
      | .offered n => .done ((s.reject b r .abort).placeHandoff (plainHandoff .withdraw n r.tag b)).light []
      | .releasing _ | .inTransit _ | .rejected | .missing => .refused .bayState)

/-- ABORT -/
def execAbort (f : RequestFrame) (s : State) : Host.Outcome State Fault Refusal := .next (s.serve 2 f (evalAbort f))

/-! ## Quarantine -/

/-- An entry is appended to the store and the bay becomes EMPTY; reaching the capacity raises QUARANTINE_FULL
(R10, R11). -/
def State.quarantine (s : State) (b : BayNo) (tag : Option Tag) (reason : QuarantineReason) : State :=
  let e : QuarantineEntry := { tag := tag, bay := b, reason := reason, time := s.startup.nodeTime }
  let t : State := { s.setBay b (s.bay b).vacate with store := s.store ++ [e] }
  if t.store.length = t.capacity then t.raise .quarantineFull .none none else t

/-- QUARANTINE_IN (R10). A REJECTED record always has an end cause (R3). -/
def evalQuarantineIn (f : RequestFrame) (s : State) : Answer :=
  s.bayForm f (fun b =>
    match (s.bay b).slot with
    | .pack .rejected r =>
      if (s.bay b).latest.presence then .refused .notClear
      else .done ((s.quarantine b (some r.tag) (.ended (r.endCause.getD .abort))).onT1
        (fun t => { t with quarantined := bump t.quarantined })).light []
    | .orphan =>
      if (s.bay b).latest.presence then .refused .notClear
      else if !s.hasRoom then .refused .quarantineFull
      else .done ((s.quarantine b none .orphan).onT1
        (fun t => { t with quarantinedOrphans := bump t.quarantinedOrphans })).light []
    | _ => .refused .bayState)

/-- QUARANTINE_IN -/
def execQuarantineIn (f : RequestFrame) (s : State) : Host.Outcome State Fault Refusal :=
  .next (s.serve 4 f (evalQuarantineIn f))

/-- The entry that a QUARANTINE_OUT removes: the one with the tag, or with tag 0 the orphan entry at the index (R12). -/
def outIndex (store : List QuarantineEntry) (tag : Tag) (index : Nat) : Option Nat :=
  if tag ≠ 0 then store.findIdx? (fun e => decide (e.tag = some tag))
  else
    match store[index]? with
    | some e => if e.tag = none then some index else none
    | none => none

/-- QUARANTINE_OUT (R12). -/
def evalQuarantineOut (f : RequestFrame) (s : State) : Answer :=
  s.nodeForm s.isBay f
    (match outIndex s.store f.tag f.index.toNat with
      | some k => .done { s with store := s.store.eraseIdx k } []
      | none => .refused .notFound)

/-- QUARANTINE_OUT -/
def execQuarantineOut (f : RequestFrame) (s : State) : Host.Outcome State Fault Refusal :=
  .next (s.serve 5 f (evalQuarantineOut f))

/-! ## Writing off -/

/-- The written_off tally rises by 1 (R14). -/
def State.writeOff (s : State) : State := s.onT1 (fun t => { t with writtenOff := bump t.writtenOff })

/-- ACCOUNT_CLEAR, bay form (R14). -/
def clearBay (b : BayNo) (s : State) : Answer :=
  match (s.bay b).slot with
  | .pack .missing _ => .done ((s.setBay b (s.bay b).vacate).writeOff).light []
  | _ => .refused .bayState

/-- ACCOUNT_CLEAR, node form (R14). -/
def clearTag (tag : Tag) (s : State) : Answer :=
  if tag = 0 then .refused .badField
  else
    match s.unaccounted.findIdx? (fun e => decide (e.tag = tag)) with
    | some k => .done ({ s with unaccounted := s.unaccounted.eraseIdx k }).writeOff []
    | none => .refused .notFound

/-- ACCOUNT_CLEAR: the bay field tells the two forms apart (R2, R14). -/
def evalAccountClear (f : RequestFrame) (s : State) : Answer :=
  if f.bay = 15 then s.nodeForm s.isBay f (clearTag f.tag s) else s.bayForm f (fun b => clearBay b s)

/-- ACCOUNT_CLEAR -/
def execAccountClear (f : RequestFrame) (s : State) : Host.Outcome State Fault Refusal :=
  .next (s.serve 6 f (evalAccountClear f))

/-! ## Presence -/

/-- The bay becomes MISSING: the record is kept, the hold cause, the rest timer, the offer backoff and the deviation
count are discarded (R8). -/
def State.losePack (s : State) (b : BayNo) (r : Record) : State :=
  s.setBay b { (s.bay b).enter .missing r with deviation := 0 }

/-- Presence cleared in RELEASING with settle_early false: IN_TRANSIT (R69). -/
def State.depart (s : State) (b : BayNo) (n : NodeNo) (r : Record) : State :=
  s.setBay b { (s.bay b).enter (.inTransit n) r with transitTimer := some transitMs }

/-- Step 1 of a conversion: what a clear presence does to the bay (R8, R9, R69, R70, R72). A clear presence also ends
SENSOR_STUCK (R72). -/
def State.presenceStep (s : State) (b : BayNo) : State :=
  if (s.bay b).latest.presence then s
  else
    let t := s.setBay b { s.bay b with stuck := false }
    match (s.bay b).slot with
    | .empty => t
    | .orphan => t
    | .pack st r =>
      match st with
      | .admitted | .discharging | .held _ | .resting | .safe => t.losePack b r
      | .offered n => (t.losePack b r).placeHandoff (plainHandoff .withdraw n r.tag b)
      | .releasing n => if r.settleEarly then t.settle b else t.depart b n r
      | .inTransit _ | .rejected | .missing => t

end Sys2Proof.Machine
end

