-- ==== Sys2Proof/Machine/Regulator.lean ====
section
/-! DEFINITION. The discharge regulator (chapter 2): the conversion of a bay with its start check, hold evaluation,
rest-end test and discharge sample, the rest timer, and RESUME. -/

namespace Sys2Proof.Machine

open Sys2Proof.Config

/-! ## Measurement (step 2 of R20) -/

/-- The thermal flag after a conversion (R23). -/
def thermalNext (p : Profile) (t : Option Int) (flag : Bool) : Bool :=
  match t with
  | some x => if p.tStop ≤ x then true else if x ≤ p.tDerate then false else flag
  | none => flag

/-- The record's measurement fields after a conversion (R22). -/
def Record.measure (r : Record) (x : Readings) : Record :=
  { r with lastV := x.v.getD r.lastV, lastI := x.i.getD r.lastI, lastT := x.t.getD r.lastT
           peakT := match x.t with
             | some t => max r.peakT t
             | none => r.peakT }

/-- The record of a bay, changed. -/
def Slot.onRecord (x : Slot) (f : Record → Record) : Slot :=
  match x with
  | .pack st r => .pack st (f r)
  | .empty => .empty
  | .orphan => .orphan

/-- Step 2 at one bay (R22, R23, R48). -/
def Bay.measure (x : Bay) (p : Profile) : Bay :=
  { x with thermal := thermalNext p x.latest.t x.thermal
           validT := match x.latest.t with
             | some t => some t
             | none => x.validT
           slot := x.slot.onRecord (fun r => r.measure x.latest) }

/-! ## The discharge sample -/

def absDiff (a b : Nat) : Nat := (a - b) + (b - a)

/-- The deviation is excessive (R28). -/
def deviates (i prev : Nat) : Bool := decide (prev / 10 + 100 < absDiff i prev)

/-- The deviation count after a sample (R28). -/
def deviationNext (i prev count : Nat) : Nat := if deviates i prev then count + 1 else 0

/-- Stage 2: charge, energy and discharge time (R29, R30). -/
def Record.integrate (r : Record) (v i : Nat) : Record :=
  let rem := r.eRem + v * i
  { r with q := satAdd max32 r.q i, e := satAdd max32 r.e (rem / 100000), eRem := rem % 100000
           dischargeMs := satAdd max32 r.dischargeMs 100 }

/-- CHARGE_LIMIT (R31). -/
def Record.chargeLimit (r : Record) : Bool :=
  match r.capacity with
  | some c => decide (c * 540000 ≤ r.q)
  | none => false

/-- TIME_LIMIT (R32). -/
def Record.timeUp (r : Record) : Bool := decide (r.timeLimit * 60000 ≤ r.dischargeMs)

/-- The temperature-derated limit for T below T_stop (R34). -/
def derated (p : Profile) (t : Int) : Nat :=
  if t ≤ p.tDerate then p.iMax else p.iMax * (p.tStop - t).toNat / (p.tStop - p.tDerate).toNat

/-- I_pow; a bay without a share has a share of 0 (R35). -/
def powerLimit (share : Option Nat) (v : Nat) : Nat := min iLimit (share.getD 0 * 10000 / max v 100)

/-- The target before halving: the least of I_derate, the taper limit where it applies, and I_pow (R35, R36). -/
def targetCurrent (p : Profile) (s v : Nat) (t : Int) (share : Option Nat) : Nat :=
  let base := min (derated p t) (powerLimit share v)
  if v ≤ s * p.taperCell then min base p.iTaper else base

/-- The setpoint: halving on line_pre, then the ramp (R36). -/
def setpointNext (target prev : Nat) (linePre : Bool) : Nat := min (if linePre then target / 2 else target) (prev + ramp)

/-- SAFE_VOLTAGE: the bay goes to rest (R33, R44). -/
def Bay.rest (x : Bay) (p : Profile) (r : Record) (v : Nat) : Bay :=
  { x.enter .resting { r with endCause := some .safeVoltage, restStartV := some v } with
    restTimer := some (p.restSeconds * 1000) }

/-- A new setpoint goes to the sink, the record and the previous setpoint (R36). -/
def Bay.command (x : Bay) (r : Record) (set : Nat) : Bay :=
  { x with sink := set, prevSetpoint := set, slot := .pack .discharging { r with setpoint := set } }

/-- Stages 3 and 4 of a sample, with the record already integrated (R31 to R36). -/
def State.endOrCommand (s : State) (b : BayNo) (r : Record) (v : Nat) (t : Int) : State :=
  let p := s.profile
  if r.chargeLimit then s.reject b r .chargeLimit
  else if r.timeUp then s.reject b r .timeLimit
  else if v ≤ r.s * p.safeCell then s.setBay b ((s.bay b).rest p r v)
  else if p.tStop ≤ t then s.setBay b ((s.bay b).enter (.held .thermal) r)
  else
    s.setBay b ((s.bay b).command r
      (setpointNext (targetCurrent p r.s v t (s.bay b).share) (s.bay b).prevSetpoint s.view.linePre))

/-- The discharge sample (section 2.4). -/
def State.sample (s : State) (b : BayNo) (r : Record) : State :=
  let x := s.bay b
  match x.latest.v, x.latest.i, x.latest.t with
  | some v, some i, some t =>
    let d := deviationNext i x.prevSetpoint x.deviation
    if 20 ≤ d then (s.setBay b { x with deviation := 20 }).holdFault b r .deviation
    else (s.setBay b { x with deviation := d, product := v * i }).endOrCommand b (r.integrate v i) v t
  | _, _, _ => s.holdFault b r .measurement

/-! ## Start check, hold evaluation, rest-end test -/

/-- All of V, I and T are valid. -/
def Readings.valid (x : Readings) : Bool := x.v.isSome && x.i.isSome && x.t.isSome

/-- The start check of a bay in ADMITTED (R25), and outcomes 1 to 4 of the hold evaluation (R41): the four outcomes are
the same. -/
def State.startCheck (s : State) (b : BayNo) (r : Record) : State :=
  if (s.bay b).latest.valid then s.setBay b ((s.bay b).startOrHold s.lineClear r) else s.holdFault b r .measurement

/-- The hold evaluation (R41): a FAULT hold stays. -/
def State.holdCheck (s : State) (b : BayNo) (c : HoldCause) (r : Record) : State :=
  if c = .fault then s else s.startCheck b r

/-- The totals of T2 at an entry to SAFE by the rebound test (R46). -/
def Tally2.add (t : Tally2) (r : Record) : Tally2 :=
  { completed := bump t.completed, charge := satAdd max64 t.charge (r.q / 3600), energy := satAdd max64 t.energy r.e
    time := satAdd max64 t.time (r.dischargeMs / 1000), maxTime := max t.maxTime (r.dischargeMs / 1000)
    maxEnergy := max t.maxEnergy r.e }

/-- The rebound test with the voltage v (R45). -/
def State.rebound (s : State) (b : BayNo) (r : Record) (v : Nat) : State :=
  let p := s.profile
  let r1 := { r with reboundV := some v }
  if v ≤ r.s * p.reboundLimit then (s.setBay b ((s.bay b).enter .safe r1)).onT2 (fun t => t.add r)
  else if r.round < p.maxRounds then s.setBay b ((s.bay b).startOrHold s.lineClear { r1 with round := r.round + 1 })
  else s.reject b r1 .rebound

/-- The rest-end test of a bay in RESTING: it is made when it is owed and the V of the latest conversion is valid (R45). -/
def State.restEnd (s : State) (b : BayNo) (r : Record) : State :=
  if (s.bay b).restOwed then
    match (s.bay b).latest.v with
    | some v => s.rebound b r v
    | none => s
  else s

/-- Step 3 of a conversion (R20). -/
def State.regulate (s : State) (b : BayNo) : State :=
  match (s.bay b).slot with
  | .empty => s
  | .orphan => s
  | .pack st r =>
    match st with
    | .admitted => s.startCheck b r
    | .held c => s.holdCheck b c r
    | .resting => s.restEnd b r
    | .discharging => s.sample b r
    | .safe | .offered _ | .releasing _ | .inTransit _ | .rejected | .missing => s

/-- Step 2 of a conversion (R20, R47). -/
def State.measureStep (s : State) (b : BayNo) (before : Bool) : State :=
  (s.setBay b ((s.bay b).measure s.profile)).raiseHeat before b

/-- One conversion of a bay (R20). Its product is 0 unless a sample hands one (R37). -/
def State.convert (s : State) (b : BayNo) (x : BayReading) : State :=
  let t := s.setBay b { s.bay b with latest := judgeBay x, convTimer := some fastPeriod, product := 0 }
  ((((t.presenceStep b).measureStep b (s.condition .bayOverheat))).regulate b).light

/-- BAY_CONVERSION: made while the conversion timer runs, at a node whose role is BAY (R20). -/
def execBayConversion (b : BayNo) (x : BayReading) (s : State) : Host.Outcome State Fault Refusal :=
  .next (if (s.bay b).convTimer.isSome then s.convert b x else s)

/-- The rest timer of a bay expires: the test is owed, and made at once when the latest V is valid (R45). -/
def State.restExpires (s : State) (b : BayNo) : State :=
  let t := s.setBay b { s.bay b with restTimer := none, restOwed := true }
  match (s.bay b).slot with
  | .pack .resting r => (t.restEnd b r).light
  | _ => s.setBay b { s.bay b with restTimer := none }

/-- REST_TIMER_EXPIRY -/
def execRestTimerExpiry (b : BayNo) (s : State) : Host.Outcome State Fault Refusal :=
  .next (if (s.bay b).restTimer.isSome then s.restExpires b else s)

/-! ## RESUME -/

/-- The effect of an accepted RESUME: outcomes 2 to 4 of the hold evaluation (R43). -/
def State.resumeBay (s : State) (b : BayNo) (r : Record) : State :=
  (s.setBay b (({ s.bay b with deviation := 0 } : Bay).startOrHold s.lineClear r)).light

/-- The payload of RESUME: the bay state and the hold cause that result (R43, R177). -/
def resumePayload (x : Slot) : List Byte :=
  [x.code, match x.holdCause with
    | some c => c.code
    | none => 0]

/-- RESUME (R43). -/
def evalResume (f : RequestFrame) (s : State) : Answer :=
  s.bayForm f (fun b =>
    match (s.bay b).slot with
    | .pack (.held .fault) r =>
      if (s.bay b).latest.valid then .done (s.resumeBay b r) (resumePayload ((s.resumeBay b r).bay b).slot)
      else .refused .notClear
    | _ => .refused .bayState)

/-- RESUME -/
def execResume (f : RequestFrame) (s : State) : Host.Outcome State Fault Refusal := .next (s.serve 3 f (evalResume f))

end Sys2Proof.Machine
end

