-- ==== Sys2Proof/Machine/FireUnit.lean ====
section
/-! DEFINITION. The fire detection unit (chapter 7): the 1 s sample with its channels, rings, grades, memories,
confirmation and zone state, and ALARM_RESET. -/

namespace Sys2Proof.Machine

open Sys2Proof.Config

/-! ## Channels, grades and memories -/

/-- The ring after one more reading: the last 11, oldest first (R130). -/
def ringPush (ring : List Int) (x : Int) : List Int := (ring ++ [x]).drop (ring.length + 1 - 11)

/-- The rise, formed when the ring holds 11 readings (R130). -/
def ringRise (ring : List Int) (x : Int) : Option Int :=
  if ring.length = 11 then ring.head?.map (fun old => x - old) else none

/-- The grade of a heat channel (R131). -/
def heatGrade (x : Int) (rise : Option Int) : Grade :=
  let high (limit climb : Int) : Bool := decide (limit ≤ x) || (rise.map (fun r => decide (climb ≤ r))).getD false
  if high 700 200 then .fire else if high 550 100 then .pre else .none

/-- The grade of the off-gas channel (R131). -/
def gasGrade (x : Int) : Grade := if 200 ≤ x then .fire else if 50 ≤ x then .pre else .none

/-- A memory after a sample (R132). -/
def memoryNext (held : Bool) (m : Nat) : Nat := if held then 0 else min (m + 1) 31

/-- The fire run after a sample (R132). -/
def runNext (atFire : Bool) : Option Nat → Option Nat
  | none => if atFire then some 0 else none
  | some n => if atFire then some (min (n + 1) 20) else none

/-- A source takes a grade and its memories advance (R131, R132). -/
def Source.advance (x : Source) (g : Grade) : Source :=
  { grade := g, preMem := memoryNext (decide (g ≠ .none)) x.preMem
    fireMem := memoryNext (decide (g = .fire)) x.fireMem, run := runNext (decide (g = .fire)) x.run }

/-- An isolated channel (R128). -/
def Channel.isolate : Channel := { isolated := true, faulted := false, ring := [], source := Source.reset }

/-- A faulted channel: no reading, the ring emptied, the grade none (R129, R130). -/
def Channel.fault (c : Channel) : Channel :=
  { isolated := false, faulted := true, ring := [], source := c.source.advance .none }

/-- A heat channel at a sample (R128 to R132). -/
def Channel.heat (c : Channel) (key : Bool) (conversion : Option Int) : Channel :=
  if key then Channel.isolate
  else
    match heatReading conversion with
    | none => c.fault
    | some x =>
      { isolated := false, faulted := false, ring := ringPush c.ring x
        source := c.source.advance (heatGrade x (ringRise (ringPush c.ring x) x)) }

/-- The off-gas channel at a sample. -/
def Channel.gas (c : Channel) (key : Bool) (conversion : Option Int) : Channel :=
  if key then Channel.isolate
  else
    match gasReading conversion with
    | none => c.fault
    | some x => { isolated := false, faulted := false, ring := [], source := c.source.advance (gasGrade x) }

/-- The flame contact at a sample. -/
def Channel.flame (c : Channel) (key : Bool) (ohms : Nat) : Channel :=
  if key then Channel.isolate
  else
    match loopReading ohms with
    | none => c.fault
    | some active =>
      { isolated := false, faulted := false, ring := [], source := c.source.advance (if active then .fire else .none) }

/-- The four channels after a sample. -/
def channelsNext (chs : Vector Channel 4) (x : FireReading) : Vector Channel 4 :=
  #v[chs[0].heat x.key0 x.d0, chs[1].heat x.key1 x.d1, chs[2].gas x.key2 x.d2, chs[3].flame x.key3 x.loop]

/-- Faulted and not isolated (R129). -/
def Channel.bad (c : Channel) : Bool := c.faulted && !c.isolated

/-- Usable (R129). -/
def Channel.usable (c : Channel) : Bool := !c.faulted && !c.isolated

/-- The onset of one channel: cause, tally and fault record entry (R129). -/
def State.channelOnset (s : State) (before now : Channel) (k : Nat) : State :=
  if now.bad && !before.bad then
    ((s.raise .channelFault (.channel k) none).onT6 (fun t => { t with channelFaults := bump t.channelFaults })).enterFault
      .channelFault (.channel k) none
  else s

/-- Steps 1 to 3 of a sample: the channels and the bay heat source, with the channel onsets (R127 to R132). -/
def State.gradeSources (s : State) (x : FireReading) : State :=
  let chs := channelsNext s.fire.channels x
  let heat := if s.isBay then s.fire.bayHeat.advance (if s.bayHeat then .fire else .none) else s.fire.bayHeat
  let t : State := { s with fire := { s.fire with channels := chs, bayHeat := heat, sampleTimer := some slowPeriod } }
  (((t.channelOnset s.fire.channels[0] chs[0] 0).channelOnset s.fire.channels[1] chs[1] 1).channelOnset
    s.fire.channels[2] chs[2] 2).channelOnset s.fire.channels[3] chs[3] 3

/-! ## IMPAIRED and confirmation -/

/-- The IMPAIRED flag at a sample (R135). -/
def impairedNow (chs : Vector Channel 4) : Bool :=
  (!chs[0].usable && !chs[1].usable) || decide (chs.toList.countP Channel.usable < 2)

/-- Step 4 of a sample (R135). -/
def State.checkImpaired (s : State) : State :=
  let i := impairedNow s.fire.channels
  let t : State := { s with fire := { s.fire with impaired := i } }
  if i && !s.fire.impaired then t.raise .zoneImpaired .none none else t

/-- The sources: D0 to D3 and the bay heat source, which stays at its reset value where there is none (R126). -/
def Fire.sources (f : Fire) : List Source := f.channels.toList.map Channel.source ++ [f.bayHeat]

/-- Two distinct sources, one meeting each test. -/
def distinctPair (p q : Source → Bool) : List Source → Bool
  | [] => false
  | x :: xs => (p x && xs.any q) || (q x && xs.any p) || distinctPair p q xs

def Source.atPre (x : Source) : Bool := decide (x.grade ≠ .none)
def Source.atFire (x : Source) : Bool := decide (x.grade = .fire)
def Source.firedLately (x : Source) : Bool := decide (x.fireMem ≤ 30)
def Source.preLately (x : Source) : Bool := decide (x.preMem ≤ 30)
def Source.persists (x : Source) : Bool := decide (x.run = some 20)

/-- The confirmation test (R133): flame, two at fire, the two coincidences, persistence. -/
def Fire.confirmed (f : Fire) : Bool :=
  f.channels[3].source.atFire || decide (2 ≤ f.sources.countP Source.atFire) ||
    distinctPair Source.atPre Source.firedLately f.sources || distinctPair Source.atFire Source.preLately f.sources ||
    f.sources.any Source.persists

/-- Some source is at pre or higher (R134, R138). -/
def Fire.alert (f : Fire) : Bool := f.sources.any Source.atPre

/-! ## The zone state -/

/-- Every record of the bay table is marked fire_exposed (R137). -/
def State.markExposed (s : State) : State :=
  s.mapBays (fun x => { x with slot := x.slot.onRecord (fun r => { r with fireExposed := true }) })

/-- The own-zone effects of FIRE at the blocks of the role (R137, R141). -/
def State.ownFire (s : State) : State :=
  if s.isBay then s.markExposed
  else if s.isShred && s.awake then s.enterFlood
  else s

/-- The zone becomes FIRE (R133, R137). -/
def State.enterFire (s : State) : State :=
  let t : State := { s with fire := { s.fire with zone := .fire, clearCount := 0 } }
  (((t.raise .zoneFire .none none).onT6 (fun t => { t with fireCount := bump t.fireCount })).enterFault
    .zoneFire .none none).ownFire

/-- The zone becomes PRE (R134). -/
def State.enterPre (s : State) : State :=
  let t : State := { s with fire := { s.fire with zone := .pre, clearCount := 0 } }
  (t.raise .zonePre .none none).onT6 (fun t => { t with preCount := bump t.preCount })

/-- A sample of a zone that stays or ends in PRE: the clear count (R134). -/
def Fire.clearStep (f : Fire) : Fire :=
  if f.alert then { f with clearCount := 0 }
  else if 30 ≤ f.clearCount + 1 then { f with zone := .normal, clearCount := 0 }
  else { f with clearCount := f.clearCount + 1 }

/-- Step 5 of a sample (R133, R134). -/
def State.moveZone (s : State) : State :=
  match s.fire.zone with
  | .fire => s
  | .normal => if s.fire.confirmed then s.enterFire else if s.fire.alert then s.enterPre else s
  | .pre => if s.fire.confirmed then s.enterFire else { s with fire := s.fire.clearStep }

/-- One fire sample (R127). -/
def State.sampleFire (s : State) (x : FireReading) : State :=
  ((((s.gradeSources x).checkImpaired).moveZone).driveRelays).reviewLine.light

/-- FIRE_SAMPLE: made while the sample timer runs, in every lifecycle (R127). -/
def execFireSample (x : FireReading) (s : State) : Host.Outcome State Fault Refusal :=
  .next (if s.fire.sampleTimer.isSome then s.sampleFire x else s)

/-! ## ALARM_RESET -/

/-- The memories of a source cleared; the grade stays (R139). -/
def Source.forget (x : Source) : Source := { x with preMem := 31, fireMem := 31, run := none }

/-- The zone becomes NORMAL, the memories are cleared; grades and rings are kept (R139). -/
def Fire.clear (f : Fire) : Fire :=
  { f with zone := .normal, clearCount := 0, bayHeat := f.bayHeat.forget
           channels := Vector.ofFn (fun i => { f.channels[i] with source := f.channels[i].source.forget }) }

/-- The states from which a fire_exposed record is rejected (R140). -/
def PackState.rejectable : PackState → Bool
  | .admitted => true
  | .discharging => true
  | .held _ => true
  | .resting => true
  | .safe => true
  | .offered _ => false
  | .releasing _ => false
  | .inTransit _ => false
  | .rejected => false
  | .missing => false

/-- The bay's record is to be rejected (R140). -/
def Slot.exposed : Slot → Bool
  | .pack st r => st.rejectable && r.fireExposed
  | .empty => false
  | .orphan => false

/-- One bay at an ALARM_RESET that ends FIRE (R140). -/
def State.rejectExposed (s : State) (b : BayNo) : State :=
  match (s.bay b).slot with
  | .pack st r => if st.rejectable && r.fireExposed then s.reject b r .fireExposed else s
  | .empty => s
  | .orphan => s

/-- All bays at an ALARM_RESET that ends FIRE (R140). -/
def State.rejectAllExposed (s : State) : State :=
  (((s.rejectExposed 0).rejectExposed 1).rejectExposed 2).rejectExposed 3

/-- FLOOD ends at a SHRED node (R122). -/
def State.endFlood (s : State) : State :=
  if s.isShred && decide (s.atmos.state = .flood) then s.enterPurging false else s

/-- The effect of an accepted ALARM_RESET (R122, R139, R140). -/
def State.resetAlarm (s : State) : State :=
  let t := ({ s with fire := s.fire.clear }).onT6 (fun t => { t with alarmResets := bump t.alarmResets })
  let u := if s.isBay && decide (s.fire.zone = .fire) then t.rejectAllExposed else t
  u.endFlood.driveRelays.reviewLine.light

/-- The number of bays that R140 makes REJECTED. -/
def State.exposedCount (s : State) : Nat :=
  if s.isBay && decide (s.fire.zone = .fire) then s.countBays Slot.exposed else 0

/-- ALARM_RESET (R138). -/
def evalAlarmReset (f : RequestFrame) (s : State) : Answer :=
  s.nodeForm true f
    (if s.fire.alert then .refused .notClear
     else .done s.resetAlarm [Zone.code .normal, byteOf s.exposedCount])

/-- ALARM_RESET -/
def execAlarmReset (f : RequestFrame) (s : State) : Host.Outcome State Fault Refusal :=
  .next (s.serve 7 f (evalAlarmReset f))

end Sys2Proof.Machine
end

