-- ==== Sys2Proof/Machine/Headroom.lean ====
section
/-! DEFINITION. The headroom unit (chapter 3): the computation of the line limit in use, the sum of the others, the
allowance and the shares. -/

namespace Sys2Proof.Machine

open Sys2Proof.Config

/-- L: the least of the own class and the classes of the peers that are not ABSENT (R55). -/
def State.lineLimit (s : State) : Nat :=
  (s.peers.toList.filterMap Peer.watts).foldl min s.ownClass

/-- S: the sum of the reported powers of the heard BAY peers (R56). -/
def State.sumOthers (s : State) : Nat := (s.peers.toList.map Peer.power).sum

/-- A (R57). -/
def allowanceOf (limit others basis : Nat) : Nat := min nodeMaxPower (min (limit - others) (basis + allowanceRise))

/-- The share of one bay: floor(A / n) while DISCHARGING, none otherwise (R58). -/
def shareOf (allowance n : Nat) (x : Bay) : Option Nat := if x.slot.isDischarging then some (allowance / n) else none

/-- One headroom computation (R55 to R58). -/
def State.computeHeadroom (s : State) : State :=
  let l := s.lineLimit
  let o := s.sumOthers
  let a := allowanceOf l o s.headroom.basis
  let n := s.countBays Slot.isDischarging
  { s.mapBays (fun x => { x with share := shareOf a n x }) with
    headroom := { s.headroom with limit := l, others := o, allowance := a, timer := some fastPeriod } }

/-- HEADROOM_COMPUTATION: made while the period timer runs, at a node whose role is BAY (R52). -/
def execHeadroomComputation (s : State) : Host.Outcome State Fault Refusal :=
  .next (if s.headroom.timer.isSome then s.computeHeadroom else s)

end Sys2Proof.Machine
end

