-- ==== Sys2Proof/Machine/LineLink.lean ====
section
/-! DEFINITION. The line link (chapter 9): STATUS and ALARM frames received, the peer table and its ages, the repeat
windows, the periods of STATUS and TALLY, the silence timer, the transmit selector and the error counts. -/

namespace Sys2Proof.Machine

open Sys2Proof.Config

/-! ## Peer table -/

def State.setPeer (s : State) (n : NodeNo) (p : Peer) : State := { s with peers := s.peers.set n.val p n.isLt }

/-- The gap count when a STATUS is taken (R173). -/
def Peer.gapsNext (p : Peer) (seq : Byte) : Nat :=
  match p.fields with
  | none => p.gaps
  | some g =>
    if p.state = .absent ∨ seq = g.seq ∨ seq = g.seq + 1 then p.gaps else satAdd 255 p.gaps 1

/-- A peer entry takes a STATUS (R173). -/
def Peer.take (p : Peer) (f : StatusFrame) : Peer :=
  { state := .present, fields := some f, gaps := p.gapsNext f.seq, age := some 0 }

/-- A delivered STATUS (R173, R151, R152). -/
def State.takeStatus (src : Address) (f : StatusFrame) (s : State) : State :=
  match nodeOf src with
  | some n => if statusInRange f then (s.setPeer n ((s.peers[n]).take f)).reviewLine else s.countForeign
  | none => s.countForeign

/-- A STATUS frame as received. -/
def State.receiveStatus (src dst : Address) (f : StatusFrame) (s : State) : State :=
  s.receive false kindStatus src dst 32 (State.takeStatus src f)

/-- STATUS_RECEIVED -/
def execStatusReceived (src dst : Address) (f : StatusFrame) (s : State) : Host.Outcome State Fault Refusal :=
  .next (s.receiveStatus src dst f)

/-- An ALARM frame as received: a delivered one is discarded (R148, R161). -/
def State.receiveAlarm (src dst : Address) (s : State) : State :=
  s.receive false kindAlarm src dst 16 id

/-- ALARM_RECEIVED: no field of it is read. -/
def execAlarmReceived (src dst : Address) (_f : AlarmFrame) (s : State) : Host.Outcome State Fault Refusal :=
  .next (s.receiveAlarm src dst)

/-- PEER_AGE_STALE: the age reaches 300 ms (R174). -/
def execPeerAgeStale (n : NodeNo) (s : State) : Host.Outcome State Fault Refusal :=
  .next (if (s.peers[n]).age.isSome && decide ((s.peers[n]).state = .present) then
    (s.setPeer n { s.peers[n] with state := .stale }).reviewLine else s)

/-- An entry becomes LOST: the cause, the tally and the line view (R174, R152). -/
def State.losePeer (s : State) (n : NodeNo) : State :=
  (((s.setPeer n { s.peers[n] with state := .lost, age := none }).raise .peerLost (.node n.val) none).onT6
    (fun t => { t with peersLost := bump t.peersLost })).reviewLine

/-- PEER_AGE_LOST: the age reaches 1,000 ms (R174). -/
def execPeerAgeLost (n : NodeNo) (s : State) : Host.Outcome State Fault Refusal :=
  .next (if (s.peers[n]).age.isSome then s.losePeer n else s)

/-- PEER_FORGET (R175). -/
def evalPeerForget (f : RequestFrame) (s : State) : Answer :=
  s.nodeForm true f
    (match nodeArg f.node with
      | none => .refused .badField
      | some n =>
        if nodeAddress n = s.startup.straps.node then .refused .badField
        else if (s.peers[n]).state = .lost then
          .done (s.setPeer n Peer.reset).reviewLine (s.peers[n]).forgetPayload
        else .refused .notClear)

/-- PEER_FORGET -/
def execPeerForget (f : RequestFrame) (s : State) : Host.Outcome State Fault Refusal :=
  .next (s.serve 11 f (evalPeerForget f))

/-! ## Repeat windows, periods and silence -/

/-- REPEAT_WINDOW_EXPIRY: the place compares with nothing (R162). -/
def execRepeatWindowExpiry (a : Fin 15) (s : State) : Host.Outcome State Fault Refusal :=
  .next { s with filter := s.filter.set a.val { s.filter[a] with window := none } a.isLt }

/-- The frame of this buffer is under attempt. -/
def State.underAttempt (s : State) (b : Buffer) : Bool :=
  match s.link.attempt with
  | some a => decide (a.buffer = b)
  | none => false

/-- STATUS_PERIOD_EXPIRY: a STATUS is formed, or its formation waits for the end of the attempt (R165). -/
def execStatusPeriodExpiry (s : State) : Host.Outcome State Fault Refusal :=
  .next (if s.link.statusTimer.isSome then
    let t : State := { s with link := { s.link with statusTimer := some fastPeriod } }
    if s.underAttempt .status then { t with link := { t.link with statusDue := true } } else t.placeStatus
    else s)

/-- TALLY_PERIOD_EXPIRY: a TALLY is formed, or its formation waits for the end of the attempt (R165). -/
def execTallyPeriodExpiry (s : State) : Host.Outcome State Fault Refusal :=
  .next (if s.link.tallyTimer.isSome then
    let t : State := { s with link := { s.link with tallyTimer := some slowPeriod } }
    if s.underAttempt .tally then { t with link := { t.link with tallyDue := true } } else t.placeTally
    else s)

/-- The node becomes SILENT (R38, R54, R89, R153). -/
def State.fallSilent (s : State) : State :=
  (({ s with
      view := { s.view with silent := true, silenceTimer := none }
      headroom := { s.headroom with basis := 0 } }).mapBays Bay.lineStop).losePermissive.light

/-- SILENCE_TIMER_EXPIRY -/
def execSilenceTimerExpiry (s : State) : Host.Outcome State Fault Refusal :=
  .next (if s.view.silenceTimer.isSome then s.fallSilent else s)

/-! ## Transmit selector -/

/-- The terminal with the lowest number whose reply slot is full (R164). -/
def State.firstReply (s : State) : Option (TerminalNo × Reply) :=
  ([0, 1, 2] : List TerminalNo).findSome? (fun t => (s.link.replies[t]).map (fun r => (t, r)))

/-- The frame that a selection chooses: ALARM, handoff FIFO, reply slots, STATUS, TALLY (R159, R164). -/
def State.select (s : State) : Option Attempt :=
  let own := s.startup.straps.node
  match s.latch.entries with
  | e :: _ =>
    some { buffer := .alarm e.cause, ident := identifier kindAlarm own 15, data := (s.formAlarm e).bytes }
  | [] =>
    match s.link.fifo with
    | h :: _ => some { buffer := .handoff, ident := identifier kindHandoff own (nodeAddress h.dst), data := h.bytes own }
    | [] =>
      match s.firstReply with
      | some (t, r) => some { buffer := .reply t, ident := identifier kindReply own (terminalAddress t), data := r.bytes }
      | none =>
        match s.link.status with
        | some f => some { buffer := .status, ident := identifier kindStatus own 15, data := f.bytes }
        | none =>
          match s.link.tally with
          | some f => some { buffer := .tally, ident := identifier kindTally own 15, data := f.bytes }
          | none => none

/-- The conditions of a selection (R164). -/
def State.maySelect (s : State) : Bool := s.running && decide (s.link.state ≠ .off) && s.link.attempt.isNone

/-- TRANSMIT_SELECTION: the chosen frame is attempted; raises of its cause count apart from here on (R147). -/
def execTransmitSelection (s : State) : Host.Outcome State Fault Refusal :=
  .next (if s.maySelect then
    { s with link := { s.link with attempt := s.select }, latch := { s.latch with after := none } } else s)

/-! ## Outcomes of an attempt -/

/-- The entry carried leaves the pending set, and what was raised after the formation is entered again (R147). -/
def Latch.sent (l : Latch) (c : Cause) : List PendingEntry :=
  let rest := l.entries.filter (fun e => decide (e.cause ≠ c))
  match l.after with
  | some e => insertEntry e rest
  | none => rest

/-- The own STATUS has gone out (R54, R153). -/
def State.statusSent (s : State) : State :=
  let basis := match s.link.status with
    | some f => if s.isBay then statusPower f else s.headroom.basis
    | none => s.headroom.basis
  { s with
    link := { s.link with status := none }
    view := { s.view with silent := false, silenceTimer := some silenceMs }
    headroom := { s.headroom with basis := basis } }

/-- A held request is answered BUSY once the earlier reply is out (R181). -/
def State.answerHeld (s : State) (t : TerminalNo) : State :=
  match s.requests.held[t] with
  | some h =>
    ({ s with requests := { s.requests with held := s.requests.held.set t.val none t.isLt } }).placeReply t
      (s.replyOf h.code h.bay h.number (some .busy) [])
  | none => s

/-- The reply of an accepted NODE_RESET (R182). -/
def State.isResetReply (s : State) (t : TerminalNo) : Bool :=
  s.requests.resetPending &&
    match s.link.replies[t] with
    | some r => decide (r.code = 16) && r.reason.isNone
    | none => false

/-- A reply has gone out (R178, R181, R182). -/
def State.replySent (s : State) (t : TerminalNo) : State :=
  ({ s with link := { s.link with replies := s.link.replies.set t.val none t.isLt } }).answerHeld t

/-- A success is told to the owner of the frame (R164). -/
def State.sent (s : State) : Buffer → State
  | .alarm c => { s with latch := { s.latch with entries := s.latch.sent c }
                         link := { s.link with alarmSeq := s.link.alarmSeq + 1 } }
  | .handoff => { s with link := { s.link with fifo := s.link.fifo.tail } }
  | .reply t => s.replySent t
  | .status => s.statusSent
  | .tally => { s with link := { s.link with tally := none } }

/-- The attempt is that of the reply to an accepted NODE_RESET. -/
def State.resetAttempt (s : State) (b : Buffer) : Bool :=
  match b with
  | .reply t => s.isResetReply t
  | _ => false

/-- An attempt succeeds (R164, R167); the success of a NODE_RESET reply starts the line reset (R182). -/
def State.succeed (s : State) (b : Buffer) : State :=
  if s.resetAttempt b then s.lineReset .request
  else ((s.setErrors (s.link.txErrors - 1) s.link.rxErrors).sent b).endAttempt

/-- TRANSMIT_SUCCESS -/
def execTransmitSuccess (s : State) : Host.Outcome State Fault Refusal :=
  .next (match s.link.attempt with
    | some a => s.succeed a.buffer
    | none => s)

/-- ARBITRATION_LOST: the frame stays where it was, the counts are unchanged (R164). -/
def execArbitrationLost (s : State) : Host.Outcome State Fault Refusal :=
  .next (if s.link.attempt.isSome then s.endAttempt else s)

/-- The transmit error count after a transmit error (R167). -/
def txErrorsNext (count : Nat) (ackOnly passive : Bool) : Nat := if ackOnly && passive then count else count + 8

/-- TRANSMIT_ERROR: the frame stays, the transmit error count rises by 8 (R164, R167, R169). `ackOnly` is a failure only
for want of an acknowledgement. -/
def execTransmitError (ackOnly : Bool) (s : State) : Host.Outcome State Fault Refusal :=
  .next (if s.link.attempt.isSome then
    (s.setErrors (txErrorsNext s.link.txErrors ackOnly (decide (s.link.state = .passive))) s.link.rxErrors).endAttempt
    else s)

/-- RECEIVE_ERROR: the receive error count rises by 1, up to 255 (R167). -/
def execReceiveError (s : State) : Host.Outcome State Fault Refusal :=
  .next (if s.receiving then s.setErrors s.link.txErrors (min (s.link.rxErrors + 1) 255) else s)

/-- One sighting of eleven recessive bits while OFF; the 128th ends OFF (R169). -/
def Link.sight (l : Link) : Link :=
  if 128 ≤ l.sightings + 1 then { l with state := .active, txErrors := 0, rxErrors := 0, sightings := 0 }
  else { l with sightings := l.sightings + 1 }

/-- BUS_IDLE_SIGHTING -/
def execBusIdleSighting (s : State) : Host.Outcome State Fault Refusal :=
  .next (if s.link.state = .off then { s with link := s.link.sight } else s)

end Sys2Proof.Machine
end

