-- ==== Sys2Proof/Machine/RequestUnit.lean ====
section
/-! DEFINITION. The request unit (chapter 10): the read requests, IDENTIFY, NODE_RESET, a request whose code is unknown,
and the table from request codes to their owners. -/

namespace Sys2Proof.Machine

open Sys2Proof.Config

/-- READ_RECORD (R185). -/
def evalReadRecord (f : RequestFrame) (s : State) : Answer :=
  s.bayForm f (fun b =>
    match (s.bay b).slot.record with
    | some r => .done s (recordPayload (s.bay b).slot r)
    | none => .refused .notFound)

/-- READ_RECORD -/
def execReadRecord (f : RequestFrame) (s : State) : Host.Outcome State Fault Refusal :=
  .next (s.serve 12 f (evalReadRecord f))

/-- READ_TALLY (R187). -/
def evalReadTally (f : RequestFrame) (s : State) : Answer :=
  s.nodeForm true f
    (if f.record.toNat < 1 ∨ 6 < f.record.toNat then .refused .badField
     else
      match s.tallyPayload f.record.toNat f.index.toNat with
      | some p => .done s p
      | none => .refused .notFound)

/-- READ_TALLY -/
def execReadTally (f : RequestFrame) (s : State) : Host.Outcome State Fault Refusal :=
  .next (s.serve 13 f (evalReadTally f))

/-- The payload of READ_QUARANTINE by its index: 0 to 15 the store, 16 to 19 the unaccounted list (R186). -/
def State.quarantineRead (s : State) (index : Nat) : Option (List Byte) :=
  if index < 16 then (s.store[index]?).map (quarantinePayload s.store.length s.capacity)
  else if index < 20 then (s.unaccounted[index - 16]?).map (unaccountedPayload s.unaccounted.length)
  else none

/-- READ_QUARANTINE (R186). -/
def evalReadQuarantine (f : RequestFrame) (s : State) : Answer :=
  s.nodeForm s.isBay f
    (match s.quarantineRead f.index.toNat with
      | some p => .done s p
      | none => .refused .notFound)

/-- READ_QUARANTINE -/
def execReadQuarantine (f : RequestFrame) (s : State) : Host.Outcome State Fault Refusal :=
  .next (s.serve 14 f (evalReadQuarantine f))

/-- IDENTIFY (R199). -/
def evalIdentify (f : RequestFrame) (s : State) : Answer := s.nodeForm true f (.done s s.identityPayload)

/-- IDENTIFY -/
def execIdentify (f : RequestFrame) (s : State) : Host.Outcome State Fault Refusal :=
  .next (s.serve 15 f (evalIdentify f))

/-- What keeps a NODE_RESET from being accepted (R182, order 3). -/
def State.resetBarred (s : State) : Bool := decide (0 < s.countBays Slot.busy) || s.chute.reservation.isSome

/-- NODE_RESET (R182). -/
def evalNodeReset (f : RequestFrame) (s : State) : Answer :=
  s.nodeForm true f
    (if s.resetBarred then .refused .busy
     else .done { s with requests := { s.requests with resetPending := true } } [])

/-- NODE_RESET -/
def execNodeReset (f : RequestFrame) (s : State) : Host.Outcome State Fault Refusal :=
  .next (s.serve 16 f (evalNodeReset f))

/-- The owner of a request code (R180, R183); a code outside the table is refused BAD_FIELD without further checks. -/
def evaluate (code : Byte) (f : RequestFrame) : State → Answer :=
  match code.toNat with
  | 1 => evalAdmit f
  | 2 => evalAbort f
  | 3 => evalResume f
  | 4 => evalQuarantineIn f
  | 5 => evalQuarantineOut f
  | 6 => evalAccountClear f
  | 7 => evalAlarmReset f
  | 8 => evalPurgeReset f
  | 9 => evalFlush f
  | 10 => evalShredReset f
  | 11 => evalPeerForget f
  | 12 => evalReadRecord f
  | 13 => evalReadTally f
  | 14 => evalReadQuarantine f
  | 15 => evalIdentify f
  | 16 => evalNodeReset f
  | _ => fun _ => .refused .badField

/-- UNKNOWN_REQUEST: by its code, which stands in no row of the table (R180). -/
def execUnknownRequest (code : Byte) (f : RequestFrame) (s : State) : Host.Outcome State Fault Refusal :=
  .next (s.serve code f (evaluate code f))

end Sys2Proof.Machine
end

