-- ==== Sys2Proof/Machine/Startup.lean ====
section
/-! DEFINITION. The start-up controller (chapter 11): the resets, their end, and the entry to RUNNING. -/

namespace Sys2Proof.Machine

open Sys2Proof.Config

/-- POWER_ON_RESET: every state of every block takes its initial value (R196). -/
def execPowerOnReset (s : State) : Host.Outcome State Fault Refusal := .next s.powerOn

/-- The RESET pin: a line reset begins; during a power-on reset the cause stays POWER_ON (R196). -/
def State.assertPin (s : State) : State :=
  if s.startup.life = .inReset then
    if s.startup.resetting = .powerOn then s else { s with startup := { s.startup with resetting := .pin } }
  else s.lineReset .pin

/-- RESET_PIN_ASSERTED -/
def execResetPinAsserted (s : State) : Host.Outcome State Fault Refusal := .next s.assertPin

/-- A bay at the end of a reset (R1, R16, R20): ORPHAN where a line reset of a BAY node finds presence. -/
def bayAfterReset (isBay line presence : Bool) : Bay :=
  { Bay.reset with
    slot := if isBay && line && presence then .orphan else .empty
    latest := { Readings.reset with presence := isBay && presence }
    convTimer := if isBay then some 0 else none }

/-- The line reset count at the end of a reset (R196). -/
def resetsNext (line : Bool) (n : Nat) : Nat := if line then satAdd 65535 n 1 else 0

/-- The end of a reset: straps, reset cause, lifecycle, and every block's state after a reset (R16, R20, R52, R64, R77,
R85, R87, R107, R127, R194, R196, R197). -/
def State.endReset (s : State) (e : ResetSample) : State :=
  let line := decide (s.startup.resetting ≠ .powerOn)
  let bay := decide (roleOf e.straps = some .bay)
  let shred := decide (roleOf e.straps = some .shred)
  let ok := strapsValid e.straps
  ({ s with
    startup :=
      { life := if ok then .listen else .halted, resetting := s.startup.resetting, resetCause := s.startup.resetting
        lineResets := resetsNext line s.startup.lineResets, straps := e.straps, nodeTime := 0
        listenTimer := if ok then some listenMs else none }
    bays := Vector.ofFn (fun i => bayAfterReset bay line e.presence[i])
    store := if bay then s.store else []
    unaccounted := if bay then s.unaccounted else []
    headroom := { s.headroom with limit := classWatts e.straps.power.toNat, timer := if bay then some fastPeriod else none }
    handoff := { s.handoff with offerTimer := if bay then some fastPeriod else none }
    chute := { s.chute with sensor := shred && e.chute }
    feed := { s.feed with queue := if shred then s.feed.queue else []
                          periodTimer := if shred && ok then some fastPeriod else none
                          confirm := shred && e.confirm, feedback := shred && e.feedback }
    atmos := { s.atmos with sampleTimer := if shred && ok then some slowPeriod else none }
    fire := { s.fire with sampleTimer := some 0 } }).light

/-- END_OF_RESET -/
def execEndOfReset (e : ResetSample) (s : State) : Host.Outcome State Fault Refusal :=
  .next (if s.startup.life = .inReset then s.endReset e else s)

/-- The atmosphere leaves AIR for PURGING when a SHRED node becomes RUNNING (R114). -/
def State.startPurge (s : State) : State :=
  if s.isShred && decide (s.atmos.state = .air) then s.enterPurging false else s

/-- The entry to RUNNING (R114, R153, R165, R197). The purge starts before the first STATUS is formed (log entry 10). -/
def State.enterRunning (s : State) : State :=
  let t : State := { s with startup := { s.startup with life := .running, listenTimer := none }
                            view := { s.view with silenceTimer := some silenceMs } }
  let u := t.startPurge
  ({ u with link := { u.link with statusTimer := some fastPeriod, tallyTimer := some slowPeriod } }).placeStatus.placeTally.light

/-- LISTEN_TIMER_EXPIRY -/
def execListenTimerExpiry (s : State) : Host.Outcome State Fault Refusal :=
  .next (if s.startup.listenTimer.isSome then s.enterRunning else s)

end Sys2Proof.Machine
end

