-- ==== Sys2Proof/Machine/Wire.lean ====
section
/-! DEFINITION. Any frame of another station as the controller receives it (R160, R161): it is judged, and a frame that
is delivered goes to the block of its kind. -/

namespace Sys2Proof.Machine

/-- A HANDOFF frame by its message byte; a byte above 4 names no step of the exchange (R63). -/
def State.receiveMessage (s : State) (message : Byte) (f : HandoffFrame) : State :=
  s.receiveHandoff message f (fun n b s =>
    match message.toNat with
    | 0 => s.takeOffer f n b
    | 1 => s.takeTaken f n b
    | 2 => s.takeDecline f n b
    | 3 => s.takeWithdraw f n b
    | 4 => s.takeSettle f n b
    | _ => s.countForeign)

/-- A frame as received. A classic frame, a frame with a 29-bit identifier and a frame of a wrong length are never
delivered (R160, R161). The frame's own bits decide, whichever row carries it (log entry 28). -/
def State.receiveWire (s : State) (w : WireFrame) : State :=
  if w.classic || w.extended then s.receive true w.kind w.src w.dst w.data.length State.countForeign
  else if kindLength w.kind ≠ some w.data.length then
    s.receive false w.kind w.src w.dst w.data.length State.countForeign
  else if w.kind = kindHandoff then
    s.receiveMessage (BitVec.ofNat 8 (fieldAt w.data 0 1)) (HandoffFrame.ofBytes w.src w.dst w.data)
  else if w.kind = kindRequest then
    s.serve (BitVec.ofNat 8 (fieldAt w.data 0 1)) (RequestFrame.ofBytes w.src w.dst w.data)
      (evaluate (BitVec.ofNat 8 (fieldAt w.data 0 1)) (RequestFrame.ofBytes w.src w.dst w.data))
  else if w.kind = kindStatus then s.receiveStatus w.src w.dst (StatusFrame.ofBytes w.data)
  else if w.kind = kindTally then s.receiveTally w.src w.dst (TallyFrame.ofBytes w.data)
  else s.receiveAlarm w.src w.dst

/-- FOREIGN_FRAME_RECEIVED: a disallowed frame is ignored and counted, once R160 has found it so. -/
def execForeignFrameReceived (w : WireFrame) (s : State) : Host.Outcome State Fault Refusal := .next (s.receiveWire w)

/-- FRAME_PASSED_BY: traffic of others is not counted, and the receive error count falls (R160, R167). -/
def execFramePassedBy (w : WireFrame) (s : State) : Host.Outcome State Fault Refusal := .next (s.receiveWire w)

end Sys2Proof.Machine
end

