-- ==== Sys2Proof/Machine/Dispatch.lean ====
section
/-! DEFINITION. The commands and their meanings, one arm each. -/

namespace Sys2Proof.Machine

/-- What a command does to everything but the queue. -/
def exec (i : Instr) (s : State) : Host.Outcome State Fault Refusal :=
  match i with
  | .powerOnReset => Sys2Proof.Machine.execPowerOnReset s
  | .resetPinAsserted => Sys2Proof.Machine.execResetPinAsserted s
  | .endOfReset e => Sys2Proof.Machine.execEndOfReset e s
  | .listenTimerExpiry => Sys2Proof.Machine.execListenTimerExpiry s
  | .bayConversion b x => Sys2Proof.Machine.execBayConversion b x s
  | .restTimerExpiry b => Sys2Proof.Machine.execRestTimerExpiry b s
  | .headroomComputation => Sys2Proof.Machine.execHeadroomComputation s
  | .offerCheck => Sys2Proof.Machine.execOfferCheck s
  | .answerTimerExpiry b => Sys2Proof.Machine.execAnswerTimerExpiry b s
  | .offerBackoffExpiry b => Sys2Proof.Machine.execOfferBackoffExpiry b s
  | .releaseTimerExpiry b => Sys2Proof.Machine.execReleaseTimerExpiry b s
  | .transitTimerExpiry b => Sys2Proof.Machine.execTransitTimerExpiry b s
  | .offerReceived f => Sys2Proof.Machine.execOfferReceived f s
  | .takeReceived f => Sys2Proof.Machine.execTakeReceived f s
  | .declineReceived f => Sys2Proof.Machine.execDeclineReceived f s
  | .withdrawReceived f => Sys2Proof.Machine.execWithdrawReceived f s
  | .settleReceived f => Sys2Proof.Machine.execSettleReceived f s
  | .chuteArrival => Sys2Proof.Machine.execChuteArrival s
  | .arrivalTimerExpiry => Sys2Proof.Machine.execArrivalTimerExpiry s
  | .feedPeriodExpiry => Sys2Proof.Machine.execFeedPeriodExpiry s
  | .rotorFeedbackOn => Sys2Proof.Machine.execRotorFeedbackOn s
  | .rotorFeedbackOff => Sys2Proof.Machine.execRotorFeedbackOff s
  | .startTimerExpiry => Sys2Proof.Machine.execStartTimerExpiry s
  | .stopTimerExpiry => Sys2Proof.Machine.execStopTimerExpiry s
  | .idleTimerExpiry => Sys2Proof.Machine.execIdleTimerExpiry s
  | .feedConfirmSet => Sys2Proof.Machine.execFeedConfirmSet s
  | .feedTimerExpiry => Sys2Proof.Machine.execFeedTimerExpiry s
  | .atmosSample x => Sys2Proof.Machine.execAtmosSample x s
  | .purgeSlowDeadline => Sys2Proof.Machine.execPurgeSlowDeadline s
  | .purgeLockoutDeadline => Sys2Proof.Machine.execPurgeLockoutDeadline s
  | .fireSample x => Sys2Proof.Machine.execFireSample x s
  | .statusReceived src dst f => Sys2Proof.Machine.execStatusReceived src dst f s
  | .tallyReceived src dst f => Sys2Proof.Machine.execTallyReceived src dst f s
  | .alarmReceived src dst f => Sys2Proof.Machine.execAlarmReceived src dst f s
  | .foreignFrameReceived w => Sys2Proof.Machine.execForeignFrameReceived w s
  | .receiveError => Sys2Proof.Machine.execReceiveError s
  | .peerAgeStale n => Sys2Proof.Machine.execPeerAgeStale n s
  | .peerAgeLost n => Sys2Proof.Machine.execPeerAgeLost n s
  | .repeatWindowExpiry a => Sys2Proof.Machine.execRepeatWindowExpiry a s
  | .silenceTimerExpiry => Sys2Proof.Machine.execSilenceTimerExpiry s
  | .statusPeriodExpiry => Sys2Proof.Machine.execStatusPeriodExpiry s
  | .tallyPeriodExpiry => Sys2Proof.Machine.execTallyPeriodExpiry s
  | .transmitSelection => Sys2Proof.Machine.execTransmitSelection s
  | .transmitSuccess => Sys2Proof.Machine.execTransmitSuccess s
  | .arbitrationLost => Sys2Proof.Machine.execArbitrationLost s
  | .transmitError ackOnly => Sys2Proof.Machine.execTransmitError ackOnly s
  | .busIdleSighting => Sys2Proof.Machine.execBusIdleSighting s
  | .admitPack f => Sys2Proof.Machine.execAdmit f s
  | .abort f => Sys2Proof.Machine.execAbort f s
  | .resume f => Sys2Proof.Machine.execResume f s
  | .quarantineIn f => Sys2Proof.Machine.execQuarantineIn f s
  | .quarantineOut f => Sys2Proof.Machine.execQuarantineOut f s
  | .accountClear f => Sys2Proof.Machine.execAccountClear f s
  | .alarmReset f => Sys2Proof.Machine.execAlarmReset f s
  | .purgeReset f => Sys2Proof.Machine.execPurgeReset f s
  | .flush f => Sys2Proof.Machine.execFlush f s
  | .shredReset f => Sys2Proof.Machine.execShredReset f s
  | .peerForget f => Sys2Proof.Machine.execPeerForget f s
  | .readRecord f => Sys2Proof.Machine.execReadRecord f s
  | .readTally f => Sys2Proof.Machine.execReadTally f s
  | .readQuarantine f => Sys2Proof.Machine.execReadQuarantine f s
  | .identify f => Sys2Proof.Machine.execIdentify f s
  | .nodeReset f => Sys2Proof.Machine.execNodeReset f s
  | .unknownRequest code f => Sys2Proof.Machine.execUnknownRequest code f s
  | .chuteArrivalSensorClear => Sys2Proof.Machine.execChuteArrivalSensorClear s
  | .feedConfirmClear => Sys2Proof.Machine.execFeedConfirmClear s
  | .framePassedBy w => Sys2Proof.Machine.execFramePassedBy w s

end Sys2Proof.Machine
end

