-- ==== Sys2Proof/Safety.lean ====
section
/-! DEFINITION. What counts as a safe state of the node: the laws L1 to L12 of the spec as predicates of a state, with
what each needs beside it to be kept by every step. -/

namespace Sys2Proof.Machine

open Sys2Proof.Config

/-! ## The line view -/

/-- L9, and its counterpart for line_pre: the line view is what its inputs give (R151, R152, R158). -/
def State.LineViewLaw (s : State) : Prop := s.view.lineFire = s.lineFireNow ∧ s.view.linePre = s.linePreNow

/-! ## Bays -/

/-- The setpoint of a bay's record; 0 without a record (R24). -/
def Slot.setpoint (x : Slot) : Nat :=
  match x with
  | .pack _ r => r.setpoint
  | .empty => 0
  | .orphan => 0

/-- The record is settled early (R72). -/
def Slot.settledEarly (x : Slot) : Bool :=
  match x with
  | .pack _ r => r.settleEarly
  | .empty => false
  | .orphan => false

def Slot.isReleasing : Slot → Bool
  | .pack (.releasing _) _ => true
  | _ => false

def Slot.isInTransit : Slot → Bool
  | .pack (.inTransit _) _ => true
  | _ => false

def Slot.isResting : Slot → Bool
  | .pack .resting _ => true
  | _ => false

def Slot.isSafe : Slot → Bool
  | .pack .safe _ => true
  | _ => false

/-- The outputs and timers of one bay belong to its state: the contactor and the setpoint to DISCHARGING (R24, R26), the
gate to RELEASING before a settle (R64), each timer to the state it times (R24, R64), settle_early to RELEASING (R72). -/
structure Bay.Consistent (x : Bay) : Prop where
  contactor : x.contactor = x.slot.isDischarging
  sink : x.sink = x.slot.setpoint
  setpoint : x.slot.isDischarging = false → x.slot.setpoint = 0
  gate : x.gate = (x.slot.isReleasing && !x.slot.settledEarly)
  early : x.slot.settledEarly = true → x.slot.isReleasing = true
  rest : x.restTimer.isSome = true ∨ x.restOwed = true → x.slot.isResting = true
  answer : x.answerTimer.isSome = x.slot.isOffered
  release : x.releaseTimer.isSome = x.slot.isReleasing
  transit : x.transitTimer.isSome = x.slot.isInTransit
  safe : x.backoff.isSome = true ∨ x.jammed = true → x.slot.isSafe = true
  share : x.share.isSome = true → x.slot.isDischarging = true

/-- L5's bound by I_max, L6, and the outputs of every bay (R24, R50, R51, R64). -/
def State.BayLaw (s : State) : Prop :=
  ∀ b : BayNo, (s.bay b).Consistent ∧ (s.bay b).sink ≤ s.profile.iMax ∧
    ((s.bay b).slot.isDischarging = true → s.lineClear = true)

/-- L1: counted bays and quarantine entries within the capacity (R17). -/
def State.QuarantineLaw (s : State) : Prop := s.l1Count ≤ s.capacity

/-- L2: a tag at most once in the bay collections, and at most once in the queue and reservation (R18). -/
def State.TagLaw (s : State) : Prop := s.bayTags.Nodup ∧ s.shredTags.Nodup

/-- The bays that hold a record. -/
def State.held (s : State) : Nat := s.countBays (fun x => x.record.isSome)

/-- L3 (R19), with no record standing in a reset (R16). -/
def State.ConservationLaw (s : State) : Prop :=
  s.tally.t1.admitted = s.tally.t1.settled + s.tally.t1.quarantined + s.tally.t1.orphaned + s.tally.t1.writtenOff +
    s.held + s.unaccounted.length ∧ (s.startup.life = .inReset → s.held = 0)

/-- The terms of L3 have not reached their ceiling (R19). -/
def Tally1.below (t : Tally1) : Prop :=
  t.admitted < max32 ∧ t.settled < max32 ∧ t.quarantined < max32 ∧ t.orphaned < max32 ∧ t.writtenOff < max32

/-- L10 (R81). -/
def State.TransferLaw (s : State) : Prop := s.transfers ≤ 4 ∧ s.countBays Slot.isOffered ≤ 1

/-! ## Headroom -/

/-- The shares handed out (R58). -/
def State.shares (s : State) : Nat := (s.bays.toList.map (fun x => x.share.getD 0)).sum

/-- L7's bounds that stand between computations, and the sum of the shares (R58, R62). -/
def State.HeadroomLaw (s : State) : Prop :=
  s.headroom.limit ≤ s.ownClass ∧ s.headroom.allowance ≤ nodeMaxPower ∧ s.shares ≤ s.headroom.allowance

/-! ## Shredder -/

/-- L4 (R86). -/
def State.IntakeLaw (s : State) : Prop := s.intake ≤ intakeBound

/-- The valves, the stage timer and the flags belong to the atmosphere state (R112, R113, R116, R118), and the sample that
brings the qualification count to 30 ends PURGING (R115). -/
structure Atmos.Consistent (a : Atmos) : Prop where
  stage : a.stageTimer.isSome = decide (a.state = .purging)
  flood : a.flood = decide (a.state = .flood)
  opened : a.state = .purging ∨ a.state = .flood → a.purge = true
  closed : a.state = .air ∨ a.state = .lockout → a.purge = false
  flags : a.slow = true ∨ a.loss = true → a.state = .purging
  counts : a.qualify ≤ 30 ∧ a.disagree ≤ 5 ∧ a.lowPressure ≤ 10
  qualifying : a.state = .purging → a.qualify ≤ 29

/-- The rotor is commanded to turn. -/
def Rotor.commanded : Rotor → Bool
  | .starting => true
  | .running => true
  | .stopped => false
  | .stopping => false

/-- The outputs and timers of the feed controller belong to its states (R87, R91, R92, R93, R94, R97). -/
structure Feed.Consistent (f : Feed) (reserved : Bool) : Prop where
  run : f.run = f.rotor.commanded
  gate : f.gate = decide (f.kind = .active)
  active : f.kind = .active → f.rotor = .running
  start : f.startTimer.isSome = decide (f.rotor = .starting)
  stop : f.stopTimer.isSome = decide (f.rotor = .stopping)
  idle : f.idleTimer.isSome = true → f.rotor = .running ∧ f.queue = [] ∧ reserved = false
  feeding : f.kind ≠ .none → f.queue ≠ []
  timer : f.feedTimer.isSome = decide (f.kind ≠ .none)

/-- L8 (R105): the gate's and the rotor's conditions, through the permissive (R89). -/
def State.FeedLaw (s : State) : Prop :=
  s.atmos.Consistent ∧ s.feed.Consistent s.chute.reservation.isSome ∧
    (s.feed.rotor.commanded = true → s.permissive = true) ∧ (s.startup.life = .inReset → s.feed.kind = .none)

/-! ## Zone outputs and lamps -/

/-- The relays follow the zone (R136). -/
def State.RelayLaw (s : State) : Prop :=
  s.fire.fireRelay = decide (s.fire.zone = .fire) ∧ s.fire.preRelay = decide (s.fire.zone = .pre ∨ s.fire.zone = .fire)

/-- Every lamp shows the pattern of the state (R15, R136, R198). -/
def State.LampLaw (s : State) : Prop :=
  (∀ b : BayNo, (s.lamps.bays[b]).pattern = bayPattern s.startup.life (s.bay b).slot) ∧
    s.lamps.beacon.pattern = beaconPattern s.startup.life s.fire.zone s.fire.impaired ∧
    s.lamps.node.pattern = nodePattern s.startup.life

/-! ## Line link -/

/-- L11 (R200): outside RUNNING nothing is attempted, placed, timed or held for sending, and the node is not SILENT
(R153, R166). -/
structure State.Quiet (s : State) : Prop where
  attempt : s.link.attempt = none
  fifo : s.link.fifo = []
  replies : ∀ t : TerminalNo, s.link.replies[t] = none
  status : s.link.status = none
  tally : s.link.tally = none
  periods : s.link.statusTimer = none ∧ s.link.tallyTimer = none
  silent : s.view.silent = false ∧ s.view.silenceTimer = none

def State.SilenceLaw (s : State) : Prop := s.startup.life ≠ .running → s.Quiet

/-- The link state is what the error counts give, and the counts are in range (R167, R168, R169). -/
def State.LinkLaw (s : State) : Prop :=
  match s.link.state with
  | .active => s.link.txErrors < 128 ∧ s.link.rxErrors < 128
  | .passive => s.link.txErrors ≤ 255 ∧ s.link.rxErrors ≤ 255 ∧ (128 ≤ s.link.txErrors ∨ 128 ≤ s.link.rxErrors)
  | .off => s.link.txErrors = 256 ∧ s.link.rxErrors ≤ 255

/-- The pending set is in priority order with one entry a cause at most (R144, R145). -/
def State.LatchLaw (s : State) : Prop := s.latch.entries.Pairwise (fun a b => a.cause.priority < b.cause.priority)

/-- The pending handoff frames never pass the FIFO's depth (R163). -/
def State.FifoLaw (s : State) : Prop := s.link.fifo.length ≤ fifoDepth

/-- A REPLY that waits in its slot has a payload of at most 56 bytes (R177). -/
def State.ReplyLaw (s : State) : Prop := ∀ (t : TerminalNo) (r : Reply), s.link.replies[t] = some r → r.payload.length ≤ 56

/-! ## What reaches a block from the line

Frames and requests that pass every test of the controller, so that the block they are meant for takes them, and the
state in which it takes them. -/

/-- The place of the repeat filter of a node and of a terminal (R162). -/
def nodePlace (n : NodeNo) : Fin 15 := ⟨n.val, by omega⟩
def terminalPlace (t : TerminalNo) : Fin 15 := ⟨12 + t.val, by omega⟩

/-- The state after an error-free reception: the receive error count has fallen by 1, and the link state follows it
(R167, R168). -/
def State.eased (s : State) : State := s.setErrors s.link.txErrors (s.link.rxErrors - 1)

/-- The state in which a frame that passed the repeat filter is delivered: its bytes are held (R162). -/
def State.heard (s : State) (a : Fin 15) (bytes : List Byte) : State :=
  { s.eased with filter := s.filter.set a.val { bytes := some bytes, window := some repeatMs } a.isLt }

/-- The repeat filter discards these bytes from this source (R162). -/
def State.repeated (s : State) (a : Fin 15) (bytes : List Byte) : Bool :=
  decide ((s.filter[a]).bytes = some bytes) && (s.filter[a]).window.isSome

/-- A frame of node `n` for all nodes is delivered (R160, R161). -/
structure State.HearsAll (s : State) (src dst : Address) (n : NodeNo) : Prop where
  receiving : s.receiving = true
  source : src = nodeAddress n
  other : src ≠ s.startup.straps.node
  all : dst = 15

/-- A HANDOFF of node `n` is delivered to the handoff agent (R160, R161, R162). -/
structure State.HearsNode (s : State) (message : Byte) (f : HandoffFrame) (n : NodeNo) : Prop where
  receiving : s.receiving = true
  own : s.startup.straps.node.toNat ≤ 11
  source : f.src = nodeAddress n
  other : f.src ≠ s.startup.straps.node
  addressed : f.dst = s.startup.straps.node
  fresh : s.repeated (nodePlace n) (f.bytes message) = false

/-- A delivered HANDOFF carries a tag and the bay `b` (R63). -/
structure State.HearsHandoff (s : State) (message : Byte) (f : HandoffFrame) (n : NodeNo) (b : BayNo) : Prop extends
    s.HearsNode message f n where
  tag : f.tag ≠ 0
  bay : f.bay.toNat = b.val

/-- A REQUEST of terminal `t` is delivered to the request unit (R160, R161, R162). -/
structure State.HearsTerminal (s : State) (code : Byte) (f : RequestFrame) (t : TerminalNo) : Prop where
  receiving : s.receiving = true
  own : s.startup.straps.node.toNat ≤ 11
  source : f.src = terminalAddress t
  addressed : f.dst = s.startup.straps.node
  fresh : s.repeated (terminalPlace t) (f.bytes code) = false

/-- A REQUEST of terminal `t` is delivered to the request unit of a RUNNING node (R179). -/
structure State.HearsRequest (s : State) (code : Byte) (f : RequestFrame) (t : TerminalNo) : Prop extends
    s.HearsTerminal code f t where
  running : s.startup.life = .running

/-- A REQUEST that is evaluated: its terminal's slot is empty and no reset is pending (R179). -/
structure State.Evaluates (s : State) (code : Byte) (f : RequestFrame) (t : TerminalNo) : Prop extends
    s.HearsRequest code f t where
  slot : s.link.replies[t] = none
  noReset : s.requests.resetPending = false

/-- The state in which a REQUEST of terminal `t` is taken. -/
def State.asked (s : State) (code : Byte) (f : RequestFrame) (t : TerminalNo) : State :=
  s.heard (terminalPlace t) (f.bytes code)

/-- The state in which a HANDOFF of node `n` is taken. -/
def State.told (s : State) (message : Byte) (f : HandoffFrame) (n : NodeNo) : State :=
  s.heard (nodePlace n) (f.bytes message)

/-- The reply DONE (R180). -/
def State.replyDone (s : State) (code : Byte) (f : RequestFrame) (payload : List Byte) : Reply :=
  { code := code, reason := none, bay := f.bay, number := f.number, role := s.roleCode, payload := payload }

/-- The reply REFUSED with a reason (R180). -/
def State.replyRefused (s : State) (code : Byte) (f : RequestFrame) (reason : Reason) : Reply :=
  { code := code, reason := some reason, bay := f.bay, number := f.number, role := s.roleCode, payload := [] }

/-- The request is refused: the reply takes the terminal's slot, and no block's state changes (R180). -/
def State.refusing (s : State) (code : Byte) (f : RequestFrame) (t : TerminalNo) (reason : Reason) : State :=
  (s.asked code f t).placeReply t (s.replyRefused code f reason)

/-- The handoff FIFO after the handoff agent has placed a frame (R63, R163). -/
def State.fifoWith (s : State) (h : HandoffOut) : List HandoffOut :=
  if s.running = true ∧ s.link.fifo.length < fifoDepth then s.link.fifo ++ [h] else s.link.fifo

/-- T6 after the handoff agent has placed a frame: one that finds the FIFO full is dropped and counted (R163). -/
def State.t6With (s : State) : Tally6 :=
  if s.running = true ∧ fifoDepth ≤ s.link.fifo.length then
    { s.tally.t6 with handoffDropped := min (s.tally.t6.handoffDropped + 1) max32 }
  else s.tally.t6

/-- `e` is what `k` raises at the present node time make of the entry `o`, the last of them with this place and tag (R146):
a new entry counts the raises and has the node time of the first, and an entry that stood counts them on and keeps its
first time. -/
structure State.Folds (s : State) (k : Nat) (place : Place) (tag : Option Tag) (o : Option PendingEntry)
    (e : PendingEntry) : Prop where
  latest : e.place = place ∧ e.tag = tag
  new : o = none → e.count = min k 255 ∧ e.first = s.startup.nodeTime
  more : ∀ x : PendingEntry, o = some x → e.cause = x.cause ∧ e.count = min (x.count + k) 255 ∧ e.first = x.first

/-- `k` raises of a cause between `s` and `t`, the last of them with this place and tag (R146). Where an ALARM for the cause
is under attempt, they count apart as well, as raises taken after its frame was formed (R147). -/
structure State.RaisedTimes (s t : State) (k : Nat) (c : Cause) (place : Place) (tag : Option Tag) : Prop where
  entry : ∃ e ∈ t.latch.entries, e.cause = c ∧ s.Folds k place tag (findEntry c s.latch.entries) e
  after : ∀ a : Attempt, s.link.attempt = some a → a.buffer = .alarm c →
    ∃ e : PendingEntry, t.latch.after = some e ∧ (s.latch.after = none → e.cause = c) ∧ s.Folds k place tag s.latch.after e

/-- One raise of a cause between `s` and `t` (R146, R147). -/
abbrev State.RaisedIn (s t : State) (c : Cause) (place : Place) (tag : Option Tag) : Prop := s.RaisedTimes t 1 c place tag

/-- No raise between `s` and `t` but of the causes listed: the pending entries of every other cause stay as they are, and
so do the raises that count apart, where the ALARM under attempt is for none of the causes listed (R146, R147). -/
structure State.OthersPend (s t : State) (l : List Cause) : Prop where
  entries : ∀ o : PendingEntry, o.cause ∉ l → (o ∈ t.latch.entries ↔ o ∈ s.latch.entries)
  after : (∀ (a : Attempt) (c : Cause), s.link.attempt = some a → a.buffer = .alarm c → c ∉ l) →
    t.latch.after = s.latch.after

/-- One raise of a cause between `s` and `t`, and no other raise (R146, R147). -/
structure State.Raised (s t : State) (c : Cause) (place : Place) (tag : Option Tag) : Prop where
  raise : s.RaisedIn t c place tag
  others : s.OthersPend t [c]

/-- The fault record after entries handed in one after another at the present node time (R156, R157): the first entry
since power-on is kept, the last is the latest, and the count rises with each up to 65,535. -/
def State.faultsAfter (s : State) (l : List (FaultCause × Place × Option Tag)) : FaultRecord :=
  let es := l.map (fun x => FaultEntry.mk x.1 x.2.1 x.2.2 s.startup.nodeTime)
  { first := s.faults.first.or es.head?
    last := es.getLast?.or s.faults.last
    count := if l = [] then s.faults.count else min (s.faults.count + l.length) 65535 }

/-- From `s` to `t` a reason was added to the feed hold, when the command had made `f` of the feed controller before it
(R88): the reason joins those of `s`, its cause is raised, the fault record has the entry, and when the hold was empty
before, the permissive is lost, so that no feed is ACTIVE and the rotor is not commanded to turn (R89). -/
structure State.FeedHeld (s t : State) (f : Feed) (h : HoldReason) (c : FaultCause) (place : Place) (tag : Option Tag) :
    Prop where
  reason : t.feed.hold = match h with
    | .stray => { s.feed.hold with stray := true }
    | .feed => { s.feed.hold with feed := true }
    | .rotor => { s.feed.hold with rotor := true }
  feed : let g : Feed := { f with hold := t.feed.hold }
    t.feed = if s.feed.hold = { stray := false, feed := false, rotor := false } then g.losePermissive else g
  raised : s.Raised t (match h with | .stray => .strayPack | .feed => .feedFault | .rotor => .rotorFault) place tag
  fault : t.faults = s.faultsAfter [(c, place, tag)]
  stopped : s.feed.hold = { stray := false, feed := false, rotor := false } →
    t.feed.kind ≠ .active ∧ t.feed.rotor.commanded = false

/-- The WITHDRAWs that a line_fire places: one for each RELEASING bay with settle_early clear, to its target, in the order
of the bays (R73, log entry 8). -/
def State.recalls (s : State) : List HandoffOut :=
  ([0, 1, 2, 3] : List BayNo).filterMap (fun b =>
    match (s.bay b).slot with
    | .pack (.releasing n) r => if r.settleEarly then none else some (plainHandoff .withdraw n r.tag b)
    | _ => none)

/-- From `s` to `t` line_fire became true (R38, R73, R154, R163), with each record changed by `mark` beforehand (R137):
what it does to the bays, and the WITHDRAWs that go to the handoff FIFO while it has room. -/
structure State.LineFireStops (s t : State) (mark : Record → Record) : Prop where
  held : ∀ (b : BayNo) (st : PackState) (r : Record), (s.bay b).slot = .pack st r →
    st = .discharging ∨ st = .admitted ∨ st = .held .thermal →
    (t.bay b).slot = .pack (.held .lineStop) { mark r with setpoint := 0 } ∧ (t.bay b).contactor = false ∧
      (t.bay b).sink = 0 ∧ (t.bay b).share = none
  recalled : ∀ (b : BayNo) (n : NodeNo) (r : Record), (s.bay b).slot = .pack (.releasing n) r → r.settleEarly = false →
    (t.bay b).slot = .pack .safe { mark r with setpoint := 0 } ∧ (t.bay b).gate = false ∧
      (t.bay b).backoff = some 2000 ∧ (t.bay b).releaseTimer = none
  early : ∀ (b : BayNo) (n : NodeNo) (r : Record), (s.bay b).slot = .pack (.releasing n) r → r.settleEarly = true →
    t.bay b = { s.bay b with slot := .pack (.releasing n) (mark r) }
  kept : ∀ (b : BayNo) (st : PackState) (r : Record), (s.bay b).slot = .pack st r →
    st ≠ .discharging → st ≠ .admitted → st ≠ .held .thermal → (∀ n : NodeNo, st ≠ .releasing n) →
    t.bay b = { s.bay b with slot := .pack st (mark r) }
  free : ∀ b : BayNo, (s.bay b).slot.record = none → t.bay b = s.bay b
  told : t.link.fifo =
    if s.running = true then s.link.fifo ++ s.recalls.take (fifoDepth - s.link.fifo.length) else s.link.fifo
  dropped : t.tally.t6.handoffDropped =
    if s.running = true ∧ fifoDepth - s.link.fifo.length < s.recalls.length then
      min (s.tally.t6.handoffDropped + (s.recalls.length - (fifoDepth - s.link.fifo.length))) max32
    else s.tally.t6.handoffDropped

/-! ## Frames formed -/

/-- The content of a STATUS formed from `s` (R170, R177), all but its sequence. -/
structure State.StatusOf (s : State) (f : StatusFrame) : Prop where
  role : (s.role = some .bay → f.role = 0) ∧ (s.role = some .shred → f.role = 1) ∧ (s.role = some .watch → f.role = 2)
  lifecycle : s.startup.life = .running → f.lifecycle = 2
  zone : f.zone = if s.fire.zone = .normal then 0 else if s.fire.zone = .pre then 1 else 2
  straps : f.profile.toNat = s.startup.straps.profile.toNat ∧ f.power.toNat = s.startup.straps.power.toNat
  pending : f.pending = BitVec.ofNat 8 s.latch.entries.length
  time : f.time = s.startup.nodeTime
  causes : (∀ c : Cause, f.causes.getLsbD (c.priority - 1) = s.condition c) ∧ f.causes.toNat < 2 ^ 18
  flags : f.flags.getLsbD 0 = s.fire.impaired ∧ f.flags.getLsbD 1 = s.view.silent ∧
    f.flags.getLsbD 2 = s.view.lineFire ∧ f.flags.getLsbD 3 = s.view.linePre ∧ f.flags.toNat < 2 ^ 5
  admitting : s.role = some .bay → (f.flags.getLsbD 4 = true ↔
    s.fire.zone ≠ .fire ∧ s.fire.impaired = false ∧ s.view.lineFire = false ∧
      (∃ b : BayNo, (s.bay b).slot = .empty ∨ (s.bay b).slot = .orphan) ∧ s.l1Count + 1 ≤ s.capacity)
  accepting : s.role = some .shred → (f.flags.getLsbD 4 = true ↔
    s.atmos.state = .inert ∧ s.view.lineFire = false ∧ s.startup.life = .running ∧ s.view.silent = false ∧
      s.feed.hold = { stray := false, feed := false, rotor := false } ∧ s.chute.reservation = none ∧ s.feed.queue.length < 8)
  neither : s.role = some .watch → f.flags.getLsbD 4 = false
  spare : f.spare = 0
  bayBlock : s.role = some .bay →
    (f.block.extractLsb' 0 16).toNat = (s.bays.toList.map Bay.product).sum / 10000 % 65536 ∧
    (∀ b : BayNo, f.block.extractLsb' (16 + 8 * b.val) 8 = (s.bay b).slot.code) ∧
    f.block.extractLsb' 48 8 = BitVec.ofNat 8 (s.countBays (fun x => x.isSafe || x.isOffered)) ∧
    f.block.extractLsb' 56 8 = BitVec.ofNat 8 s.unaccounted.length ∧ f.block.extractLsb' 64 64 = 0
  shredBlock : s.role = some .shred →
    f.block.extractLsb' 0 8 = s.atmos.state.code ∧
    (f.block.extractLsb' 8 16).toNat = s.atmos.oxygen.getD 65535 % 65536 ∧
    f.block.extractLsb' 24 8 = BitVec.ofNat 8 s.feed.queue.length ∧
    f.block.extractLsb' 32 8 = (if s.chute.reservation = none then 0 else 1) ∧
    f.block.extractLsb' 40 8 = s.feed.rotor.code ∧ f.block.extractLsb' 48 80 = 0
  watchBlock : s.role = some .watch → f.block = 0

/-- The content of a TALLY formed from `s` with the tally store `y` (R171, R177), all but its sequence. -/
structure State.TallyOf (s : State) (y : Tally) (f : TallyFrame) : Prop where
  time : f.time = s.startup.nodeTime
  t1 : s.role = some .bay → f.record = 1 ∧
    (∀ i : Nat, i < 8 → (f.body.extractLsb' (32 * i) 32).toNat =
      min ([y.t1.admitted, y.t1.settled, y.t1.quarantined, y.t1.quarantinedOrphans, y.t1.orphaned, y.t1.writtenOff,
        y.t1.rejected, y.t1.readmitted].getD i 0) 4294967295) ∧ f.body.extractLsb' 256 208 = 0
  t4 : s.role = some .shred → f.record = 4 ∧
    (∀ n : NodeNo, (f.body.extractLsb' (32 * n.val) 32).toNat = min (y.t4.settledFrom[n]) 4294967295) ∧
    (f.body.extractLsb' 384 32).toNat = min y.t4.shredded 4294967295 ∧
    (f.body.extractLsb' 416 16).toNat = min y.t4.strays 65535 ∧
    (f.body.extractLsb' 432 16).toNat = min y.t4.arrivalMissed 65535 ∧
    (f.body.extractLsb' 448 16).toNat = min y.t4.rotorStarts 65535
  t6 : s.role = some .watch → f.record = 6 ∧
    (∀ i : Nat, i < 10 → (f.body.extractLsb' (32 * i) 32).toNat =
      min ([y.t6.preCount, y.t6.fireCount, y.t6.channelFaults, y.t6.alarmResets, y.t6.passiveEntries, y.t6.offEntries,
        y.t6.peersLost, y.t6.statusOverrun, y.t6.foreign, y.t6.handoffDropped].getD i 0) 4294967295) ∧
    f.body.extractLsb' 320 144 = 0

/-- From `s` to `t` an attempt ended, when the STATUS slot held `status` and the TALLY slot held `tally` (R147, R164,
R165): a formation that waited for the end is made, with a sequence of its own, and it counts an overrun where it replaces
a frame that was not sent. -/
structure State.AttemptEnds (s t : State) (status : Option StatusFrame) (tally : Option TallyFrame) : Prop where
  attempt : t.link.attempt = none
  after : t.latch.after = none
  due : t.link.statusDue = false ∧ t.link.tallyDue = false
  statusStays : s.link.statusDue = false → t.link.status = status ∧ t.link.statusSeq = s.link.statusSeq
  statusFormed : s.link.statusDue = true → t.link.statusSeq = s.link.statusSeq + 1 ∧
    ∃ f : StatusFrame, t.link.status = some f ∧ f.seq = s.link.statusSeq ∧ t.StatusOf f
  tallyStays : s.link.tallyDue = false → t.link.tally = tally ∧ t.link.tallySeq = s.link.tallySeq
  tallyFormed : s.link.tallyDue = true → t.link.tallySeq = s.link.tallySeq + 1 ∧
    ∃ f : TallyFrame, t.link.tally = some f ∧ f.seq = s.link.tallySeq ∧ (s.link.statusDue = false →
      t.TallyOf { t.tally with t6 := { t.tally.t6 with statusOverrun := s.tally.t6.statusOverrun } } f)
  overrun : t.tally.t6.statusOverrun =
    let replaced := (if s.link.statusDue = true ∧ status ≠ none then 1 else 0) +
      (if s.link.tallyDue = true ∧ tally ≠ none then 1 else 0)
    if replaced = 0 then s.tally.t6.statusOverrun else min (s.tally.t6.statusOverrun + replaced) max32

/-- From `s` to `t` the error counts became `tx` and `rx`, and the link state and its two tallies followed them
(R167, R168, R169). -/
structure State.Counted (s t : State) (tx rx : Nat) : Prop where
  within : tx ≤ 255 → t.link.txErrors = tx ∧ t.link.rxErrors = rx ∧
    t.link.state = if 128 ≤ tx ∨ 128 ≤ rx then .passive else .active
  passed : 255 < tx → t.link.state = .off ∧ t.link.sightings = 0
  passive : t.tally.t6.passiveEntries =
    if s.link.state = .active ∧ tx ≤ 255 ∧ (128 ≤ tx ∨ 128 ≤ rx) then min (s.tally.t6.passiveEntries + 1) max32
    else s.tally.t6.passiveEntries
  off : t.tally.t6.offEntries =
    if 255 < tx then min (s.tally.t6.offEntries + 1) max32 else s.tally.t6.offEntries

/-- The values that a power-on reset and a line reset leave alike, by the reset tables of the chapters (R16, R23, R24, R52,
R64, R74, R80, R87, R112, R126, R144, R153, R162, R163, R167, R169, R172, R178, R198). The readings before the first conversion
are log entry 5, the levels of the chute, feed-confirm and rotor sensors before their sampling log entry 24, and node time 0
within the reset log entry 6. -/
structure State.ResetValues (t : State) : Prop where
  startup : t.startup.life = .inReset ∧ t.startup.nodeTime = 0 ∧ t.startup.listenTimer = none
  bays : ∀ b : BayNo, t.bay b = {
    slot := .empty, contactor := false, sink := 0, prevSetpoint := 0, deviation := 0, restTimer := none, restOwed := false
    thermal := false, latest := { presence := false, v := none, i := none, t := none }, validT := none, convTimer := none
    share := none, product := 0, answerTimer := none, backoff := none, releaseTimer := none, transitTimer := none
    gate := false, jammed := false, stuck := false }
  headroom : t.headroom.basis = 0 ∧ t.headroom.others = 0 ∧ t.headroom.allowance = 0 ∧ t.headroom.timer = none
  handoff : t.handoff = { offerTimer := none, differences := 0 }
  chute : t.chute = { reservation := none, arrivalTimer := none, conveyor := false, sensor := false }
  feed : t.feed = {
    queue := t.feed.queue, rotor := .stopped, run := false, startTimer := none, stopTimer := none, idleTimer := none
    gate := false, feedTimer := none, kind := .none, hold := { stray := false, feed := false, rotor := false }
    flush := false, periodTimer := none, confirm := false, feedback := false }
  atmos : t.atmos = {
    state := .air, purge := false, flood := false, oxygen := none, o2ValidA := true, o2ValidB := true
    pressureValid := true, disagree := 0, qualify := 0, lowPressure := 0, stageTimer := none, slow := false, loss := false
    sampleTimer := none }
  channels : ∀ c : Fin 4, t.fire.channels[c] = {
    isolated := false, faulted := false, ring := [], source := { grade := .none, preMem := 31, fireMem := 31, run := none } }
  fire : t.fire = {
    zone := .normal, impaired := false, channels := t.fire.channels
    bayHeat := { grade := .none, preMem := 31, fireMem := 31, run := none }, clearCount := 0, fireRelay := false
    preRelay := false, sampleTimer := none }
  latch : t.latch = { entries := [], after := none }
  view : t.view = { lineFire := false, linePre := false, silent := false, silenceTimer := none }
  replies : ∀ p : TerminalNo, t.link.replies[p] = none
  link : t.link = {
    txErrors := 0, rxErrors := 0, state := .active, sightings := 0, attempt := none, fifo := [], replies := t.link.replies
    status := none, tally := none, statusSeq := 0, tallySeq := 0, alarmSeq := 0, statusTimer := none, tallyTimer := none
    statusDue := false, tallyDue := false }
  peers : ∀ n : NodeNo, t.peers[n] = { state := .absent, fields := none, gaps := 0, age := none }
  filter : ∀ a : Fin 15, t.filter[a] = { bytes := none, window := none }
  requests : (∀ p : TerminalNo, t.requests.held[p] = none) ∧ t.requests.resetPending = false
  lamps : (∀ b : BayNo, t.lamps.bays[b] = { pattern := .off, phase := 0 }) ∧
    t.lamps.beacon = { pattern := .off, phase := 0 } ∧ t.lamps.node = { pattern := .off, phase := 0 }

/-- From `s` to `t` a line reset with the cause `cause` begins (R16, R52, R85, R188, R196): the kept state stays, the
records are discarded and counted orphaned (log entry 6), every other state takes its value of after a reset, and the queue
of commands stays (log entry 26). -/
structure State.LineResetBegins (s t : State) (cause : ResetCause) : Prop where
  values : t.ResetValues
  startup : t.startup = { s.startup with life := .inReset, resetting := cause, nodeTime := 0, listenTimer := none }
  limit : t.headroom.limit = 6000 * (s.startup.straps.power.toNat + 1)
  store : t.store = s.store
  unaccounted : t.unaccounted = s.unaccounted
  queue : t.feed.queue = s.feed.queue.map (fun e => { e with wait := 0, feeding := false })
  faults : t.faults = s.faults
  tally : t.tally = { s.tally with t1 := { s.tally.t1 with
    orphaned := min (s.tally.t1.orphaned + s.held) 4294967295 } }
  pending : t.pending = s.pending

/-- The code and the frame of a request row; none for any other row. -/
def requestRow : Instr → Option (Byte × RequestFrame)
  | .admitPack f => some (1, f)
  | .abort f => some (2, f)
  | .resume f => some (3, f)
  | .quarantineIn f => some (4, f)
  | .quarantineOut f => some (5, f)
  | .accountClear f => some (6, f)
  | .alarmReset f => some (7, f)
  | .purgeReset f => some (8, f)
  | .flush f => some (9, f)
  | .shredReset f => some (10, f)
  | .peerForget f => some (11, f)
  | .readRecord f => some (12, f)
  | .readTally f => some (13, f)
  | .readQuarantine f => some (14, f)
  | .identify f => some (15, f)
  | .nodeReset f => some (16, f)
  | .unknownRequest code f => some (code, f)
  | .powerOnReset | .resetPinAsserted | .endOfReset _ | .listenTimerExpiry | .bayConversion _ _ | .restTimerExpiry _
  | .headroomComputation | .offerCheck | .answerTimerExpiry _ | .offerBackoffExpiry _ | .releaseTimerExpiry _
  | .transitTimerExpiry _ | .offerReceived _ | .takeReceived _ | .declineReceived _ | .withdrawReceived _
  | .settleReceived _ | .chuteArrival | .arrivalTimerExpiry | .feedPeriodExpiry | .rotorFeedbackOn
  | .rotorFeedbackOff | .startTimerExpiry | .stopTimerExpiry | .idleTimerExpiry | .feedConfirmSet | .feedTimerExpiry
  | .atmosSample _ | .purgeSlowDeadline | .purgeLockoutDeadline | .fireSample _ | .statusReceived _ _ _
  | .tallyReceived _ _ _ | .alarmReceived _ _ _ | .foreignFrameReceived _ | .receiveError | .peerAgeStale _
  | .peerAgeLost _ | .repeatWindowExpiry _ | .silenceTimerExpiry | .statusPeriodExpiry | .tallyPeriodExpiry
  | .transmitSelection | .transmitSuccess | .arbitrationLost | .transmitError _ | .busIdleSighting
  | .chuteArrivalSensorClear | .feedConfirmClear | .framePassedBy _ => none

/-- The message byte and the frame of a HANDOFF row; none for any other row. -/
def handoffRow : Instr → Option (Byte × HandoffFrame)
  | .offerReceived f => some (0, f)
  | .takeReceived f => some (1, f)
  | .declineReceived f => some (2, f)
  | .withdrawReceived f => some (3, f)
  | .settleReceived f => some (4, f)
  | .powerOnReset | .resetPinAsserted | .endOfReset _ | .listenTimerExpiry | .bayConversion _ _ | .restTimerExpiry _
  | .headroomComputation | .offerCheck | .answerTimerExpiry _ | .offerBackoffExpiry _ | .releaseTimerExpiry _
  | .transitTimerExpiry _ | .chuteArrival | .arrivalTimerExpiry | .feedPeriodExpiry | .rotorFeedbackOn
  | .rotorFeedbackOff | .startTimerExpiry | .stopTimerExpiry | .idleTimerExpiry | .feedConfirmSet | .feedTimerExpiry
  | .atmosSample _ | .purgeSlowDeadline | .purgeLockoutDeadline | .fireSample _ | .statusReceived _ _ _
  | .tallyReceived _ _ _ | .alarmReceived _ _ _ | .foreignFrameReceived _ | .receiveError | .peerAgeStale _
  | .peerAgeLost _ | .repeatWindowExpiry _ | .silenceTimerExpiry | .statusPeriodExpiry | .tallyPeriodExpiry
  | .transmitSelection | .transmitSuccess | .arbitrationLost | .transmitError _ | .busIdleSighting | .admitPack _
  | .abort _ | .resume _ | .quarantineIn _ | .quarantineOut _ | .accountClear _ | .alarmReset _ | .purgeReset _
  | .flush _ | .shredReset _ | .peerForget _ | .readRecord _ | .readTally _ | .readQuarantine _ | .identify _
  | .nodeReset _ | .unknownRequest _ _ | .chuteArrivalSensorClear | .feedConfirmClear | .framePassedBy _ => none

/-- Nothing but the bay `b` differs in the bay table. -/
def State.OthersStay (s t : State) (b : BayNo) : Prop := ∀ k : BayNo, k ≠ b → t.bay k = s.bay k

end Sys2Proof.Machine
end

