-- ==== Sys2Proof/WellFormed.lean ====
section
/-! DEFINITION. When a command is one that its row stands for. Every command is executed, whatever its operands, by
the rules of the spec; these checks say which operands make the row the frame's own row. -/

namespace Sys2Proof

/-- The frame is disallowed by its format, kind, length, source or destination, or is a HANDOFF with no known message
(R160, R161, R63), at a node that a destination 0 to 11 is taken to name. -/
def WireFrame.disallowed (w : WireFrame) : Bool :=
  w.classic || w.extended || decide (w.src = 15) || !sourceAllowed w.kind w.src || !destinationAllowed w.kind w.dst ||
    decide (kindLength w.kind ≠ some w.data.length) ||
    (decide (w.kind = kindHandoff) && decide (4 < fieldAt w.data 0 1))

/-- A CAN FD frame carries at most 64 data bytes. -/
def WireFrame.fits (w : WireFrame) : Bool := decide (w.data.length ≤ 64)

/-- The code stands in no row of the code table of requests (R177). -/
def unknownCode (code : Byte) : Bool := decide (code = 0 ∨ 16 < code.toNat)

/-- The row's own commands: UNKNOWN_REQUEST has a code outside the table (R180), FOREIGN_FRAME_RECEIVED a disallowed
frame (R160), FRAME_PASSED_BY a frame of an allowed format that is not addressed to all nodes (R160, tests 2 and 3). -/
def Instr.wellFormed : Instr → Bool
  | .unknownRequest code _ => unknownCode code
  | .foreignFrameReceived w => w.fits && w.disallowed
  | .framePassedBy w =>
    w.fits && !w.classic && !w.extended && decide (w.kind.toNat < 6) && decide (w.src ≠ 15) && decide (w.dst ≠ 15)
  | _ => true

end Sys2Proof
end

