-- ==== Sys2Proof/Certificates/Slice0/Obligations.lean ====
section
/-! DEFINITION. The statements: what the commands and the machine do, from the numbered rules of spec/. -/

section

open Sys2Proof Sys2Proof.Machine Sys2Proof.Config

/-! ### Steps and resets -/

/-- What a step is: the command at the front of the queue is executed on the state with the queue's rest. -/
def Obligations.StepRunsFrontCommand : Prop :=
  ∀ (c : Instr) (rest : List Instr) (s : State),
    s.pending = c :: rest → step s = exec c { s with pending := rest }

/-- The model's own choice (log entries 2 and 3): on an empty queue a step is one millisecond. Node time, the running
timers, the ages and the phases of the blinking lamps move, a timer that has run out waits at 0 and an age at its last
deadline, and nothing else of the state changes. In a reset nothing moves. -/
def Obligations.IdleStepMovesTheClock : Prop :=
  ∀ s : State, s.pending = [] → ∃ t : State, step s = .next t ∧
    (s.startup.life = .inReset → t = s) ∧
    (s.startup.life ≠ .inReset →
      let down := fun x : Timer => x.map (fun n => n - 1)
      let up := fun (limit : Nat) (x : Timer) => x.map (fun n => min (n + 1) limit)
      let moves := fun x y : Lamp => y.pattern = x.pattern ∧
        (x.pattern = .off ∨ x.pattern = .steady → y.phase = x.phase) ∧
        ∀ a b : Nat, x.pattern = .blink a b → y.phase = (x.phase + 1) % (a + b)
      t.startup = { s.startup with nodeTime := s.startup.nodeTime + 1, listenTimer := down s.startup.listenTimer } ∧
      (∀ b : BayNo, t.bay b = { s.bay b with
        restTimer := down (s.bay b).restTimer, convTimer := down (s.bay b).convTimer
        answerTimer := down (s.bay b).answerTimer, backoff := down (s.bay b).backoff
        releaseTimer := down (s.bay b).releaseTimer, transitTimer := down (s.bay b).transitTimer }) ∧
      t.headroom = { s.headroom with timer := down s.headroom.timer } ∧
      t.handoff = { s.handoff with offerTimer := down s.handoff.offerTimer } ∧
      t.chute = { s.chute with arrivalTimer := down s.chute.arrivalTimer } ∧
      t.feed = { s.feed with
        startTimer := down s.feed.startTimer, stopTimer := down s.feed.stopTimer, idleTimer := down s.feed.idleTimer
        feedTimer := down s.feed.feedTimer, periodTimer := down s.feed.periodTimer } ∧
      t.atmos = { s.atmos with stageTimer := up 1200000 s.atmos.stageTimer, sampleTimer := down s.atmos.sampleTimer } ∧
      t.fire = { s.fire with sampleTimer := down s.fire.sampleTimer } ∧
      t.view = { s.view with silenceTimer := down s.view.silenceTimer } ∧
      t.link = { s.link with statusTimer := down s.link.statusTimer, tallyTimer := down s.link.tallyTimer } ∧
      (∀ n : NodeNo, t.peers[n] = { s.peers[n] with age := up 1000 (s.peers[n]).age }) ∧
      (∀ a : Fin 15, t.filter[a] = { s.filter[a] with window := down (s.filter[a]).window }) ∧
      (∀ b : BayNo, moves s.lamps.bays[b] t.lamps.bays[b]) ∧ moves s.lamps.beacon t.lamps.beacon ∧
      moves s.lamps.node t.lamps.node ∧
      t = { s with
        startup := t.startup, bays := t.bays, headroom := t.headroom, handoff := t.handoff, chute := t.chute
        feed := t.feed, atmos := t.atmos, fire := t.fire, view := t.view, link := t.link, peers := t.peers
        filter := t.filter, lamps := t.lamps })

/-- The model's own reading and choice: every command of the table answers a next state, since no command faults or is
refused (log entry 25), and none touches the queue of those that wait, the resets included (log entry 26). -/
def Obligations.EveryCommandCompletes : Prop :=
  ∀ (c : Instr) (s : State), ∃ t : State, exec c s = .next t ∧ t.pending = s.pending

/-- How resets begin (R16, R79, R85, R112, R126, R144, R157, R163, R172, R178, R188, R196), with the values of the reset
tables written out in `State.ResetValues` and `State.LineResetBegins`: after a power-on reset every state has its initial
value, and a line reset keeps what R196 lists. The model's own readings and choices stand in it too: the straps, the cause
and the limit before the first END_OF_RESET (log entry 1), the readings before the first conversion (log entry 5) and the
sensor levels before their sampling (log entry 24), the records are discarded and counted orphaned at the start of a line
reset (log entry 6), the pin asserted within the reset of a NODE_RESET makes its cause PIN (log entry 7), and the queue of
commands stays (log entry 26). -/
def Obligations.ResetsBegin : Prop :=
  (∀ s : State, exec .powerOnReset s = .next { State.reset with pending := s.pending }) ∧
  State.reset.ResetValues ∧
  State.reset.startup = {
    life := .inReset, resetting := .powerOn, resetCause := .powerOn, lineResets := 0
    straps := { node := 0, role := 0, profile := 0, power := 0 }, nodeTime := 0, listenTimer := none } ∧
  State.reset.headroom.limit = 6000 ∧ State.reset.store = [] ∧ State.reset.unaccounted = [] ∧
  State.reset.feed.queue = [] ∧ State.reset.faults = { first := none, last := none, count := 0 } ∧
  State.reset.tally.t1 = ⟨0, 0, 0, 0, 0, 0, 0, 0⟩ ∧ State.reset.tally.t2 = ⟨0, 0, 0, 0, 0, 0⟩ ∧
  State.reset.tally.t3 = ⟨0, 0, 0, 0, 0⟩ ∧ (∀ n : NodeNo, State.reset.tally.t4.settledFrom[n] = 0) ∧
  State.reset.tally.t4 = ⟨State.reset.tally.t4.settledFrom, 0, 0, 0, 0, 0, 0, 0, 0, 0, 0⟩ ∧
  State.reset.tally.t5 = ⟨0, 0, 0, 0, 0⟩ ∧ State.reset.tally.t6 = ⟨0, 0, 0, 0, 0, 0, 0, 0, 0, 0⟩ ∧
  (∀ s : State, s.startup.life ≠ .inReset → ∃ t : State, exec .resetPinAsserted s = .next t ∧ s.LineResetBegins t .pin) ∧
  (∀ s : State, s.startup.life = .inReset → s.startup.resetting = .powerOn → exec .resetPinAsserted s = .next s) ∧
  (∀ s : State, s.startup.life = .inReset → s.startup.resetting ≠ .powerOn →
    exec .resetPinAsserted s = .next { s with startup := { s.startup with resetting := .pin } })

/-- What the end of a reset leaves (R1, R20, R52, R64, R77, R85, R87, R107, R127, R194, R196, R197): the sampled straps,
the lifecycle, the reset cause and count, node time 0, bays ORPHAN or EMPTY by presence, the kept collections by the role,
the line limit at the own class, and the periods of the role's blocks. The model's own readings stand in it too: the first
conversions and the first fire sample fall due at once as commands of their own (log entry 5), what needs the straps or
the sampled levels takes place here (log entry 6), the count rises at the end of each completed reset (log entry 7), the
bays of a node that is not BAY are EMPTY (log entry 16), and a HALTED node runs the periods of a BAY role but not those of
a SHRED role (log entry 17). -/
def Obligations.EndOfResetRebuilds : Prop :=
  ∀ (s : State) (e : ResetSample), s.startup.life = .inReset → ∃ t : State, exec (.endOfReset e) s = .next t ∧
    let valid := e.straps.node.toNat ≤ 11 ∧ e.straps.role.toNat ≤ 2
    t.startup.straps = e.straps ∧ t.startup.resetCause = s.startup.resetting ∧ t.startup.nodeTime = 0 ∧
    t.startup.resetting = s.startup.resetting ∧
    t.startup.lineResets =
      (if s.startup.resetting = .powerOn then 0 else min (s.startup.lineResets + 1) 65535) ∧
    (valid → t.startup.life = .listen ∧ t.startup.listenTimer = some 500) ∧
    (¬ valid → t.startup.life = .halted ∧ t.startup.listenTimer = none) ∧
    (∀ b : BayNo, t.bay b = {
      slot := if e.straps.role = 0 ∧ s.startup.resetting ≠ .powerOn ∧ e.presence[b] = true then .orphan else .empty
      latest := { presence := decide (e.straps.role = 0) && e.presence[b], v := none, i := none, t := none }
      convTimer := if e.straps.role = 0 then some 0 else none
      contactor := false, sink := 0, prevSetpoint := 0, deviation := 0, restTimer := none, restOwed := false
      thermal := false, validT := none, share := none, product := 0, answerTimer := none, backoff := none
      releaseTimer := none, transitTimer := none, gate := false, jammed := false, stuck := false }) ∧
    t.store = (if e.straps.role = 0 then s.store else []) ∧
    t.unaccounted = (if e.straps.role = 0 then s.unaccounted else []) ∧
    t.headroom = { s.headroom with
      limit := 6000 * (e.straps.power.toNat + 1), timer := if e.straps.role = 0 then some 100 else none } ∧
    t.handoff = { s.handoff with offerTimer := if e.straps.role = 0 then some 100 else none } ∧
    t.chute = { s.chute with sensor := decide (e.straps.role = 1) && e.chute } ∧
    t.feed = { s.feed with
      queue := if e.straps.role = 1 then s.feed.queue else []
      periodTimer := if e.straps.role = 1 ∧ valid then some 100 else none
      confirm := decide (e.straps.role = 1) && e.confirm, feedback := decide (e.straps.role = 1) && e.feedback } ∧
    t.atmos = { s.atmos with sampleTimer := if e.straps.role = 1 ∧ valid then some 1000 else none } ∧
    t.fire = { s.fire with sampleTimer := some 0 } ∧
    t = { s with
      startup := t.startup, bays := t.bays, store := t.store, unaccounted := t.unaccounted, headroom := t.headroom
      handoff := t.handoff, chute := t.chute, feed := t.feed, atmos := t.atmos, fire := t.fire, lamps := t.lamps }

/-- The entry to RUNNING (R114, R153, R165, R170, R171, R197): the silence timer and the two periods start, the first
STATUS and the first TALLY are formed, and at a SHRED node the purge starts, before the first STATUS (log entry 10). The
bays are left as they stand. -/
def Obligations.ListenExpiryEntersRunning : Prop :=
  ∀ (s : State) (n : Nat), s.startup.listenTimer = some n → ∃ t : State, exec .listenTimerExpiry s = .next t ∧
    t.startup = { s.startup with life := .running, listenTimer := none } ∧
    t.view = { s.view with silenceTimer := some 500 } ∧
    (∃ (f : StatusFrame) (g : TallyFrame),
      t.link = { s.link with statusTimer := some 100, tallyTimer := some 1000, status := some f, tally := some g
                             statusSeq := s.link.statusSeq + 1, tallySeq := s.link.tallySeq + 1 } ∧
      f.seq = s.link.statusSeq ∧ t.StatusOf f ∧ g.seq = s.link.tallySeq ∧
      (s.link.status = none → s.link.tally = none → t.TallyOf t.tally g ∧ t.tally.t6 = s.tally.t6)) ∧
    (s.isShred = true ∧ s.atmos.state = .air →
      t.atmos = { s.atmos with state := .purging, purge := true, flood := false, qualify := 0, stageTimer := some 0
                               slow := false, loss := false } ∧
      t.tally.t5 = { s.tally.t5 with purgeEntries := min (s.tally.t5.purgeEntries + 1) 4294967295 }) ∧
    (¬ (s.isShred = true ∧ s.atmos.state = .air) → t.atmos = s.atmos ∧ t.tally.t5 = s.tally.t5) ∧
    t = { s with startup := t.startup, view := t.view, link := t.link, atmos := t.atmos, lamps := t.lamps
                 tally := { s.tally with t5 := t.tally.t5, t6 := t.tally.t6 } }

/-! ### Discharge regulation -/

/-- The start check and the hold evaluation at a conversion (R21 to R23, R25, R26, R41, R42): the readings judged, the
thermal flag, and the four outcomes in their order, for a bay in ADMITTED and for a bay HELD for LINE_STOP or THERMAL. A bay
HELD for FAULT stays as it is at every conversion. -/
def Obligations.StartCheckAndHoldEvaluation : Prop :=
  ∀ (s : State) (b : BayNo) (x : BayReading) (r : Record),
    (s.bay b).convTimer.isSome = true → x.presence = true →
    let temp : Option Int := x.t.filter (fun c => decide (-40 ≤ c ∧ c ≤ 150))
    let m : Record := { r with
      lastV := if x.v ≤ 12000 then x.v else r.lastV, lastI := if x.i ≤ 6000 then x.i else r.lastI
      lastT := temp.getD r.lastT, peakT := (temp.map (max r.peakT)).getD r.peakT }
    let ok := x.v ≤ 12000 ∧ x.i ≤ 6000 ∧ temp ≠ none
    let hot := (∃ c : Int, temp = some c ∧ s.profile.tStop ≤ c) ∨
      ((s.bay b).thermal = true ∧ ∀ c : Int, temp = some c → s.profile.tDerate < c)
    ((s.bay b).slot = .pack .admitted r ∨ (s.bay b).slot = .pack (.held .lineStop) r ∨
        (s.bay b).slot = .pack (.held .thermal) r →
      ∃ t : State, exec (.bayConversion b x) s = .next t ∧
        let n : Record := { m with setpoint := 0 }
        (¬ ok → (t.bay b).slot = .pack (.held .fault) n ∧
          t.faults = s.faultsAfter [(.measurement, .bay b.val, some r.tag)]) ∧
        (ok → s.lineClear = false → (t.bay b).slot = .pack (.held .lineStop) n) ∧
        (ok → s.lineClear = true → hot → (t.bay b).slot = .pack (.held .thermal) n) ∧
        (ok → s.lineClear = true → ¬ hot →
          (t.bay b).slot = .pack .discharging { n with endCause := none } ∧
            (t.bay b).prevSetpoint = 0 ∧ (t.bay b).deviation = 0) ∧
        ((t.bay b).contactor = true ↔ ok ∧ s.lineClear = true ∧ ¬ hot) ∧ (t.bay b).sink = 0 ∧
        ((t.bay b).thermal = true ↔ hot) ∧ (ok → t.faults = s.faults) ∧ t.tally = s.tally ∧ s.OthersStay t b) ∧
    ((s.bay b).slot = .pack (.held .fault) r →
      ∃ t : State, exec (.bayConversion b x) s = .next t ∧
        (t.bay b).slot = .pack (.held .fault) m ∧ (t.bay b).contactor = (s.bay b).contactor ∧
        (t.bay b).sink = (s.bay b).sink ∧ (t.bay b).deviation = (s.bay b).deviation ∧
        (t.bay b).prevSetpoint = (s.bay b).prevSetpoint ∧ ((t.bay b).thermal = true ↔ hot) ∧ t.faults = s.faults ∧
        t.tally = s.tally ∧ s.OthersStay t b)

/-- A discharge sample that reaches stage 4 (R28 to R30, R34 to R37): charge, energy, time, and the new setpoint from
the derated limit, the taper limit, the power limit, the halving on line_pre and the ramp. -/
def Obligations.DischargeSampleSetsTheCurrent : Prop :=
  ∀ (s : State) (b : BayNo) (x : BayReading) (r : Record) (c : Int),
    (s.bay b).convTimer.isSome = true → x.presence = true → (s.bay b).slot = .pack .discharging r →
    x.v ≤ 12000 → x.i ≤ 6000 → x.t = some c → -40 ≤ c → c ≤ 150 →
    let prev := (s.bay b).prevSetpoint
    let p := s.profile
    let follows := x.i ≤ prev + (prev / 10 + 100) ∧ prev ≤ x.i + (prev / 10 + 100)
    (follows ∨ (s.bay b).deviation < 19) →
    (∀ k : Nat, r.capacity = some k → min (r.q + x.i) 4294967295 < k * 540000) →
    min (r.dischargeMs + 100) 4294967295 < r.timeLimit * 60000 →
    r.s * p.safeCell < x.v → c < p.tStop →
    let derate := if c ≤ p.tDerate then p.iMax else p.iMax * (p.tStop - c).toNat / (p.tStop - p.tDerate).toNat
    let power := min 6000 ((s.bay b).share.getD 0 * 10000 / max x.v 100)
    let least := if x.v ≤ r.s * p.taperCell then min (min derate power) p.iTaper else min derate power
    let set := min (if s.view.linePre = true then least / 2 else least) (prev + 200)
    ∃ t : State, exec (.bayConversion b x) s = .next t ∧
      (t.bay b).sink = set ∧ (t.bay b).prevSetpoint = set ∧ (t.bay b).contactor = (s.bay b).contactor ∧
      (t.bay b).product = x.v * x.i ∧ (t.bay b).share = (s.bay b).share ∧
      (follows → (t.bay b).deviation = 0) ∧ (¬ follows → (t.bay b).deviation = (s.bay b).deviation + 1) ∧
      (t.bay b).slot = .pack .discharging { r with
        q := min (r.q + x.i) 4294967295
        e := min (r.e + (r.eRem + x.v * x.i) / 100000) 4294967295
        eRem := (r.eRem + x.v * x.i) % 100000
        dischargeMs := min (r.dischargeMs + 100) 4294967295
        setpoint := set, lastV := x.v, lastI := x.i, lastT := c, peakT := max r.peakT c } ∧
      t.tally = s.tally ∧ t.faults = s.faults ∧ s.OthersStay t b

/-- The endings of a discharge sample in their order (R31 to R34): CHARGE_LIMIT, TIME_LIMIT, SAFE_VOLTAGE, and the thermal
hold. In each the contactor opens and the sink goes to 0, and the sample's charge and energy stand. -/
def Obligations.DischargeSampleEndings : Prop :=
  ∀ (s : State) (b : BayNo) (x : BayReading) (r : Record) (c : Int),
    (s.bay b).convTimer.isSome = true → x.presence = true → (s.bay b).slot = .pack .discharging r →
    x.v ≤ 12000 → x.i ≤ 6000 → x.t = some c → -40 ≤ c → c ≤ 150 →
    let prev := (s.bay b).prevSetpoint
    let p := s.profile
    ((x.i ≤ prev + (prev / 10 + 100) ∧ prev ≤ x.i + (prev / 10 + 100)) ∨ (s.bay b).deviation < 19) →
    let m : Record := { r with
      q := min (r.q + x.i) 4294967295
      e := min (r.e + (r.eRem + x.v * x.i) / 100000) 4294967295
      eRem := (r.eRem + x.v * x.i) % 100000
      dischargeMs := min (r.dischargeMs + 100) 4294967295
      setpoint := 0, lastV := x.v, lastI := x.i, lastT := c, peakT := max r.peakT c }
    let charged := ∃ k : Nat, r.capacity = some k ∧ k * 540000 ≤ m.q
    let timed := r.timeLimit * 60000 ≤ m.dischargeMs
    let safe := x.v ≤ r.s * p.safeCell
    charged ∨ timed ∨ safe ∨ p.tStop ≤ c →
    ∃ t : State, exec (.bayConversion b x) s = .next t ∧
      (charged → (t.bay b).slot = .pack .rejected { m with endCause := some .chargeLimit }) ∧
      (¬ charged → timed → (t.bay b).slot = .pack .rejected { m with endCause := some .timeLimit }) ∧
      (charged ∨ timed → t.tally = { s.tally with t1 := { s.tally.t1 with
        rejected := min (s.tally.t1.rejected + 1) 4294967295 } }) ∧
      (¬ charged → ¬ timed → safe →
        (t.bay b).slot = .pack .resting { m with endCause := some .safeVoltage, restStartV := some x.v } ∧
        (t.bay b).restTimer = some (p.restSeconds * 1000) ∧ (t.bay b).restOwed = false) ∧
      (¬ charged → ¬ timed → ¬ safe → (t.bay b).slot = .pack (.held .thermal) m) ∧
      (¬ charged → ¬ timed → t.tally = s.tally) ∧
      (t.bay b).contactor = false ∧ (t.bay b).sink = 0 ∧ (t.bay b).share = none ∧
      (t.bay b).product = x.v * x.i ∧ (t.bay b).prevSetpoint = prev ∧ t.faults = s.faults ∧ s.OthersStay t b

/-- A discharge sample that ends at stage 1 (R27, R28, R42): an invalid reading, or the twentieth excessive deviation in a
row. Nothing is integrated, the bay is HELD for FAULT, and the fault record takes an entry. That the deviation count then
stands at 20 is the model's own choice (log entry 27). -/
def Obligations.DischargeSampleFaults : Prop :=
  ∀ (s : State) (b : BayNo) (x : BayReading) (r : Record),
    (s.bay b).convTimer.isSome = true → x.presence = true → (s.bay b).slot = .pack .discharging r →
    let prev := (s.bay b).prevSetpoint
    let invalid := ¬ (x.v ≤ 12000 ∧ x.i ≤ 6000 ∧ ∃ c : Int, x.t = some c ∧ -40 ≤ c ∧ c ≤ 150)
    let deviates := ¬ (x.i ≤ prev + (prev / 10 + 100) ∧ prev ≤ x.i + (prev / 10 + 100)) ∧ 19 ≤ (s.bay b).deviation
    invalid ∨ deviates →
    ∃ t : State, exec (.bayConversion b x) s = .next t ∧
      (t.bay b).slot = .pack (.held .fault) { r.measure (judgeBay x) with setpoint := 0 } ∧
      (t.bay b).contactor = false ∧ (t.bay b).sink = 0 ∧ (t.bay b).product = 0 ∧ (t.bay b).prevSetpoint = prev ∧
      (invalid → t.faults = s.faultsAfter [(.measurement, .bay b.val, some r.tag)] ∧
        (t.bay b).deviation = (s.bay b).deviation) ∧
      (¬ invalid → t.faults = s.faultsAfter [(.deviation, .bay b.val, some r.tag)] ∧ (t.bay b).deviation = 20) ∧
      t.tally = s.tally ∧ s.OthersStay t b

/-- A conversion that shows presence cleared (R8, R9, R69, R70, R72, R163), in every state that holds a record: the loss of the
pack, the departure of a released one, and the end of an early settle. -/
def Obligations.PresenceClears : Prop :=
  ∀ (s : State) (b : BayNo) (x : BayReading) (st : PackState) (r : Record),
    (s.bay b).convTimer.isSome = true → x.presence = false → (s.bay b).slot = .pack st r →
    ∃ t : State, exec (.bayConversion b x) s = .next t ∧
      let m := r.measure (judgeBay x)
      (st = .admitted ∨ st = .discharging ∨ (∃ c, st = .held c) ∨ st = .resting ∨ st = .safe →
        (t.bay b).slot = .pack .missing { m with setpoint := 0 } ∧ (t.bay b).contactor = false ∧
        (t.bay b).sink = 0 ∧ (t.bay b).restTimer = none ∧ (t.bay b).restOwed = false ∧ (t.bay b).backoff = none ∧
        (t.bay b).deviation = 0 ∧ t.link = s.link ∧ t.tally = s.tally) ∧
      (∀ n : NodeNo, st = .offered n →
        (t.bay b).slot = .pack .missing { m with setpoint := 0 } ∧ (t.bay b).answerTimer = none ∧
        t.link = { s.link with fifo := s.fifoWith (plainHandoff .withdraw n r.tag b) } ∧
        t.tally = { s.tally with t6 := s.t6With }) ∧
      (∀ n : NodeNo, st = .releasing n → r.settleEarly = false →
        (t.bay b).slot = .pack (.inTransit n) { m with setpoint := 0 } ∧ (t.bay b).gate = false ∧
        (t.bay b).releaseTimer = none ∧ (t.bay b).transitTimer = some 40000 ∧ t.link = s.link ∧ t.tally = s.tally) ∧
      (∀ n : NodeNo, st = .releasing n → r.settleEarly = true →
        (t.bay b).slot = .empty ∧ (t.bay b).releaseTimer = none ∧ t.link = s.link ∧
        t.tally = { s.tally with t1 := { s.tally.t1 with settled := min (s.tally.t1.settled + 1) 4294967295 } }) ∧
      ((∃ n, st = .inTransit n) ∨ st = .rejected ∨ st = .missing →
        (t.bay b).slot = .pack st m ∧ (t.bay b).transitTimer = (s.bay b).transitTimer ∧ t.link = s.link ∧
        t.tally = s.tally) ∧
      (t.bay b).stuck = false ∧ t.faults = s.faults ∧ s.OthersStay t b

/-- What every conversion does, whatever the bay's state (R20, R23, R47, R48): the thermal flag and the latest valid T
follow the temperature read, BAY_OVERHEAT is raised at its onset, and the conversion reaches its own bay, the latch and the
fault record, the handoff FIFO, and three tallies at most. A conversion that moves no bay (R9, R20, R22, R70) keeps the bay's
state, and its record apart from its measurements: EMPTY and ORPHAN with presence set or cleared, SAFE, OFFERED and RELEASING
with presence set, and IN_TRANSIT, REJECTED and MISSING with presence set or cleared. A conversion while the conversion timer is stopped changes
nothing, which is the model's own choice (log entry 4). -/
def Obligations.ConversionFrame : Prop :=
  ∀ (s : State) (b : BayNo) (x : BayReading), ∃ t : State, exec (.bayConversion b x) s = .next t ∧
    ((s.bay b).convTimer.isSome = true →
      let temp : Option Int := x.t.filter (fun c => decide (-40 ≤ c ∧ c ≤ 150))
      (t.bay b).convTimer = some 100 ∧
      (t.bay b).latest = { presence := x.presence, v := if x.v ≤ 12000 then some x.v else none
                           i := if x.i ≤ 6000 then some x.i else none, t := temp } ∧
      (temp = none → (t.bay b).thermal = (s.bay b).thermal ∧ (t.bay b).validT = (s.bay b).validT) ∧
      (∀ c : Int, temp = some c → (t.bay b).validT = some c ∧
        (s.profile.tStop ≤ c → (t.bay b).thermal = true) ∧ (c ≤ s.profile.tDerate → (t.bay b).thermal = false) ∧
        (s.profile.tDerate < c → c < s.profile.tStop → (t.bay b).thermal = (s.bay b).thermal)) ∧
      let heated := fun u : State => ∃ (k : BayNo) (r : Record), (u.bay k).slot.record = some r ∧ 80 ≤ r.lastT
      (¬ heated s → heated t → ∃ r : Record, (t.bay b).slot.record = some r ∧ 80 ≤ r.lastT ∧
        s.Raised t .bayOverheat (.bay b.val) (some r.tag)) ∧
      (heated s ∨ ¬ heated t → t.latch = s.latch) ∧
      let stays := fun y : Slot =>
        t.bay b = { s.bay b with
          slot := y, latest := (t.bay b).latest, convTimer := some 100, thermal := (t.bay b).thermal
          validT := (t.bay b).validT, product := 0, stuck := (s.bay b).stuck && x.presence } ∧
        t.faults = s.faults ∧ t.link = s.link ∧ t.tally = s.tally
      let measured := fun r : Record => { r with
        lastV := if x.v ≤ 12000 then x.v else r.lastV, lastI := if x.i ≤ 6000 then x.i else r.lastI
        lastT := temp.getD r.lastT, peakT := (temp.map (max r.peakT)).getD r.peakT }
      ((s.bay b).slot = .empty ∨ (s.bay b).slot = .orphan → stays (s.bay b).slot) ∧
      (∀ (st : PackState) (r : Record), (s.bay b).slot = .pack st r →
        (st = .safe ∨ (∃ n, st = .offered n ∨ st = .releasing n) → x.presence = true →
          stays (.pack st (measured r))) ∧
        ((∃ n, st = .inTransit n) ∨ st = .rejected ∨ st = .missing → stays (.pack st (measured r))))) ∧
    s.OthersStay t b ∧ t.link = { s.link with fifo := t.link.fifo } ∧
    t.tally.t1 = { s.tally.t1 with settled := t.tally.t1.settled, rejected := t.tally.t1.rejected } ∧
    t.tally.t6 = { s.tally.t6 with handoffDropped := t.tally.t6.handoffDropped } ∧
    t = { s with bays := t.bays, latch := t.latch, faults := t.faults, link := t.link, lamps := t.lamps
                 tally := { s.tally with t1 := t.tally.t1, t2 := t.tally.t2, t6 := t.tally.t6 } } ∧
    ((s.bay b).convTimer = none → t = s)

/-- The end of a rest (R45, R46): the rebound test with the latest valid V at the expiry of the rest timer, or the test
owed; and the owed test made at the first conversion with a valid V, a bay that is not owed one being left in RESTING. -/
def Obligations.RestEndsByTheReboundTest : Prop :=
  let tested := fun (s t : State) (b : BayNo) (r : Record) (v : Nat) (hot : Prop) =>
    let m : Record := { r with setpoint := 0, reboundV := some v }
    (t.bay b).restTimer = none ∧ (t.bay b).restOwed = false ∧
    (v ≤ r.s * s.profile.reboundLimit →
      (t.bay b).slot = .pack .safe m ∧
      t.tally = { s.tally with t2 :=
        { completed := min (s.tally.t2.completed + 1) 4294967295
          charge := min (s.tally.t2.charge + r.q / 3600) 18446744073709551615
          energy := min (s.tally.t2.energy + r.e) 18446744073709551615
          time := min (s.tally.t2.time + r.dischargeMs / 1000) 18446744073709551615
          maxTime := max s.tally.t2.maxTime (r.dischargeMs / 1000)
          maxEnergy := max s.tally.t2.maxEnergy r.e } }) ∧
    (r.s * s.profile.reboundLimit < v → r.round < s.profile.maxRounds →
      (s.lineClear = false → (t.bay b).slot = .pack (.held .lineStop) { m with round := r.round + 1 }) ∧
      (s.lineClear = true → hot → (t.bay b).slot = .pack (.held .thermal) { m with round := r.round + 1 }) ∧
      (s.lineClear = true → ¬ hot →
        (t.bay b).slot = .pack .discharging { m with round := r.round + 1, endCause := none } ∧
        (t.bay b).contactor = true ∧ (t.bay b).sink = 0 ∧ (t.bay b).prevSetpoint = 0) ∧
      t.tally = s.tally) ∧
    (r.s * s.profile.reboundLimit < v → s.profile.maxRounds ≤ r.round →
      (t.bay b).slot = .pack .rejected { m with endCause := some .rebound } ∧
      t.tally = { s.tally with t1 := { s.tally.t1 with
        rejected := min (s.tally.t1.rejected + 1) 4294967295 } }) ∧
    t.faults = s.faults
  (∀ (s : State) (b : BayNo) (r : Record) (n : Nat),
    (s.bay b).restTimer = some n → (s.bay b).slot = .pack .resting r →
    ∃ t : State, exec (.restTimerExpiry b) s = .next t ∧
      ((s.bay b).latest.v = none →
        t.bay b = { s.bay b with restTimer := none, restOwed := true } ∧ t.tally = s.tally) ∧
      (∀ v : Nat, (s.bay b).latest.v = some v → tested s t b r v ((s.bay b).thermal = true)) ∧
      s.OthersStay t b ∧ t = { s with bays := t.bays, tally := t.tally, lamps := t.lamps }) ∧
  (∀ (s : State) (b : BayNo) (x : BayReading) (r : Record),
    (s.bay b).convTimer.isSome = true → x.presence = true → (s.bay b).slot = .pack .resting r →
    ∃ t : State, exec (.bayConversion b x) s = .next t ∧
      let temp : Option Int := x.t.filter (fun c => decide (-40 ≤ c ∧ c ≤ 150))
      let m : Record := { r with
        lastV := if x.v ≤ 12000 then x.v else r.lastV, lastI := if x.i ≤ 6000 then x.i else r.lastI
        lastT := temp.getD r.lastT, peakT := (temp.map (max r.peakT)).getD r.peakT }
      let hot := (∃ c : Int, temp = some c ∧ s.profile.tStop ≤ c) ∨
        ((s.bay b).thermal = true ∧ ∀ c : Int, temp = some c → s.profile.tDerate < c)
      ((s.bay b).restOwed = true → x.v ≤ 12000 → tested s t b m x.v hot) ∧
      ((s.bay b).restOwed = false ∨ 12000 < x.v →
        (t.bay b).slot = .pack .resting m ∧ (t.bay b).restOwed = (s.bay b).restOwed ∧
        (t.bay b).restTimer = (s.bay b).restTimer ∧ t.tally = s.tally ∧ t.faults = s.faults) ∧
      s.OthersStay t b)

/-- RESUME (R43): refused BAY_STATE unless the bay is HELD for FAULT, refused NOT_CLEAR while a reading is invalid, and
otherwise the outcomes 2 to 4 of the hold evaluation at once. -/
def Obligations.ResumeLeavesAFaultHold : Prop :=
  ∀ (s : State) (f : RequestFrame) (p : TerminalNo) (b : BayNo),
    s.Evaluates 3 f p → s.isBay = true → f.bay.toNat = b.val →
    let replies := fun (t : State) (payload : List Byte) =>
      t.link.replies = s.link.replies.set p.val (some (s.replyDone 3 f payload)) p.isLt
    ((∀ r : Record, (s.bay b).slot ≠ .pack (.held .fault) r) →
      exec (.resume f) s = .next (s.refusing 3 f p .bayState)) ∧
    (∀ r : Record, (s.bay b).slot = .pack (.held .fault) r → (s.bay b).latest.valid = false →
      exec (.resume f) s = .next (s.refusing 3 f p .notClear)) ∧
    (∀ r : Record, (s.bay b).slot = .pack (.held .fault) r → (s.bay b).latest.valid = true →
      ∃ t : State, exec (.resume f) s = .next t ∧
        let m : Record := { r with setpoint := 0 }
        (s.lineClear = false → (t.bay b).slot = .pack (.held .lineStop) m ∧ replies t [4, 1]) ∧
        (s.lineClear = true → (s.bay b).thermal = true → (t.bay b).slot = .pack (.held .thermal) m ∧
          replies t [4, 2]) ∧
        (s.lineClear = true → (s.bay b).thermal = false →
          (t.bay b).slot = .pack .discharging { m with endCause := none } ∧ (t.bay b).contactor = true ∧
          (t.bay b).prevSetpoint = 0 ∧ replies t [3, 0]) ∧
        (t.bay b).deviation = 0 ∧ (t.bay b).sink = 0 ∧ s.OthersStay t b ∧
        t = { s.asked 3 f p with bays := t.bays, lamps := t.lamps
                                 link := { (s.asked 3 f p).link with replies := t.link.replies } })

/-! ### Headroom -/

/-- One headroom computation (R55 to R58): the line limit, the sum of the others, the allowance and the shares. -/
def Obligations.HeadroomComputation : Prop :=
  ∀ (s : State) (n : Nat), s.headroom.timer = some n → ∃ t : State, exec .headroomComputation s = .next t ∧
    t.headroom.limit ≤ s.ownClass ∧
    (∀ (k : NodeNo) (w : Nat), (s.peers[k]).watts = some w → t.headroom.limit ≤ w) ∧
    (t.headroom.limit = s.ownClass ∨ ∃ k : NodeNo, (s.peers[k]).watts = some t.headroom.limit) ∧
    t.headroom.others = (s.peers.toList.map Peer.power).sum ∧
    t.headroom.allowance =
      min 8000 (min (t.headroom.limit - t.headroom.others) (s.headroom.basis + 250)) ∧
    (∀ b : BayNo, t.bay b = { s.bay b with
      share := if (s.bay b).slot.isDischarging = true then
          some (t.headroom.allowance / s.countBays Slot.isDischarging)
        else none }) ∧
    t.headroom.basis = s.headroom.basis ∧ t.headroom.timer = some 100 ∧
    t = { s with bays := t.bays, headroom := t.headroom }

/-! ### Handoff -/

/-- The offer check (R65, R66, R163): the lowest eligible bay is offered to the lowest accepting SHRED peer, with the OFFER in
the handoff FIFO, or dropped and counted where that is full; when no bay is eligible the check does nothing but start its
period again. -/
def Obligations.OfferCheck : Prop :=
  ∀ (s : State) (k : Nat), s.handoff.offerTimer = some k → ∃ t : State, exec .offerCheck s = .next t ∧
    t.handoff = { s.handoff with offerTimer := some 100 } ∧
    let ready := s.lineClear = true ∧ s.countBays Slot.isOffered = 0 ∧ s.transfers < 4
    let can := fun b : BayNo =>
      ∃ r : Record, (s.bay b).slot = .pack .safe r ∧ (s.bay b).backoff = none ∧ r.fireExposed = false
    let takes := fun n : NodeNo => (s.peers[n]).acceptingShred = true
    (∀ (b : BayNo) (n : NodeNo) (r : Record), ready → can b → (s.bay b).slot = .pack .safe r →
      (∀ i : BayNo, i < b → ¬ can i) → takes n → (∀ i : NodeNo, i < n → ¬ takes i) →
      (t.bay b).slot = .pack (.offered n) { r with setpoint := 0, offers := min (r.offers + 1) 255 } ∧
      (t.bay b).answerTimer = some 500 ∧ (t.bay b).contactor = false ∧ (t.bay b).gate = false ∧
      t.link = { s.link with
        fifo := s.fifoWith { dst := n, message := .offer, bay := b, s := r.s, reason := none, tag := r.tag
                             energy := r.e, restV := r.reboundV.getD 0 } } ∧
      t.tally = { s.tally with t3 := { s.tally.t3 with offers := min (s.tally.t3.offers + 1) 4294967295 }
                               t6 := s.t6With } ∧
      s.OthersStay t b ∧
      t = { s with bays := t.bays, handoff := t.handoff, link := t.link, tally := t.tally, lamps := t.lamps }) ∧
    (¬ ready ∨ (∀ b : BayNo, ¬ can b) ∨ (∀ n : NodeNo, ¬ takes n) → t = { s with handoff := t.handoff })

/-- The four timers of a bay's handoff: the answer timer (R67), the offer backoff (R64), the release timer (R69, R72, R163)
and the transit timer (R70): the return to SAFE, a jam, a settle with a stuck sensor, and a pack that moves to the unaccounted
list. -/
def Obligations.HandoffTimersExpire : Prop :=
  (∀ (s : State) (b : BayNo) (k : Nat) (n : NodeNo) (r : Record),
    (s.bay b).answerTimer = some k → (s.bay b).slot = .pack (.offered n) r →
    ∃ t : State, exec (.answerTimerExpiry b) s = .next t ∧
      (t.bay b).slot = .pack .safe { r with setpoint := 0 } ∧ (t.bay b).slot.target = none ∧
      (t.bay b).backoff = some 2000 ∧ (t.bay b).answerTimer = none ∧ s.OthersStay t b ∧
      t = { s with bays := t.bays, lamps := t.lamps }) ∧
  (∀ (s : State) (b : BayNo), ∃ t : State, exec (.offerBackoffExpiry b) s = .next t ∧
    t.bay b = { s.bay b with backoff := none } ∧ s.OthersStay t b ∧ t = { s with bays := t.bays }) ∧
  (∀ (s : State) (b : BayNo) (k : Nat) (n : NodeNo) (r : Record),
    (s.bay b).releaseTimer = some k → (s.bay b).slot = .pack (.releasing n) r →
    ∃ t : State, exec (.releaseTimerExpiry b) s = .next t ∧
      (t.bay b).gate = false ∧ (t.bay b).releaseTimer = none ∧ s.OthersStay t b ∧
      (r.settleEarly = false →
        (t.bay b).slot = .pack .safe { r with setpoint := 0 } ∧ (t.bay b).backoff = some 2000 ∧
        (t.bay b).jammed = true ∧ s.Raised t .jam (.bay b.val) (some r.tag) ∧
        t.link = { s.link with fifo := s.fifoWith (plainHandoff .withdraw n r.tag b) } ∧
        t.tally = { s.tally with t3 := { s.tally.t3 with jams := min (s.tally.t3.jams + 1) 4294967295 }
                                 t6 := s.t6With }) ∧
      (r.settleEarly = true →
        (t.bay b).slot = .empty ∧ (t.bay b).stuck = true ∧ s.Raised t .sensorStuck (.bay b.val) (some r.tag) ∧
        t.link = s.link ∧
        t.tally = { s.tally with t1 := { s.tally.t1 with settled := min (s.tally.t1.settled + 1) 4294967295 } }) ∧
      t = { s with bays := t.bays, latch := t.latch, link := t.link, tally := t.tally, lamps := t.lamps }) ∧
  (∀ (s : State) (b : BayNo) (k : Nat) (n : NodeNo) (r : Record),
    (s.bay b).transitTimer = some k → (s.bay b).slot = .pack (.inTransit n) r →
    ∃ t : State, exec (.transitTimerExpiry b) s = .next t ∧
      (t.bay b).slot = .empty ∧ (t.bay b).transitTimer = none ∧ s.OthersStay t b ∧
      t.unaccounted = s.unaccounted ++ [{ tag := r.tag, bay := b, shred := n, time := s.startup.nodeTime }] ∧
      t.tally = { s.tally with t3 := { s.tally.t3 with
        transitLost := min (s.tally.t3.transitLost + 1) 4294967295 } } ∧
      (s.unaccounted = [] → s.Raised t .transitLost (.bay b.val) (some r.tag)) ∧
      (s.unaccounted ≠ [] → t.latch = s.latch) ∧
      t = { s with bays := t.bays, unaccounted := t.unaccounted, latch := t.latch, tally := t.tally
                   lamps := t.lamps })

/-- TAKE and DECLINE at a RUNNING BAY node (R67, R68, R163): a match ends the offer, and what matches nothing is answered
with a WITHDRAW or counted foreign. A WITHDRAW that finds the FIFO full is dropped and counted. -/
def Obligations.AnswersToAnOffer : Prop :=
  (∀ (s : State) (f : HandoffFrame) (n : NodeNo) (b : BayNo), s.HearsHandoff 1 f n b → s.isBay = true →
    s.startup.life = .running → ∃ t : State, exec (.takeReceived f) s = .next t ∧
      let u := s.told 1 f n
      let w := plainHandoff .withdraw n f.tag b
      (∀ r : Record, (s.bay b).slot = .pack (.offered n) r → r.tag = f.tag →
        s.lineClear = true → r.fireExposed = false →
        (t.bay b).slot = .pack (.releasing n) { r with setpoint := 0 } ∧ (t.bay b).gate = true ∧
        (t.bay b).releaseTimer = some 20000 ∧ (t.bay b).answerTimer = none ∧ t.link = u.link ∧ t.tally = u.tally) ∧
      (∀ r : Record, (s.bay b).slot = .pack (.offered n) r → r.tag = f.tag →
        s.lineClear = false ∨ r.fireExposed = true →
        (t.bay b).slot = .pack .safe { r with setpoint := 0 } ∧ (t.bay b).gate = false ∧
        (t.bay b).backoff = some 2000 ∧ (t.bay b).answerTimer = none ∧
        t.link = { u.link with fifo := s.fifoWith w } ∧ t.tally = { u.tally with t6 := u.t6With }) ∧
      ((∀ r : Record, (s.bay b).slot = .pack (.offered n) r → r.tag ≠ f.tag) →
        t.bays = s.bays ∧ t.link = { u.link with fifo := s.fifoWith w } ∧
        t.tally = { u.tally with t6 := u.t6With }) ∧
      s.OthersStay t b ∧
      t = { u with bays := t.bays, link := { u.link with fifo := t.link.fifo }, lamps := t.lamps
                   tally := { u.tally with t6 := t.tally.t6 } }) ∧
  (∀ (s : State) (f : HandoffFrame) (n : NodeNo) (b : BayNo), s.HearsHandoff 2 f n b → s.isBay = true →
    s.startup.life = .running → ∃ t : State, exec (.declineReceived f) s = .next t ∧
      let u := s.told 2 f n
      (∀ r : Record, (s.bay b).slot = .pack (.offered n) r → r.tag = f.tag →
        (t.bay b).slot = .pack .safe { r with setpoint := 0 } ∧ (t.bay b).backoff = some 2000 ∧
        (t.bay b).answerTimer = none ∧ s.OthersStay t b ∧
        t.tally = { u.tally with t3 := { u.tally.t3 with declines := min (u.tally.t3.declines + 1) 4294967295 } } ∧
        t = { u with bays := t.bays, tally := t.tally, lamps := t.lamps }) ∧
      ((∀ r : Record, (s.bay b).slot = .pack (.offered n) r → r.tag ≠ f.tag) → t = u.countForeign))

/-- SETTLE at a BAY node in RUNNING or SAFE-STOP (R71): by where the tag stands. In LISTEN it is foreign (R73); that
it is so even for a tag of the kept unaccounted list, is the model's own reading (log entry 15). -/
def Obligations.SettleByWhereTheTagStands : Prop :=
  ∀ (s : State) (f : HandoffFrame) (n : NodeNo) (x : BayNo), s.HearsHandoff 4 f n x → s.isBay = true →
    ∃ t : State, exec (.settleReceived f) s = .next t ∧
      let u := s.told 4 f n
      let settled : Tally1 := { s.tally.t1 with settled := min (s.tally.t1.settled + 1) 4294967295 }
      let late := fun e : UnaccountedEntry => e.tag = f.tag ∧ e.shred = n
      (s.startup.life = .listen → t = u.countForeign) ∧
      (s.startup.life ≠ .listen →
        (∀ (b : BayNo) (r : Record), (s.bay b).slot = .pack (.inTransit n) r → r.tag = f.tag →
          (∀ k : BayNo, k < b → (s.bay k).settles f.tag n = false) →
          (t.bay b).slot = .empty ∧ (t.bay b).transitTimer = none ∧ s.OthersStay t b ∧
          t = { u with bays := t.bays, lamps := t.lamps, tally := { u.tally with t1 := settled } }) ∧
        (∀ (l m : List UnaccountedEntry) (e : UnaccountedEntry), s.unaccounted = l ++ e :: m → late e →
          (∀ i ∈ l, ¬ late i) → (∀ k : BayNo, (s.bay k).settles f.tag n = false) →
          t = { u with unaccounted := l ++ m
                       tally := { u.tally with
                         t1 := settled
                         t3 := { u.tally.t3 with
                           lateSettles := min (u.tally.t3.lateSettles + 1) 4294967295 } } }) ∧
        (∀ (b : BayNo) (r : Record), (s.bay b).slot = .pack (.releasing n) r → r.tag = f.tag →
          r.settleEarly = false → (∀ k : BayNo, k < b → (s.bay k).settlesEarly f.tag n = false) →
          (∀ k : BayNo, (s.bay k).settles f.tag n = false) → (∀ i ∈ s.unaccounted, ¬ late i) →
          t.bay b = { s.bay b with slot := .pack (.releasing n) { r with settleEarly := true }, gate := false } ∧
          s.OthersStay t b ∧ t = { u with bays := t.bays }) ∧
        ((∀ k : BayNo, (s.bay k).settles f.tag n = false ∧ (s.bay k).settlesEarly f.tag n = false) →
          (∀ i ∈ s.unaccounted, ¬ late i) → t = u.countForeign))

/-- An OFFER at a RUNNING SHRED node (R63, R75, R76, R163): one that passes every condition is taken, with the reservation, the
arrival timer, the conveyor and the TAKE; one that fails a condition is declined with the reason of the first that
fails; and one whose s is outside 1 to 32 is counted foreign. -/
def Obligations.OfferTakenOrDeclined : Prop :=
  (∀ (s : State) (f : HandoffFrame) (n : NodeNo) (b : BayNo), s.HearsHandoff 0 f n b → s.isShred = true →
      s.startup.life = .running → s.view.silent = false → s.atmos.state = .inert → s.view.lineFire = false →
      s.feed.hold = { stray := false, feed := false, rotor := false } → s.chute.reservation = none → s.feed.queue.length < 8 →
      (∀ e ∈ s.feed.queue, e.pack.tag ≠ f.tag) → (s.peers[n]).state = .present → 1 ≤ f.s.toNat → f.s.toNat ≤ 32 →
      ∃ t : State, exec (.offerReceived f) s = .next t ∧
        let u := s.told 0 f n
        t.chute = { s.chute with
          reservation := some { tag := f.tag, source := n, bay := b, s := f.s.toNat, energy := f.energy.toNat
                                restV := f.restV.toNat }
          arrivalTimer := some 30000, conveyor := true } ∧
        t.feed = { s.feed with idleTimer := none } ∧ t.accepting = false ∧
        t.link = { u.link with fifo := s.fifoWith (plainHandoff .take n f.tag b) } ∧
        t = { u with chute := t.chute, feed := t.feed, link := t.link, tally := { u.tally with t6 := u.t6With } }) ∧
  (∀ (s : State) (f : HandoffFrame) (n : NodeNo) (b : BayNo), s.HearsHandoff 0 f n b → s.isShred = true →
      s.startup.life = .running →
      let u := s.told 0 f n
      let declines := fun reason : DeclineReason => exec (.offerReceived f) s = .next { u with
        link := { u.link with fifo := s.fifoWith { plainHandoff .decline n f.tag b with reason := some reason } }
        tally := { u.tally with t6 := u.t6With } }
      (f.s.toNat = 0 ∨ 32 < f.s.toNat → exec (.offerReceived f) s = .next u.countForeign) ∧
      (1 ≤ f.s.toNat → f.s.toNat ≤ 32 →
        (s.view.silent = true → declines .notReady) ∧
        (s.view.silent = false → s.atmos.state ≠ .inert → declines .notInert) ∧
        (s.view.silent = false → s.atmos.state = .inert →
          (s.view.lineFire = true → declines .lineFire) ∧
          (s.view.lineFire = false →
            (s.feed.hold.isSet = true → declines .notReady) ∧
            (s.feed.hold.isSet = false →
              (s.chute.reservation ≠ none → declines .chuteBusy) ∧
              (s.chute.reservation = none →
                (8 ≤ s.feed.queue.length → declines .queueFull) ∧
                (s.feed.queue.length < 8 →
                  ((∃ e ∈ s.feed.queue, e.pack.tag = f.tag) → declines .duplicate) ∧
                  ((∀ e ∈ s.feed.queue, e.pack.tag ≠ f.tag) → (s.peers[n]).state ≠ .present →
                    declines .notReady))))))))

/-- A reservation ends by its WITHDRAW and by the arrival timer (R78): the chute becomes free, the conveyor goes off,
and the idle timer starts where the rotor now runs for nothing (R92). A WITHDRAW that does not match is foreign. -/
def Obligations.ReservationEnds : Prop :=
  let idle := fun s : State => if s.feed.rotor = .running ∧ s.feed.queue = [] then some 60000 else none
  (∀ (s : State) (f : HandoffFrame) (n : NodeNo) (b : BayNo), s.HearsHandoff 3 f n b → s.isShred = true →
    s.startup.life = .running → ∃ t : State, exec (.withdrawReceived f) s = .next t ∧
      let u := s.told 3 f n
      (∀ e : Offered, s.chute.reservation = some e → e.tag = f.tag → e.source = n →
        t.chute = { s.chute with reservation := none, arrivalTimer := none, conveyor := false } ∧
        t.tally = u.tally ∧ (s.feed.idleTimer = none → t.feed.idleTimer = idle s) ∧
        t = { u with chute := t.chute, feed := { s.feed with idleTimer := t.feed.idleTimer } }) ∧
      ((∀ e : Offered, s.chute.reservation = some e → ¬ (e.tag = f.tag ∧ e.source = n)) → t = u.countForeign)) ∧
  (∀ (s : State) (k : Nat), s.chute.arrivalTimer = some k →
    ∃ t : State, exec .arrivalTimerExpiry s = .next t ∧
      t.chute = { s.chute with reservation := none, arrivalTimer := none, conveyor := false } ∧
      t.tally = { s.tally with t4 := { s.tally.t4 with
        arrivalMissed := min (s.tally.t4.arrivalMissed + 1) 4294967295 } } ∧
      (s.feed.idleTimer = none → t.feed.idleTimer = idle s) ∧
      t = { s with chute := t.chute, tally := t.tally, feed := { s.feed with idleTimer := t.feed.idleTimer } })

/-- An arrival at the chute (R77, R79, R83, R163): the reserved pack joins the queue's tail and is settled, and a pack without
a reservation is a stray. The sensor must clear before a further arrival is seen. -/
def Obligations.ChuteArrival : Prop :=
  ∀ s : State, s.isShred = true → s.awake = true →
    (s.chute.sensor = false → ∃ t : State, exec .chuteArrival s = .next t ∧ t.chute.sensor = true ∧
      (∀ e : Offered, s.chute.reservation = some e →
        t.feed = { s.feed with queue := s.feed.queue ++ [{ pack := e, wait := 0, feeding := false }]
                               idleTimer := none } ∧
        t.chute = { reservation := none, arrivalTimer := none, conveyor := false, sensor := true } ∧
        t.link = { s.link with fifo := s.fifoWith (plainHandoff .settle e.source e.tag e.bay) } ∧
        (t.tally.t4.settledFrom)[e.source] = min ((s.tally.t4.settledFrom)[e.source] + 1) 4294967295 ∧
        (∀ k : NodeNo, k ≠ e.source → (t.tally.t4.settledFrom)[k] = (s.tally.t4.settledFrom)[k]) ∧
        t.intake = s.intake ∧
        t = { s with chute := t.chute, feed := t.feed, link := t.link
                     tally := { s.tally with
                       t4 := { s.tally.t4 with settledFrom := t.tally.t4.settledFrom }, t6 := s.t6With } }) ∧
      (s.chute.reservation = none →
        s.FeedHeld t s.feed .stray .stray .none none ∧ t.feed.queue = s.feed.queue ∧
        t.tally = { s.tally with t4 := { s.tally.t4 with strays := min (s.tally.t4.strays + 1) 4294967295 } } ∧
        t = { s with chute := t.chute, feed := t.feed, latch := t.latch, faults := t.faults, tally := t.tally })) ∧
    (s.chute.sensor = true → exec .chuteArrival s = .next s) ∧
    exec .chuteArrivalSensorClear s = .next { s with chute := { s.chute with sensor := false } }

/-! ### Feed controller -/

/-- A feed period with the rotor STOPPED (R83, R90): the waits advance, and the rotor starts when the permissive holds,
the zone is not IMPAIRED, the feedback is off, the queue holds an entry and a flush condition holds. The first flush
condition in the order watermark, age, idle line, request is the one counted. -/
def Obligations.FeedPeriodStartsTheRotor : Prop :=
  ∀ (s : State) (k : Nat), s.feed.periodTimer = some k → s.feed.rotor = .stopped →
    let aged := s.feed.queue.map (fun e => { e with wait := min (e.wait + 100) 120000 })
    let ready := s.permissive = true ∧ s.fire.impaired = false ∧ s.feed.feedback = false ∧ s.feed.queue ≠ []
    let full := s.profile.batchWatermark ≤ s.feed.queue.length
    let old := ∃ (e : QueueEntry) (l : List QueueEntry), s.feed.queue = e :: l ∧ 120000 ≤ e.wait + 100
    let idle := s.chute.reservation = none ∧ ∀ n : NodeNo, (s.peers[n]).hasReleasable = false
    let asked := s.feed.flush = true
    let starts := min (s.tally.t4.rotorStarts + 1) 4294967295
    ∃ t : State, exec .feedPeriodExpiry s = .next t ∧
      (ready → full ∨ old ∨ idle ∨ asked →
        t.feed = { s.feed with queue := aged, periodTimer := some 100, rotor := .starting, run := true
                               startTimer := some 10000, flush := false }) ∧
      (ready → full → t.tally.t4 = { s.tally.t4 with
        rotorStarts := starts, byWatermark := min (s.tally.t4.byWatermark + 1) 4294967295 }) ∧
      (ready → ¬ full → old → t.tally.t4 = { s.tally.t4 with
        rotorStarts := starts, byAge := min (s.tally.t4.byAge + 1) 4294967295 }) ∧
      (ready → ¬ full → ¬ old → idle → t.tally.t4 = { s.tally.t4 with
        rotorStarts := starts, byIdleLine := min (s.tally.t4.byIdleLine + 1) 4294967295 }) ∧
      (ready → ¬ full → ¬ old → ¬ idle → asked → t.tally.t4 = { s.tally.t4 with
        rotorStarts := starts, byRequest := min (s.tally.t4.byRequest + 1) 4294967295 }) ∧
      (¬ ready ∨ ¬ (full ∨ old ∨ idle ∨ asked) →
        t = { s with feed := { s.feed with queue := aged, periodTimer := some 100 } }) ∧
      t = { s with feed := t.feed, tally := { s.tally with t4 := t.tally.t4 } }

/-- A feed period with the rotor not STOPPED (R83, R94): the waits advance, and with the rotor RUNNING, the permissive, no
feed in progress and the feed-confirm sensor clear the head is fed when its final rest V is within the node's own
rebound limit, and otherwise holds the feed. -/
def Obligations.FeedPeriodFeedsTheHead : Prop :=
  ∀ (s : State) (k : Nat), s.feed.periodTimer = some k → s.feed.rotor ≠ .stopped →
    let age := fun e : QueueEntry => { e with wait := min (e.wait + 100) 120000 }
    let ready := s.feed.rotor = .running ∧ s.permissive = true ∧ s.feed.kind = .none ∧ s.feed.confirm = false
    ∃ t : State, exec .feedPeriodExpiry s = .next t ∧
      (∀ (e : QueueEntry) (l : List QueueEntry), ready → s.feed.queue = e :: l →
        e.pack.restV ≤ e.pack.s * s.profile.reboundLimit →
        t = { s with feed := { s.feed with queue := { age e with feeding := true } :: l.map age, periodTimer := some 100
                                           gate := true, kind := .active, feedTimer := some 15000 } }) ∧
      (∀ (e : QueueEntry) (l : List QueueEntry), ready → s.feed.queue = e :: l →
        e.pack.s * s.profile.reboundLimit < e.pack.restV →
        s.FeedHeld t { s.feed with queue := s.feed.queue.map age, periodTimer := some 100 } .feed .reboundHigh
          (.bay e.pack.bay.val) (some e.pack.tag) ∧
        t.feed.gate = s.feed.gate ∧ t.feed.queue = s.feed.queue.map age ∧ t.feed.run = false ∧
        t.feed.rotor = (if s.feed.feedback = true then .stopping else .stopped) ∧
        t = { s with feed := t.feed, latch := t.latch, faults := t.faults }) ∧
      (¬ ready ∨ s.feed.queue = [] →
        t = { s with feed := { s.feed with queue := s.feed.queue.map age, periodTimer := some 100 } })

/-- The rotor's feedback and its three timers (R91, R92, R93): running up, the failed start, the stall, the stop, the
failed stop, uncommanded rotation, and the stop for idleness; and what the loss of the permissive does to the feed
controller (R89, R93, R97). That a rotor whose permissive is lost in STARTING, with its feedback off, is STOPPED at once, is
the model's own choice between R91 and R93 (log entry 29). That ROTOR_FEEDBACK_ON with the feedback already on leaves the
state as it is, is the model's own choice (log entry 4). -/
def Obligations.RotorFeedbackAndTimers : Prop :=
  (∀ s : State, s.isShred = true → s.awake = true → s.feed.feedback = false →
    ∃ t : State, exec .rotorFeedbackOn s = .next t ∧ t.feed.feedback = true ∧ t.feed.queue = s.feed.queue ∧
      (s.feed.rotor = .starting →
        (s.feed.idleTimer = none → t.feed.idleTimer =
          if s.feed.queue = [] ∧ s.chute.reservation = none then some 60000 else none) ∧
        t = { s with feed := { s.feed with feedback := true, rotor := .running, startTimer := none
                                           idleTimer := t.feed.idleTimer } }) ∧
      (s.feed.rotor = .stopped → s.FeedHeld t { s.feed with feedback := true } .rotor .rotorUncommanded .none none ∧
        t.feed.rotor = .stopped) ∧
      (s.feed.rotor = .running ∨ s.feed.rotor = .stopping →
        t = { s with feed := { s.feed with feedback := true } }) ∧
      t = { s with feed := t.feed, latch := t.latch, faults := t.faults }) ∧
  (∀ s : State, s.isShred = true → s.awake = true → s.feed.feedback = true →
    exec .rotorFeedbackOn s = .next s ∧
    ∃ t : State, exec .rotorFeedbackOff s = .next t ∧ t.feed.feedback = false ∧ t.feed.queue = s.feed.queue ∧
      (s.feed.rotor = .running →
        s.FeedHeld t { s.feed with
          feedback := false, run := false, rotor := .stopped, idleTimer := none
          gate := if s.feed.kind = .active then false else s.feed.gate
          kind := if s.feed.kind = .active then .abandoned else s.feed.kind } .rotor .rotorStall .none none ∧
        t.feed.rotor = .stopped ∧ t.feed.run = false ∧
        (s.feed.kind = .active → t.feed.kind = .abandoned ∧ t.feed.gate = false ∧
          t.feed.feedTimer = s.feed.feedTimer)) ∧
      (s.feed.rotor = .stopping →
        t = { s with feed := { s.feed with feedback := false, rotor := .stopped, stopTimer := none } }) ∧
      (s.feed.rotor = .stopped ∨ s.feed.rotor = .starting →
        t = { s with feed := { s.feed with feedback := false } }) ∧
      t = { s with feed := t.feed, latch := t.latch, faults := t.faults }) ∧
  (∀ (s : State) (k : Nat), s.feed.startTimer = some k →
    ∃ t : State, exec .startTimerExpiry s = .next t ∧
      s.FeedHeld t { s.feed with run := false, startTimer := none, rotor := .stopped } .rotor .rotorStart .none none ∧
      t.feed.rotor = .stopped ∧ t.feed.run = false ∧ t.feed.startTimer = none ∧ t.feed.queue = s.feed.queue ∧
      t = { s with feed := t.feed, latch := t.latch, faults := t.faults }) ∧
  (∀ (s : State) (k : Nat), s.feed.stopTimer = some k →
    ∃ t : State, exec .stopTimerExpiry s = .next t ∧
      s.FeedHeld t { s.feed with run := false, stopTimer := none, rotor := .stopped } .rotor .rotorStop .none none ∧
      t.feed.rotor = .stopped ∧ t.feed.run = false ∧ t.feed.stopTimer = none ∧ t.feed.queue = s.feed.queue ∧
      t = { s with feed := t.feed, latch := t.latch, faults := t.faults }) ∧
  (∀ (s : State) (k : Nat), s.feed.idleTimer = some k → exec .idleTimerExpiry s = .next { s with feed := { s.feed with
    run := false, startTimer := none, idleTimer := none
    rotor := if s.feed.feedback = true then .stopping else .stopped
    stopTimer := if s.feed.feedback = true then some 30000 else none } }) ∧
  (∀ f : Feed,
    let g : Feed := { f with
      gate := if f.kind = .active then false else f.gate, kind := if f.kind = .active then .abandoned else f.kind }
    (f.rotor = .starting ∨ f.rotor = .running → f.losePermissive = { g with
      run := false, startTimer := none, idleTimer := none
      rotor := if f.feedback = true then .stopping else .stopped
      stopTimer := if f.feedback = true then some 30000 else none }) ∧
    (f.rotor = .stopped ∨ f.rotor = .stopping → f.losePermissive = g))

/-- How a feed ends (R84, R95 to R98): a confirmation removes the head and counts it, one that no feed explains holds the
feed, the timer of an ACTIVE feed holds the feed with the head kept, and that of an ABANDONED feed only ends it.
That FEED_CONFIRM_SET with the sensor already set leaves the state as it is, is the model's own choice (log entry 4). -/
def Obligations.FeedEnds : Prop :=
  (∀ s : State, s.isShred = true → s.awake = true → s.feed.confirm = false →
    ∃ t : State, exec .feedConfirmSet s = .next t ∧
      (∀ (e : QueueEntry) (l : List QueueEntry), s.feed.kind ≠ .none → s.feed.queue = e :: l →
        t.feed = { s.feed with confirm := true, feedTimer := none, gate := false, kind := .none, queue := l
                               flush := s.feed.flush && !l.isEmpty, idleTimer := t.feed.idleTimer } ∧
        t.feed.idleTimer.isSome = decide (s.feed.rotor = .running ∧ l = [] ∧ s.chute.reservation = none) ∧
        (s.feed.idleTimer = none → l = [] → t.feed.idleTimer ≠ none → t.feed.idleTimer = some 60000) ∧
        t.tally = { s.tally with t4 := { s.tally.t4 with
          shredded := min (s.tally.t4.shredded + 1) 4294967295
          shreddedEnergy := min (s.tally.t4.shreddedEnergy + e.pack.energy) 18446744073709551615 } } ∧
        t = { s with feed := t.feed, tally := t.tally }) ∧
      (s.feed.kind = .none →
        s.FeedHeld t { s.feed with confirm := true } .feed .feedUnexpected .none none ∧ t.feed.queue = s.feed.queue ∧
        t.feed.confirm = true ∧
        t = { s with feed := t.feed, latch := t.latch, faults := t.faults })) ∧
  (∀ s : State, s.feed.confirm = true → exec .feedConfirmSet s = .next s) ∧
  (∀ s : State, s.isShred = true → s.awake = true →
    exec .feedConfirmClear s = .next { s with feed := { s.feed with confirm := false } }) ∧
  (∀ (s : State) (k : Nat) (e : QueueEntry) (l : List QueueEntry), s.feed.feedTimer = some k →
    s.feed.queue = e :: l → ∃ t : State, exec .feedTimerExpiry s = .next t ∧
      t.feed.gate = false ∧ t.feed.kind = .none ∧ t.feed.feedTimer = none ∧
      t.feed.queue = { e with feeding := false } :: l ∧
      (s.feed.kind = .active →
        s.FeedHeld t { s.feed with gate := false, kind := .none, feedTimer := none
                                   queue := { e with feeding := false } :: l } .feed .feedTimeout
          (.bay e.pack.bay.val) (some e.pack.tag) ∧
        t = { s with feed := t.feed, latch := t.latch, faults := t.faults }) ∧
      (s.feed.kind = .abandoned →
        t = { s with feed := { s.feed with gate := false, kind := .none, feedTimer := none
                                           queue := { e with feeding := false } :: l } }))

/-! ### Atmosphere -/

/-- The readings of a loop current and of the pressure (R108, R111), and one atmosphere sample (R107 to R111, R115, R118,
R120, R146, R157): the effective oxygen, the disagreement count, the fault record entry of each sensor that passes from
valid to faulted, the qualification to INERT in PURGING, and regulation or the loss of INERT. AIR, FLOOD and LOCKOUT make
no test. The order of several fault entries of one sample is the model's own choice (log entry 9). -/
def Obligations.AtmosphereSample : Prop :=
  (∀ i : Nat, (i < 3600 ∨ 21000 < i → o2Reading i = none) ∧ (3600 ≤ i → i < 4000 → o2Reading i = some 0) ∧
    (4000 ≤ i → i ≤ 20000 → o2Reading i = some ((i - 4000) * 2500 / 16000)) ∧
    (20000 < i → i ≤ 21000 → o2Reading i = some 2500)) ∧
  (∀ (s : State) (x : AtmosReading) (k : Nat), s.atmos.sampleTimer = some k →
    let a := o2Reading x.o2a
    let b := o2Reading x.o2b
    let pressed := ∃ p : Int, x.pressure = some p ∧ -500 ≤ p ∧ p ≤ 2000
    let good := ∃ v w : Nat, a = some v ∧ b = some w ∧ v ≤ 400 ∧ w ≤ 400
    let low := ¬ ∃ p : Int, x.pressure = some p ∧ 50 ≤ p ∧ p ≤ 2000
    ∃ t : State, exec (.atmosSample x) s = .next t ∧
      let read : Atmos := { s.atmos with
        oxygen := t.atmos.oxygen, o2ValidA := a.isSome, o2ValidB := b.isSome, pressureValid := t.atmos.pressureValid
        disagree := t.atmos.disagree, sampleTimer := some 1000 }
      let sensors : List (FaultCause × Place × Option Tag) :=
        (if s.atmos.o2ValidA = true ∧ a = none then [(.o2SensorFault, .channel 0, none)] else []) ++
        (if s.atmos.o2ValidB = true ∧ b = none then [(.o2SensorFault, .channel 1, none)] else []) ++
        (if s.atmos.pressureValid = true ∧ t.atmos.pressureValid = false then [(.pressureFault, .none, none)] else [])
      let disagrees := s.atmos.disagree = 4 ∧ t.atmos.disagree = 5
      let spoiled := t.atmos.oxygen = none ∨ (∃ v : Nat, t.atmos.oxygen = some v ∧ 500 < v)
      let leaking := low ∧ 9 ≤ s.atmos.lowPressure
      let lost := s.atmos.state = .inert ∧ (spoiled ∨ leaking)
      (∀ v w : Nat, a = some v → b = some w → t.atmos.oxygen = some (max v w) ∧
        (v + 100 < w ∨ w + 100 < v → t.atmos.disagree = min (s.atmos.disagree + 1) 5) ∧
        (¬ (v + 100 < w ∨ w + 100 < v) → t.atmos.disagree = 0)) ∧
      (a = none → t.atmos.oxygen = b ∧ t.atmos.disagree = 0) ∧ (b = none → t.atmos.oxygen = a ∧ t.atmos.disagree = 0) ∧
      (t.atmos.pressureValid = true ↔ pressed) ∧
      (disagrees → s.RaisedIn t .sensorDisagree .none none) ∧
      s.OthersPend t [.sensorDisagree, .atmosLost] ∧ (¬ disagrees → s.OthersPend t [.atmosLost]) ∧
      (¬ lost → s.OthersPend t [.sensorDisagree]) ∧ (¬ disagrees → ¬ lost → t.latch = s.latch) ∧
      (¬ lost → t.faults = s.faultsAfter sensors) ∧
      (s.atmos.state = .purging →
        (good → s.atmos.qualify < 29 →
          t.atmos = { read with qualify := s.atmos.qualify + 1 } ∧ t.tally = s.tally) ∧
        (good → 29 ≤ s.atmos.qualify →
          t.atmos = { read with state := .inert, flood := false, stageTimer := none, slow := false, loss := false
                                lowPressure := 0, qualify := s.atmos.qualify + 1 } ∧
          t.tally = { s.tally with t5 := { s.tally.t5 with
            inertEntries := min (s.tally.t5.inertEntries + 1) 4294967295 } }) ∧
        (¬ good → t.atmos = { read with qualify := 0 } ∧ t.tally = s.tally) ∧ t.feed = s.feed) ∧
      (s.atmos.state = .inert →
        (spoiled ∨ leaking →
          t.atmos = { read with state := .purging, purge := true, flood := false, qualify := 0, stageTimer := some 0
                                slow := false, loss := true, lowPressure := t.atmos.lowPressure } ∧
          t.feed = s.feed.losePermissive ∧ t.feed.kind ≠ .active ∧ t.feed.rotor.commanded = false ∧
          t.feed.queue = s.feed.queue ∧ s.RaisedIn t .atmosLost .none none ∧
          (t.atmos.oxygen = none → t.faults = s.faultsAfter (sensors ++ [(.atmosSensorsLost, .none, none)])) ∧
          (∀ v : Nat, t.atmos.oxygen = some v → 500 < v →
            t.faults = s.faultsAfter (sensors ++ [(.atmosO2High, .none, none)])) ∧
          (¬ spoiled → t.faults = s.faultsAfter (sensors ++ [(.atmosPressureLow, .none, none)])) ∧
          t.tally = { s.tally with t5 := { s.tally.t5 with
            purgeEntries := min (s.tally.t5.purgeEntries + 1) 4294967295
            atmosLost := min (s.tally.t5.atmosLost + 1) 4294967295 } }) ∧
        (¬ (spoiled ∨ leaking) →
          t.atmos = { read with purge := t.atmos.purge, lowPressure := t.atmos.lowPressure } ∧ t.feed = s.feed ∧
          t.tally = s.tally ∧
          (∀ v : Nat, t.atmos.oxygen = some v →
            t.atmos.purge = if 300 < v then true else if v ≤ 200 then false else s.atmos.purge)) ∧
        (low → t.atmos.lowPressure = min (s.atmos.lowPressure + 1) 10) ∧ (¬ low → t.atmos.lowPressure = 0)) ∧
      (s.atmos.state = .air ∨ s.atmos.state = .flood ∨ s.atmos.state = .lockout →
        t.atmos = read ∧ t.feed = s.feed ∧ t.tally = s.tally) ∧
      t = { s with atmos := t.atmos, latch := t.latch, faults := t.faults, feed := t.feed
                   tally := { s.tally with t5 := t.tally.t5 } })

/-- The two deadlines of a purge (R116): purge stage 1 with PURGE_SLOW, once in a PURGING, and LOCKOUT with both valves
closed. That a deadline with the stage timer stopped changes nothing, is the model's own choice (log entry 4). -/
def Obligations.PurgeDeadlines : Prop :=
  (∀ (s : State) (k : Nat), s.atmos.stageTimer = some k →
    ∃ t : State, exec .purgeSlowDeadline s = .next t ∧ t.atmos = { s.atmos with slow := true } ∧
      (s.atmos.slow = false → s.Raised t .purgeSlow .none none) ∧ (s.atmos.slow = true → t = s) ∧
      t = { s with atmos := t.atmos, latch := t.latch }) ∧
  (∀ (s : State) (k : Nat), s.atmos.stageTimer = some k →
    ∃ t : State, exec .purgeLockoutDeadline s = .next t ∧
      t.atmos = { s.atmos with state := .lockout, purge := false, flood := false, stageTimer := none, slow := false
                               loss := false } ∧
      s.Raised t .purgeLockout .none none ∧
      t.faults = s.faultsAfter [(.purgeLockout, .none, none)] ∧
      t.tally = { s.tally with t5 := { s.tally.t5 with
        lockouts := min (s.tally.t5.lockouts + 1) 4294967295 } } ∧
      t = { s with atmos := t.atmos, latch := t.latch, faults := t.faults, tally := t.tally }) ∧
  (∀ s : State, s.atmos.stageTimer = none →
    exec .purgeSlowDeadline s = .next s ∧ exec .purgeLockoutDeadline s = .next s)

/-! ### Fire -/

/-- The confirmation test (R133) and the sample at which it makes the zone FIRE (R133, R135 to R137, R121, R38, R73): the
cause, the count, the fault record, the relays, the line view, the marks at a BAY node and the flood at a SHRED node, and
what line_fire becoming true does to the bays, the handoff FIFO and the feed controller (R89). The order of several WITHDRAWs
(log entry 8), and of several raises of CHANNEL_FAULT and several fault entries (log entry 9), at one event is the model's own
choice. -/
def Obligations.FireConfirmed : Prop :=
  (∀ f : Fire, f.confirmed = true ↔
    (f.channels[3]).source.grade = .fire ∨
    (∃ (i j : Nat) (x y : Source), i ≠ j ∧ f.sources[i]? = some x ∧ f.sources[j]? = some y ∧
      ((x.grade = .fire ∧ y.grade = .fire) ∨ (x.grade ≠ .none ∧ y.fireMem ≤ 30) ∨
        (x.grade = .fire ∧ y.preMem ≤ 30))) ∨
    (∃ x ∈ f.sources, x.run = some 20)) ∧
  (∀ (s : State) (x : FireReading) (k : Nat), s.fire.sampleTimer = some k → s.fire.zone ≠ .fire →
    let chs := channelsNext s.fire.channels x
    let f : Fire := { s.fire with
      channels := chs
      bayHeat := if s.isBay = true then s.fire.bayHeat.advance (if s.bayHeat = true then .fire else .none)
        else s.fire.bayHeat }
    let onsets := ([0, 1, 2, 3] : List (Fin 4)).filter (fun c => (chs[c]).bad && !(s.fire.channels[c]).bad)
    let mark := fun r : Record => if s.isBay = true then { r with fireExposed := true } else r
    f.confirmed = true → ∃ t : State, exec (.fireSample x) s = .next t ∧
      t.fire = { f with zone := .fire, impaired := t.fire.impaired, clearCount := 0, fireRelay := true, preRelay := true
                        sampleTimer := some 1000 } ∧
      (t.fire.impaired = true ↔
        ((chs[0]).usable = false ∧ (chs[1]).usable = false) ∨ chs.toList.countP Channel.usable < 2) ∧
      t.view = { s.view with lineFire := true, linePre := true } ∧
      s.RaisedIn t .zoneFire .none none ∧
      (s.fire.impaired = false → t.fire.impaired = true → s.RaisedIn t .zoneImpaired .none none) ∧
      (∀ (l : List (Fin 4)) (c : Fin 4), onsets = l ++ [c] →
        s.RaisedTimes t onsets.length .channelFault (.channel c.val) none) ∧
      s.OthersPend t [.zoneFire, .zoneImpaired, .channelFault] ∧
      (¬ (s.fire.impaired = false ∧ t.fire.impaired = true) → s.OthersPend t [.zoneFire, .channelFault]) ∧
      (onsets = [] → s.OthersPend t [.zoneFire, .zoneImpaired]) ∧
      t.faults = s.faultsAfter (onsets.map (fun c => (.channelFault, .channel c.val, none)) ++ [(.zoneFire, .none, none)]) ∧
      t.tally.t6 = { s.tally.t6 with
        fireCount := min (s.tally.t6.fireCount + 1) 4294967295
        channelFaults := if onsets = [] then s.tally.t6.channelFaults
          else min (s.tally.t6.channelFaults + onsets.length) 4294967295
        handoffDropped := t.tally.t6.handoffDropped } ∧
      (s.view.lineFire = false → s.LineFireStops t mark) ∧
      (s.view.lineFire = false ∨ (s.isShred = true ∧ s.awake = true) →
        t.feed = s.feed.losePermissive ∧ t.feed.kind ≠ .active ∧ t.feed.rotor.commanded = false) ∧
      (s.view.lineFire = true → ¬ (s.isShred = true ∧ s.awake = true) → t.feed = s.feed) ∧
      (s.view.lineFire = true → (∀ b : BayNo, (s.bay b).slot.record = none → t.bay b = s.bay b) ∧
        (∀ (b : BayNo) (st : PackState) (r : Record), (s.bay b).slot = .pack st r →
          t.bay b = { s.bay b with slot := .pack st (mark r) }) ∧
        t.link = s.link ∧ t.tally.t6.handoffDropped = s.tally.t6.handoffDropped) ∧
      (s.isShred = true → s.awake = true →
        t.atmos = { s.atmos with state := .flood, purge := true, flood := true, stageTimer := none, slow := false
                                 loss := false } ∧
        t.tally.t5 = { s.tally.t5 with floods := min (s.tally.t5.floods + 1) 4294967295 }) ∧
      (¬ (s.isShred = true ∧ s.awake = true) → t.atmos = s.atmos ∧ t.tally.t5 = s.tally.t5) ∧
      t = { s with bays := t.bays, feed := t.feed, atmos := t.atmos, fire := t.fire, latch := t.latch, view := t.view
                   faults := t.faults, link := { s.link with fifo := t.link.fifo }
                   tally := { s.tally with t5 := t.tally.t5, t6 := t.tally.t6 }, lamps := t.lamps })

/-- What a sample makes of each channel and of the memories of each source (R48, R128 to R132): isolation, the fault of a
channel, the ring and the rise, the grade and the memories. And a fire sample that does not make the zone FIRE (R129, R133
to R136): FIRE stays, the zone moves between NORMAL and PRE with its clear count, the IMPAIRED flag follows the usable
channels, and a channel's onset is counted and entered. The order of several raises of CHANNEL_FAULT and of
several fault entries of one sample is the model's own choice (log entry 9). -/
def Obligations.FireSampleMovesTheZone : Prop :=
  (∀ (y : Source) (g : Grade), y.advance g = {
    grade := g, preMem := if g = .none then min (y.preMem + 1) 31 else 0
    fireMem := if g = .fire then 0 else min (y.fireMem + 1) 31
    run := if g = .fire then some ((y.run.map (fun n => min (n + 1) 20)).getD 0) else none }) ∧
  (∀ s : State, s.bayHeat = true ↔ ∃ (b : BayNo) (c : Int), (s.bay b).validT = some c ∧ 80 ≤ c) ∧
  (∀ (chs : Vector Channel 4) (x : FireReading),
    let isolated : Channel := ⟨true, false, [], ⟨.none, 31, 31, none⟩⟩
    let faulted := fun c : Channel => Channel.mk false true [] (c.source.advance .none)
    let heat := fun (c z : Channel) (key : Bool) (d : Option Int) =>
      (key = true → z = isolated) ∧
      (key = false → (∀ v : Int, d = some v → v < -400 ∨ 2000 < v) → z = faulted c) ∧
      (∀ v : Int, key = false → d = some v → -400 ≤ v → v ≤ 2000 →
        let ring := (c.ring ++ [v]).drop (c.ring.length - 10)
        let climbs := fun rise : Int => ∃ (old : Int) (l : List Int), ring = old :: l ∧ l.length = 10 ∧ old + rise ≤ v
        let graded := fun g : Grade => z = ⟨false, false, ring, c.source.advance g⟩
        (700 ≤ v ∨ climbs 200 → graded .fire) ∧
        (¬ (700 ≤ v ∨ climbs 200) → 550 ≤ v ∨ climbs 100 → graded .pre) ∧
        (¬ (550 ≤ v ∨ climbs 100) → graded .none))
    heat chs[0] (channelsNext chs x)[0] x.key0 x.d0 ∧ heat chs[1] (channelsNext chs x)[1] x.key1 x.d1 ∧
    (let z := (channelsNext chs x)[2]
     let graded := fun g : Grade => z = ⟨false, false, [], (chs[2]).source.advance g⟩
     (x.key2 = true → z = isolated) ∧
     (x.key2 = false → (∀ v : Int, x.d2 = some v → v < 0) → z = faulted chs[2]) ∧
     (∀ v : Int, x.key2 = false → x.d2 = some v → 0 ≤ v →
       (200 ≤ v → graded .fire) ∧ (50 ≤ v → v < 200 → graded .pre) ∧ (v < 50 → graded .none))) ∧
    (let z := (channelsNext chs x)[3]
     let graded := fun g : Grade => z = ⟨false, false, [], (chs[3]).source.advance g⟩
     (x.key3 = true → z = isolated) ∧
     (x.key3 = false → x.loop < 100 ∨ 15000 < x.loop → z = faulted chs[3]) ∧
     (x.key3 = false → 100 ≤ x.loop → x.loop ≤ 1500 → graded .fire) ∧
     (x.key3 = false → 1500 < x.loop → x.loop ≤ 15000 → graded .none))) ∧
  (∀ (s : State) (x : FireReading) (k : Nat), s.fire.sampleTimer = some k →
    let chs := channelsNext s.fire.channels x
    let f : Fire := { s.fire with
      channels := chs
      bayHeat := if s.isBay = true then s.fire.bayHeat.advance (if s.bayHeat = true then .fire else .none)
        else s.fire.bayHeat }
    let alert := ∃ y ∈ f.sources, y.grade ≠ .none
    let onsets := ([0, 1, 2, 3] : List (Fin 4)).filter (fun c => (chs[c]).bad && !(s.fire.channels[c]).bad)
    let alerted := s.fire.zone = .normal ∧ alert
    s.fire.zone = .fire ∨ f.confirmed = false → ∃ t : State, exec (.fireSample x) s = .next t ∧
      t.fire = { f with
        zone := t.fire.zone, impaired := t.fire.impaired, clearCount := t.fire.clearCount, sampleTimer := some 1000
        fireRelay := decide (t.fire.zone = .fire), preRelay := decide (t.fire.zone ≠ .normal) } ∧
      (s.fire.zone = .fire → t.fire.zone = .fire ∧ t.fire.clearCount = s.fire.clearCount) ∧
      (alerted → t.fire.zone = .pre ∧ t.fire.clearCount = 0 ∧ s.RaisedIn t .zonePre .none none) ∧
      (s.fire.zone = .normal → ¬ alert → t.fire.zone = .normal ∧ t.fire.clearCount = s.fire.clearCount) ∧
      (s.fire.zone = .pre → alert → t.fire.zone = .pre ∧ t.fire.clearCount = 0) ∧
      (s.fire.zone = .pre → ¬ alert → 29 ≤ s.fire.clearCount → t.fire.zone = .normal ∧ t.fire.clearCount = 0) ∧
      (s.fire.zone = .pre → ¬ alert → s.fire.clearCount < 29 →
        t.fire.zone = .pre ∧ t.fire.clearCount = s.fire.clearCount + 1) ∧
      (t.fire.impaired = true ↔
        ((chs[0]).usable = false ∧ (chs[1]).usable = false) ∨ chs.toList.countP Channel.usable < 2) ∧
      (s.fire.impaired = false → t.fire.impaired = true → s.RaisedIn t .zoneImpaired .none none) ∧
      (∀ (l : List (Fin 4)) (c : Fin 4), onsets = l ++ [c] →
        s.RaisedTimes t onsets.length .channelFault (.channel c.val) none) ∧
      s.OthersPend t [.zonePre, .zoneImpaired, .channelFault] ∧
      (¬ alerted → s.OthersPend t [.zoneImpaired, .channelFault]) ∧
      (¬ (s.fire.impaired = false ∧ t.fire.impaired = true) → s.OthersPend t [.zonePre, .channelFault]) ∧
      (onsets = [] → s.OthersPend t [.zonePre, .zoneImpaired]) ∧
      t.faults = s.faultsAfter (onsets.map (fun c => (.channelFault, .channel c.val, none))) ∧
      t.tally.t6.channelFaults = (if onsets = [] then s.tally.t6.channelFaults
        else min (s.tally.t6.channelFaults + onsets.length) 4294967295) ∧
      (alerted → t.tally.t6.preCount = min (s.tally.t6.preCount + 1) 4294967295) ∧
      (¬ alerted → t.tally.t6.preCount = s.tally.t6.preCount) ∧
      t.view = { s.view with lineFire := t.lineFireNow, linePre := t.linePreNow } ∧
      (s.view.lineFire = true ∨ t.view.lineFire = false →
        t.bays = s.bays ∧ t.feed = s.feed ∧ t.link = s.link ∧
          t.tally.t6 = { s.tally.t6 with preCount := t.tally.t6.preCount, channelFaults := t.tally.t6.channelFaults }) ∧
      t = { s with bays := t.bays, feed := t.feed, fire := t.fire, latch := t.latch, view := t.view
                   faults := t.faults, link := { s.link with fifo := t.link.fifo }
                   tally := { s.tally with t6 := t.tally.t6 }, lamps := t.lamps })
/-! ### Line link -/

/-- A delivered STATUS (R173, R151, R152): one with codes in range is taken by the entry of its source, and the line view
follows; line_fire that becomes true holds the bays in DISCHARGING, ADMITTED and HELD for THERMAL, takes the RELEASING ones
back to SAFE with a WITHDRAW, and loses the permissive at once (R38, R73, R89, R154). One with a code out of range is
foreign. The order of several WITHDRAWs at one event is the model's own choice (log entry 8). -/
def Obligations.StatusTaken : Prop :=
  ∀ (s : State) (src dst : Address) (f : StatusFrame) (n : NodeNo), s.HearsAll src dst n →
    let p := s.peers[n]
    let ranged := f.role.toNat ≤ 2 ∧ f.zone.toNat ≤ 2 ∧ f.profile.toNat ≤ 3 ∧ f.power.toNat ≤ 3
    (¬ ranged → exec (.statusReceived src dst f) s = .next s.eased.countForeign) ∧
    (ranged → ∃ t : State, exec (.statusReceived src dst f) s = .next t ∧
      (t.peers[n]).state = .present ∧ (t.peers[n]).fields = some f ∧ (t.peers[n]).age = some 0 ∧
      (p.state = .absent → (t.peers[n]).gaps = p.gaps) ∧
      (∀ g : StatusFrame, p.state ≠ .absent → p.fields = some g →
        (t.peers[n]).gaps = if f.seq = g.seq ∨ f.seq = g.seq + 1 then p.gaps else min (p.gaps + 1) 255) ∧
      (∀ k : NodeNo, k ≠ n → t.peers[k] = s.peers[k]) ∧
      t.view = { s.view with lineFire := t.lineFireNow, linePre := t.linePreNow } ∧
      (f.zone = 2 → t.view.lineFire = true ∧ t.view.linePre = true) ∧
      (s.view.lineFire = false → t.view.lineFire = true →
        s.eased.LineFireStops t (fun r => r) ∧ t.feed = s.feed.losePermissive ∧
        t.feed.kind ≠ .active ∧ t.feed.rotor.commanded = false ∧
        t.tally.t6 = { s.eased.tally.t6 with handoffDropped := t.tally.t6.handoffDropped }) ∧
      (s.view.lineFire = true ∨ t.view.lineFire = false →
        t = { s.eased with peers := t.peers, view := t.view }) ∧
      t = { s with peers := t.peers, view := t.view, bays := t.bays, feed := t.feed, lamps := t.lamps
                   link := { s.eased.link with fifo := t.link.fifo }, tally := { s.tally with t6 := t.tally.t6 } })

/-- The two ages of a peer entry (R174), a PRESENT entry becoming STALE with its fields kept, and an entry becoming LOST
with its timer stopped, the cause raised and the tally counted; and PEER_FORGET (R175), by which an entry that is LOST
becomes ABSENT, the line view following (R151), its REPLY taking the slot of its terminal and no other, and any other is refused. That an age
deadline with the age timer stopped
changes nothing, is the model's own choice (log entry 4). -/
def Obligations.PeersAgeAndAreForgotten : Prop :=
  (∀ (s : State) (n : NodeNo) (k : Nat), (s.peers[n]).age = some k → (s.peers[n]).state = .present → s.LineViewLaw →
    exec (.peerAgeStale n) s = .next { s with peers := s.peers.set n.val { s.peers[n] with state := .stale } n.isLt }) ∧
  (∀ (s : State) (n : NodeNo) (k : Nat), (s.peers[n]).age = some k → (s.peers[n]).state ≠ .absent → s.LineViewLaw →
    ∃ t : State, exec (.peerAgeLost n) s = .next t ∧
      t.peers = s.peers.set n.val { s.peers[n] with state := .lost, age := none } n.isLt ∧
      s.Raised t .peerLost (.node n.val) none ∧
      t.tally = { s.tally with t6 := { s.tally.t6 with peersLost := min (s.tally.t6.peersLost + 1) 4294967295 } } ∧
      t.view = { s.view with linePre := t.linePreNow } ∧
      t = { s with peers := t.peers, latch := t.latch, tally := t.tally, view := t.view }) ∧
  (∀ (s : State) (n : NodeNo), (s.peers[n]).age = none →
    exec (.peerAgeStale n) s = .next s ∧ exec (.peerAgeLost n) s = .next s) ∧
  (∀ (s : State) (f : RequestFrame) (p : TerminalNo), s.Evaluates 11 f p → f.bay = 15 → s.LineViewLaw →
    let refused := fun why : Reason => exec (.peerForget f) s = .next (s.refusing 11 f p why)
    (11 < f.node.toNat ∨ f.node.toNat = s.startup.straps.node.toNat → refused .badField) ∧
    (∀ n : NodeNo, f.node.toNat = n.val → n.val ≠ s.startup.straps.node.toNat →
      ((s.peers[n]).state ≠ .lost → refused .notClear) ∧
      ((s.peers[n]).state = .lost → ∃ t : State, exec (.peerForget f) s = .next t ∧
        t.peers = s.peers.set n.val { state := .absent, fields := none, gaps := 0, age := none } n.isLt ∧
        t.view = { s.view with lineFire := t.lineFireNow, linePre := t.linePreNow } ∧
        (t.view.lineFire = true → s.view.lineFire = true) ∧
        (∀ g : StatusFrame, (s.peers[n]).fields = some g → t.link.replies = s.link.replies.set p.val
          (some (s.replyDone 11 f [g.role, g.zone, g.power, g.seq, byteOf (s.peers[n]).gaps])) p.isLt) ∧
        (∀ q : TerminalNo, q ≠ p → t.link.replies[q] = s.link.replies[q]) ∧
        t = { s.asked 11 f p with peers := t.peers, view := t.view
                                  link := { (s.asked 11 f p).link with replies := t.link.replies } })))

/-- A delivered TALLY (R80, R161): at a BAY node one that carries T4 is compared with the node's own settled count, and
the second differing comparison in a row raises RECONCILE; any other is discarded. That the comparison is made in every
lifecycle in which frames are received, is the model's own choice (log entry 27). -/
def Obligations.TallyCompared : Prop :=
  ∀ (s : State) (src dst : Address) (f : TallyFrame) (n o : NodeNo), s.HearsAll src dst n →
    s.startup.straps.node = nodeAddress o →
    (s.isBay = true → f.record = 4 → ∃ t : State, exec (.tallyReceived src dst f) s = .next t ∧
      ((f.body.extractLsb' (32 * o.val) 32).toNat = s.tally.t1.settled → t.handoff.differences = 0) ∧
      ((f.body.extractLsb' (32 * o.val) 32).toNat ≠ s.tally.t1.settled →
        t.handoff.differences = min (s.handoff.differences + 1) 2) ∧
      (s.handoff.differences = 1 → t.handoff.differences = 2 → s.Raised t .reconcile (.node n.val) none) ∧
      (¬ (s.handoff.differences = 1 ∧ t.handoff.differences = 2) → t.latch = s.latch) ∧
      t = { s.eased with handoff := { s.handoff with differences := t.handoff.differences }, latch := t.latch }) ∧
    (s.isBay = false ∨ f.record ≠ 4 → exec (.tallyReceived src dst f) s = .next s.eased)

/-- How a received frame is judged (R160, R161, R162): an ALARM is discarded, a disallowed frame is counted foreign,
traffic of others passes by, a HANDOFF with tag 0 or a bay above 3 is foreign (R63), and so, with no answer placed, is one
whose message the node's role does not take or that its lifecycle does not take, OFFER and WITHDRAW outside RUNNING (R75, R79)
and TAKE, DECLINE in LISTEN and SAFE-STOP and SETTLE in LISTEN (R73), and one whose message byte is above 4 (R63); a repeat
within its window is discarded, and a node that receives nothing takes nothing. That a SETTLE in LISTEN is foreign even when
its tag stands in the kept unaccounted list, is the model's own reading (log entry 15). -/
def Obligations.FramesJudged : Prop :=
  (∀ (s : State) (src dst : Address) (f : AlarmFrame) (n : NodeNo), s.HearsAll src dst n →
    exec (.alarmReceived src dst f) s = .next s.eased) ∧
  (∀ (s : State) (w : WireFrame), s.receiving = true → w.src ≠ s.startup.straps.node →
    w.classic = true ∨ w.extended = true ∨ 6 ≤ w.kind.toNat ∨ w.src = 15 ∨
      ((w.dst = s.startup.straps.node ∨ w.dst = 15) ∧
        (sourceAllowed w.kind w.src = false ∨ destinationAllowed w.kind w.dst = false ∨
          kindLength w.kind ≠ some w.data.length)) →
    exec (.foreignFrameReceived w) s = .next s.eased.countForeign) ∧
  (∀ (s : State) (w : WireFrame), s.receiving = true → (Instr.framePassedBy w).wellFormed = true →
    w.src ≠ s.startup.straps.node → w.dst ≠ s.startup.straps.node →
    exec (.framePassedBy w) s = .next s.eased) ∧
  (∀ (s : State) (c : Instr) (m : Byte) (f : HandoffFrame) (n : NodeNo), handoffRow c = some (m, f) →
    s.HearsNode m f n → f.tag = 0 ∨ 3 < f.bay.toNat → exec c s = .next (s.told m f n).countForeign) ∧
  (∀ (s : State) (c : Instr) (m : Byte) (f : HandoffFrame) (n : NodeNo) (b : BayNo), handoffRow c = some (m, f) →
    s.HearsHandoff m f n b →
    ((m = 0 ∨ m = 3) ∧ (s.isShred = false ∨ s.startup.life ≠ .running)) ∨
      ((m = 1 ∨ m = 2) ∧ (s.isBay = false ∨ s.startup.life ≠ .running)) ∨
      (m = 4 ∧ (s.isBay = false ∨ s.startup.life = .listen)) →
    exec c s = .next (s.told m f n).countForeign) ∧
  (∀ (s : State) (w : WireFrame) (n : NodeNo), w.classic = false → w.extended = false → w.kind = kindHandoff →
    w.data.length = 16 →
    let m : Byte := w.data.getD 0 0
    let f := HandoffFrame.ofBytes w.src w.dst w.data
    4 < m.toNat → s.HearsNode m f n → exec (.foreignFrameReceived w) s = .next (s.told m f n).countForeign) ∧
  (∀ (s : State) (c : Instr) (w : WireFrame) (a : Fin 15), encodeFrame c = some w →
    (∀ v, c ≠ .foreignFrameReceived v) → (∀ v, c ≠ .framePassedBy v) →
    w.kind = kindHandoff ∨ w.kind = kindRequest → s.receiving = true → w.src ≠ s.startup.straps.node →
    w.dst = s.startup.straps.node → s.startup.straps.node.toNat ≤ 11 → sourceAllowed w.kind w.src = true →
    w.src.toNat = a.val → s.repeated a w.data = true → exec c s = .next s.eased) ∧
  (∀ (s : State) (c : Instr) (w : WireFrame), encodeFrame c = some w → s.receiving = false → exec c s = .next s) ∧
  (∀ (s : State) (a : Fin 15), exec (.repeatWindowExpiry a) s = .next { s with
    filter := s.filter.set a.val { bytes := (s.filter[a]).bytes, window := none } a.isLt })

/-- A clash (R176, R38, R73, R79, R89, R153, R166, R178): any frame with the node's own number as its source takes a node
in LISTEN or RUNNING to SAFE-STOP, with every buffer emptied, no dropped frame counted and the station at its safe outputs:
bays in DISCHARGING, ADMITTED and HELD for THERMAL become HELD for LINE_STOP, those in OFFERED and those in RELEASING that are
not settled early return to SAFE, and every other bay keeps its state and record. In SAFE-STOP the frame is foreign. The
model's own reading and choice stand in it too: the source of a 29-bit or a classic frame is the source that
the command names (log entry 13), an attempt in progress is dropped (log entry 14), and the headroom unit's report basis
stays as it is (log entry 27). -/
def Obligations.ClashEntersSafeStop : Prop :=
  ∀ (s : State) (c : Instr) (w : WireFrame), encodeFrame c = some w → s.receiving = true →
    w.src = s.startup.straps.node →
    (s.startup.life = .safeStop → exec c s = .next s.eased.countForeign) ∧
    (s.startup.life = .listen ∨ s.startup.life = .running → ∃ t : State, exec c s = .next t ∧
      t.startup = { s.startup with life := .safeStop, listenTimer := none } ∧ t.Quiet ∧
      t.faults = s.faultsAfter [(.clash, .node s.startup.straps.node.toNat, none)] ∧ t.requests = { held := Vector.replicate 3 none, resetPending := false } ∧
      t.latch = { s.latch with after := none } ∧
      t.chute = { s.chute with reservation := none, arrivalTimer := none, conveyor := false } ∧
      t.feed = { s.feed.losePermissive with idleTimer := none } ∧
      t.feed.kind ≠ .active ∧ t.feed.rotor.commanded = false ∧
      t.link = { s.eased.link with
        attempt := none, fifo := [], replies := Vector.replicate 3 none, status := none, tally := none
        statusTimer := none, tallyTimer := none, statusDue := false, tallyDue := false } ∧
      t.tally = s.eased.tally ∧ t.view = { s.view with silent := false, silenceTimer := none } ∧
      (∀ b : BayNo,
        let stops := fun r : Record => (s.bay b).slot = .pack .discharging r ∨ (s.bay b).slot = .pack .admitted r ∨
          (s.bay b).slot = .pack (.held .thermal) r
        let returns := fun r : Record => ∃ n : NodeNo, (s.bay b).slot = .pack (.offered n) r ∨
          ((s.bay b).slot = .pack (.releasing n) r ∧ r.settleEarly = false)
        (∀ r : Record, stops r → (t.bay b).slot = .pack (.held .lineStop) { r with setpoint := 0 } ∧
          (t.bay b).contactor = false ∧ (t.bay b).sink = 0 ∧ (t.bay b).share = none ∧ (t.bay b).gate = false) ∧
        (∀ r : Record, returns r → (t.bay b).slot = .pack .safe { r with setpoint := 0 } ∧ (t.bay b).gate = false ∧
          (t.bay b).answerTimer = none ∧ (t.bay b).releaseTimer = none ∧ (t.bay b).backoff = none) ∧
        ((∀ r : Record, ¬ stops r ∧ ¬ returns r) → t.bay b = { s.bay b with gate := false }) ∧
        (t.bay b).slot.isDischarging = false) ∧
      t = { s with startup := t.startup, bays := t.bays, chute := t.chute, feed := t.feed, latch := t.latch
                   view := t.view, faults := t.faults, link := t.link, requests := t.requests, lamps := t.lamps
                   tally := t.tally })

/-- The error counts and the link state (R167, R168, R169), and the end of an attempt that is lost or fails (R164, R165): the
frame stays in its buffer, and a formation that waited for the end is made, with an overrun counted where it replaces an
unsent frame. That an outcome with no attempt in progress, and a sighting while not OFF, change nothing, is the model's own
choice (log entry 4). -/
def Obligations.LinkErrors : Prop :=
  let kept := fun (s t : State) => s.AttemptEnds t s.link.status s.link.tally ∧
    t.latch.entries = s.latch.entries ∧
    t.link = { s.link with
      attempt := none, status := t.link.status, tally := t.link.tally, statusSeq := t.link.statusSeq
      tallySeq := t.link.tallySeq, statusDue := false, tallyDue := false, txErrors := t.link.txErrors
      rxErrors := t.link.rxErrors, state := t.link.state, sightings := t.link.sightings } ∧
    t = { s with link := t.link, latch := t.latch, tally := { s.tally with t6 := { s.tally.t6 with
      statusOverrun := t.tally.t6.statusOverrun, passiveEntries := t.tally.t6.passiveEntries
      offEntries := t.tally.t6.offEntries } } }
  (∀ s : State, s.receiving = true → ∃ t : State, exec .receiveError s = .next t ∧
    s.Counted t s.link.txErrors (min (s.link.rxErrors + 1) 255) ∧
    t = { s with tally := { s.tally with t6 := t.tally.t6 }
                 link := { s.link with txErrors := t.link.txErrors, rxErrors := t.link.rxErrors, state := t.link.state
                                       sightings := t.link.sightings } }) ∧
  (∀ s : State, s.receiving = true → s.Counted s.eased s.link.txErrors (s.link.rxErrors - 1)) ∧
  (∀ (s : State) (ackOnly : Bool) (a : Attempt), s.link.attempt = some a → s.link.state ≠ .off →
    ∃ t : State, exec (.transmitError ackOnly) s = .next t ∧
      s.Counted t (if ackOnly = true ∧ s.link.state = .passive then s.link.txErrors else s.link.txErrors + 8)
        s.link.rxErrors ∧ kept s t) ∧
  (∀ (s : State) (a : Attempt), s.link.attempt = some a → ∃ t : State, exec .arbitrationLost s = .next t ∧ kept s t ∧
    t.link.txErrors = s.link.txErrors ∧ t.link.rxErrors = s.link.rxErrors ∧ t.link.state = s.link.state ∧
    t.link.sightings = s.link.sightings ∧ t.tally.t6.passiveEntries = s.tally.t6.passiveEntries ∧
    t.tally.t6.offEntries = s.tally.t6.offEntries) ∧
  (∀ (s : State) (ackOnly : Bool), s.link.attempt = none →
    exec (.transmitError ackOnly) s = .next s ∧ exec .arbitrationLost s = .next s) ∧
  (∀ s : State, s.link.state = .off → ∃ t : State, exec .busIdleSighting s = .next t ∧
    (s.link.sightings < 127 → t = { s with link := { s.link with sightings := s.link.sightings + 1 } }) ∧
    (127 ≤ s.link.sightings → t = { s with link := { s.link with
      state := .active, txErrors := 0, rxErrors := 0, sightings := 0 } })) ∧
  (∀ s : State, s.link.state ≠ .off → exec .busIdleSighting s = .next s)

/-- Silence (R153, R38, R54, R89), and the two periods with the STATUS and the TALLY they form (R165, R170, R171), with
every field of 9.8 and the codes of the bay states, the atmosphere states and the rotor states (R177): an unsent frame is
replaced and counted, and a frame under attempt puts the formation off. That a second expiry folds into the formation that
waits, is the model's own reading (log entry 19). -/
def Obligations.SilenceAndPeriods : Prop :=
  (∀ (s : State) (k : Nat), s.view.silenceTimer = some k → ∃ t : State, exec .silenceTimerExpiry s = .next t ∧
    t.view = { s.view with silent := true, silenceTimer := none } ∧
    t.headroom = { s.headroom with basis := 0 } ∧ t.feed = s.feed.losePermissive ∧
    t.feed.kind ≠ .active ∧ t.feed.rotor.commanded = false ∧
    (∀ (b : BayNo) (r : Record), (s.bay b).slot = .pack .discharging r ∨ (s.bay b).slot = .pack .admitted r ∨
        (s.bay b).slot = .pack (.held .thermal) r →
      (t.bay b).slot = .pack (.held .lineStop) { r with setpoint := 0 } ∧ (t.bay b).contactor = false ∧
      (t.bay b).sink = 0 ∧ (t.bay b).share = none) ∧
    (∀ b : BayNo, (∀ r : Record, (s.bay b).slot ≠ .pack .discharging r ∧ (s.bay b).slot ≠ .pack .admitted r ∧
      (s.bay b).slot ≠ .pack (.held .thermal) r) → t.bay b = s.bay b) ∧
    t = { s with view := t.view, headroom := t.headroom, bays := t.bays, feed := t.feed, lamps := t.lamps }) ∧
  (∀ (s : State) (k : Nat), s.link.statusTimer = some k → ∃ t : State, exec .statusPeriodExpiry s = .next t ∧
    ((∃ a : Attempt, s.link.attempt = some a ∧ a.buffer = .status) →
      t = { s with link := { s.link with statusTimer := some 100, statusDue := true } }) ∧
    ((∀ a : Attempt, s.link.attempt = some a → a.buffer ≠ .status) →
      (∃ f : StatusFrame,
        t.link = { s.link with statusTimer := some 100, status := some f, statusSeq := s.link.statusSeq + 1 } ∧
        f.seq = s.link.statusSeq ∧ s.StatusOf f) ∧
      t.tally.t6.statusOverrun =
        (if s.link.status = none then s.tally.t6.statusOverrun else min (s.tally.t6.statusOverrun + 1) 4294967295) ∧
      t = { s with link := t.link
                   tally := { s.tally with t6 := { s.tally.t6 with statusOverrun := t.tally.t6.statusOverrun } } })) ∧
  (∀ (s : State) (k : Nat), s.link.tallyTimer = some k → ∃ t : State, exec .tallyPeriodExpiry s = .next t ∧
    ((∃ a : Attempt, s.link.attempt = some a ∧ a.buffer = .tally) →
      t = { s with link := { s.link with tallyTimer := some 1000, tallyDue := true } }) ∧
    ((∀ a : Attempt, s.link.attempt = some a → a.buffer ≠ .tally) →
      (∃ f : TallyFrame,
        t.link = { s.link with tallyTimer := some 1000, tally := some f, tallySeq := s.link.tallySeq + 1 } ∧
        f.seq = s.link.tallySeq ∧ s.TallyOf s.tally f) ∧
      t.tally.t6.statusOverrun =
        (if s.link.tally = none then s.tally.t6.statusOverrun else min (s.tally.t6.statusOverrun + 1) 4294967295) ∧
      t = { s with link := t.link
                   tally := { s.tally with t6 := { s.tally.t6 with statusOverrun := t.tally.t6.statusOverrun } } })) ∧
  (∀ (r : Record) (n : NodeNo) (c : HoldCause), [Slot.empty, .orphan, .pack .admitted r, .pack .discharging r,
      .pack (.held c) r, .pack .resting r, .pack .safe r, .pack (.offered n) r, .pack (.releasing n) r,
      .pack (.inTransit n) r, .pack .rejected r, .pack .missing r].map Slot.code = [0, 1, 2, 3, 4, 5, 6, 7, 8, 9, 10, 11]) ∧
  [AtmosState.air, .purging, .inert, .flood, .lockout].map AtmosState.code = [0, 1, 2, 3, 4] ∧
  [Rotor.stopped, .starting, .running, .stopping].map Rotor.code = [0, 1, 2, 3] ∧
  (∀ (s : State) (b : BayNo), ((s.bay b).slot.isSafe || (s.bay b).slot.isOffered) = true ↔
    (∃ r : Record, (s.bay b).slot = .pack .safe r) ∨ ∃ (n : NodeNo) (r : Record), (s.bay b).slot = .pack (.offered n) r)

/-- A transmit selection (R159, R164): in RUNNING, with the link not OFF and no attempt in progress, the buffers are taken
in the order ALARM, handoff FIFO, reply slots, STATUS, TALLY, and otherwise nothing is selected. The frame carries the fields
of R148 and of 9.8 in their layout (R177), each least significant byte first as ReadsAnswer states of `leBytes`: an ALARM formed
from the pending entry and the state as it stands, with the condition of its cause as R145 lists the conditions; a HANDOFF with
0 in the fields without meaning (R63); a REPLY with its header, its payload, and zeros up to the shortest allowed length; a
STATUS and a TALLY as they were formed (SilenceAndPeriods). The code tables stand value by value. -/
def Obligations.TransmitSelection : Prop :=
  (∀ s : State,
    let own := s.startup.straps.node
    let attempts := fun (b : Buffer) (ident : Nat) (data : List Byte) => ∃ t : State,
      exec .transmitSelection s = .next t ∧
      (∃ a : Attempt, t.link = { s.link with attempt := some a } ∧ a.buffer = b ∧ a.ident.toNat = ident ∧
        a.data = data) ∧
      t = { s with link := t.link, latch := { s.latch with after := none } }
    let fields := fun l : List (Nat × Nat) => l.flatMap (fun x => leBytes x.1 x.2)
    (s.startup.life ≠ .running ∨ s.link.state = .off ∨ s.link.attempt ≠ none →
      exec .transmitSelection s = .next s) ∧
    (s.startup.life = .running → s.link.state ≠ .off → s.link.attempt = none →
      (∀ (e : PendingEntry) (l : List PendingEntry), s.latch.entries = e :: l →
        attempts (.alarm e.cause) (16 * own.toNat + 15) (fields ([(1, e.cause.priority), (1, e.cause.priority),
          (1, e.count), (1, if s.condition e.cause = true then 1 else 0),
          (1, match s.fire.zone with
            | .normal => 0 | .pre => 1 | .fire => 2)] ++
          (match e.place with
            | .none => [(1, 0), (1, 0)] | .bay n => [(1, 1), (1, n)] | .channel n => [(1, 2), (1, n)]
            | .node n => [(1, 3), (1, n)]) ++
          [(1, s.link.alarmSeq.toNat), (4, e.first.toNat), (4, (e.tag.getD 0).toNat)]))) ∧
      (∀ (h : HandoffOut) (l : List HandoffOut), s.latch.entries = [] → s.link.fifo = h :: l →
        attempts .handoff (256 + 16 * own.toNat + h.dst.val) (fields [
          (1, match h.message with
            | .offer => 0 | .take => 1 | .decline => 2 | .withdraw => 3 | .settle => 4),
          (1, h.bay.val), (1, h.s),
          (1, match h.reason with
            | none => 0 | some .notReady => 1 | some .notInert => 2 | some .lineFire => 3 | some .chuteBusy => 4
            | some .queueFull => 5 | some .duplicate => 6),
          (4, h.tag.toNat), (4, h.energy), (2, h.restV), (2, 0)])) ∧
      (∀ (p : TerminalNo) (r : Reply), s.latch.entries = [] → s.link.fifo = [] → s.link.replies[p] = some r →
        (∀ q : TerminalNo, q < p → s.link.replies[q] = none) → r.payload.length ≤ 56 →
        ∃ n ∈ [8, 12, 16, 20, 24, 32, 48, 64], 8 + r.payload.length ≤ n ∧
          (∀ k ∈ [8, 12, 16, 20, 24, 32, 48, 64], 8 + r.payload.length ≤ k → n ≤ k) ∧
          attempts (.reply p) (768 + 16 * own.toNat + 12 + p.val) (fields [(1, r.code.toNat),
            (1, if r.reason = none then 0 else 1), (1, (r.reason.map (fun x => x.code.toNat)).getD 0), (1, r.bay.toNat),
            (2, r.number.toNat), (1, r.payload.length), (1, r.role.toNat)] ++ r.payload ++
            List.replicate (n - (8 + r.payload.length)) 0)) ∧
      (s.latch.entries = [] → s.link.fifo = [] → (∀ p : TerminalNo, s.link.replies[p] = none) →
        (∀ f : StatusFrame, s.link.status = some f → attempts .status (1024 + 16 * own.toNat + 15) (fields [
          (1, f.seq.toNat), (1, f.role.toNat), (1, f.lifecycle.toNat), (1, f.zone.toNat), (1, f.flags.toNat),
          (1, f.profile.toNat), (1, f.power.toNat), (1, f.pending.toNat), (4, f.time.toNat), (3, f.causes.toNat),
          (1, f.spare.toNat), (16, f.block.toNat)])) ∧
        (∀ f : TallyFrame, s.link.status = none → s.link.tally = some f →
          attempts .tally (1280 + 16 * own.toNat + 15) (fields [(1, f.record.toNat), (1, f.seq.toNat),
            (4, f.time.toNat), (58, f.body.toNat)])) ∧
        (s.link.status = none → s.link.tally = none → exec .transmitSelection s = .next { s with
          latch := { s.latch with after := none } })))) ∧
  (∀ s : State,
    (s.condition .zoneFire = true ↔ s.fire.zone = .fire) ∧ (s.condition .zonePre = true ↔ s.fire.zone = .pre) ∧
    (s.condition .bayOverheat = true ↔
      ∃ (b : BayNo) (r : Record), (s.bay b).slot.record = some r ∧ 80 ≤ r.lastT) ∧
    (s.condition .atmosLost = true ↔ s.atmos.loss = true) ∧
    (s.condition .purgeLockout = true ↔ s.atmos.state = .lockout) ∧
    (s.condition .strayPack = true ↔ s.feed.hold.stray = true) ∧
    (s.condition .transitLost = true ↔ s.unaccounted ≠ []) ∧
    (s.condition .feedFault = true ↔ s.feed.hold.feed = true) ∧
    (s.condition .rotorFault = true ↔ s.feed.hold.rotor = true) ∧
    (s.condition .channelFault = true ↔
      ∃ c : Fin 4, (s.fire.channels[c]).faulted = true ∧ (s.fire.channels[c]).isolated = false) ∧
    (s.condition .zoneImpaired = true ↔ s.fire.impaired = true) ∧
    (s.condition .purgeSlow = true ↔ s.atmos.slow = true) ∧
    (s.condition .sensorDisagree = true ↔ s.atmos.disagree = 5) ∧
    (s.condition .quarantineFull = true ↔ s.capacity ≤ s.store.length) ∧
    (s.condition .jam = true ↔ ∃ b : BayNo, (s.bay b).jammed = true) ∧
    (s.condition .peerLost = true ↔ ∃ n : NodeNo, (s.peers[n]).state = .lost) ∧
    (s.condition .reconcile = true ↔ s.handoff.differences = 2) ∧
    (s.condition .sensorStuck = true ↔ ∃ b : BayNo, (s.bay b).stuck = true)) ∧
  [Cause.zoneFire, .zonePre, .bayOverheat, .atmosLost, .purgeLockout, .strayPack, .transitLost, .feedFault, .rotorFault,
      .channelFault, .zoneImpaired, .purgeSlow, .sensorDisagree, .quarantineFull, .jam, .peerLost, .reconcile,
      .sensorStuck].map Cause.priority = [1, 2, 3, 4, 5, 6, 7, 8, 9, 10, 11, 12, 13, 14, 15, 16, 17, 18] ∧
  [Reason.badBay, .wrongRole, .bayOccupied, .bayState, .quarantineFull, .lineStop, .zoneImpaired, .cellsMismatch,
      .badField, .duplicateTag, .notFound, .notClear, .busy, .notRunning].map Reason.code =
    [1, 2, 3, 4, 5, 6, 7, 8, 9, 10, 11, 12, 13, 14] ∧
  (∀ (m : HandoffMessage) (n : NodeNo) (tag : Tag) (b : BayNo), plainHandoff m n tag b =
    { dst := n, message := m, bay := b, s := 0, reason := none, tag := tag, energy := 0, restV := 0 })

/-- The success of an attempt (R54, R147, R153, R164, R165, R167, R181): the frame leaves its buffer, the transmit error
count falls by 1, the owner acts, and a formation that waited for the end of the attempt takes the empty slot without an
overrun. A pending ALARM entry leaves the pending set, or stays with the raises taken after its frame was formed: those that
`latch.after` counts from the selection on, each raise of the cause under attempt adding to it, by `State.raise` and by every
statement that says `Raised` or `RaisedIn`, with a count and a first time of its own. -/
def Obligations.TransmitSuccess : Prop :=
  (∀ (s : State) (c : Cause) (place : Place) (tag : Option Tag),
    s.Raised (s.raise c place tag) c place tag ∧
      s.raise c place tag = { s with latch := (s.raise c place tag).latch } ∧
      (s.attempting c = true ↔ ∃ a : Attempt, s.link.attempt = some a ∧ a.buffer = .alarm c) ∧
      (s.attempting c = true → ∃ e : PendingEntry, (s.raise c place tag).latch.after = some e ∧
        e.place = place ∧ e.tag = tag ∧
        (s.latch.after = none → e.cause = c ∧ e.count = 1 ∧ e.first = s.startup.nodeTime) ∧
        (∀ x : PendingEntry, s.latch.after = some x →
          e.cause = x.cause ∧ e.count = min (x.count + 1) 255 ∧ e.first = x.first))) ∧
  ∀ (s : State) (a : Attempt), s.link.attempt = some a → s.resetAttempt a.buffer = false → s.link.state ≠ .off →
    ∃ t : State, exec .transmitSuccess s = .next t ∧
      s.Counted t (s.link.txErrors - 1) s.link.rxErrors ∧
      s.AttemptEnds t (if a.buffer = .status then none else s.link.status)
        (if a.buffer = .tally then none else s.link.tally) ∧
      let busy := fun h : HeldRequest =>
        Reply.mk h.code (some .busy) h.bay h.number s.roleCode []
      (∀ c : Cause, a.buffer = .alarm c → (∀ e : PendingEntry, s.latch.after = some e → e.cause = c) →
        t.link.alarmSeq = s.link.alarmSeq + 1 ∧
        ∀ e : PendingEntry, e ∈ t.latch.entries ↔
          (e ∈ s.latch.entries ∧ e.cause ≠ c) ∨ s.latch.after = some e) ∧
      t.link.fifo = (if a.buffer = .handoff then s.link.fifo.tail else s.link.fifo) ∧
      (∀ p : TerminalNo, a.buffer = .reply p →
        (s.requests.held[p] = none →
          t.link.replies = s.link.replies.set p.val none p.isLt ∧ t.requests = s.requests) ∧
        (∀ h : HeldRequest, s.requests.held[p] = some h →
          t.link.replies = s.link.replies.set p.val (some (busy h)) p.isLt ∧
          t.requests = { s.requests with held := s.requests.held.set p.val none p.isLt })) ∧
      (∀ f : StatusFrame, a.buffer = .status → s.link.status = some f →
        t.view = { s.view with silent := false, silenceTimer := some 500 } ∧
        t.headroom.basis = if s.isBay = true then (f.block.extractLsb' 0 16).toNat else s.headroom.basis) ∧
      (a.buffer ≠ .status → t.view = s.view ∧ t.headroom = s.headroom) ∧
      ((∀ c, a.buffer ≠ .alarm c) → t.latch.entries = s.latch.entries ∧ t.link.alarmSeq = s.link.alarmSeq) ∧
      ((∀ p, a.buffer ≠ .reply p) → t.requests = s.requests ∧ t.link.replies = s.link.replies) ∧
      t.link.statusTimer = s.link.statusTimer ∧ t.link.tallyTimer = s.link.tallyTimer ∧
      t = { s with link := t.link, latch := t.latch, view := t.view, requests := t.requests
                   headroom := { s.headroom with basis := t.headroom.basis }
                   tally := { s.tally with t6 := { s.tally.t6 with
                     statusOverrun := t.tally.t6.statusOverrun, passiveEntries := t.tally.t6.passiveEntries
                     offEntries := t.tally.t6.offEntries } } }/-! ### Requests -/

/-- The way of every request (R2, R99, R123, R138, R178 to R180, R182, R183): foreign outside RUNNING, held while its
terminal's slot is full, answered BUSY while a reset is pending, and otherwise checked for its code, its role and its
form in that order before its own rule is asked. A refusal changes no block's state. That an UNKNOWN_REQUEST with a code of
1 to 16 is taken as the request of that code, is the model's own choice (log entry 28). -/
def Obligations.RequestPathsAndForms : Prop :=
  ∀ (c : Instr) (code : Byte) (f : RequestFrame) (p : TerminalNo) (s : State), requestRow c = some (code, f) →
    let u := s.asked code f p
    let n := code.toNat
    let refused := fun why : Reason => exec c s = .next (s.refusing code f p why)
    let bayForm := n = 1 ∨ n = 2 ∨ n = 3 ∨ n = 4 ∨ n = 12 ∨ (n = 6 ∧ f.bay ≠ 15)
    let atBay := n = 1 ∨ n = 2 ∨ n = 3 ∨ n = 4 ∨ n = 5 ∨ n = 6 ∨ n = 12 ∨ n = 14
    let atShred := n = 8 ∨ n = 9 ∨ n = 10
    (s.HearsTerminal code f p → s.startup.life ≠ .running → exec c s = .next u.countForeign) ∧
    (s.HearsRequest code f p →
      (s.link.replies[p] ≠ none → exec c s = .next { u with requests := { s.requests with
        held := s.requests.held.set p.val (some { code := code, bay := f.bay, number := f.number }) p.isLt } }) ∧
      (s.link.replies[p] = none → s.requests.resetPending = true → refused .busy)) ∧
    (s.Evaluates code f p →
      (n = 0 ∨ 16 < n → refused .badField) ∧
      (atBay → s.isBay = false → refused .wrongRole) ∧
      (atShred → s.isShred = false → refused .wrongRole) ∧
      (bayForm → s.isBay = true → 3 < f.bay.toNat → refused .badBay) ∧
      (1 ≤ n → n ≤ 16 → ¬ bayForm → (atBay → s.isBay = true) → (atShred → s.isShred = true) → f.bay ≠ 15 →
        refused .badBay))

/-- The time codes (R4), and ADMIT with every condition of R5 met (R6): the new record, the tallies, the reply with the
decoded time limit, and BAY_OVERHEAT at its onset (R47). -/
def Obligations.AdmitAccepted : Prop :=
  (∀ (p : Profile) (code : Nat),
    (code = 0 → timeLimitOf p code = some p.defaultMinutes) ∧
    (1 ≤ code → code ≤ 180 → timeLimitOf p code = some code) ∧
    (181 ≤ code → code ≤ 250 → timeLimitOf p code = some (180 + 30 * (code - 180))) ∧
    (251 ≤ code → timeLimitOf p code = none)) ∧
  ∀ (s : State) (f : RequestFrame) (p : TerminalNo) (b : BayNo) (minutes v : Nat),
    s.Evaluates 1 f p → s.isBay = true → f.bay.toNat = b.val →
    (s.bay b).slot = .empty ∨ (s.bay b).slot = .orphan → (s.bay b).latest.presence = true →
    f.tag ≠ 0 → f.tag ∉ s.bayTags → 1 ≤ f.s.toNat → f.s.toNat ≤ 32 → f.capacity.toNat ≤ 2000 →
    timeLimitOf s.profile f.timeCode.toNat = some minutes → (s.bay b).latest.v = some v →
    v ≤ f.s.toNat * s.profile.nominalCell * 5 / 4 → s.fire.zone ≠ .fire → s.fire.impaired = false →
    s.view.lineFire = false → s.l1Count + 1 ≤ s.capacity →
    ∃ t : State, exec (.admitPack f) s = .next t ∧
      let x := s.bay b
      let temp := x.latest.t.getD (-40)
      (t.bay b).slot = .pack .admitted
        { tag := f.tag, bay := b, s := f.s.toNat, capacity := if f.capacity = 0 then none else some f.capacity.toNat
          timeLimit := minutes, admittedAt := s.startup.nodeTime, readmitted := decide (x.slot = .orphan)
          fireExposed := false, round := 1, q := 0, e := 0, eRem := 0, setpoint := 0, lastV := v
          lastI := x.latest.i.getD 0, lastT := temp, peakT := temp, dischargeMs := 0, restStartV := none
          reboundV := none, endCause := none, settleEarly := false, offers := 0 } ∧
      (t.bay b).contactor = false ∧ (t.bay b).sink = 0 ∧ s.OthersStay t b ∧ t.l1Count = s.l1Count + 1 ∧
      t.tally = { s.tally with
        t1 := { s.tally.t1 with
          admitted := min (s.tally.t1.admitted + 1) 4294967295
          readmitted := if x.slot = .orphan then min (s.tally.t1.readmitted + 1) 4294967295
            else s.tally.t1.readmitted }
        t6 := (s.asked 1 f p).tally.t6 } ∧
      (s.condition .bayOverheat = false → 80 ≤ temp → s.Raised t .bayOverheat (.bay b.val) (some f.tag)) ∧
      (s.condition .bayOverheat = true ∨ temp < 80 → t.latch = s.latch) ∧
      t.link.replies = s.link.replies.set p.val (some (s.replyDone 1 f (leBytes 2 minutes))) p.isLt ∧
      t = { s.asked 1 f p with bays := t.bays, tally := t.tally, latch := t.latch, lamps := t.lamps
                               link := { (s.asked 1 f p).link with replies := t.link.replies } }

/-- ADMIT that fails a condition of R5 is refused with the reason of the first that fails, by the order of the rule. -/
def Obligations.AdmitRefused : Prop :=
  ∀ (s : State) (f : RequestFrame) (p : TerminalNo) (b : BayNo),
    s.Evaluates 1 f p → s.isBay = true → f.bay.toNat = b.val →
    let refused := fun why : Reason => exec (.admitPack f) s = .next (s.refusing 1 f p why)
    let bad := f.s.toNat = 0 ∨ 32 < f.s.toNat ∨ 2000 < f.capacity.toNat ∨ 250 < f.timeCode.toNat
    ((s.bay b).slot.record ≠ none → refused .bayOccupied) ∧
    ((s.bay b).slot.record = none →
      ((s.bay b).latest.presence = false → refused .bayState) ∧
      ((s.bay b).latest.presence = true →
        (f.tag = 0 ∨ f.tag ∈ s.bayTags → refused .duplicateTag) ∧
        (f.tag ≠ 0 → f.tag ∉ s.bayTags →
          (bad → refused .badField) ∧
          (¬ bad →
            ((s.bay b).latest.v = none → refused .cellsMismatch) ∧
            (∀ v : Nat, (s.bay b).latest.v = some v →
              (f.s.toNat * s.profile.nominalCell * 5 / 4 < v → refused .cellsMismatch) ∧
              (v ≤ f.s.toNat * s.profile.nominalCell * 5 / 4 →
                (s.fire.zone = .fire ∨ s.fire.impaired = true → refused .zoneImpaired) ∧
                (s.fire.zone ≠ .fire → s.fire.impaired = false →
                  (s.view.lineFire = true → refused .lineStop) ∧
                  (s.view.lineFire = false → s.capacity ≤ s.l1Count → refused .quarantineFull))))))))

/-- ABORT (R7, R163) and ACCOUNT_CLEAR (R14): where each is accepted, what it leaves, and where it is refused. -/
def Obligations.AbortAndAccountClear : Prop :=
  (∀ (s : State) (f : RequestFrame) (p : TerminalNo) (b : BayNo),
    s.Evaluates 2 f p → s.isBay = true → f.bay.toNat = b.val →
    let u := s.asked 2 f p
    let rejected := fun (t : State) (r : Record) =>
      (t.bay b).slot = .pack .rejected { r with setpoint := 0, endCause := some .abort } ∧
      (t.bay b).contactor = false ∧ (t.bay b).sink = 0 ∧ (t.bay b).restTimer = none ∧ (t.bay b).backoff = none ∧
      (t.bay b).answerTimer = none ∧ s.OthersStay t b ∧
      t.tally.t1 = { s.tally.t1 with rejected := min (s.tally.t1.rejected + 1) 4294967295 } ∧
      t.link.replies = s.link.replies.set p.val (some (s.replyDone 2 f [])) p.isLt
    (∀ (st : PackState) (r : Record), (s.bay b).slot = .pack st r →
      (st = .admitted ∨ st = .discharging ∨ (∃ c, st = .held c) ∨ st = .resting ∨ st = .safe →
        ∃ t : State, exec (.abort f) s = .next t ∧ rejected t r ∧
          t = { u with bays := t.bays, tally := { u.tally with t1 := t.tally.t1 }, lamps := t.lamps
                       link := { u.link with replies := t.link.replies } }) ∧
      (∀ n : NodeNo, st = .offered n → ∃ t : State, exec (.abort f) s = .next t ∧ rejected t r ∧
        t.link.fifo = s.fifoWith (plainHandoff .withdraw n r.tag b) ∧
        t = { u with bays := t.bays, tally := { u.tally with t1 := t.tally.t1, t6 := u.t6With }, lamps := t.lamps
                     link := { u.link with replies := t.link.replies, fifo := t.link.fifo } }) ∧
      ((∃ n, st = .releasing n ∨ st = .inTransit n) ∨ st = .rejected ∨ st = .missing →
        exec (.abort f) s = .next (s.refusing 2 f p .bayState))) ∧
    ((s.bay b).slot.record = none → exec (.abort f) s = .next (s.refusing 2 f p .bayState))) ∧
  (∀ (s : State) (f : RequestFrame) (p : TerminalNo) (b : BayNo),
    s.Evaluates 6 f p → s.isBay = true → f.bay.toNat = b.val →
    (∀ r : Record, (s.bay b).slot = .pack .missing r → ∃ t : State, exec (.accountClear f) s = .next t ∧
      (t.bay b).slot = .empty ∧ s.OthersStay t b ∧
      t.tally.t1 = { s.tally.t1 with writtenOff := min (s.tally.t1.writtenOff + 1) 4294967295 } ∧
      t.link.replies = s.link.replies.set p.val (some (s.replyDone 6 f [])) p.isLt ∧
      t = { s.asked 6 f p with bays := t.bays, lamps := t.lamps
                               tally := { (s.asked 6 f p).tally with t1 := t.tally.t1 }
                               link := { (s.asked 6 f p).link with replies := t.link.replies } }) ∧
    ((∀ r : Record, (s.bay b).slot ≠ .pack .missing r) →
      exec (.accountClear f) s = .next (s.refusing 6 f p .bayState))) ∧
  (∀ (s : State) (f : RequestFrame) (p : TerminalNo), s.Evaluates 6 f p → s.isBay = true → f.bay = 15 →
    (f.tag = 0 → exec (.accountClear f) s = .next (s.refusing 6 f p .badField)) ∧
    (∀ (l m : List UnaccountedEntry) (e : UnaccountedEntry), f.tag ≠ 0 → s.unaccounted = l ++ e :: m →
      e.tag = f.tag → (∀ i ∈ l, i.tag ≠ f.tag) → ∃ t : State, exec (.accountClear f) s = .next t ∧
        t.unaccounted = l ++ m ∧
        t.tally.t1 = { s.tally.t1 with writtenOff := min (s.tally.t1.writtenOff + 1) 4294967295 } ∧
        t.link.replies = s.link.replies.set p.val (some (s.replyDone 6 f [])) p.isLt ∧
        t = { s.asked 6 f p with unaccounted := t.unaccounted
                                 tally := { (s.asked 6 f p).tally with t1 := t.tally.t1 }
                                 link := { (s.asked 6 f p).link with replies := t.link.replies } }) ∧
    (f.tag ≠ 0 → (∀ i ∈ s.unaccounted, i.tag ≠ f.tag) →
      exec (.accountClear f) s = .next (s.refusing 6 f p .notFound)))

/-- QUARANTINE_IN (R10, R11) and QUARANTINE_OUT (R12): an entry is appended at the tail and the bay becomes EMPTY, and
an entry is removed with the order of the others kept. -/
def Obligations.QuarantineRequests : Prop :=
  (∀ (s : State) (f : RequestFrame) (p : TerminalNo) (b : BayNo),
    s.Evaluates 4 f p → s.isBay = true → f.bay.toNat = b.val →
    let u := s.asked 4 f p
    let refused := fun why : Reason => exec (.quarantineIn f) s = .next (s.refusing 4 f p why)
    let enters := fun (tag : Option Tag) (why : QuarantineReason) (counted : Tally1) => ∃ t : State,
      exec (.quarantineIn f) s = .next t ∧ (t.bay b).slot = .empty ∧ s.OthersStay t b ∧
        t.store = s.store ++ [{ tag := tag, bay := b, reason := why, time := s.startup.nodeTime }] ∧
        t.tally.t1 = counted ∧
        (s.store.length + 1 = s.capacity → s.Raised t .quarantineFull .none none) ∧
        (s.store.length + 1 ≠ s.capacity → t.latch = s.latch) ∧
        t.link.replies = s.link.replies.set p.val (some (s.replyDone 4 f [])) p.isLt ∧
        t = { u with bays := t.bays, store := t.store, latch := t.latch, lamps := t.lamps
                     tally := { u.tally with t1 := t.tally.t1 }
                     link := { u.link with replies := t.link.replies } }
    (∀ (r : Record) (why : EndCause), (s.bay b).slot = .pack .rejected r → r.endCause = some why →
      (s.bay b).latest.presence = false → enters (some r.tag) (.ended why)
        { s.tally.t1 with quarantined := min (s.tally.t1.quarantined + 1) 4294967295 }) ∧
    ((s.bay b).slot = .orphan → (s.bay b).latest.presence = false →
      (s.l1Count + 1 ≤ s.capacity → enters none .orphan
        { s.tally.t1 with quarantinedOrphans := min (s.tally.t1.quarantinedOrphans + 1) 4294967295 }) ∧
      (s.capacity < s.l1Count + 1 → refused .quarantineFull)) ∧
    ((s.bay b).slot = .orphan ∨ (∃ r, (s.bay b).slot = .pack .rejected r) → (s.bay b).latest.presence = true →
      refused .notClear) ∧
    ((s.bay b).slot ≠ .orphan → (∀ r, (s.bay b).slot ≠ .pack .rejected r) → refused .bayState)) ∧
  (∀ (s : State) (f : RequestFrame) (p : TerminalNo), s.Evaluates 5 f p → s.isBay = true → f.bay = 15 →
    let u := s.asked 5 f p
    let leaves := fun rest : List QuarantineEntry => ∃ t : State, exec (.quarantineOut f) s = .next t ∧
      t.store = rest ∧ t.link.replies = s.link.replies.set p.val (some (s.replyDone 5 f [])) p.isLt ∧
      t = { u with store := t.store, link := { u.link with replies := t.link.replies } }
    let refused := exec (.quarantineOut f) s = .next (s.refusing 5 f p .notFound)
    (f.tag ≠ 0 →
      (∀ (l m : List QuarantineEntry) (e : QuarantineEntry), s.store = l ++ e :: m → e.tag = some f.tag →
        (∀ i ∈ l, i.tag ≠ some f.tag) → leaves (l ++ m)) ∧
      ((∀ i ∈ s.store, i.tag ≠ some f.tag) → refused)) ∧
    (f.tag = 0 →
      (∀ (l m : List QuarantineEntry) (e : QuarantineEntry), s.store = l ++ e :: m → l.length = f.index.toNat →
        (e.tag = none → leaves (l ++ m)) ∧ (e.tag ≠ none → refused)) ∧
      (s.store.length ≤ f.index.toNat → refused)))

/-- ALARM_RESET (R138, R139, R140, R122): refused while a source is at pre or higher; accepted, the zone is NORMAL with
the memories of every source cleared and the grades kept, a fire_exposed record is rejected when the zone was FIRE, and a
SHRED node's FLOOD becomes PURGING. -/
def Obligations.AlarmResetEndsTheAlarm : Prop :=
  ∀ (s : State) (f : RequestFrame) (p : TerminalNo), s.Evaluates 7 f p → f.bay = 15 →
    ((∃ x ∈ s.fire.sources, x.grade ≠ .none) → exec (.alarmReset f) s = .next (s.refusing 7 f p .notClear)) ∧
    ((∀ x ∈ s.fire.sources, x.grade = .none) → ∃ t : State, exec (.alarmReset f) s = .next t ∧
      let u := s.asked 7 f p
      let ends := s.isBay = true ∧ s.fire.zone = .fire
      t.fire = { s.fire with
        zone := .normal, clearCount := 0, fireRelay := false, preRelay := false, channels := t.fire.channels
        bayHeat := { s.fire.bayHeat with preMem := 31, fireMem := 31, run := none } } ∧
      (∀ c : Fin 4, t.fire.channels[c] = { s.fire.channels[c] with source :=
        { (s.fire.channels[c]).source with preMem := 31, fireMem := 31, run := none } }) ∧
      t.tally.t6 = { u.tally.t6 with
        alarmResets := min (u.tally.t6.alarmResets + 1) 4294967295, handoffDropped := t.tally.t6.handoffDropped } ∧
      (ends → (∀ (b : BayNo) (st : PackState) (r : Record), (s.bay b).slot = .pack st r → r.fireExposed = true →
          st = .admitted ∨ st = .discharging ∨ (∃ c, st = .held c) ∨ st = .resting ∨ st = .safe →
          (t.bay b).slot = .pack .rejected { r with setpoint := 0, endCause := some .fireExposed } ∧
          (t.bay b).contactor = false ∧ (t.bay b).sink = 0 ∧ (t.bay b).restTimer = none ∧ (t.bay b).backoff = none) ∧
        (s.tally.t1.rejected ≤ 4294967295 → t.tally.t1 = { s.tally.t1 with
          rejected := min (s.tally.t1.rejected + s.countBays Slot.exposed) 4294967295 }) ∧
        t.link.replies = s.link.replies.set p.val
          (some (s.replyDone 7 f [0, byteOf (s.countBays Slot.exposed)])) p.isLt) ∧
      (¬ ends → t.tally.t1 = s.tally.t1 ∧
        t.link.replies = s.link.replies.set p.val (some (s.replyDone 7 f [0, 0])) p.isLt) ∧
      (s.isShred = true → s.atmos.state = .flood →
        t.atmos = { s.atmos with state := .purging, purge := true, flood := false, qualify := 0, stageTimer := some 0
                                 slow := false, loss := false } ∧
        t.tally.t5 = { s.tally.t5 with purgeEntries := min (s.tally.t5.purgeEntries + 1) 4294967295 }) ∧
      (s.isShred = false ∨ s.atmos.state ≠ .flood → t.atmos = s.atmos ∧ t.tally.t5 = s.tally.t5) ∧
      t.view = { s.view with lineFire := t.lineFireNow, linePre := t.linePreNow } ∧
      (s.view.lineFire = true ∨ t.view.lineFire = false → t.feed = s.feed ∧ t.link.fifo = s.link.fifo ∧
        t.tally.t6.handoffDropped = u.tally.t6.handoffDropped ∧
        ∀ b : BayNo, (s.bay b).slot.exposed = false ∨ ¬ ends → t.bay b = s.bay b) ∧
      t = { u with fire := t.fire, bays := t.bays, atmos := t.atmos, feed := t.feed, view := t.view, lamps := t.lamps
                   tally := { u.tally with t1 := t.tally.t1, t5 := t.tally.t5, t6 := t.tally.t6 }
                   link := { u.link with replies := t.link.replies, fifo := t.link.fifo } })

/-- PURGE_RESET (R123), FLUSH (R100) and SHRED_RESET (R101, R102), each accepted and refused. -/
def Obligations.ShredderRequests : Prop :=
  (∀ (s : State) (f : RequestFrame) (p : TerminalNo), s.Evaluates 8 f p → s.isShred = true → f.bay = 15 →
    let u := s.asked 8 f p
    (s.atmos.state ≠ .lockout → exec (.purgeReset f) s = .next (s.refusing 8 f p .notClear)) ∧
    (s.atmos.state = .lockout → ∃ t : State, exec (.purgeReset f) s = .next t ∧
      t.atmos = { s.atmos with state := .purging, purge := true, flood := false, qualify := 0, stageTimer := some 0
                               slow := false, loss := false } ∧
      t.tally.t5 = { s.tally.t5 with purgeEntries := min (s.tally.t5.purgeEntries + 1) 4294967295 } ∧
      t.link.replies = s.link.replies.set p.val
        (some (s.replyDone 8 f (1 :: leBytes 2 (s.atmos.oxygen.getD 65535)))) p.isLt ∧
      t = { u with atmos := t.atmos, tally := { u.tally with t5 := t.tally.t5 }
                   link := { u.link with replies := t.link.replies } })) ∧
  (∀ (s : State) (f : RequestFrame) (p : TerminalNo), s.Evaluates 9 f p → s.isShred = true → f.bay = 15 →
    let u := s.asked 9 f p
    (s.feed.queue = [] → exec (.flush f) s = .next (s.refusing 9 f p .notClear)) ∧
    (s.feed.queue ≠ [] → exec (.flush f) s = .next (({ u with feed := { s.feed with flush := true } }).placeReply p
      (s.replyDone 9 f [s.feed.rotor.code, byteOf s.feed.queue.length])))) ∧
  (∀ (s : State) (f : RequestFrame) (p : TerminalNo), s.Evaluates 10 f p → s.isShred = true → f.bay = 15 →
    let u := s.asked 10 f p
    let refused := fun why : Reason => exec (.shredReset f) s = .next (s.refusing 10 f p why)
    let clear := s.feed.rotor = .stopped ∧ s.feed.feedback = false ∧ s.feed.kind = .none ∧ s.feed.confirm = false ∧
      s.chute.sensor = false
    (1 < f.headAction.toNat → refused .badField) ∧
    (f.headAction.toNat ≤ 1 → ¬ clear → refused .notClear) ∧
    (f.headAction = 0 → clear → exec (.shredReset f) s = .next
      (({ u with feed := { s.feed with hold := { stray := false, feed := false, rotor := false } } }).placeReply p
        (s.replyDone 10 f [byteOf s.feed.queue.length]))) ∧
    (f.headAction = 1 → clear → s.feed.queue = [] → refused .notFound) ∧
    (∀ (e : QueueEntry) (l : List QueueEntry), f.headAction = 1 → clear → s.feed.queue = e :: l →
      exec (.shredReset f) s = .next (({ u with
        feed := { s.feed with queue := l, flush := s.feed.flush && !l.isEmpty, idleTimer := none
                              hold := { stray := false, feed := false, rotor := false } }
        tally := { u.tally with t4 := { s.tally.t4 with
          headsRemoved := min (s.tally.t4.headsRemoved + 1) 4294967295 } } }).placeReply p
        (s.replyDone 10 f [byteOf l.length]))))

/-- The read requests and IDENTIFY (R177, R184 to R187, R199): each is answered with its payload, field by field in the
layout of 9.8 and least significant byte first, or refused, and changes no state but its terminal's slot. That an
UNKNOWN_REQUEST with the code of one of them is answered as it, is the model's own choice (log entry 28). -/
def Obligations.ReadsAnswer : Prop :=
  (∀ (width v i : Nat), i < width → (leBytes width v)[i]? = some (BitVec.ofNat 8 (v / 256 ^ i))) ∧
  (∀ width v : Nat, (leBytes width v).length = width) ∧
  (∀ (c : Instr) (code : Byte) (f : RequestFrame) (p : TerminalNo) (s : State), requestRow c = some (code, f) →
    s.Evaluates code f p →
    let refused := fun why : Reason => exec c s = .next (s.refusing code f p why)
    let answers := fun fields : List (Nat × Nat) => exec c s = .next ((s.asked code f p).placeReply p
      (s.replyDone code f (fields.flatMap (fun x => leBytes x.1 x.2))))
    let y := (s.asked code f p).tally
    let four := fun l : List Nat => l.map (fun n => (4, min n 4294967295))
    let ended := fun e : EndCause => match e with
      | .safeVoltage => 1 | .timeLimit => 2 | .chargeLimit => 3 | .abort => 4 | .rebound => 5 | .fireExposed => 6
    let flag := fun x : Bool => if x = true then 1 else 0
    let entry := fun e : Option FaultEntry => match e with
      | none => [(12, 0)]
      | some e => [(1, 1), (1, e.cause.code.toNat)] ++
          (match e.place with
            | .none => [(1, 0), (1, 0)] | .bay n => [(1, 1), (1, n)] | .channel n => [(1, 2), (1, n)]
            | .node n => [(1, 3), (1, n)]) ++ [(4, (e.tag.getD 0).toNat), (4, e.time.toNat)]
    (∀ b : BayNo, code = 12 → s.isBay = true → f.bay.toNat = b.val →
      ((s.bay b).slot.record = none → refused .notFound) ∧
      (∀ (st : PackState) (r : Record), (s.bay b).slot = .pack st r → answers
        [(1, match st with
            | .admitted => 2 | .discharging => 3 | .held _ => 4 | .resting => 5 | .safe => 6 | .offered _ => 7
            | .releasing _ => 8 | .inTransit _ => 9 | .rejected => 10 | .missing => 11),
          (1, match st with
            | .offered n => n.val | .releasing n => n.val | .inTransit n => n.val
            | .admitted | .discharging | .held _ | .resting | .safe | .rejected | .missing => 255),
          (4, r.tag.toNat), (1, r.s), (1, r.round), (2, r.capacity.getD 0), (2, r.timeLimit),
          (4, r.admittedAt.toNat), (1, flag r.readmitted + 2 * flag r.fireExposed + 4 * flag r.settleEarly),
          (1, r.offers), (4, r.q), (4, r.e), (4, r.eRem), (2, r.setpoint), (2, r.lastV), (2, r.lastI),
          (2, (r.lastT % 65536).toNat), (2, (r.peakT % 65536).toNat), (4, r.dischargeMs),
          (1, match st with
            | .held .lineStop => 1 | .held .thermal => 2 | .held .fault => 3
            | .admitted | .discharging | .resting | .safe | .offered _ | .releasing _ | .inTransit _ | .rejected
            | .missing => 0),
          (1, (r.endCause.map ended).getD 0), (2, r.restStartV.getD 65535), (2, r.reboundV.getD 65535)])) ∧
    (code = 13 → f.bay = 15 →
      let part := fun n i : Nat => f.record.toNat = n ∧ f.index.toNat = i
      (f.record.toNat = 0 ∨ 6 < f.record.toNat → refused .badField) ∧
      (part 1 0 → answers (four [y.t1.admitted, y.t1.settled, y.t1.quarantined, y.t1.quarantinedOrphans, y.t1.orphaned,
        y.t1.writtenOff, y.t1.rejected, y.t1.readmitted])) ∧
      (part 2 0 → answers [(4, y.t2.completed), (8, y.t2.charge), (8, y.t2.energy), (8, y.t2.time), (4, y.t2.maxTime),
        (4, y.t2.maxEnergy), (8, if y.t2.completed = 0 then 0 else y.t2.time / y.t2.completed)]) ∧
      (part 3 0 → answers (four [y.t3.offers, y.t3.declines, y.t3.jams, y.t3.transitLost, y.t3.lateSettles] ++
        [(1, s.unaccounted.length)])) ∧
      (part 4 0 → answers (four y.t4.settledFrom.toList)) ∧
      (part 4 1 → answers ([(4, y.t4.shredded), (8, y.t4.shreddedEnergy)] ++ four [y.t4.strays, y.t4.arrivalMissed,
        y.t4.rotorStarts, y.t4.byWatermark, y.t4.byAge, y.t4.byIdleLine, y.t4.byRequest, y.t4.headsRemoved])) ∧
      (part 5 0 → answers (four [y.t5.purgeEntries, y.t5.inertEntries, y.t5.atmosLost, y.t5.lockouts, y.t5.floods])) ∧
      (part 6 0 → answers (four [y.t6.preCount, y.t6.fireCount, y.t6.channelFaults, y.t6.alarmResets,
        y.t6.passiveEntries, y.t6.offEntries, y.t6.peersLost, y.t6.statusOverrun, y.t6.foreign, y.t6.handoffDropped])) ∧
      (part 6 1 → answers (entry s.faults.first ++ entry s.faults.last ++ [(2, s.faults.count)])) ∧
      (1 ≤ f.record.toNat → f.record.toNat ≤ 6 →
        1 < f.index.toNat ∨ (f.index.toNat = 1 ∧ f.record.toNat ≠ 4 ∧ f.record.toNat ≠ 6) → refused .notFound)) ∧
    (code = 14 → s.isBay = true → f.bay = 15 →
      let i := f.index.toNat
      (∀ e : QuarantineEntry, i < 16 → s.store[i]? = some e →
        answers [(1, s.store.length), (1, s.profile.quarantineCapacity), (4, (e.tag.getD 0).toNat), (1, e.bay.val),
          (1, match e.reason with
            | .ended c => ended c
            | .orphan => 7), (4, e.time.toNat)]) ∧
      (i < 16 → s.store.length ≤ i → refused .notFound) ∧
      (∀ e : UnaccountedEntry, 16 ≤ i → i < 20 → s.unaccounted[i - 16]? = some e →
        answers [(1, s.unaccounted.length), (1, 0), (4, e.tag.toNat), (1, e.bay.val), (1, e.shred.val),
          (4, e.time.toNat)]) ∧
      (16 ≤ i → i < 20 → s.unaccounted.length ≤ i - 16 → refused .notFound) ∧
      (20 ≤ i → refused .notFound)) ∧
    (code = 15 → f.bay = 15 →
      answers [(2, 4104), (1, 2), (1, s.startup.straps.node.toNat), (1, s.startup.straps.role.toNat),
        (1, s.startup.straps.profile.toNat), (1, s.startup.straps.power.toNat),
        (1, match s.startup.resetCause with
          | .powerOn => 0 | .pin => 1 | .request => 2),
        (2, s.startup.lineResets), (4, s.startup.nodeTime.toNat)])) ∧
  ([.measurement, .deviation, .stray, .feedTimeout, .reboundHigh, .feedUnexpected, .rotorStart, .rotorStall, .rotorStop,
      .rotorUncommanded, .o2SensorFault, .pressureFault, .purgeLockout, .atmosSensorsLost, .atmosO2High,
      .atmosPressureLow, .zoneFire, .channelFault, .clash].map FaultCause.code =
    [1, 2, 3, 4, 5, 6, 7, 8, 9, 10, 11, 12, 13, 14, 15, 16, 17, 18, 19])

/-- NODE_RESET (R182): refused BUSY while a pack is discharged or moved or a reservation stands, accepted otherwise with
the reset pending flag; the success of its reply takes a line reset with the cause REQUEST (R196), which leaves the values
of `State.LineResetBegins` as the RESET pin does. That the records are discarded and counted orphaned at the start of the
line reset, is the model's own reading (log entry 6), and so are the readings and the sensor levels until they are sampled
(log entries 5 and 24) and the queue of commands that stays (log entry 26). -/
def Obligations.NodeResetTakesALineReset : Prop :=
  (∀ (s : State) (f : RequestFrame) (p : TerminalNo), s.Evaluates 16 f p → f.bay = 15 →
    let u := s.asked 16 f p
    let busy := (∃ (b : BayNo) (r : Record), (s.bay b).slot = .pack .discharging r ∨
      ∃ n : NodeNo, (s.bay b).slot = .pack (.releasing n) r ∨ (s.bay b).slot = .pack (.inTransit n) r) ∨
      s.chute.reservation ≠ none
    (busy → exec (.nodeReset f) s = .next (s.refusing 16 f p .busy)) ∧
    (¬ busy → exec (.nodeReset f) s = .next
      (({ u with requests := { s.requests with resetPending := true } }).placeReply p (s.replyDone 16 f [])))) ∧
  (∀ (s : State) (a : Attempt) (p : TerminalNo) (r : Reply), s.link.attempt = some a → a.buffer = .reply p →
    s.link.replies[p] = some r → r.code = 16 → r.reason = none → s.requests.resetPending = true →
    ∃ t : State, exec .transmitSuccess s = .next t ∧ s.LineResetBegins t .request)

/-! ### The laws -/

/-- L9 (R158), with its counterpart for line_pre (R152): after every step line_fire is false only if the own zone is not
FIRE and no peer entry that is not ABSENT holds a last report of FIRE. -/
def Obligations.LineViewLawKept : Prop :=
  (∀ s t : State, s.LineViewLaw → step s = .next t → t.LineViewLaw) ∧
  (∀ s : State, s.LineViewLaw → s.view.lineFire = false → s.fire.zone ≠ .fire ∧
    ∀ (n : NodeNo) (f : StatusFrame), (s.peers[n]).state ≠ .absent → (s.peers[n]).fields = some f → f.zone ≠ 2)

/-- L6 and L5's bound by I_max (R50, R51), with the outputs and timers of every bay (R24, R64): every step keeps the
contactor closed, and the setpoint other than 0, in DISCHARGING only, and DISCHARGING under RUNNING, not SILENT and
without line_fire only. -/
def Obligations.BayLawKept : Prop :=
  (∀ s t : State, s.BayLaw → step s = .next t → t.BayLaw) ∧
  (∀ (s : State) (b : BayNo), s.BayLaw → (s.bay b).contactor = true →
    (s.bay b).slot.isDischarging = true ∧ s.startup.life = .running ∧ s.view.silent = false ∧ s.view.lineFire = false)

/-- L8 (R105): every step keeps the feed gate closed except while the atmosphere is INERT, the rotor is RUNNING, line_fire
is false and no feed hold is set, and only a feed period opens it; the valves, outputs and timers belong to their
states. -/
def Obligations.FeedLawKept : Prop :=
  (∀ s t : State, s.FeedLaw → step s = .next t → t.FeedLaw) ∧
  (∀ s t : State, step s = .next t → s.feed.gate = false → t.feed.gate = true →
    ∃ rest : List Instr, s.pending = .feedPeriodExpiry :: rest) ∧
  (∀ s : State, s.FeedLaw → s.feed.gate = true → s.atmos.state = .inert ∧ s.feed.rotor = .running ∧
    s.view.lineFire = false ∧ s.feed.hold = { stray := false, feed := false, rotor := false })

/-- L4 (R86) and L10 (R81): every step keeps both bounds, a reservation is made only by a received OFFER frame, where the
chute is free and the intake is below 8, and a bay enters OFFERED only by the offer check, alone and below 4 transfers. -/
def Obligations.IntakeAndTransferLawsKept : Prop :=
  (∀ s t : State, s.IntakeLaw → step s = .next t → t.IntakeLaw) ∧
  (∀ s t : State, step s = .next t → t.chute.reservation ≠ none → t.chute.reservation ≠ s.chute.reservation →
    (∃ (c : Instr) (rest : List Instr) (w : WireFrame), s.pending = c :: rest ∧ encodeFrame c = some w ∧
        w.kind = kindHandoff ∧ fieldAt w.data 0 1 = 0) ∧
      s.chute.reservation = none ∧ s.intake < 8 ∧ t.intake = s.intake + 1) ∧
  (∀ s t : State, s.TransferLaw → step s = .next t → t.TransferLaw) ∧
  (∀ s t : State, step s = .next t →
    (∀ b : BayNo, (t.bay b).slot.isOffered = true → (s.bay b).slot.isOffered = true) → t.transfers ≤ s.transfers) ∧
  (∀ (s t : State) (b : BayNo), step s = .next t → (t.bay b).slot.isOffered = true →
    (s.bay b).slot.isOffered = false →
    (∃ rest : List Instr, s.pending = .offerCheck :: rest) ∧ s.countBays Slot.isOffered = 0 ∧ s.transfers < 4 ∧
      t.countBays Slot.isOffered = 1 ∧ t.transfers = s.transfers + 1)

/-- L1 (R17) and L2 (R18): no step raises the count of L1 past the capacity, and every step keeps each tag at most once in
the bay collections and at most once in the queue and reservation. -/
def Obligations.CapacityAndTagLawsKept : Prop :=
  (∀ s t : State, step s = .next t → t.l1Count ≤ max s.l1Count t.capacity) ∧
  (∀ s t : State, s.QuarantineLaw → step s = .next t → t.capacity = s.capacity → t.QuarantineLaw) ∧
  (∀ s t : State, s.TagLaw → step s = .next t → t.TagLaw)

/-- L3 (R19): every step keeps the balance of the admitted packs while no tally of it has reached its ceiling. A reset
that selects another role than BAY discards the collections (R194) and is left out. -/
def Obligations.ConservationLawKept : Prop :=
  ∀ s t : State, s.ConservationLaw → step s = .next t → t.tally.t1.below →
    (∀ (e : ResetSample) (rest : List Instr), s.pending = .endOfReset e :: rest → e.straps.role = 0) →
    t.ConservationLaw

/-- The headroom bounds that stand between computations (R55, R57, R58): every step keeps the line limit within the own
class, the allowance within the node maximum power, and the sum of the shares within the allowance. -/
def Obligations.HeadroomLawKept : Prop :=
  ∀ s t : State, s.HeadroomLaw → step s = .next t → t.HeadroomLaw

/-- Every step keeps the relays with the zone (R136), every lamp with its state (R15, R136, R198), the link state with
the error counts (R168, R169), the pending set in priority order (R144, R145), the handoff FIFO within 4 frames (R163), and
every REPLY within a payload of 56 bytes (R177). The patterns of the bay lamps, the beacon and the node lamp stand value by
value, with when a lamp that shows one is lit; and at every command a pattern that differs from the one before starts at the
beginning of its on time, while a blink that stays runs on without a restart (R15, R136). The model's own readings stand in
it: the transmit error count is 256 while OFF (log entry 11), the blinks of 4 Hz and 1 Hz have equal on and off times, and
the node lamp starts its patterns as the other lamps do (log entry 18). -/
def Obligations.OutputsAndBuffersKept : Prop :=
  (∀ s t : State, s.RelayLaw → step s = .next t → t.RelayLaw) ∧
  (∀ s t : State, s.LampLaw → step s = .next t → t.LampLaw) ∧
  (∀ s t : State, s.LinkLaw → step s = .next t → t.LinkLaw) ∧
  (∀ s t : State, s.LatchLaw → step s = .next t → t.LatchLaw) ∧
  (∀ s t : State, s.FifoLaw → step s = .next t → t.FifoLaw) ∧
  (∀ s t : State, s.ReplyLaw → step s = .next t → t.ReplyLaw) ∧
  (∀ (life : Lifecycle) (r : Record) (n : NodeNo) (c : HoldCause), life ≠ .halted → life ≠ .inReset →
    [Slot.empty, .orphan, .pack .admitted r, .pack .discharging r, .pack (.held c) r, .pack .resting r, .pack .safe r,
        .pack (.offered n) r, .pack (.releasing n) r, .pack (.inTransit n) r, .pack .rejected r,
        .pack .missing r].map (bayPattern life) =
      [.off, .blink 125 125, .blink 500 500, .blink 500 500, .blink 500 1500, .blink 500 500, .steady, .steady, .steady,
        .off, .blink 125 125, .blink 125 125]) ∧
  (∀ x : Slot, bayPattern .halted x = .off ∧ bayPattern .inReset x = .off) ∧
  (∀ (life : Lifecycle) (impaired : Bool), life ≠ .inReset →
    beaconPattern life .normal false = .off ∧ beaconPattern life .normal true = .blink 250 1750 ∧
      beaconPattern life .pre impaired = .blink 500 500 ∧ beaconPattern life .fire impaired = .steady) ∧
  (∀ (zone : Zone) (impaired : Bool), beaconPattern .inReset zone impaired = .off) ∧
  [Lifecycle.inReset, .halted, .listen, .running, .safeStop].map nodePattern =
    [.off, .blink 125 125, .blink 500 500, .steady, .blink 500 1500] ∧
  (∀ x : Lamp, (x.pattern = .off → x.lit = false) ∧ (x.pattern = .steady → x.lit = true) ∧
    ∀ a b : Nat, x.pattern = .blink a b → (x.lit = true ↔ x.phase % (a + b) < a)) ∧
  (∀ s t : State, s.pending ≠ [] → step s = .next t →
    let follows := fun x y : Lamp => (y.pattern ≠ x.pattern → y.phase = 0) ∧
      ∀ a b : Nat, y.pattern = .blink a b → x.pattern = .blink a b → y.phase = x.phase
    (∀ b : BayNo, follows s.lamps.bays[b] t.lamps.bays[b]) ∧ follows s.lamps.beacon t.lamps.beacon ∧
      follows s.lamps.node t.lamps.node)

/-- L11 (R200): every step keeps a node outside RUNNING without an attempt, without a frame in any buffer, and with its
periods and its silence timer stopped. -/
def Obligations.SilenceLawKept : Prop :=
  ∀ s t : State, s.SilenceLaw → step s = .next t → t.SilenceLaw

/-- L12 (R106): a STATUS that a step forms at a SHRED node has its accepting flag set exactly when INERT, line_fire false,
RUNNING, not SILENT, no feed hold, chute free and fewer than 8 entries. -/
def Obligations.AcceptingFlagLaw : Prop :=
  ∀ (s t : State) (f : StatusFrame), step s = .next t → t.link.status = some f → s.link.status ≠ some f →
    t.isShred = true → (f.flags.getLsbD 4 = true ↔
      t.atmos.state = .inert ∧ t.view.lineFire = false ∧ t.startup.life = .running ∧ t.view.silent = false ∧
        t.feed.hold = { stray := false, feed := false, rotor := false } ∧ t.chute.reservation = none ∧ t.feed.queue.length < 8)

/-- The state right after reset satisfies every law. -/
def Obligations.ResetMeetsTheLaws : Prop :=
  State.reset.LineViewLaw ∧ State.reset.BayLaw ∧ State.reset.FeedLaw ∧ State.reset.IntakeLaw ∧
    State.reset.TransferLaw ∧ State.reset.QuarantineLaw ∧ State.reset.TagLaw ∧ State.reset.ConservationLaw ∧
    State.reset.HeadroomLaw ∧ State.reset.RelayLaw ∧ State.reset.LampLaw ∧ State.reset.LinkLaw ∧
    State.reset.LatchLaw ∧ State.reset.FifoLaw ∧ State.reset.ReplyLaw ∧ State.reset.SilenceLaw

/-- The frame of a row and the row of a frame agree (R63, R159, R177): whatever its operands, a command that stands for a
received frame is the row that its bytes on the bus decode to. -/
def Obligations.FramesDecodeToTheirRows : Prop :=
  ∀ (i : Instr) (w : WireFrame), encodeFrame i = some w → i.wellFormed = true →
    (∀ v : WireFrame, i ≠ .foreignFrameReceived v ∧ i ≠ .framePassedBy v) → decodeFrame w = i

end
end

