-- ==== Sys2Proof/Laws/State.lean ====
section
/-! SUPPORT. One lemma for each field that an update of the state leaves alone, so that no later proof unfolds the
update, and what a bay reads after an update of the bay table. -/

namespace Sys2Proof.Machine

/-! ### setBay -/

@[simp] theorem State.setBay_startup (s : State) (b : BayNo) (x : Bay) : (s.setBay b x).startup = s.startup := rfl
@[simp] theorem State.setBay_store (s : State) (b : BayNo) (x : Bay) : (s.setBay b x).store = s.store := rfl
@[simp] theorem State.setBay_unaccounted (s : State) (b : BayNo) (x : Bay) : (s.setBay b x).unaccounted = s.unaccounted := rfl
@[simp] theorem State.setBay_headroom (s : State) (b : BayNo) (x : Bay) : (s.setBay b x).headroom = s.headroom := rfl
@[simp] theorem State.setBay_handoff (s : State) (b : BayNo) (x : Bay) : (s.setBay b x).handoff = s.handoff := rfl
@[simp] theorem State.setBay_chute (s : State) (b : BayNo) (x : Bay) : (s.setBay b x).chute = s.chute := rfl
@[simp] theorem State.setBay_feed (s : State) (b : BayNo) (x : Bay) : (s.setBay b x).feed = s.feed := rfl
@[simp] theorem State.setBay_atmos (s : State) (b : BayNo) (x : Bay) : (s.setBay b x).atmos = s.atmos := rfl
@[simp] theorem State.setBay_fire (s : State) (b : BayNo) (x : Bay) : (s.setBay b x).fire = s.fire := rfl
@[simp] theorem State.setBay_latch (s : State) (b : BayNo) (x : Bay) : (s.setBay b x).latch = s.latch := rfl
@[simp] theorem State.setBay_view (s : State) (b : BayNo) (x : Bay) : (s.setBay b x).view = s.view := rfl
@[simp] theorem State.setBay_faults (s : State) (b : BayNo) (x : Bay) : (s.setBay b x).faults = s.faults := rfl
@[simp] theorem State.setBay_link (s : State) (b : BayNo) (x : Bay) : (s.setBay b x).link = s.link := rfl
@[simp] theorem State.setBay_peers (s : State) (b : BayNo) (x : Bay) : (s.setBay b x).peers = s.peers := rfl
@[simp] theorem State.setBay_filter (s : State) (b : BayNo) (x : Bay) : (s.setBay b x).filter = s.filter := rfl
@[simp] theorem State.setBay_requests (s : State) (b : BayNo) (x : Bay) : (s.setBay b x).requests = s.requests := rfl
@[simp] theorem State.setBay_tally (s : State) (b : BayNo) (x : Bay) : (s.setBay b x).tally = s.tally := rfl
@[simp] theorem State.setBay_lamps (s : State) (b : BayNo) (x : Bay) : (s.setBay b x).lamps = s.lamps := rfl
@[simp] theorem State.setBay_pending (s : State) (b : BayNo) (x : Bay) : (s.setBay b x).pending = s.pending := rfl

/-! ### mapBays -/

@[simp] theorem State.mapBays_startup (s : State) (f : Bay → Bay) : (s.mapBays f).startup = s.startup := rfl
@[simp] theorem State.mapBays_store (s : State) (f : Bay → Bay) : (s.mapBays f).store = s.store := rfl
@[simp] theorem State.mapBays_unaccounted (s : State) (f : Bay → Bay) : (s.mapBays f).unaccounted = s.unaccounted := rfl
@[simp] theorem State.mapBays_headroom (s : State) (f : Bay → Bay) : (s.mapBays f).headroom = s.headroom := rfl
@[simp] theorem State.mapBays_handoff (s : State) (f : Bay → Bay) : (s.mapBays f).handoff = s.handoff := rfl
@[simp] theorem State.mapBays_chute (s : State) (f : Bay → Bay) : (s.mapBays f).chute = s.chute := rfl
@[simp] theorem State.mapBays_feed (s : State) (f : Bay → Bay) : (s.mapBays f).feed = s.feed := rfl
@[simp] theorem State.mapBays_atmos (s : State) (f : Bay → Bay) : (s.mapBays f).atmos = s.atmos := rfl
@[simp] theorem State.mapBays_fire (s : State) (f : Bay → Bay) : (s.mapBays f).fire = s.fire := rfl
@[simp] theorem State.mapBays_latch (s : State) (f : Bay → Bay) : (s.mapBays f).latch = s.latch := rfl
@[simp] theorem State.mapBays_view (s : State) (f : Bay → Bay) : (s.mapBays f).view = s.view := rfl
@[simp] theorem State.mapBays_faults (s : State) (f : Bay → Bay) : (s.mapBays f).faults = s.faults := rfl
@[simp] theorem State.mapBays_link (s : State) (f : Bay → Bay) : (s.mapBays f).link = s.link := rfl
@[simp] theorem State.mapBays_peers (s : State) (f : Bay → Bay) : (s.mapBays f).peers = s.peers := rfl
@[simp] theorem State.mapBays_filter (s : State) (f : Bay → Bay) : (s.mapBays f).filter = s.filter := rfl
@[simp] theorem State.mapBays_requests (s : State) (f : Bay → Bay) : (s.mapBays f).requests = s.requests := rfl
@[simp] theorem State.mapBays_tally (s : State) (f : Bay → Bay) : (s.mapBays f).tally = s.tally := rfl
@[simp] theorem State.mapBays_lamps (s : State) (f : Bay → Bay) : (s.mapBays f).lamps = s.lamps := rfl
@[simp] theorem State.mapBays_pending (s : State) (f : Bay → Bay) : (s.mapBays f).pending = s.pending := rfl

/-! ### onT1 -/

@[simp] theorem State.onT1_startup (s : State) (f : Tally1 → Tally1) : (s.onT1 f).startup = s.startup := rfl
@[simp] theorem State.onT1_bays (s : State) (f : Tally1 → Tally1) : (s.onT1 f).bays = s.bays := rfl
@[simp] theorem State.onT1_store (s : State) (f : Tally1 → Tally1) : (s.onT1 f).store = s.store := rfl
@[simp] theorem State.onT1_unaccounted (s : State) (f : Tally1 → Tally1) : (s.onT1 f).unaccounted = s.unaccounted := rfl
@[simp] theorem State.onT1_headroom (s : State) (f : Tally1 → Tally1) : (s.onT1 f).headroom = s.headroom := rfl
@[simp] theorem State.onT1_handoff (s : State) (f : Tally1 → Tally1) : (s.onT1 f).handoff = s.handoff := rfl
@[simp] theorem State.onT1_chute (s : State) (f : Tally1 → Tally1) : (s.onT1 f).chute = s.chute := rfl
@[simp] theorem State.onT1_feed (s : State) (f : Tally1 → Tally1) : (s.onT1 f).feed = s.feed := rfl
@[simp] theorem State.onT1_atmos (s : State) (f : Tally1 → Tally1) : (s.onT1 f).atmos = s.atmos := rfl
@[simp] theorem State.onT1_fire (s : State) (f : Tally1 → Tally1) : (s.onT1 f).fire = s.fire := rfl
@[simp] theorem State.onT1_latch (s : State) (f : Tally1 → Tally1) : (s.onT1 f).latch = s.latch := rfl
@[simp] theorem State.onT1_view (s : State) (f : Tally1 → Tally1) : (s.onT1 f).view = s.view := rfl
@[simp] theorem State.onT1_faults (s : State) (f : Tally1 → Tally1) : (s.onT1 f).faults = s.faults := rfl
@[simp] theorem State.onT1_link (s : State) (f : Tally1 → Tally1) : (s.onT1 f).link = s.link := rfl
@[simp] theorem State.onT1_peers (s : State) (f : Tally1 → Tally1) : (s.onT1 f).peers = s.peers := rfl
@[simp] theorem State.onT1_filter (s : State) (f : Tally1 → Tally1) : (s.onT1 f).filter = s.filter := rfl
@[simp] theorem State.onT1_requests (s : State) (f : Tally1 → Tally1) : (s.onT1 f).requests = s.requests := rfl
@[simp] theorem State.onT1_lamps (s : State) (f : Tally1 → Tally1) : (s.onT1 f).lamps = s.lamps := rfl
@[simp] theorem State.onT1_pending (s : State) (f : Tally1 → Tally1) : (s.onT1 f).pending = s.pending := rfl
@[simp] theorem State.onT1_bay (s : State) (f : Tally1 → Tally1) (k : BayNo) : (s.onT1 f).bay k = s.bay k := by
  simp [State.bay]

/-! ### onT2 -/

@[simp] theorem State.onT2_startup (s : State) (f : Tally2 → Tally2) : (s.onT2 f).startup = s.startup := rfl
@[simp] theorem State.onT2_bays (s : State) (f : Tally2 → Tally2) : (s.onT2 f).bays = s.bays := rfl
@[simp] theorem State.onT2_store (s : State) (f : Tally2 → Tally2) : (s.onT2 f).store = s.store := rfl
@[simp] theorem State.onT2_unaccounted (s : State) (f : Tally2 → Tally2) : (s.onT2 f).unaccounted = s.unaccounted := rfl
@[simp] theorem State.onT2_headroom (s : State) (f : Tally2 → Tally2) : (s.onT2 f).headroom = s.headroom := rfl
@[simp] theorem State.onT2_handoff (s : State) (f : Tally2 → Tally2) : (s.onT2 f).handoff = s.handoff := rfl
@[simp] theorem State.onT2_chute (s : State) (f : Tally2 → Tally2) : (s.onT2 f).chute = s.chute := rfl
@[simp] theorem State.onT2_feed (s : State) (f : Tally2 → Tally2) : (s.onT2 f).feed = s.feed := rfl
@[simp] theorem State.onT2_atmos (s : State) (f : Tally2 → Tally2) : (s.onT2 f).atmos = s.atmos := rfl
@[simp] theorem State.onT2_fire (s : State) (f : Tally2 → Tally2) : (s.onT2 f).fire = s.fire := rfl
@[simp] theorem State.onT2_latch (s : State) (f : Tally2 → Tally2) : (s.onT2 f).latch = s.latch := rfl
@[simp] theorem State.onT2_view (s : State) (f : Tally2 → Tally2) : (s.onT2 f).view = s.view := rfl
@[simp] theorem State.onT2_faults (s : State) (f : Tally2 → Tally2) : (s.onT2 f).faults = s.faults := rfl
@[simp] theorem State.onT2_link (s : State) (f : Tally2 → Tally2) : (s.onT2 f).link = s.link := rfl
@[simp] theorem State.onT2_peers (s : State) (f : Tally2 → Tally2) : (s.onT2 f).peers = s.peers := rfl
@[simp] theorem State.onT2_filter (s : State) (f : Tally2 → Tally2) : (s.onT2 f).filter = s.filter := rfl
@[simp] theorem State.onT2_requests (s : State) (f : Tally2 → Tally2) : (s.onT2 f).requests = s.requests := rfl
@[simp] theorem State.onT2_lamps (s : State) (f : Tally2 → Tally2) : (s.onT2 f).lamps = s.lamps := rfl
@[simp] theorem State.onT2_pending (s : State) (f : Tally2 → Tally2) : (s.onT2 f).pending = s.pending := rfl
@[simp] theorem State.onT2_bay (s : State) (f : Tally2 → Tally2) (k : BayNo) : (s.onT2 f).bay k = s.bay k := by
  simp [State.bay]

/-! ### onT3 -/

@[simp] theorem State.onT3_startup (s : State) (f : Tally3 → Tally3) : (s.onT3 f).startup = s.startup := rfl
@[simp] theorem State.onT3_bays (s : State) (f : Tally3 → Tally3) : (s.onT3 f).bays = s.bays := rfl
@[simp] theorem State.onT3_store (s : State) (f : Tally3 → Tally3) : (s.onT3 f).store = s.store := rfl
@[simp] theorem State.onT3_unaccounted (s : State) (f : Tally3 → Tally3) : (s.onT3 f).unaccounted = s.unaccounted := rfl
@[simp] theorem State.onT3_headroom (s : State) (f : Tally3 → Tally3) : (s.onT3 f).headroom = s.headroom := rfl
@[simp] theorem State.onT3_handoff (s : State) (f : Tally3 → Tally3) : (s.onT3 f).handoff = s.handoff := rfl
@[simp] theorem State.onT3_chute (s : State) (f : Tally3 → Tally3) : (s.onT3 f).chute = s.chute := rfl
@[simp] theorem State.onT3_feed (s : State) (f : Tally3 → Tally3) : (s.onT3 f).feed = s.feed := rfl
@[simp] theorem State.onT3_atmos (s : State) (f : Tally3 → Tally3) : (s.onT3 f).atmos = s.atmos := rfl
@[simp] theorem State.onT3_fire (s : State) (f : Tally3 → Tally3) : (s.onT3 f).fire = s.fire := rfl
@[simp] theorem State.onT3_latch (s : State) (f : Tally3 → Tally3) : (s.onT3 f).latch = s.latch := rfl
@[simp] theorem State.onT3_view (s : State) (f : Tally3 → Tally3) : (s.onT3 f).view = s.view := rfl
@[simp] theorem State.onT3_faults (s : State) (f : Tally3 → Tally3) : (s.onT3 f).faults = s.faults := rfl
@[simp] theorem State.onT3_link (s : State) (f : Tally3 → Tally3) : (s.onT3 f).link = s.link := rfl
@[simp] theorem State.onT3_peers (s : State) (f : Tally3 → Tally3) : (s.onT3 f).peers = s.peers := rfl
@[simp] theorem State.onT3_filter (s : State) (f : Tally3 → Tally3) : (s.onT3 f).filter = s.filter := rfl
@[simp] theorem State.onT3_requests (s : State) (f : Tally3 → Tally3) : (s.onT3 f).requests = s.requests := rfl
@[simp] theorem State.onT3_lamps (s : State) (f : Tally3 → Tally3) : (s.onT3 f).lamps = s.lamps := rfl
@[simp] theorem State.onT3_pending (s : State) (f : Tally3 → Tally3) : (s.onT3 f).pending = s.pending := rfl
@[simp] theorem State.onT3_bay (s : State) (f : Tally3 → Tally3) (k : BayNo) : (s.onT3 f).bay k = s.bay k := by
  simp [State.bay]

/-! ### onT4 -/

@[simp] theorem State.onT4_startup (s : State) (f : Tally4 → Tally4) : (s.onT4 f).startup = s.startup := rfl
@[simp] theorem State.onT4_bays (s : State) (f : Tally4 → Tally4) : (s.onT4 f).bays = s.bays := rfl
@[simp] theorem State.onT4_store (s : State) (f : Tally4 → Tally4) : (s.onT4 f).store = s.store := rfl
@[simp] theorem State.onT4_unaccounted (s : State) (f : Tally4 → Tally4) : (s.onT4 f).unaccounted = s.unaccounted := rfl
@[simp] theorem State.onT4_headroom (s : State) (f : Tally4 → Tally4) : (s.onT4 f).headroom = s.headroom := rfl
@[simp] theorem State.onT4_handoff (s : State) (f : Tally4 → Tally4) : (s.onT4 f).handoff = s.handoff := rfl
@[simp] theorem State.onT4_chute (s : State) (f : Tally4 → Tally4) : (s.onT4 f).chute = s.chute := rfl
@[simp] theorem State.onT4_feed (s : State) (f : Tally4 → Tally4) : (s.onT4 f).feed = s.feed := rfl
@[simp] theorem State.onT4_atmos (s : State) (f : Tally4 → Tally4) : (s.onT4 f).atmos = s.atmos := rfl
@[simp] theorem State.onT4_fire (s : State) (f : Tally4 → Tally4) : (s.onT4 f).fire = s.fire := rfl
@[simp] theorem State.onT4_latch (s : State) (f : Tally4 → Tally4) : (s.onT4 f).latch = s.latch := rfl
@[simp] theorem State.onT4_view (s : State) (f : Tally4 → Tally4) : (s.onT4 f).view = s.view := rfl
@[simp] theorem State.onT4_faults (s : State) (f : Tally4 → Tally4) : (s.onT4 f).faults = s.faults := rfl
@[simp] theorem State.onT4_link (s : State) (f : Tally4 → Tally4) : (s.onT4 f).link = s.link := rfl
@[simp] theorem State.onT4_peers (s : State) (f : Tally4 → Tally4) : (s.onT4 f).peers = s.peers := rfl
@[simp] theorem State.onT4_filter (s : State) (f : Tally4 → Tally4) : (s.onT4 f).filter = s.filter := rfl
@[simp] theorem State.onT4_requests (s : State) (f : Tally4 → Tally4) : (s.onT4 f).requests = s.requests := rfl
@[simp] theorem State.onT4_lamps (s : State) (f : Tally4 → Tally4) : (s.onT4 f).lamps = s.lamps := rfl
@[simp] theorem State.onT4_pending (s : State) (f : Tally4 → Tally4) : (s.onT4 f).pending = s.pending := rfl
@[simp] theorem State.onT4_bay (s : State) (f : Tally4 → Tally4) (k : BayNo) : (s.onT4 f).bay k = s.bay k := by
  simp [State.bay]

/-! ### onT5 -/

@[simp] theorem State.onT5_startup (s : State) (f : Tally5 → Tally5) : (s.onT5 f).startup = s.startup := rfl
@[simp] theorem State.onT5_bays (s : State) (f : Tally5 → Tally5) : (s.onT5 f).bays = s.bays := rfl
@[simp] theorem State.onT5_store (s : State) (f : Tally5 → Tally5) : (s.onT5 f).store = s.store := rfl
@[simp] theorem State.onT5_unaccounted (s : State) (f : Tally5 → Tally5) : (s.onT5 f).unaccounted = s.unaccounted := rfl
@[simp] theorem State.onT5_headroom (s : State) (f : Tally5 → Tally5) : (s.onT5 f).headroom = s.headroom := rfl
@[simp] theorem State.onT5_handoff (s : State) (f : Tally5 → Tally5) : (s.onT5 f).handoff = s.handoff := rfl
@[simp] theorem State.onT5_chute (s : State) (f : Tally5 → Tally5) : (s.onT5 f).chute = s.chute := rfl
@[simp] theorem State.onT5_feed (s : State) (f : Tally5 → Tally5) : (s.onT5 f).feed = s.feed := rfl
@[simp] theorem State.onT5_atmos (s : State) (f : Tally5 → Tally5) : (s.onT5 f).atmos = s.atmos := rfl
@[simp] theorem State.onT5_fire (s : State) (f : Tally5 → Tally5) : (s.onT5 f).fire = s.fire := rfl
@[simp] theorem State.onT5_latch (s : State) (f : Tally5 → Tally5) : (s.onT5 f).latch = s.latch := rfl
@[simp] theorem State.onT5_view (s : State) (f : Tally5 → Tally5) : (s.onT5 f).view = s.view := rfl
@[simp] theorem State.onT5_faults (s : State) (f : Tally5 → Tally5) : (s.onT5 f).faults = s.faults := rfl
@[simp] theorem State.onT5_link (s : State) (f : Tally5 → Tally5) : (s.onT5 f).link = s.link := rfl
@[simp] theorem State.onT5_peers (s : State) (f : Tally5 → Tally5) : (s.onT5 f).peers = s.peers := rfl
@[simp] theorem State.onT5_filter (s : State) (f : Tally5 → Tally5) : (s.onT5 f).filter = s.filter := rfl
@[simp] theorem State.onT5_requests (s : State) (f : Tally5 → Tally5) : (s.onT5 f).requests = s.requests := rfl
@[simp] theorem State.onT5_lamps (s : State) (f : Tally5 → Tally5) : (s.onT5 f).lamps = s.lamps := rfl
@[simp] theorem State.onT5_pending (s : State) (f : Tally5 → Tally5) : (s.onT5 f).pending = s.pending := rfl
@[simp] theorem State.onT5_bay (s : State) (f : Tally5 → Tally5) (k : BayNo) : (s.onT5 f).bay k = s.bay k := by
  simp [State.bay]

/-! ### onT6 -/

@[simp] theorem State.onT6_startup (s : State) (f : Tally6 → Tally6) : (s.onT6 f).startup = s.startup := rfl
@[simp] theorem State.onT6_bays (s : State) (f : Tally6 → Tally6) : (s.onT6 f).bays = s.bays := rfl
@[simp] theorem State.onT6_store (s : State) (f : Tally6 → Tally6) : (s.onT6 f).store = s.store := rfl
@[simp] theorem State.onT6_unaccounted (s : State) (f : Tally6 → Tally6) : (s.onT6 f).unaccounted = s.unaccounted := rfl
@[simp] theorem State.onT6_headroom (s : State) (f : Tally6 → Tally6) : (s.onT6 f).headroom = s.headroom := rfl
@[simp] theorem State.onT6_handoff (s : State) (f : Tally6 → Tally6) : (s.onT6 f).handoff = s.handoff := rfl
@[simp] theorem State.onT6_chute (s : State) (f : Tally6 → Tally6) : (s.onT6 f).chute = s.chute := rfl
@[simp] theorem State.onT6_feed (s : State) (f : Tally6 → Tally6) : (s.onT6 f).feed = s.feed := rfl
@[simp] theorem State.onT6_atmos (s : State) (f : Tally6 → Tally6) : (s.onT6 f).atmos = s.atmos := rfl
@[simp] theorem State.onT6_fire (s : State) (f : Tally6 → Tally6) : (s.onT6 f).fire = s.fire := rfl
@[simp] theorem State.onT6_latch (s : State) (f : Tally6 → Tally6) : (s.onT6 f).latch = s.latch := rfl
@[simp] theorem State.onT6_view (s : State) (f : Tally6 → Tally6) : (s.onT6 f).view = s.view := rfl
@[simp] theorem State.onT6_faults (s : State) (f : Tally6 → Tally6) : (s.onT6 f).faults = s.faults := rfl
@[simp] theorem State.onT6_link (s : State) (f : Tally6 → Tally6) : (s.onT6 f).link = s.link := rfl
@[simp] theorem State.onT6_peers (s : State) (f : Tally6 → Tally6) : (s.onT6 f).peers = s.peers := rfl
@[simp] theorem State.onT6_filter (s : State) (f : Tally6 → Tally6) : (s.onT6 f).filter = s.filter := rfl
@[simp] theorem State.onT6_requests (s : State) (f : Tally6 → Tally6) : (s.onT6 f).requests = s.requests := rfl
@[simp] theorem State.onT6_lamps (s : State) (f : Tally6 → Tally6) : (s.onT6 f).lamps = s.lamps := rfl
@[simp] theorem State.onT6_pending (s : State) (f : Tally6 → Tally6) : (s.onT6 f).pending = s.pending := rfl
@[simp] theorem State.onT6_bay (s : State) (f : Tally6 → Tally6) (k : BayNo) : (s.onT6 f).bay k = s.bay k := by
  simp [State.bay]

/-! ### countForeign -/

@[simp] theorem State.countForeign_startup (s : State) : (s.countForeign).startup = s.startup := rfl
@[simp] theorem State.countForeign_bays (s : State) : (s.countForeign).bays = s.bays := rfl
@[simp] theorem State.countForeign_store (s : State) : (s.countForeign).store = s.store := rfl
@[simp] theorem State.countForeign_unaccounted (s : State) : (s.countForeign).unaccounted = s.unaccounted := rfl
@[simp] theorem State.countForeign_headroom (s : State) : (s.countForeign).headroom = s.headroom := rfl
@[simp] theorem State.countForeign_handoff (s : State) : (s.countForeign).handoff = s.handoff := rfl
@[simp] theorem State.countForeign_chute (s : State) : (s.countForeign).chute = s.chute := rfl
@[simp] theorem State.countForeign_feed (s : State) : (s.countForeign).feed = s.feed := rfl
@[simp] theorem State.countForeign_atmos (s : State) : (s.countForeign).atmos = s.atmos := rfl
@[simp] theorem State.countForeign_fire (s : State) : (s.countForeign).fire = s.fire := rfl
@[simp] theorem State.countForeign_latch (s : State) : (s.countForeign).latch = s.latch := rfl
@[simp] theorem State.countForeign_view (s : State) : (s.countForeign).view = s.view := rfl
@[simp] theorem State.countForeign_faults (s : State) : (s.countForeign).faults = s.faults := rfl
@[simp] theorem State.countForeign_link (s : State) : (s.countForeign).link = s.link := rfl
@[simp] theorem State.countForeign_peers (s : State) : (s.countForeign).peers = s.peers := rfl
@[simp] theorem State.countForeign_filter (s : State) : (s.countForeign).filter = s.filter := rfl
@[simp] theorem State.countForeign_requests (s : State) : (s.countForeign).requests = s.requests := rfl
@[simp] theorem State.countForeign_lamps (s : State) : (s.countForeign).lamps = s.lamps := rfl
@[simp] theorem State.countForeign_pending (s : State) : (s.countForeign).pending = s.pending := rfl
@[simp] theorem State.countForeign_bay (s : State) (k : BayNo) : (s.countForeign).bay k = s.bay k := by
  simp [State.bay]

/-! ### raise -/

@[simp] theorem State.raise_startup (s : State) (c : Cause) (p : Place) (g : Option Tag) : (s.raise c p g).startup = s.startup := rfl
@[simp] theorem State.raise_bays (s : State) (c : Cause) (p : Place) (g : Option Tag) : (s.raise c p g).bays = s.bays := rfl
@[simp] theorem State.raise_store (s : State) (c : Cause) (p : Place) (g : Option Tag) : (s.raise c p g).store = s.store := rfl
@[simp] theorem State.raise_unaccounted (s : State) (c : Cause) (p : Place) (g : Option Tag) : (s.raise c p g).unaccounted = s.unaccounted := rfl
@[simp] theorem State.raise_headroom (s : State) (c : Cause) (p : Place) (g : Option Tag) : (s.raise c p g).headroom = s.headroom := rfl
@[simp] theorem State.raise_handoff (s : State) (c : Cause) (p : Place) (g : Option Tag) : (s.raise c p g).handoff = s.handoff := rfl
@[simp] theorem State.raise_chute (s : State) (c : Cause) (p : Place) (g : Option Tag) : (s.raise c p g).chute = s.chute := rfl
@[simp] theorem State.raise_feed (s : State) (c : Cause) (p : Place) (g : Option Tag) : (s.raise c p g).feed = s.feed := rfl
@[simp] theorem State.raise_atmos (s : State) (c : Cause) (p : Place) (g : Option Tag) : (s.raise c p g).atmos = s.atmos := rfl
@[simp] theorem State.raise_fire (s : State) (c : Cause) (p : Place) (g : Option Tag) : (s.raise c p g).fire = s.fire := rfl
@[simp] theorem State.raise_view (s : State) (c : Cause) (p : Place) (g : Option Tag) : (s.raise c p g).view = s.view := rfl
@[simp] theorem State.raise_faults (s : State) (c : Cause) (p : Place) (g : Option Tag) : (s.raise c p g).faults = s.faults := rfl
@[simp] theorem State.raise_link (s : State) (c : Cause) (p : Place) (g : Option Tag) : (s.raise c p g).link = s.link := rfl
@[simp] theorem State.raise_peers (s : State) (c : Cause) (p : Place) (g : Option Tag) : (s.raise c p g).peers = s.peers := rfl
@[simp] theorem State.raise_filter (s : State) (c : Cause) (p : Place) (g : Option Tag) : (s.raise c p g).filter = s.filter := rfl
@[simp] theorem State.raise_requests (s : State) (c : Cause) (p : Place) (g : Option Tag) : (s.raise c p g).requests = s.requests := rfl
@[simp] theorem State.raise_tally (s : State) (c : Cause) (p : Place) (g : Option Tag) : (s.raise c p g).tally = s.tally := rfl
@[simp] theorem State.raise_lamps (s : State) (c : Cause) (p : Place) (g : Option Tag) : (s.raise c p g).lamps = s.lamps := rfl
@[simp] theorem State.raise_pending (s : State) (c : Cause) (p : Place) (g : Option Tag) : (s.raise c p g).pending = s.pending := rfl
@[simp] theorem State.raise_bay (s : State) (c : Cause) (p : Place) (g : Option Tag) (k : BayNo) : (s.raise c p g).bay k = s.bay k := by
  simp [State.bay]

/-! ### enterFault -/

@[simp] theorem State.enterFault_startup (s : State) (c : FaultCause) (p : Place) (g : Option Tag) : (s.enterFault c p g).startup = s.startup := rfl
@[simp] theorem State.enterFault_bays (s : State) (c : FaultCause) (p : Place) (g : Option Tag) : (s.enterFault c p g).bays = s.bays := rfl
@[simp] theorem State.enterFault_store (s : State) (c : FaultCause) (p : Place) (g : Option Tag) : (s.enterFault c p g).store = s.store := rfl
@[simp] theorem State.enterFault_unaccounted (s : State) (c : FaultCause) (p : Place) (g : Option Tag) : (s.enterFault c p g).unaccounted = s.unaccounted := rfl
@[simp] theorem State.enterFault_headroom (s : State) (c : FaultCause) (p : Place) (g : Option Tag) : (s.enterFault c p g).headroom = s.headroom := rfl
@[simp] theorem State.enterFault_handoff (s : State) (c : FaultCause) (p : Place) (g : Option Tag) : (s.enterFault c p g).handoff = s.handoff := rfl
@[simp] theorem State.enterFault_chute (s : State) (c : FaultCause) (p : Place) (g : Option Tag) : (s.enterFault c p g).chute = s.chute := rfl
@[simp] theorem State.enterFault_feed (s : State) (c : FaultCause) (p : Place) (g : Option Tag) : (s.enterFault c p g).feed = s.feed := rfl
@[simp] theorem State.enterFault_atmos (s : State) (c : FaultCause) (p : Place) (g : Option Tag) : (s.enterFault c p g).atmos = s.atmos := rfl
@[simp] theorem State.enterFault_fire (s : State) (c : FaultCause) (p : Place) (g : Option Tag) : (s.enterFault c p g).fire = s.fire := rfl
@[simp] theorem State.enterFault_latch (s : State) (c : FaultCause) (p : Place) (g : Option Tag) : (s.enterFault c p g).latch = s.latch := rfl
@[simp] theorem State.enterFault_view (s : State) (c : FaultCause) (p : Place) (g : Option Tag) : (s.enterFault c p g).view = s.view := rfl
@[simp] theorem State.enterFault_link (s : State) (c : FaultCause) (p : Place) (g : Option Tag) : (s.enterFault c p g).link = s.link := rfl
@[simp] theorem State.enterFault_peers (s : State) (c : FaultCause) (p : Place) (g : Option Tag) : (s.enterFault c p g).peers = s.peers := rfl
@[simp] theorem State.enterFault_filter (s : State) (c : FaultCause) (p : Place) (g : Option Tag) : (s.enterFault c p g).filter = s.filter := rfl
@[simp] theorem State.enterFault_requests (s : State) (c : FaultCause) (p : Place) (g : Option Tag) : (s.enterFault c p g).requests = s.requests := rfl
@[simp] theorem State.enterFault_tally (s : State) (c : FaultCause) (p : Place) (g : Option Tag) : (s.enterFault c p g).tally = s.tally := rfl
@[simp] theorem State.enterFault_lamps (s : State) (c : FaultCause) (p : Place) (g : Option Tag) : (s.enterFault c p g).lamps = s.lamps := rfl
@[simp] theorem State.enterFault_pending (s : State) (c : FaultCause) (p : Place) (g : Option Tag) : (s.enterFault c p g).pending = s.pending := rfl
@[simp] theorem State.enterFault_bay (s : State) (c : FaultCause) (p : Place) (g : Option Tag) (k : BayNo) : (s.enterFault c p g).bay k = s.bay k := by
  simp [State.bay]

/-! ### losePermissive -/

@[simp] theorem State.losePermissive_startup (s : State) : (s.losePermissive).startup = s.startup := rfl
@[simp] theorem State.losePermissive_bays (s : State) : (s.losePermissive).bays = s.bays := rfl
@[simp] theorem State.losePermissive_store (s : State) : (s.losePermissive).store = s.store := rfl
@[simp] theorem State.losePermissive_unaccounted (s : State) : (s.losePermissive).unaccounted = s.unaccounted := rfl
@[simp] theorem State.losePermissive_headroom (s : State) : (s.losePermissive).headroom = s.headroom := rfl
@[simp] theorem State.losePermissive_handoff (s : State) : (s.losePermissive).handoff = s.handoff := rfl
@[simp] theorem State.losePermissive_chute (s : State) : (s.losePermissive).chute = s.chute := rfl
@[simp] theorem State.losePermissive_atmos (s : State) : (s.losePermissive).atmos = s.atmos := rfl
@[simp] theorem State.losePermissive_fire (s : State) : (s.losePermissive).fire = s.fire := rfl
@[simp] theorem State.losePermissive_latch (s : State) : (s.losePermissive).latch = s.latch := rfl
@[simp] theorem State.losePermissive_view (s : State) : (s.losePermissive).view = s.view := rfl
@[simp] theorem State.losePermissive_faults (s : State) : (s.losePermissive).faults = s.faults := rfl
@[simp] theorem State.losePermissive_link (s : State) : (s.losePermissive).link = s.link := rfl
@[simp] theorem State.losePermissive_peers (s : State) : (s.losePermissive).peers = s.peers := rfl
@[simp] theorem State.losePermissive_filter (s : State) : (s.losePermissive).filter = s.filter := rfl
@[simp] theorem State.losePermissive_requests (s : State) : (s.losePermissive).requests = s.requests := rfl
@[simp] theorem State.losePermissive_tally (s : State) : (s.losePermissive).tally = s.tally := rfl
@[simp] theorem State.losePermissive_lamps (s : State) : (s.losePermissive).lamps = s.lamps := rfl
@[simp] theorem State.losePermissive_pending (s : State) : (s.losePermissive).pending = s.pending := rfl
@[simp] theorem State.losePermissive_bay (s : State) (k : BayNo) : (s.losePermissive).bay k = s.bay k := by
  simp [State.bay]

/-! ### enterPurging -/

@[simp] theorem State.enterPurging_startup (s : State) (l : Bool) : (s.enterPurging l).startup = s.startup := rfl
@[simp] theorem State.enterPurging_bays (s : State) (l : Bool) : (s.enterPurging l).bays = s.bays := rfl
@[simp] theorem State.enterPurging_store (s : State) (l : Bool) : (s.enterPurging l).store = s.store := rfl
@[simp] theorem State.enterPurging_unaccounted (s : State) (l : Bool) : (s.enterPurging l).unaccounted = s.unaccounted := rfl
@[simp] theorem State.enterPurging_headroom (s : State) (l : Bool) : (s.enterPurging l).headroom = s.headroom := rfl
@[simp] theorem State.enterPurging_handoff (s : State) (l : Bool) : (s.enterPurging l).handoff = s.handoff := rfl
@[simp] theorem State.enterPurging_chute (s : State) (l : Bool) : (s.enterPurging l).chute = s.chute := rfl
@[simp] theorem State.enterPurging_feed (s : State) (l : Bool) : (s.enterPurging l).feed = s.feed := rfl
@[simp] theorem State.enterPurging_fire (s : State) (l : Bool) : (s.enterPurging l).fire = s.fire := rfl
@[simp] theorem State.enterPurging_latch (s : State) (l : Bool) : (s.enterPurging l).latch = s.latch := rfl
@[simp] theorem State.enterPurging_view (s : State) (l : Bool) : (s.enterPurging l).view = s.view := rfl
@[simp] theorem State.enterPurging_faults (s : State) (l : Bool) : (s.enterPurging l).faults = s.faults := rfl
@[simp] theorem State.enterPurging_link (s : State) (l : Bool) : (s.enterPurging l).link = s.link := rfl
@[simp] theorem State.enterPurging_peers (s : State) (l : Bool) : (s.enterPurging l).peers = s.peers := rfl
@[simp] theorem State.enterPurging_filter (s : State) (l : Bool) : (s.enterPurging l).filter = s.filter := rfl
@[simp] theorem State.enterPurging_requests (s : State) (l : Bool) : (s.enterPurging l).requests = s.requests := rfl
@[simp] theorem State.enterPurging_lamps (s : State) (l : Bool) : (s.enterPurging l).lamps = s.lamps := rfl
@[simp] theorem State.enterPurging_pending (s : State) (l : Bool) : (s.enterPurging l).pending = s.pending := rfl
@[simp] theorem State.enterPurging_bay (s : State) (l : Bool) (k : BayNo) : (s.enterPurging l).bay k = s.bay k := by
  simp [State.bay]

/-! ### enterInert -/

@[simp] theorem State.enterInert_startup (s : State) : (s.enterInert).startup = s.startup := rfl
@[simp] theorem State.enterInert_bays (s : State) : (s.enterInert).bays = s.bays := rfl
@[simp] theorem State.enterInert_store (s : State) : (s.enterInert).store = s.store := rfl
@[simp] theorem State.enterInert_unaccounted (s : State) : (s.enterInert).unaccounted = s.unaccounted := rfl
@[simp] theorem State.enterInert_headroom (s : State) : (s.enterInert).headroom = s.headroom := rfl
@[simp] theorem State.enterInert_handoff (s : State) : (s.enterInert).handoff = s.handoff := rfl
@[simp] theorem State.enterInert_chute (s : State) : (s.enterInert).chute = s.chute := rfl
@[simp] theorem State.enterInert_feed (s : State) : (s.enterInert).feed = s.feed := rfl
@[simp] theorem State.enterInert_fire (s : State) : (s.enterInert).fire = s.fire := rfl
@[simp] theorem State.enterInert_latch (s : State) : (s.enterInert).latch = s.latch := rfl
@[simp] theorem State.enterInert_view (s : State) : (s.enterInert).view = s.view := rfl
@[simp] theorem State.enterInert_faults (s : State) : (s.enterInert).faults = s.faults := rfl
@[simp] theorem State.enterInert_link (s : State) : (s.enterInert).link = s.link := rfl
@[simp] theorem State.enterInert_peers (s : State) : (s.enterInert).peers = s.peers := rfl
@[simp] theorem State.enterInert_filter (s : State) : (s.enterInert).filter = s.filter := rfl
@[simp] theorem State.enterInert_requests (s : State) : (s.enterInert).requests = s.requests := rfl
@[simp] theorem State.enterInert_lamps (s : State) : (s.enterInert).lamps = s.lamps := rfl
@[simp] theorem State.enterInert_pending (s : State) : (s.enterInert).pending = s.pending := rfl
@[simp] theorem State.enterInert_bay (s : State) (k : BayNo) : (s.enterInert).bay k = s.bay k := by
  simp [State.bay]

/-! ### enterLockout -/

@[simp] theorem State.enterLockout_startup (s : State) : (s.enterLockout).startup = s.startup := rfl
@[simp] theorem State.enterLockout_bays (s : State) : (s.enterLockout).bays = s.bays := rfl
@[simp] theorem State.enterLockout_store (s : State) : (s.enterLockout).store = s.store := rfl
@[simp] theorem State.enterLockout_unaccounted (s : State) : (s.enterLockout).unaccounted = s.unaccounted := rfl
@[simp] theorem State.enterLockout_headroom (s : State) : (s.enterLockout).headroom = s.headroom := rfl
@[simp] theorem State.enterLockout_handoff (s : State) : (s.enterLockout).handoff = s.handoff := rfl
@[simp] theorem State.enterLockout_chute (s : State) : (s.enterLockout).chute = s.chute := rfl
@[simp] theorem State.enterLockout_feed (s : State) : (s.enterLockout).feed = s.feed := rfl
@[simp] theorem State.enterLockout_fire (s : State) : (s.enterLockout).fire = s.fire := rfl
@[simp] theorem State.enterLockout_latch (s : State) : (s.enterLockout).latch = s.latch := rfl
@[simp] theorem State.enterLockout_view (s : State) : (s.enterLockout).view = s.view := rfl
@[simp] theorem State.enterLockout_faults (s : State) : (s.enterLockout).faults = s.faults := rfl
@[simp] theorem State.enterLockout_link (s : State) : (s.enterLockout).link = s.link := rfl
@[simp] theorem State.enterLockout_peers (s : State) : (s.enterLockout).peers = s.peers := rfl
@[simp] theorem State.enterLockout_filter (s : State) : (s.enterLockout).filter = s.filter := rfl
@[simp] theorem State.enterLockout_requests (s : State) : (s.enterLockout).requests = s.requests := rfl
@[simp] theorem State.enterLockout_lamps (s : State) : (s.enterLockout).lamps = s.lamps := rfl
@[simp] theorem State.enterLockout_pending (s : State) : (s.enterLockout).pending = s.pending := rfl
@[simp] theorem State.enterLockout_bay (s : State) (k : BayNo) : (s.enterLockout).bay k = s.bay k := by
  simp [State.bay]

/-! ### enterFlood -/

@[simp] theorem State.enterFlood_startup (s : State) : (s.enterFlood).startup = s.startup := rfl
@[simp] theorem State.enterFlood_bays (s : State) : (s.enterFlood).bays = s.bays := rfl
@[simp] theorem State.enterFlood_store (s : State) : (s.enterFlood).store = s.store := rfl
@[simp] theorem State.enterFlood_unaccounted (s : State) : (s.enterFlood).unaccounted = s.unaccounted := rfl
@[simp] theorem State.enterFlood_headroom (s : State) : (s.enterFlood).headroom = s.headroom := rfl
@[simp] theorem State.enterFlood_handoff (s : State) : (s.enterFlood).handoff = s.handoff := rfl
@[simp] theorem State.enterFlood_chute (s : State) : (s.enterFlood).chute = s.chute := rfl
@[simp] theorem State.enterFlood_fire (s : State) : (s.enterFlood).fire = s.fire := rfl
@[simp] theorem State.enterFlood_latch (s : State) : (s.enterFlood).latch = s.latch := rfl
@[simp] theorem State.enterFlood_view (s : State) : (s.enterFlood).view = s.view := rfl
@[simp] theorem State.enterFlood_faults (s : State) : (s.enterFlood).faults = s.faults := rfl
@[simp] theorem State.enterFlood_link (s : State) : (s.enterFlood).link = s.link := rfl
@[simp] theorem State.enterFlood_peers (s : State) : (s.enterFlood).peers = s.peers := rfl
@[simp] theorem State.enterFlood_filter (s : State) : (s.enterFlood).filter = s.filter := rfl
@[simp] theorem State.enterFlood_requests (s : State) : (s.enterFlood).requests = s.requests := rfl
@[simp] theorem State.enterFlood_lamps (s : State) : (s.enterFlood).lamps = s.lamps := rfl
@[simp] theorem State.enterFlood_pending (s : State) : (s.enterFlood).pending = s.pending := rfl
@[simp] theorem State.enterFlood_bay (s : State) (k : BayNo) : (s.enterFlood).bay k = s.bay k := by
  simp [State.bay]

/-! ### light -/

@[simp] theorem State.light_startup (s : State) : (s.light).startup = s.startup := rfl
@[simp] theorem State.light_bays (s : State) : (s.light).bays = s.bays := rfl
@[simp] theorem State.light_store (s : State) : (s.light).store = s.store := rfl
@[simp] theorem State.light_unaccounted (s : State) : (s.light).unaccounted = s.unaccounted := rfl
@[simp] theorem State.light_headroom (s : State) : (s.light).headroom = s.headroom := rfl
@[simp] theorem State.light_handoff (s : State) : (s.light).handoff = s.handoff := rfl
@[simp] theorem State.light_chute (s : State) : (s.light).chute = s.chute := rfl
@[simp] theorem State.light_feed (s : State) : (s.light).feed = s.feed := rfl
@[simp] theorem State.light_atmos (s : State) : (s.light).atmos = s.atmos := rfl
@[simp] theorem State.light_fire (s : State) : (s.light).fire = s.fire := rfl
@[simp] theorem State.light_latch (s : State) : (s.light).latch = s.latch := rfl
@[simp] theorem State.light_view (s : State) : (s.light).view = s.view := rfl
@[simp] theorem State.light_faults (s : State) : (s.light).faults = s.faults := rfl
@[simp] theorem State.light_link (s : State) : (s.light).link = s.link := rfl
@[simp] theorem State.light_peers (s : State) : (s.light).peers = s.peers := rfl
@[simp] theorem State.light_filter (s : State) : (s.light).filter = s.filter := rfl
@[simp] theorem State.light_requests (s : State) : (s.light).requests = s.requests := rfl
@[simp] theorem State.light_tally (s : State) : (s.light).tally = s.tally := rfl
@[simp] theorem State.light_pending (s : State) : (s.light).pending = s.pending := rfl
@[simp] theorem State.light_bay (s : State) (k : BayNo) : (s.light).bay k = s.bay k := by
  simp [State.bay]

/-! ### driveRelays -/

@[simp] theorem State.driveRelays_startup (s : State) : (s.driveRelays).startup = s.startup := rfl
@[simp] theorem State.driveRelays_bays (s : State) : (s.driveRelays).bays = s.bays := rfl
@[simp] theorem State.driveRelays_store (s : State) : (s.driveRelays).store = s.store := rfl
@[simp] theorem State.driveRelays_unaccounted (s : State) : (s.driveRelays).unaccounted = s.unaccounted := rfl
@[simp] theorem State.driveRelays_headroom (s : State) : (s.driveRelays).headroom = s.headroom := rfl
@[simp] theorem State.driveRelays_handoff (s : State) : (s.driveRelays).handoff = s.handoff := rfl
@[simp] theorem State.driveRelays_chute (s : State) : (s.driveRelays).chute = s.chute := rfl
@[simp] theorem State.driveRelays_feed (s : State) : (s.driveRelays).feed = s.feed := rfl
@[simp] theorem State.driveRelays_atmos (s : State) : (s.driveRelays).atmos = s.atmos := rfl
@[simp] theorem State.driveRelays_latch (s : State) : (s.driveRelays).latch = s.latch := rfl
@[simp] theorem State.driveRelays_view (s : State) : (s.driveRelays).view = s.view := rfl
@[simp] theorem State.driveRelays_faults (s : State) : (s.driveRelays).faults = s.faults := rfl
@[simp] theorem State.driveRelays_link (s : State) : (s.driveRelays).link = s.link := rfl
@[simp] theorem State.driveRelays_peers (s : State) : (s.driveRelays).peers = s.peers := rfl
@[simp] theorem State.driveRelays_filter (s : State) : (s.driveRelays).filter = s.filter := rfl
@[simp] theorem State.driveRelays_requests (s : State) : (s.driveRelays).requests = s.requests := rfl
@[simp] theorem State.driveRelays_tally (s : State) : (s.driveRelays).tally = s.tally := rfl
@[simp] theorem State.driveRelays_lamps (s : State) : (s.driveRelays).lamps = s.lamps := rfl
@[simp] theorem State.driveRelays_pending (s : State) : (s.driveRelays).pending = s.pending := rfl
@[simp] theorem State.driveRelays_bay (s : State) (k : BayNo) : (s.driveRelays).bay k = s.bay k := by
  simp [State.bay]

/-! ### placeReply -/

@[simp] theorem State.placeReply_startup (s : State) (t : TerminalNo) (r : Reply) : (s.placeReply t r).startup = s.startup := rfl
@[simp] theorem State.placeReply_bays (s : State) (t : TerminalNo) (r : Reply) : (s.placeReply t r).bays = s.bays := rfl
@[simp] theorem State.placeReply_store (s : State) (t : TerminalNo) (r : Reply) : (s.placeReply t r).store = s.store := rfl
@[simp] theorem State.placeReply_unaccounted (s : State) (t : TerminalNo) (r : Reply) : (s.placeReply t r).unaccounted = s.unaccounted := rfl
@[simp] theorem State.placeReply_headroom (s : State) (t : TerminalNo) (r : Reply) : (s.placeReply t r).headroom = s.headroom := rfl
@[simp] theorem State.placeReply_handoff (s : State) (t : TerminalNo) (r : Reply) : (s.placeReply t r).handoff = s.handoff := rfl
@[simp] theorem State.placeReply_chute (s : State) (t : TerminalNo) (r : Reply) : (s.placeReply t r).chute = s.chute := rfl
@[simp] theorem State.placeReply_feed (s : State) (t : TerminalNo) (r : Reply) : (s.placeReply t r).feed = s.feed := rfl
@[simp] theorem State.placeReply_atmos (s : State) (t : TerminalNo) (r : Reply) : (s.placeReply t r).atmos = s.atmos := rfl
@[simp] theorem State.placeReply_fire (s : State) (t : TerminalNo) (r : Reply) : (s.placeReply t r).fire = s.fire := rfl
@[simp] theorem State.placeReply_latch (s : State) (t : TerminalNo) (r : Reply) : (s.placeReply t r).latch = s.latch := rfl
@[simp] theorem State.placeReply_view (s : State) (t : TerminalNo) (r : Reply) : (s.placeReply t r).view = s.view := rfl
@[simp] theorem State.placeReply_faults (s : State) (t : TerminalNo) (r : Reply) : (s.placeReply t r).faults = s.faults := rfl
@[simp] theorem State.placeReply_peers (s : State) (t : TerminalNo) (r : Reply) : (s.placeReply t r).peers = s.peers := rfl
@[simp] theorem State.placeReply_filter (s : State) (t : TerminalNo) (r : Reply) : (s.placeReply t r).filter = s.filter := rfl
@[simp] theorem State.placeReply_requests (s : State) (t : TerminalNo) (r : Reply) : (s.placeReply t r).requests = s.requests := rfl
@[simp] theorem State.placeReply_tally (s : State) (t : TerminalNo) (r : Reply) : (s.placeReply t r).tally = s.tally := rfl
@[simp] theorem State.placeReply_lamps (s : State) (t : TerminalNo) (r : Reply) : (s.placeReply t r).lamps = s.lamps := rfl
@[simp] theorem State.placeReply_pending (s : State) (t : TerminalNo) (r : Reply) : (s.placeReply t r).pending = s.pending := rfl
@[simp] theorem State.placeReply_bay (s : State) (t : TerminalNo) (r : Reply) (k : BayNo) : (s.placeReply t r).bay k = s.bay k := by
  simp [State.bay]

/-! ### reject -/

@[simp] theorem State.reject_startup (s : State) (b : BayNo) (r : Record) (c : EndCause) : (s.reject b r c).startup = s.startup := rfl
@[simp] theorem State.reject_store (s : State) (b : BayNo) (r : Record) (c : EndCause) : (s.reject b r c).store = s.store := rfl
@[simp] theorem State.reject_unaccounted (s : State) (b : BayNo) (r : Record) (c : EndCause) : (s.reject b r c).unaccounted = s.unaccounted := rfl
@[simp] theorem State.reject_headroom (s : State) (b : BayNo) (r : Record) (c : EndCause) : (s.reject b r c).headroom = s.headroom := rfl
@[simp] theorem State.reject_handoff (s : State) (b : BayNo) (r : Record) (c : EndCause) : (s.reject b r c).handoff = s.handoff := rfl
@[simp] theorem State.reject_chute (s : State) (b : BayNo) (r : Record) (c : EndCause) : (s.reject b r c).chute = s.chute := rfl
@[simp] theorem State.reject_feed (s : State) (b : BayNo) (r : Record) (c : EndCause) : (s.reject b r c).feed = s.feed := rfl
@[simp] theorem State.reject_atmos (s : State) (b : BayNo) (r : Record) (c : EndCause) : (s.reject b r c).atmos = s.atmos := rfl
@[simp] theorem State.reject_fire (s : State) (b : BayNo) (r : Record) (c : EndCause) : (s.reject b r c).fire = s.fire := rfl
@[simp] theorem State.reject_latch (s : State) (b : BayNo) (r : Record) (c : EndCause) : (s.reject b r c).latch = s.latch := rfl
@[simp] theorem State.reject_view (s : State) (b : BayNo) (r : Record) (c : EndCause) : (s.reject b r c).view = s.view := rfl
@[simp] theorem State.reject_faults (s : State) (b : BayNo) (r : Record) (c : EndCause) : (s.reject b r c).faults = s.faults := rfl
@[simp] theorem State.reject_link (s : State) (b : BayNo) (r : Record) (c : EndCause) : (s.reject b r c).link = s.link := rfl
@[simp] theorem State.reject_peers (s : State) (b : BayNo) (r : Record) (c : EndCause) : (s.reject b r c).peers = s.peers := rfl
@[simp] theorem State.reject_filter (s : State) (b : BayNo) (r : Record) (c : EndCause) : (s.reject b r c).filter = s.filter := rfl
@[simp] theorem State.reject_requests (s : State) (b : BayNo) (r : Record) (c : EndCause) : (s.reject b r c).requests = s.requests := rfl
@[simp] theorem State.reject_lamps (s : State) (b : BayNo) (r : Record) (c : EndCause) : (s.reject b r c).lamps = s.lamps := rfl
@[simp] theorem State.reject_pending (s : State) (b : BayNo) (r : Record) (c : EndCause) : (s.reject b r c).pending = s.pending := rfl

/-! ### settle -/

@[simp] theorem State.settle_startup (s : State) (b : BayNo) : (s.settle b).startup = s.startup := rfl
@[simp] theorem State.settle_store (s : State) (b : BayNo) : (s.settle b).store = s.store := rfl
@[simp] theorem State.settle_unaccounted (s : State) (b : BayNo) : (s.settle b).unaccounted = s.unaccounted := rfl
@[simp] theorem State.settle_headroom (s : State) (b : BayNo) : (s.settle b).headroom = s.headroom := rfl
@[simp] theorem State.settle_handoff (s : State) (b : BayNo) : (s.settle b).handoff = s.handoff := rfl
@[simp] theorem State.settle_chute (s : State) (b : BayNo) : (s.settle b).chute = s.chute := rfl
@[simp] theorem State.settle_feed (s : State) (b : BayNo) : (s.settle b).feed = s.feed := rfl
@[simp] theorem State.settle_atmos (s : State) (b : BayNo) : (s.settle b).atmos = s.atmos := rfl
@[simp] theorem State.settle_fire (s : State) (b : BayNo) : (s.settle b).fire = s.fire := rfl
@[simp] theorem State.settle_latch (s : State) (b : BayNo) : (s.settle b).latch = s.latch := rfl
@[simp] theorem State.settle_view (s : State) (b : BayNo) : (s.settle b).view = s.view := rfl
@[simp] theorem State.settle_faults (s : State) (b : BayNo) : (s.settle b).faults = s.faults := rfl
@[simp] theorem State.settle_link (s : State) (b : BayNo) : (s.settle b).link = s.link := rfl
@[simp] theorem State.settle_peers (s : State) (b : BayNo) : (s.settle b).peers = s.peers := rfl
@[simp] theorem State.settle_filter (s : State) (b : BayNo) : (s.settle b).filter = s.filter := rfl
@[simp] theorem State.settle_requests (s : State) (b : BayNo) : (s.settle b).requests = s.requests := rfl
@[simp] theorem State.settle_lamps (s : State) (b : BayNo) : (s.settle b).lamps = s.lamps := rfl
@[simp] theorem State.settle_pending (s : State) (b : BayNo) : (s.settle b).pending = s.pending := rfl

/-! ### holdFault -/

@[simp] theorem State.holdFault_startup (s : State) (b : BayNo) (r : Record) (c : FaultCause) : (s.holdFault b r c).startup = s.startup := rfl
@[simp] theorem State.holdFault_store (s : State) (b : BayNo) (r : Record) (c : FaultCause) : (s.holdFault b r c).store = s.store := rfl
@[simp] theorem State.holdFault_unaccounted (s : State) (b : BayNo) (r : Record) (c : FaultCause) : (s.holdFault b r c).unaccounted = s.unaccounted := rfl
@[simp] theorem State.holdFault_headroom (s : State) (b : BayNo) (r : Record) (c : FaultCause) : (s.holdFault b r c).headroom = s.headroom := rfl
@[simp] theorem State.holdFault_handoff (s : State) (b : BayNo) (r : Record) (c : FaultCause) : (s.holdFault b r c).handoff = s.handoff := rfl
@[simp] theorem State.holdFault_chute (s : State) (b : BayNo) (r : Record) (c : FaultCause) : (s.holdFault b r c).chute = s.chute := rfl
@[simp] theorem State.holdFault_feed (s : State) (b : BayNo) (r : Record) (c : FaultCause) : (s.holdFault b r c).feed = s.feed := rfl
@[simp] theorem State.holdFault_atmos (s : State) (b : BayNo) (r : Record) (c : FaultCause) : (s.holdFault b r c).atmos = s.atmos := rfl
@[simp] theorem State.holdFault_fire (s : State) (b : BayNo) (r : Record) (c : FaultCause) : (s.holdFault b r c).fire = s.fire := rfl
@[simp] theorem State.holdFault_latch (s : State) (b : BayNo) (r : Record) (c : FaultCause) : (s.holdFault b r c).latch = s.latch := rfl
@[simp] theorem State.holdFault_view (s : State) (b : BayNo) (r : Record) (c : FaultCause) : (s.holdFault b r c).view = s.view := rfl
@[simp] theorem State.holdFault_link (s : State) (b : BayNo) (r : Record) (c : FaultCause) : (s.holdFault b r c).link = s.link := rfl
@[simp] theorem State.holdFault_peers (s : State) (b : BayNo) (r : Record) (c : FaultCause) : (s.holdFault b r c).peers = s.peers := rfl
@[simp] theorem State.holdFault_filter (s : State) (b : BayNo) (r : Record) (c : FaultCause) : (s.holdFault b r c).filter = s.filter := rfl
@[simp] theorem State.holdFault_requests (s : State) (b : BayNo) (r : Record) (c : FaultCause) : (s.holdFault b r c).requests = s.requests := rfl
@[simp] theorem State.holdFault_tally (s : State) (b : BayNo) (r : Record) (c : FaultCause) : (s.holdFault b r c).tally = s.tally := rfl
@[simp] theorem State.holdFault_lamps (s : State) (b : BayNo) (r : Record) (c : FaultCause) : (s.holdFault b r c).lamps = s.lamps := rfl
@[simp] theorem State.holdFault_pending (s : State) (b : BayNo) (r : Record) (c : FaultCause) : (s.holdFault b r c).pending = s.pending := rfl

/-! ### placeHandoff -/

@[simp] theorem State.placeHandoff_startup (s : State) (f : HandoffOut) : (s.placeHandoff f).startup = s.startup := by
  unfold State.placeHandoff; (repeat' split) <;> rfl
@[simp] theorem State.placeHandoff_bays (s : State) (f : HandoffOut) : (s.placeHandoff f).bays = s.bays := by
  unfold State.placeHandoff; (repeat' split) <;> rfl
@[simp] theorem State.placeHandoff_store (s : State) (f : HandoffOut) : (s.placeHandoff f).store = s.store := by
  unfold State.placeHandoff; (repeat' split) <;> rfl
@[simp] theorem State.placeHandoff_unaccounted (s : State) (f : HandoffOut) : (s.placeHandoff f).unaccounted = s.unaccounted := by
  unfold State.placeHandoff; (repeat' split) <;> rfl
@[simp] theorem State.placeHandoff_headroom (s : State) (f : HandoffOut) : (s.placeHandoff f).headroom = s.headroom := by
  unfold State.placeHandoff; (repeat' split) <;> rfl
@[simp] theorem State.placeHandoff_handoff (s : State) (f : HandoffOut) : (s.placeHandoff f).handoff = s.handoff := by
  unfold State.placeHandoff; (repeat' split) <;> rfl
@[simp] theorem State.placeHandoff_chute (s : State) (f : HandoffOut) : (s.placeHandoff f).chute = s.chute := by
  unfold State.placeHandoff; (repeat' split) <;> rfl
@[simp] theorem State.placeHandoff_feed (s : State) (f : HandoffOut) : (s.placeHandoff f).feed = s.feed := by
  unfold State.placeHandoff; (repeat' split) <;> rfl
@[simp] theorem State.placeHandoff_atmos (s : State) (f : HandoffOut) : (s.placeHandoff f).atmos = s.atmos := by
  unfold State.placeHandoff; (repeat' split) <;> rfl
@[simp] theorem State.placeHandoff_fire (s : State) (f : HandoffOut) : (s.placeHandoff f).fire = s.fire := by
  unfold State.placeHandoff; (repeat' split) <;> rfl
@[simp] theorem State.placeHandoff_latch (s : State) (f : HandoffOut) : (s.placeHandoff f).latch = s.latch := by
  unfold State.placeHandoff; (repeat' split) <;> rfl
@[simp] theorem State.placeHandoff_view (s : State) (f : HandoffOut) : (s.placeHandoff f).view = s.view := by
  unfold State.placeHandoff; (repeat' split) <;> rfl
@[simp] theorem State.placeHandoff_faults (s : State) (f : HandoffOut) : (s.placeHandoff f).faults = s.faults := by
  unfold State.placeHandoff; (repeat' split) <;> rfl
@[simp] theorem State.placeHandoff_peers (s : State) (f : HandoffOut) : (s.placeHandoff f).peers = s.peers := by
  unfold State.placeHandoff; (repeat' split) <;> rfl
@[simp] theorem State.placeHandoff_filter (s : State) (f : HandoffOut) : (s.placeHandoff f).filter = s.filter := by
  unfold State.placeHandoff; (repeat' split) <;> rfl
@[simp] theorem State.placeHandoff_requests (s : State) (f : HandoffOut) : (s.placeHandoff f).requests = s.requests := by
  unfold State.placeHandoff; (repeat' split) <;> rfl
@[simp] theorem State.placeHandoff_lamps (s : State) (f : HandoffOut) : (s.placeHandoff f).lamps = s.lamps := by
  unfold State.placeHandoff; (repeat' split) <;> rfl
@[simp] theorem State.placeHandoff_pending (s : State) (f : HandoffOut) : (s.placeHandoff f).pending = s.pending := by
  unfold State.placeHandoff; (repeat' split) <;> rfl
@[simp] theorem State.placeHandoff_bay (s : State) (f : HandoffOut) (k : BayNo) : (s.placeHandoff f).bay k = s.bay k := by
  simp [State.bay]

/-! ### refreshIdle -/

@[simp] theorem State.refreshIdle_startup (s : State) : (s.refreshIdle).startup = s.startup := by
  unfold State.refreshIdle; (repeat' split) <;> rfl
@[simp] theorem State.refreshIdle_bays (s : State) : (s.refreshIdle).bays = s.bays := by
  unfold State.refreshIdle; (repeat' split) <;> rfl
@[simp] theorem State.refreshIdle_store (s : State) : (s.refreshIdle).store = s.store := by
  unfold State.refreshIdle; (repeat' split) <;> rfl
@[simp] theorem State.refreshIdle_unaccounted (s : State) : (s.refreshIdle).unaccounted = s.unaccounted := by
  unfold State.refreshIdle; (repeat' split) <;> rfl
@[simp] theorem State.refreshIdle_headroom (s : State) : (s.refreshIdle).headroom = s.headroom := by
  unfold State.refreshIdle; (repeat' split) <;> rfl
@[simp] theorem State.refreshIdle_handoff (s : State) : (s.refreshIdle).handoff = s.handoff := by
  unfold State.refreshIdle; (repeat' split) <;> rfl
@[simp] theorem State.refreshIdle_chute (s : State) : (s.refreshIdle).chute = s.chute := by
  unfold State.refreshIdle; (repeat' split) <;> rfl
@[simp] theorem State.refreshIdle_atmos (s : State) : (s.refreshIdle).atmos = s.atmos := by
  unfold State.refreshIdle; (repeat' split) <;> rfl
@[simp] theorem State.refreshIdle_fire (s : State) : (s.refreshIdle).fire = s.fire := by
  unfold State.refreshIdle; (repeat' split) <;> rfl
@[simp] theorem State.refreshIdle_latch (s : State) : (s.refreshIdle).latch = s.latch := by
  unfold State.refreshIdle; (repeat' split) <;> rfl
@[simp] theorem State.refreshIdle_view (s : State) : (s.refreshIdle).view = s.view := by
  unfold State.refreshIdle; (repeat' split) <;> rfl
@[simp] theorem State.refreshIdle_faults (s : State) : (s.refreshIdle).faults = s.faults := by
  unfold State.refreshIdle; (repeat' split) <;> rfl
@[simp] theorem State.refreshIdle_link (s : State) : (s.refreshIdle).link = s.link := by
  unfold State.refreshIdle; (repeat' split) <;> rfl
@[simp] theorem State.refreshIdle_peers (s : State) : (s.refreshIdle).peers = s.peers := by
  unfold State.refreshIdle; (repeat' split) <;> rfl
@[simp] theorem State.refreshIdle_filter (s : State) : (s.refreshIdle).filter = s.filter := by
  unfold State.refreshIdle; (repeat' split) <;> rfl
@[simp] theorem State.refreshIdle_requests (s : State) : (s.refreshIdle).requests = s.requests := by
  unfold State.refreshIdle; (repeat' split) <;> rfl
@[simp] theorem State.refreshIdle_tally (s : State) : (s.refreshIdle).tally = s.tally := by
  unfold State.refreshIdle; (repeat' split) <;> rfl
@[simp] theorem State.refreshIdle_lamps (s : State) : (s.refreshIdle).lamps = s.lamps := by
  unfold State.refreshIdle; (repeat' split) <;> rfl
@[simp] theorem State.refreshIdle_pending (s : State) : (s.refreshIdle).pending = s.pending := by
  unfold State.refreshIdle; (repeat' split) <;> rfl
@[simp] theorem State.refreshIdle_bay (s : State) (k : BayNo) : (s.refreshIdle).bay k = s.bay k := by
  simp [State.bay]

/-! ### setErrors -/

@[simp] theorem State.setErrors_startup (s : State) (tx rx : Nat) : (s.setErrors tx rx).startup = s.startup := by
  unfold State.setErrors; (repeat' split) <;> rfl
@[simp] theorem State.setErrors_bays (s : State) (tx rx : Nat) : (s.setErrors tx rx).bays = s.bays := by
  unfold State.setErrors; (repeat' split) <;> rfl
@[simp] theorem State.setErrors_store (s : State) (tx rx : Nat) : (s.setErrors tx rx).store = s.store := by
  unfold State.setErrors; (repeat' split) <;> rfl
@[simp] theorem State.setErrors_unaccounted (s : State) (tx rx : Nat) : (s.setErrors tx rx).unaccounted = s.unaccounted := by
  unfold State.setErrors; (repeat' split) <;> rfl
@[simp] theorem State.setErrors_headroom (s : State) (tx rx : Nat) : (s.setErrors tx rx).headroom = s.headroom := by
  unfold State.setErrors; (repeat' split) <;> rfl
@[simp] theorem State.setErrors_handoff (s : State) (tx rx : Nat) : (s.setErrors tx rx).handoff = s.handoff := by
  unfold State.setErrors; (repeat' split) <;> rfl
@[simp] theorem State.setErrors_chute (s : State) (tx rx : Nat) : (s.setErrors tx rx).chute = s.chute := by
  unfold State.setErrors; (repeat' split) <;> rfl
@[simp] theorem State.setErrors_feed (s : State) (tx rx : Nat) : (s.setErrors tx rx).feed = s.feed := by
  unfold State.setErrors; (repeat' split) <;> rfl
@[simp] theorem State.setErrors_atmos (s : State) (tx rx : Nat) : (s.setErrors tx rx).atmos = s.atmos := by
  unfold State.setErrors; (repeat' split) <;> rfl
@[simp] theorem State.setErrors_fire (s : State) (tx rx : Nat) : (s.setErrors tx rx).fire = s.fire := by
  unfold State.setErrors; (repeat' split) <;> rfl
@[simp] theorem State.setErrors_latch (s : State) (tx rx : Nat) : (s.setErrors tx rx).latch = s.latch := by
  unfold State.setErrors; (repeat' split) <;> rfl
@[simp] theorem State.setErrors_view (s : State) (tx rx : Nat) : (s.setErrors tx rx).view = s.view := by
  unfold State.setErrors; (repeat' split) <;> rfl
@[simp] theorem State.setErrors_faults (s : State) (tx rx : Nat) : (s.setErrors tx rx).faults = s.faults := by
  unfold State.setErrors; (repeat' split) <;> rfl
@[simp] theorem State.setErrors_peers (s : State) (tx rx : Nat) : (s.setErrors tx rx).peers = s.peers := by
  unfold State.setErrors; (repeat' split) <;> rfl
@[simp] theorem State.setErrors_filter (s : State) (tx rx : Nat) : (s.setErrors tx rx).filter = s.filter := by
  unfold State.setErrors; (repeat' split) <;> rfl
@[simp] theorem State.setErrors_requests (s : State) (tx rx : Nat) : (s.setErrors tx rx).requests = s.requests := by
  unfold State.setErrors; (repeat' split) <;> rfl
@[simp] theorem State.setErrors_lamps (s : State) (tx rx : Nat) : (s.setErrors tx rx).lamps = s.lamps := by
  unfold State.setErrors; (repeat' split) <;> rfl
@[simp] theorem State.setErrors_pending (s : State) (tx rx : Nat) : (s.setErrors tx rx).pending = s.pending := by
  unfold State.setErrors; (repeat' split) <;> rfl
@[simp] theorem State.setErrors_bay (s : State) (tx rx : Nat) (k : BayNo) : (s.setErrors tx rx).bay k = s.bay k := by
  simp [State.bay]

/-! ### placeStatus -/

@[simp] theorem State.placeStatus_startup (s : State) : (s.placeStatus).startup = s.startup := by
  unfold State.placeStatus; (repeat' split) <;> rfl
@[simp] theorem State.placeStatus_bays (s : State) : (s.placeStatus).bays = s.bays := by
  unfold State.placeStatus; (repeat' split) <;> rfl
@[simp] theorem State.placeStatus_store (s : State) : (s.placeStatus).store = s.store := by
  unfold State.placeStatus; (repeat' split) <;> rfl
@[simp] theorem State.placeStatus_unaccounted (s : State) : (s.placeStatus).unaccounted = s.unaccounted := by
  unfold State.placeStatus; (repeat' split) <;> rfl
@[simp] theorem State.placeStatus_headroom (s : State) : (s.placeStatus).headroom = s.headroom := by
  unfold State.placeStatus; (repeat' split) <;> rfl
@[simp] theorem State.placeStatus_handoff (s : State) : (s.placeStatus).handoff = s.handoff := by
  unfold State.placeStatus; (repeat' split) <;> rfl
@[simp] theorem State.placeStatus_chute (s : State) : (s.placeStatus).chute = s.chute := by
  unfold State.placeStatus; (repeat' split) <;> rfl
@[simp] theorem State.placeStatus_feed (s : State) : (s.placeStatus).feed = s.feed := by
  unfold State.placeStatus; (repeat' split) <;> rfl
@[simp] theorem State.placeStatus_atmos (s : State) : (s.placeStatus).atmos = s.atmos := by
  unfold State.placeStatus; (repeat' split) <;> rfl
@[simp] theorem State.placeStatus_fire (s : State) : (s.placeStatus).fire = s.fire := by
  unfold State.placeStatus; (repeat' split) <;> rfl
@[simp] theorem State.placeStatus_latch (s : State) : (s.placeStatus).latch = s.latch := by
  unfold State.placeStatus; (repeat' split) <;> rfl
@[simp] theorem State.placeStatus_view (s : State) : (s.placeStatus).view = s.view := by
  unfold State.placeStatus; (repeat' split) <;> rfl
@[simp] theorem State.placeStatus_faults (s : State) : (s.placeStatus).faults = s.faults := by
  unfold State.placeStatus; (repeat' split) <;> rfl
@[simp] theorem State.placeStatus_peers (s : State) : (s.placeStatus).peers = s.peers := by
  unfold State.placeStatus; (repeat' split) <;> rfl
@[simp] theorem State.placeStatus_filter (s : State) : (s.placeStatus).filter = s.filter := by
  unfold State.placeStatus; (repeat' split) <;> rfl
@[simp] theorem State.placeStatus_requests (s : State) : (s.placeStatus).requests = s.requests := by
  unfold State.placeStatus; (repeat' split) <;> rfl
@[simp] theorem State.placeStatus_lamps (s : State) : (s.placeStatus).lamps = s.lamps := by
  unfold State.placeStatus; (repeat' split) <;> rfl
@[simp] theorem State.placeStatus_pending (s : State) : (s.placeStatus).pending = s.pending := by
  unfold State.placeStatus; (repeat' split) <;> rfl
@[simp] theorem State.placeStatus_bay (s : State) (k : BayNo) : (s.placeStatus).bay k = s.bay k := by
  simp [State.bay]

/-! ### placeTally -/

@[simp] theorem State.placeTally_startup (s : State) : (s.placeTally).startup = s.startup := by
  unfold State.placeTally; (repeat' split) <;> rfl
@[simp] theorem State.placeTally_bays (s : State) : (s.placeTally).bays = s.bays := by
  unfold State.placeTally; (repeat' split) <;> rfl
@[simp] theorem State.placeTally_store (s : State) : (s.placeTally).store = s.store := by
  unfold State.placeTally; (repeat' split) <;> rfl
@[simp] theorem State.placeTally_unaccounted (s : State) : (s.placeTally).unaccounted = s.unaccounted := by
  unfold State.placeTally; (repeat' split) <;> rfl
@[simp] theorem State.placeTally_headroom (s : State) : (s.placeTally).headroom = s.headroom := by
  unfold State.placeTally; (repeat' split) <;> rfl
@[simp] theorem State.placeTally_handoff (s : State) : (s.placeTally).handoff = s.handoff := by
  unfold State.placeTally; (repeat' split) <;> rfl
@[simp] theorem State.placeTally_chute (s : State) : (s.placeTally).chute = s.chute := by
  unfold State.placeTally; (repeat' split) <;> rfl
@[simp] theorem State.placeTally_feed (s : State) : (s.placeTally).feed = s.feed := by
  unfold State.placeTally; (repeat' split) <;> rfl
@[simp] theorem State.placeTally_atmos (s : State) : (s.placeTally).atmos = s.atmos := by
  unfold State.placeTally; (repeat' split) <;> rfl
@[simp] theorem State.placeTally_fire (s : State) : (s.placeTally).fire = s.fire := by
  unfold State.placeTally; (repeat' split) <;> rfl
@[simp] theorem State.placeTally_latch (s : State) : (s.placeTally).latch = s.latch := by
  unfold State.placeTally; (repeat' split) <;> rfl
@[simp] theorem State.placeTally_view (s : State) : (s.placeTally).view = s.view := by
  unfold State.placeTally; (repeat' split) <;> rfl
@[simp] theorem State.placeTally_faults (s : State) : (s.placeTally).faults = s.faults := by
  unfold State.placeTally; (repeat' split) <;> rfl
@[simp] theorem State.placeTally_peers (s : State) : (s.placeTally).peers = s.peers := by
  unfold State.placeTally; (repeat' split) <;> rfl
@[simp] theorem State.placeTally_filter (s : State) : (s.placeTally).filter = s.filter := by
  unfold State.placeTally; (repeat' split) <;> rfl
@[simp] theorem State.placeTally_requests (s : State) : (s.placeTally).requests = s.requests := by
  unfold State.placeTally; (repeat' split) <;> rfl
@[simp] theorem State.placeTally_lamps (s : State) : (s.placeTally).lamps = s.lamps := by
  unfold State.placeTally; (repeat' split) <;> rfl
@[simp] theorem State.placeTally_pending (s : State) : (s.placeTally).pending = s.pending := by
  unfold State.placeTally; (repeat' split) <;> rfl
@[simp] theorem State.placeTally_bay (s : State) (k : BayNo) : (s.placeTally).bay k = s.bay k := by
  simp [State.bay]

/-! ### removeHead -/

@[simp] theorem State.removeHead_startup (s : State) : (s.removeHead).startup = s.startup := by
  simp [State.removeHead]
@[simp] theorem State.removeHead_bays (s : State) : (s.removeHead).bays = s.bays := by
  simp [State.removeHead]
@[simp] theorem State.removeHead_store (s : State) : (s.removeHead).store = s.store := by
  simp [State.removeHead]
@[simp] theorem State.removeHead_unaccounted (s : State) : (s.removeHead).unaccounted = s.unaccounted := by
  simp [State.removeHead]
@[simp] theorem State.removeHead_headroom (s : State) : (s.removeHead).headroom = s.headroom := by
  simp [State.removeHead]
@[simp] theorem State.removeHead_handoff (s : State) : (s.removeHead).handoff = s.handoff := by
  simp [State.removeHead]
@[simp] theorem State.removeHead_chute (s : State) : (s.removeHead).chute = s.chute := by
  simp [State.removeHead]
@[simp] theorem State.removeHead_atmos (s : State) : (s.removeHead).atmos = s.atmos := by
  simp [State.removeHead]
@[simp] theorem State.removeHead_fire (s : State) : (s.removeHead).fire = s.fire := by
  simp [State.removeHead]
@[simp] theorem State.removeHead_latch (s : State) : (s.removeHead).latch = s.latch := by
  simp [State.removeHead]
@[simp] theorem State.removeHead_view (s : State) : (s.removeHead).view = s.view := by
  simp [State.removeHead]
@[simp] theorem State.removeHead_faults (s : State) : (s.removeHead).faults = s.faults := by
  simp [State.removeHead]
@[simp] theorem State.removeHead_link (s : State) : (s.removeHead).link = s.link := by
  simp [State.removeHead]
@[simp] theorem State.removeHead_peers (s : State) : (s.removeHead).peers = s.peers := by
  simp [State.removeHead]
@[simp] theorem State.removeHead_filter (s : State) : (s.removeHead).filter = s.filter := by
  simp [State.removeHead]
@[simp] theorem State.removeHead_requests (s : State) : (s.removeHead).requests = s.requests := by
  simp [State.removeHead]
@[simp] theorem State.removeHead_tally (s : State) : (s.removeHead).tally = s.tally := by
  simp [State.removeHead]
@[simp] theorem State.removeHead_lamps (s : State) : (s.removeHead).lamps = s.lamps := by
  simp [State.removeHead]
@[simp] theorem State.removeHead_pending (s : State) : (s.removeHead).pending = s.pending := by
  simp [State.removeHead]
@[simp] theorem State.removeHead_bay (s : State) (k : BayNo) : (s.removeHead).bay k = s.bay k := by
  simp [State.bay]

/-! ### dropReservation -/

@[simp] theorem State.dropReservation_startup (s : State) : (s.dropReservation).startup = s.startup := by
  simp [State.dropReservation]
@[simp] theorem State.dropReservation_bays (s : State) : (s.dropReservation).bays = s.bays := by
  simp [State.dropReservation]
@[simp] theorem State.dropReservation_store (s : State) : (s.dropReservation).store = s.store := by
  simp [State.dropReservation]
@[simp] theorem State.dropReservation_unaccounted (s : State) : (s.dropReservation).unaccounted = s.unaccounted := by
  simp [State.dropReservation]
@[simp] theorem State.dropReservation_headroom (s : State) : (s.dropReservation).headroom = s.headroom := by
  simp [State.dropReservation]
@[simp] theorem State.dropReservation_handoff (s : State) : (s.dropReservation).handoff = s.handoff := by
  simp [State.dropReservation]
@[simp] theorem State.dropReservation_atmos (s : State) : (s.dropReservation).atmos = s.atmos := by
  simp [State.dropReservation]
@[simp] theorem State.dropReservation_fire (s : State) : (s.dropReservation).fire = s.fire := by
  simp [State.dropReservation]
@[simp] theorem State.dropReservation_latch (s : State) : (s.dropReservation).latch = s.latch := by
  simp [State.dropReservation]
@[simp] theorem State.dropReservation_view (s : State) : (s.dropReservation).view = s.view := by
  simp [State.dropReservation]
@[simp] theorem State.dropReservation_faults (s : State) : (s.dropReservation).faults = s.faults := by
  simp [State.dropReservation]
@[simp] theorem State.dropReservation_link (s : State) : (s.dropReservation).link = s.link := by
  simp [State.dropReservation]
@[simp] theorem State.dropReservation_peers (s : State) : (s.dropReservation).peers = s.peers := by
  simp [State.dropReservation]
@[simp] theorem State.dropReservation_filter (s : State) : (s.dropReservation).filter = s.filter := by
  simp [State.dropReservation]
@[simp] theorem State.dropReservation_requests (s : State) : (s.dropReservation).requests = s.requests := by
  simp [State.dropReservation]
@[simp] theorem State.dropReservation_tally (s : State) : (s.dropReservation).tally = s.tally := by
  simp [State.dropReservation]
@[simp] theorem State.dropReservation_lamps (s : State) : (s.dropReservation).lamps = s.lamps := by
  simp [State.dropReservation]
@[simp] theorem State.dropReservation_pending (s : State) : (s.dropReservation).pending = s.pending := by
  simp [State.dropReservation]
@[simp] theorem State.dropReservation_bay (s : State) (k : BayNo) : (s.dropReservation).bay k = s.bay k := by
  simp [State.bay]

/-! ### Bays -/

@[simp] theorem State.setBay_bay_self (s : State) (b : BayNo) (x : Bay) : (s.setBay b x).bay b = x := by
  simp [State.bay, State.setBay]

@[simp] theorem State.setBay_bay_ne (s : State) (b c : BayNo) (x : Bay) (h : c ≠ b) :
    (s.setBay b x).bay c = s.bay c := by
  have : b.val ≠ c.val := fun e => h (Fin.ext e.symm)
  simp [State.bay, State.setBay, Vector.getElem_set_ne, this]

@[simp] theorem State.mapBays_bay (s : State) (f : Bay → Bay) (b : BayNo) : (s.mapBays f).bay b = f (s.bay b) := by
  simp [State.bay, State.mapBays]

@[simp] theorem State.setBay_setBay (s : State) (b : BayNo) (x y : Bay) : (s.setBay b x).setBay b y = s.setBay b y := by
  simp [State.setBay]

@[simp] theorem State.reject_bay_self (s : State) (b : BayNo) (r : Record) (c : EndCause) :
    (s.reject b r c).bay b = (s.bay b).enter .rejected { r with endCause := some c } := by
  simp [State.reject]

@[simp] theorem State.reject_bay_ne (s : State) (b c : BayNo) (r : Record) (e : EndCause) (h : c ≠ b) :
    (s.reject b r e).bay c = s.bay c := by
  simp [State.reject, h]

@[simp] theorem State.settle_bay_self (s : State) (b : BayNo) : (s.settle b).bay b = (s.bay b).vacate := by
  simp [State.settle]

@[simp] theorem State.settle_bay_ne (s : State) (b c : BayNo) (h : c ≠ b) : (s.settle b).bay c = s.bay c := by
  simp [State.settle, h]

@[simp] theorem State.holdFault_bay_self (s : State) (b : BayNo) (r : Record) (c : FaultCause) :
    (s.holdFault b r c).bay b = (s.bay b).enter (.held .fault) r := by
  simp [State.holdFault]

/-! ### The light lemma: lamps only -/

theorem State.light_eq (s : State) : s.light = { s with lamps := s.light.lamps } := rfl

end Sys2Proof.Machine
end

