-- ==== Sys2Proof/Laws/Ops.lean ====
section
/-! SUPPORT. What each shared operation can do, said once: later proofs cite these lemmas instead of unfolding the
operations. -/

namespace Sys2Proof.Machine

open Sys2Proof.Config

/-! ### Role and lifecycle -/

theorem State.running_iff (s : State) : s.running = true ↔ s.startup.life = .running := by simp [State.running]

theorem State.running_false_iff (s : State) : s.running = false ↔ s.startup.life ≠ .running := by simp [State.running]

theorem State.receiving_of_running (s : State) (h : s.startup.life = .running) (on : s.link.state ≠ .off) :
    s.receiving = true := by simp [State.receiving, State.awake, h, on]

/-- The line is clear exactly when the node is RUNNING, not SILENT and without line_fire (R25). -/
theorem State.lineClear_iff (s : State) :
    s.lineClear = true ↔ s.startup.life = .running ∧ s.view.silent = false ∧ s.view.lineFire = false := by
  simp [State.lineClear, State.running, and_assoc]

/-! ### Error counts and reception -/

/-- Everything but the link's counts and state, and the two link tallies, stays (R167 to R169). -/
theorem State.setErrors_eq (s : State) (tx rx : Nat) :
    s.setErrors tx rx =
      { s with link := (s.setErrors tx rx).link
               tally := { s.tally with t6 := (s.setErrors tx rx).tally.t6 } } := by
  unfold State.setErrors
  repeat' split
  all_goals rfl

/-- In the link, only the counts, the state and the sightings follow the error counts. -/
theorem State.setErrors_link (s : State) (tx rx : Nat) :
    (s.setErrors tx rx).link =
      { s.link with txErrors := (s.setErrors tx rx).link.txErrors, rxErrors := (s.setErrors tx rx).link.rxErrors
                    state := (s.setErrors tx rx).link.state, sightings := (s.setErrors tx rx).link.sightings } := by
  unfold State.setErrors
  repeat' split
  all_goals rfl

/-- The four things that a change of the error counts can do (R167, R168, R169). -/
theorem State.setErrors_cases (s : State) (tx rx : Nat) :
    (s.link.state = .off ∧ s.setErrors tx rx = s) ∨
    (s.link.state ≠ .off ∧ 255 < tx ∧ (s.setErrors tx rx).link.state = .off ∧
      (s.setErrors tx rx).link.txErrors = 256 ∧ (s.setErrors tx rx).link.rxErrors = rx ∧
      (s.setErrors tx rx).tally.t6 = { s.tally.t6 with offEntries := bump s.tally.t6.offEntries }) ∨
    (s.link.state ≠ .off ∧ tx ≤ 255 ∧ (128 ≤ tx ∨ 128 ≤ rx) ∧ (s.setErrors tx rx).link.state = .passive ∧
      (s.setErrors tx rx).link.txErrors = tx ∧ (s.setErrors tx rx).link.rxErrors = rx ∧
      (s.setErrors tx rx).tally.t6 =
        (if s.link.state = .active then { s.tally.t6 with passiveEntries := bump s.tally.t6.passiveEntries }
         else s.tally.t6)) ∨
    (s.link.state ≠ .off ∧ tx < 128 ∧ rx < 128 ∧ (s.setErrors tx rx).link.state = .active ∧
      (s.setErrors tx rx).link.txErrors = tx ∧ (s.setErrors tx rx).link.rxErrors = rx ∧
      (s.setErrors tx rx).tally.t6 = s.tally.t6) := by
  by_cases h0 : s.link.state = .off
  · simp [State.setErrors, h0]
  · by_cases h1 : 255 < tx
    · simp [State.setErrors, h0, h1, State.onT6]
    · by_cases h2 : 128 ≤ tx ∨ 128 ≤ rx
      · refine .inr (.inr (.inl ⟨h0, by omega, h2, ?_⟩))
        by_cases h3 : s.link.state = .active <;> simp [State.setErrors, h1, h2, h3, State.onT6]
        simp [h0]
      · refine .inr (.inr (.inr ⟨h0, by omega, by omega, ?_⟩))
        simp [State.setErrors, h0, h1, h2]

@[simp] theorem State.eased_bay (s : State) (b : BayNo) : s.eased.bay b = s.bay b := by simp [State.eased]

/-- A delivered frame leaves everything but the link's counts, the repeat filter and two link tallies (R162, R167). -/
theorem State.heard_eq (s : State) (a : Fin 15) (bytes : List Byte) :
    s.heard a bytes =
      { s with link := (s.heard a bytes).link
               filter := s.filter.set a.val { bytes := some bytes, window := some repeatMs } a.isLt
               tally := { s.tally with t6 := (s.heard a bytes).tally.t6 } } := by
  simp only [State.heard, State.eased]
  rw [State.setErrors_eq]

@[simp] theorem State.heard_startup (s : State) (a : Fin 15) (d : List Byte) : (s.heard a d).startup = s.startup := by
  simp [State.heard, State.eased]
@[simp] theorem State.heard_bays (s : State) (a : Fin 15) (d : List Byte) : (s.heard a d).bays = s.bays := by
  simp [State.heard, State.eased]
@[simp] theorem State.heard_bay (s : State) (a : Fin 15) (d : List Byte) (b : BayNo) : (s.heard a d).bay b = s.bay b := by
  simp [State.bay]
@[simp] theorem State.heard_store (s : State) (a : Fin 15) (d : List Byte) : (s.heard a d).store = s.store := by
  simp [State.heard, State.eased]
@[simp] theorem State.heard_unaccounted (s : State) (a : Fin 15) (d : List Byte) :
    (s.heard a d).unaccounted = s.unaccounted := by simp [State.heard, State.eased]
@[simp] theorem State.heard_headroom (s : State) (a : Fin 15) (d : List Byte) : (s.heard a d).headroom = s.headroom := by
  simp [State.heard, State.eased]
@[simp] theorem State.heard_handoff (s : State) (a : Fin 15) (d : List Byte) : (s.heard a d).handoff = s.handoff := by
  simp [State.heard, State.eased]
@[simp] theorem State.heard_chute (s : State) (a : Fin 15) (d : List Byte) : (s.heard a d).chute = s.chute := by
  simp [State.heard, State.eased]
@[simp] theorem State.heard_feed (s : State) (a : Fin 15) (d : List Byte) : (s.heard a d).feed = s.feed := by
  simp [State.heard, State.eased]
@[simp] theorem State.heard_atmos (s : State) (a : Fin 15) (d : List Byte) : (s.heard a d).atmos = s.atmos := by
  simp [State.heard, State.eased]
@[simp] theorem State.heard_fire (s : State) (a : Fin 15) (d : List Byte) : (s.heard a d).fire = s.fire := by
  simp [State.heard, State.eased]
@[simp] theorem State.heard_latch (s : State) (a : Fin 15) (d : List Byte) : (s.heard a d).latch = s.latch := by
  simp [State.heard, State.eased]
@[simp] theorem State.heard_view (s : State) (a : Fin 15) (d : List Byte) : (s.heard a d).view = s.view := by
  simp [State.heard, State.eased]
@[simp] theorem State.heard_faults (s : State) (a : Fin 15) (d : List Byte) : (s.heard a d).faults = s.faults := by
  simp [State.heard, State.eased]
@[simp] theorem State.heard_peers (s : State) (a : Fin 15) (d : List Byte) : (s.heard a d).peers = s.peers := by
  simp [State.heard, State.eased]
@[simp] theorem State.heard_requests (s : State) (a : Fin 15) (d : List Byte) : (s.heard a d).requests = s.requests := by
  simp [State.heard, State.eased]
@[simp] theorem State.heard_lamps (s : State) (a : Fin 15) (d : List Byte) : (s.heard a d).lamps = s.lamps := by
  simp [State.heard, State.eased]
@[simp] theorem State.heard_pending (s : State) (a : Fin 15) (d : List Byte) : (s.heard a d).pending = s.pending := by
  simp [State.heard, State.eased]
@[simp] theorem State.heard_t1 (s : State) (a : Fin 15) (d : List Byte) : (s.heard a d).tally.t1 = s.tally.t1 := by
  rw [State.heard_eq]

/-- Only the counts, the state and the sightings of the link follow a reception. -/
theorem State.heard_link (s : State) (a : Fin 15) (d : List Byte) :
    (s.heard a d).link =
      { s.link with txErrors := (s.heard a d).link.txErrors, rxErrors := (s.heard a d).link.rxErrors
                    state := (s.heard a d).link.state, sightings := (s.heard a d).link.sightings } := by
  simp only [State.heard, State.eased]
  exact State.setErrors_link s _ _

@[simp] theorem State.heard_replies (s : State) (a : Fin 15) (d : List Byte) :
    (s.heard a d).link.replies = s.link.replies := by rw [State.heard_link]
@[simp] theorem State.heard_fifo (s : State) (a : Fin 15) (d : List Byte) : (s.heard a d).link.fifo = s.link.fifo := by
  rw [State.heard_link]
@[simp] theorem State.heard_attempt (s : State) (a : Fin 15) (d : List Byte) :
    (s.heard a d).link.attempt = s.link.attempt := by rw [State.heard_link]

theorem nodeOf_nodeAddress (n : NodeNo) : nodeOf (nodeAddress n) = some n := by revert n; decide
theorem filterOf_nodeAddress (n : NodeNo) : filterOf (nodeAddress n) = some (nodePlace n) := by revert n; decide
theorem terminalOf_terminalAddress (t : TerminalNo) : terminalOf (terminalAddress t) = some t := by revert t; decide
theorem filterOf_terminalAddress (t : TerminalNo) : filterOf (terminalAddress t) = some (terminalPlace t) := by
  revert t; decide

theorem sourceAllowed_handoff (n : NodeNo) : sourceAllowed kindHandoff (nodeAddress n) = true := by revert n; decide
theorem sourceAllowed_status (n : NodeNo) : sourceAllowed kindStatus (nodeAddress n) = true := by revert n; decide
theorem sourceAllowed_tally (n : NodeNo) : sourceAllowed kindTally (nodeAddress n) = true := by revert n; decide
theorem sourceAllowed_alarm (n : NodeNo) : sourceAllowed kindAlarm (nodeAddress n) = true := by revert n; decide
theorem sourceAllowed_request (t : TerminalNo) : sourceAllowed kindRequest (terminalAddress t) = true := by
  revert t; decide
theorem nodeAddress_ne_15 (n : NodeNo) : nodeAddress n ≠ 15 := by revert n; decide
theorem terminalAddress_gt (t : TerminalNo) : ¬ (terminalAddress t).toNat ≤ 11 := by revert t; decide
theorem terminalAddress_ne_15 (t : TerminalNo) : terminalAddress t ≠ 15 := by revert t; decide

/-- A frame is received by its verdict, in the state eased by its reception (R160). -/
theorem State.receive_spec (s : State) (odd : Bool) (kind : BitVec 3) (src dst : Address) (length : Nat)
    (deliver : State → State) :
    (s.receiving = false ∧ s.receive odd kind src dst length deliver = s) ∨
    (s.receiving = true ∧ s.judge odd kind src dst length = .clash ∧
      s.receive odd kind src dst length deliver = s.eased.clash) ∨
    (s.receiving = true ∧ s.judge odd kind src dst length = .foreign ∧
      s.receive odd kind src dst length deliver = s.eased.countForeign) ∨
    (s.receiving = true ∧ s.judge odd kind src dst length = .passedBy ∧
      s.receive odd kind src dst length deliver = s.eased) ∨
    (s.receiving = true ∧ s.judge odd kind src dst length = .delivered ∧
      s.receive odd kind src dst length deliver = deliver s.eased) := by
  have hj : s.eased.judge odd kind src dst length = s.judge odd kind src dst length := by
    simp [State.judge, State.eased]
  cases hr : s.receiving
  · exact .inl ⟨rfl, by simp [State.receive, hr]⟩
  · right
    have hd : s.receive odd kind src dst length deliver =
        match s.eased.judge odd kind src dst length with
        | .clash => s.eased.clash
        | .foreign => s.eased.countForeign
        | .passedBy => s.eased
        | .delivered => deliver s.eased := by
      unfold State.receive
      rw [hr]
      rfl
    rw [hd, hj]
    cases h : s.judge odd kind src dst length <;> simp

/-- A frame whose verdict is delivery is delivered. -/
theorem State.receive_delivered {s : State} {odd : Bool} {kind : BitVec 3} {src dst : Address} {length : Nat}
    (hr : s.receiving = true) (hj : s.judge odd kind src dst length = .delivered) (deliver : State → State) :
    s.receive odd kind src dst length deliver = deliver s.eased := by
  rcases State.receive_spec s odd kind src dst length deliver with
    ⟨h, _⟩ | ⟨_, h, _⟩ | ⟨_, h, _⟩ | ⟨_, h, _⟩ | ⟨_, _, h⟩
  · rw [hr] at h; exact absurd h (by decide)
  · rw [hj] at h; exact absurd h (by decide)
  · rw [hj] at h; exact absurd h (by decide)
  · rw [hj] at h; exact absurd h (by decide)
  · exact h

/-- The verdict on an allowed frame of another station for this node or for all (R160, R161). -/
theorem State.judge_delivered {s : State} {kind : BitVec 3} {src dst : Address} {length : Nat}
    (h0 : src ≠ s.startup.straps.node) (h1 : sourceAllowed kind src = true) (h2 : src ≠ 15)
    (h3 : destinationAllowed kind dst = true) (h4 : kindLength kind = some length) (h5 : kind.toNat < 6)
    (h6 : dst = s.startup.straps.node ∨ dst = 15) : s.judge false kind src dst length = .delivered := by
  have h7 : ¬ ((false = true) ∨ 6 ≤ kind.toNat ∨ src = 15) := by
    rintro (h | h | h)
    · exact absurd h (by decide)
    · omega
    · exact h2 h
  have h8 : ¬ (dst ≠ s.startup.straps.node ∧ dst ≠ 15) := by
    rintro ⟨x, y⟩; rcases h6 with h | h
    · exact x h
    · exact y h
  unfold State.judge
  rw [if_neg h0, if_neg h7, if_neg h8, if_pos ⟨h1, h3, h4⟩]

/-- The repeat filter discards a repeat and delivers any other frame (R162). -/
theorem State.filtered_spec (s : State) (a : Fin 15) (bytes : List Byte) (deliver : State → State) :
    s.filtered a bytes deliver =
      if s.repeated a bytes = true then s
      else deliver { s with filter := s.filter.set a.val { bytes := some bytes, window := some repeatMs } a.isLt } := by
  by_cases h : s.repeated a bytes = true
  · rw [if_pos h]
    simp only [State.repeated, Bool.and_eq_true, decide_eq_true_eq] at h
    simp only [State.filtered, if_pos h]
  · rw [if_neg h]
    simp only [State.repeated, Bool.and_eq_true, decide_eq_true_eq] at h
    simp only [State.filtered, if_neg h]

/-- A HANDOFF that is heard goes to the handoff agent's rule (R63). -/
theorem State.receiveHandoff_of_hears {s : State} {message : Byte} {f : HandoffFrame} {n : NodeNo} {b : BayNo}
    (h : s.HearsHandoff message f n b) (take : NodeNo → BayNo → State → State) :
    s.receiveHandoff message f take = take n b (s.told message f n) := by
  have hj : s.judge false kindHandoff f.src f.dst 16 = .delivered := by
    refine State.judge_delivered h.other ?_ ?_ ?_ (by decide) (by decide) (.inl h.addressed)
    · rw [h.source]; exact sourceAllowed_handoff n
    · rw [h.source]; exact nodeAddress_ne_15 n
    · rw [h.addressed]; simpa [destinationAllowed] using h.own
  have hb : handoffBay f = some b := by
    have hlt : f.bay.toNat < 4 := by rw [h.bay]; exact b.isLt
    simp only [handoffBay, if_neg h.tag, bayOf, dif_pos hlt, Option.some.injEq]
    exact Fin.ext h.bay
  have hn : nodeOf f.src = some n := by rw [h.source]; exact nodeOf_nodeAddress n
  have hf : filterOf f.src = some (nodePlace n) := by rw [h.source]; exact filterOf_nodeAddress n
  have hq : ¬ s.eased.repeated (nodePlace n) (f.bytes message) = true := by
    have h1 : s.eased.filter = s.filter := by simp [State.eased]
    have := h.fresh
    unfold State.repeated at this ⊢
    rw [h1, this]
    decide
  unfold State.receiveHandoff
  rw [State.receive_delivered h.receiving hj]
  simp only [hf, hn, hb, State.filtered_spec, if_neg hq]
  congr 1
  simp [State.told, State.heard, State.eased]

/-- A frame for all nodes that is heard is delivered (R161). -/
theorem State.receive_of_hears {s : State} {src dst : Address} {n : NodeNo} (h : s.HearsAll src dst n)
    {kind : BitVec 3} {length : Nat} (h1 : sourceAllowed kind src = true) (h2 : destinationAllowed kind 15 = true)
    (h3 : kindLength kind = some length) (h4 : kind.toNat < 6) (deliver : State → State) :
    s.receive false kind src dst length deliver = deliver s.eased := by
  have h5 : src ≠ 15 := by rw [h.source]; exact nodeAddress_ne_15 n
  exact State.receive_delivered h.receiving
    (State.judge_delivered h.other h1 h5 (by rw [h.all]; exact h2) h3 h4 (.inr h.all)) deliver

/-- A REQUEST that is heard goes to the request unit (R179). -/
theorem State.serve_of_hears {s : State} {code : Byte} {f : RequestFrame} {t : TerminalNo}
    (h : s.HearsRequest code f t) (eval : State → Answer) :
    s.serve code f eval = (s.asked code f t).takeRequest code f t eval := by
  have h0 : f.src ≠ s.startup.straps.node := by
    intro e
    have ho := h.own
    rw [← e, h.source] at ho
    exact absurd ho (terminalAddress_gt t)
  have hj : s.judge false kindRequest f.src f.dst 16 = .delivered := by
    refine State.judge_delivered h0 ?_ ?_ ?_ (by decide) (by decide) (.inl h.addressed)
    · rw [h.source]; exact sourceAllowed_request t
    · rw [h.source]; exact terminalAddress_ne_15 t
    · rw [h.addressed]; simpa [destinationAllowed] using h.own
  have hn : terminalOf f.src = some t := by rw [h.source]; exact terminalOf_terminalAddress t
  have hf : filterOf f.src = some (terminalPlace t) := by rw [h.source]; exact filterOf_terminalAddress t
  have hq : ¬ s.eased.repeated (terminalPlace t) (f.bytes code) = true := by
    have h1 : s.eased.filter = s.filter := by simp [State.eased]
    have := h.fresh
    unfold State.repeated at this ⊢
    rw [h1, this]
    decide
  unfold State.serve
  rw [State.receive_delivered h.receiving hj]
  simp only [hf, hn, State.filtered_spec, if_neg hq]
  congr 1
  simp [State.asked, State.heard, State.eased]

/-- What the request unit does with a delivered REQUEST, case by case (R179, R180, R182). -/
theorem State.takeRequest_cases (s : State) (code : Byte) (f : RequestFrame) (t : TerminalNo) (eval : State → Answer) :
    (s.running = false ∧ s.takeRequest code f t eval = s.countForeign) ∨
    (s.running = true ∧ s.link.replies[t] ≠ none ∧
      s.takeRequest code f t eval =
        { s with requests := { s.requests with
          held := s.requests.held.set t.val (some { code := code, bay := f.bay, number := f.number }) t.isLt } }) ∨
    (s.running = true ∧ s.link.replies[t] = none ∧ s.requests.resetPending = true ∧
      s.takeRequest code f t eval = s.placeReply t (s.replyRefused code f .busy)) ∨
    (s.running = true ∧ s.link.replies[t] = none ∧ s.requests.resetPending = false ∧
      ((∃ r, eval s = .refused r ∧ s.takeRequest code f t eval = s.placeReply t (s.replyRefused code f r)) ∨
       (∃ u p, eval s = .done u p ∧ s.takeRequest code f t eval = u.placeReply t (u.replyDone code f p)))) := by
  cases h1 : s.running
  · exact .inl ⟨rfl, by simp [State.takeRequest, h1]⟩
  · right
    cases h2 : s.link.replies[t] with
    | some r =>
      refine .inl ⟨rfl, by simp, ?_⟩
      simp only [State.takeRequest, h1, h2, Option.isSome_some]
      rfl
    | none =>
      right
      cases h3 : s.requests.resetPending
      · refine .inr ⟨rfl, rfl, rfl, ?_⟩
        cases h4 : eval s with
        | refused r =>
          refine .inl ⟨r, rfl, ?_⟩
          simp only [State.takeRequest, h1, h2, h3, h4, Option.isSome_none]
          rfl
        | done u p =>
          refine .inr ⟨u, p, rfl, ?_⟩
          simp only [State.takeRequest, h1, h2, h3, h4, Option.isSome_none]
          rfl
      · refine .inl ⟨rfl, rfl, rfl, ?_⟩
        simp only [State.takeRequest, h1, h2, h3, Option.isSome_none]
        rfl

/-- An evaluated REQUEST that its owner refuses (R180). -/
theorem State.serve_refused {s : State} {code : Byte} {f : RequestFrame} {t : TerminalNo} (h : s.Evaluates code f t)
    {eval : State → Answer} {r : Reason} (he : eval (s.asked code f t) = .refused r) :
    s.serve code f eval = s.refusing code f t r := by
  have h1 : (s.asked code f t).running = true := by simp [State.asked, State.running, h.running]
  have h2 : (s.asked code f t).link.replies[t] = none := by simp only [State.asked, State.heard_replies]; exact h.slot
  have h3 : (s.asked code f t).requests.resetPending = false := by
    simp only [State.asked, State.heard_requests]; exact h.noReset
  rw [State.serve_of_hears h.toHearsRequest]
  rcases State.takeRequest_cases (s.asked code f t) code f t eval with
    ⟨x, _⟩ | ⟨_, x, _⟩ | ⟨_, _, x, _⟩ | ⟨_, _, _, ⟨r', e, q⟩ | ⟨u, p, e, q⟩⟩
  · rw [h1] at x; exact absurd x (by decide)
  · exact absurd h2 x
  · rw [h3] at x; exact absurd x (by decide)
  · rw [he] at e; cases e
    rw [q]
    simp [State.refusing, State.replyRefused, State.roleCode, State.role, State.asked]
  · rw [he] at e; cases e

/-- An evaluated REQUEST that its owner accepts (R180). -/
theorem State.serve_done {s : State} {code : Byte} {f : RequestFrame} {t : TerminalNo} (h : s.Evaluates code f t)
    {eval : State → Answer} {u : State} {p : List Byte} (he : eval (s.asked code f t) = .done u p) :
    s.serve code f eval = u.placeReply t (u.replyDone code f p) := by
  have h1 : (s.asked code f t).running = true := by simp [State.asked, State.running, h.running]
  have h2 : (s.asked code f t).link.replies[t] = none := by simp only [State.asked, State.heard_replies]; exact h.slot
  have h3 : (s.asked code f t).requests.resetPending = false := by
    simp only [State.asked, State.heard_requests]; exact h.noReset
  rw [State.serve_of_hears h.toHearsRequest]
  rcases State.takeRequest_cases (s.asked code f t) code f t eval with
    ⟨x, _⟩ | ⟨_, x, _⟩ | ⟨_, _, x, _⟩ | ⟨_, _, _, ⟨r', e, q⟩ | ⟨v, p', e, q⟩⟩
  · rw [h1] at x; exact absurd x (by decide)
  · exact absurd h2 x
  · rw [h3] at x; exact absurd x (by decide)
  · rw [he] at e; cases e
  · rw [he] at e; cases e; exact q

/-! ### The states in which requests and HANDOFF frames are taken -/

@[simp] theorem State.asked_startup (s : State) (c : Byte) (f : RequestFrame) (t : TerminalNo) :
    (s.asked c f t).startup = s.startup := by simp [State.asked]
@[simp] theorem State.asked_bays (s : State) (c : Byte) (f : RequestFrame) (t : TerminalNo) :
    (s.asked c f t).bays = s.bays := by simp [State.asked]
@[simp] theorem State.asked_store (s : State) (c : Byte) (f : RequestFrame) (t : TerminalNo) :
    (s.asked c f t).store = s.store := by simp [State.asked]
@[simp] theorem State.asked_unaccounted (s : State) (c : Byte) (f : RequestFrame) (t : TerminalNo) :
    (s.asked c f t).unaccounted = s.unaccounted := by simp [State.asked]
@[simp] theorem State.asked_headroom (s : State) (c : Byte) (f : RequestFrame) (t : TerminalNo) :
    (s.asked c f t).headroom = s.headroom := by simp [State.asked]
@[simp] theorem State.asked_handoff (s : State) (c : Byte) (f : RequestFrame) (t : TerminalNo) :
    (s.asked c f t).handoff = s.handoff := by simp [State.asked]
@[simp] theorem State.asked_chute (s : State) (c : Byte) (f : RequestFrame) (t : TerminalNo) :
    (s.asked c f t).chute = s.chute := by simp [State.asked]
@[simp] theorem State.asked_feed (s : State) (c : Byte) (f : RequestFrame) (t : TerminalNo) :
    (s.asked c f t).feed = s.feed := by simp [State.asked]
@[simp] theorem State.asked_atmos (s : State) (c : Byte) (f : RequestFrame) (t : TerminalNo) :
    (s.asked c f t).atmos = s.atmos := by simp [State.asked]
@[simp] theorem State.asked_fire (s : State) (c : Byte) (f : RequestFrame) (t : TerminalNo) :
    (s.asked c f t).fire = s.fire := by simp [State.asked]
@[simp] theorem State.asked_latch (s : State) (c : Byte) (f : RequestFrame) (t : TerminalNo) :
    (s.asked c f t).latch = s.latch := by simp [State.asked]
@[simp] theorem State.asked_view (s : State) (c : Byte) (f : RequestFrame) (t : TerminalNo) :
    (s.asked c f t).view = s.view := by simp [State.asked]
@[simp] theorem State.asked_faults (s : State) (c : Byte) (f : RequestFrame) (t : TerminalNo) :
    (s.asked c f t).faults = s.faults := by simp [State.asked]
@[simp] theorem State.asked_peers (s : State) (c : Byte) (f : RequestFrame) (t : TerminalNo) :
    (s.asked c f t).peers = s.peers := by simp [State.asked]
@[simp] theorem State.asked_requests (s : State) (c : Byte) (f : RequestFrame) (t : TerminalNo) :
    (s.asked c f t).requests = s.requests := by simp [State.asked]
@[simp] theorem State.asked_lamps (s : State) (c : Byte) (f : RequestFrame) (t : TerminalNo) :
    (s.asked c f t).lamps = s.lamps := by simp [State.asked]
@[simp] theorem State.asked_pending (s : State) (c : Byte) (f : RequestFrame) (t : TerminalNo) :
    (s.asked c f t).pending = s.pending := by simp [State.asked]
@[simp] theorem State.asked_bay (s : State) (c : Byte) (f : RequestFrame) (t : TerminalNo) (b : BayNo) :
    (s.asked c f t).bay b = s.bay b := by simp [State.asked]
@[simp] theorem State.asked_t1 (s : State) (c : Byte) (f : RequestFrame) (t : TerminalNo) :
    (s.asked c f t).tally.t1 = s.tally.t1 := by simp [State.asked]
@[simp] theorem State.asked_isBay (s : State) (c : Byte) (f : RequestFrame) (t : TerminalNo) :
    (s.asked c f t).isBay = s.isBay := by unfold State.isBay State.role; rw [State.asked_startup]
@[simp] theorem State.asked_isShred (s : State) (c : Byte) (f : RequestFrame) (t : TerminalNo) :
    (s.asked c f t).isShred = s.isShred := by unfold State.isShred State.role; rw [State.asked_startup]
@[simp] theorem State.asked_running (s : State) (c : Byte) (f : RequestFrame) (t : TerminalNo) :
    (s.asked c f t).running = s.running := by simp [State.running]
@[simp] theorem State.asked_lineClear (s : State) (c : Byte) (f : RequestFrame) (t : TerminalNo) :
    (s.asked c f t).lineClear = s.lineClear := by simp [State.lineClear, State.running]
@[simp] theorem State.asked_profile (s : State) (c : Byte) (f : RequestFrame) (t : TerminalNo) :
    (s.asked c f t).profile = s.profile := by simp [State.profile]
@[simp] theorem State.asked_capacity (s : State) (c : Byte) (f : RequestFrame) (t : TerminalNo) :
    (s.asked c f t).capacity = s.capacity := by simp [State.capacity, State.profile]
@[simp] theorem State.asked_roleCode (s : State) (c : Byte) (f : RequestFrame) (t : TerminalNo) :
    (s.asked c f t).roleCode = s.roleCode := by simp [State.roleCode, State.role]
@[simp] theorem State.asked_awake (s : State) (c : Byte) (f : RequestFrame) (t : TerminalNo) :
    (s.asked c f t).awake = s.awake := by simp [State.awake]
@[simp] theorem State.asked_replies (s : State) (c : Byte) (f : RequestFrame) (t : TerminalNo) :
    (s.asked c f t).link.replies = s.link.replies := by simp [State.asked]
@[simp] theorem State.asked_fifo (s : State) (c : Byte) (f : RequestFrame) (t : TerminalNo) :
    (s.asked c f t).link.fifo = s.link.fifo := by simp [State.asked]
@[simp] theorem State.asked_attempt (s : State) (c : Byte) (f : RequestFrame) (t : TerminalNo) :
    (s.asked c f t).link.attempt = s.link.attempt := by simp [State.asked]
@[simp] theorem State.told_startup (s : State) (c : Byte) (f : HandoffFrame) (n : NodeNo) :
    (s.told c f n).startup = s.startup := by simp [State.told]
@[simp] theorem State.told_bays (s : State) (c : Byte) (f : HandoffFrame) (n : NodeNo) :
    (s.told c f n).bays = s.bays := by simp [State.told]
@[simp] theorem State.told_store (s : State) (c : Byte) (f : HandoffFrame) (n : NodeNo) :
    (s.told c f n).store = s.store := by simp [State.told]
@[simp] theorem State.told_unaccounted (s : State) (c : Byte) (f : HandoffFrame) (n : NodeNo) :
    (s.told c f n).unaccounted = s.unaccounted := by simp [State.told]
@[simp] theorem State.told_headroom (s : State) (c : Byte) (f : HandoffFrame) (n : NodeNo) :
    (s.told c f n).headroom = s.headroom := by simp [State.told]
@[simp] theorem State.told_handoff (s : State) (c : Byte) (f : HandoffFrame) (n : NodeNo) :
    (s.told c f n).handoff = s.handoff := by simp [State.told]
@[simp] theorem State.told_chute (s : State) (c : Byte) (f : HandoffFrame) (n : NodeNo) :
    (s.told c f n).chute = s.chute := by simp [State.told]
@[simp] theorem State.told_feed (s : State) (c : Byte) (f : HandoffFrame) (n : NodeNo) :
    (s.told c f n).feed = s.feed := by simp [State.told]
@[simp] theorem State.told_atmos (s : State) (c : Byte) (f : HandoffFrame) (n : NodeNo) :
    (s.told c f n).atmos = s.atmos := by simp [State.told]
@[simp] theorem State.told_fire (s : State) (c : Byte) (f : HandoffFrame) (n : NodeNo) :
    (s.told c f n).fire = s.fire := by simp [State.told]
@[simp] theorem State.told_latch (s : State) (c : Byte) (f : HandoffFrame) (n : NodeNo) :
    (s.told c f n).latch = s.latch := by simp [State.told]
@[simp] theorem State.told_view (s : State) (c : Byte) (f : HandoffFrame) (n : NodeNo) :
    (s.told c f n).view = s.view := by simp [State.told]
@[simp] theorem State.told_faults (s : State) (c : Byte) (f : HandoffFrame) (n : NodeNo) :
    (s.told c f n).faults = s.faults := by simp [State.told]
@[simp] theorem State.told_peers (s : State) (c : Byte) (f : HandoffFrame) (n : NodeNo) :
    (s.told c f n).peers = s.peers := by simp [State.told]
@[simp] theorem State.told_requests (s : State) (c : Byte) (f : HandoffFrame) (n : NodeNo) :
    (s.told c f n).requests = s.requests := by simp [State.told]
@[simp] theorem State.told_lamps (s : State) (c : Byte) (f : HandoffFrame) (n : NodeNo) :
    (s.told c f n).lamps = s.lamps := by simp [State.told]
@[simp] theorem State.told_pending (s : State) (c : Byte) (f : HandoffFrame) (n : NodeNo) :
    (s.told c f n).pending = s.pending := by simp [State.told]
@[simp] theorem State.told_bay (s : State) (c : Byte) (f : HandoffFrame) (n : NodeNo) (b : BayNo) :
    (s.told c f n).bay b = s.bay b := by simp [State.told]
@[simp] theorem State.told_t1 (s : State) (c : Byte) (f : HandoffFrame) (n : NodeNo) :
    (s.told c f n).tally.t1 = s.tally.t1 := by simp [State.told]
@[simp] theorem State.told_isBay (s : State) (c : Byte) (f : HandoffFrame) (n : NodeNo) :
    (s.told c f n).isBay = s.isBay := by unfold State.isBay State.role; rw [State.told_startup]
@[simp] theorem State.told_isShred (s : State) (c : Byte) (f : HandoffFrame) (n : NodeNo) :
    (s.told c f n).isShred = s.isShred := by unfold State.isShred State.role; rw [State.told_startup]
@[simp] theorem State.told_running (s : State) (c : Byte) (f : HandoffFrame) (n : NodeNo) :
    (s.told c f n).running = s.running := by simp [State.running]
@[simp] theorem State.told_lineClear (s : State) (c : Byte) (f : HandoffFrame) (n : NodeNo) :
    (s.told c f n).lineClear = s.lineClear := by simp [State.lineClear, State.running]
@[simp] theorem State.told_profile (s : State) (c : Byte) (f : HandoffFrame) (n : NodeNo) :
    (s.told c f n).profile = s.profile := by simp [State.profile]
@[simp] theorem State.told_capacity (s : State) (c : Byte) (f : HandoffFrame) (n : NodeNo) :
    (s.told c f n).capacity = s.capacity := by simp [State.capacity, State.profile]
@[simp] theorem State.told_roleCode (s : State) (c : Byte) (f : HandoffFrame) (n : NodeNo) :
    (s.told c f n).roleCode = s.roleCode := by simp [State.roleCode, State.role]
@[simp] theorem State.told_awake (s : State) (c : Byte) (f : HandoffFrame) (n : NodeNo) :
    (s.told c f n).awake = s.awake := by simp [State.awake]
@[simp] theorem State.told_replies (s : State) (c : Byte) (f : HandoffFrame) (n : NodeNo) :
    (s.told c f n).link.replies = s.link.replies := by simp [State.told]
@[simp] theorem State.told_fifo (s : State) (c : Byte) (f : HandoffFrame) (n : NodeNo) :
    (s.told c f n).link.fifo = s.link.fifo := by simp [State.told]
@[simp] theorem State.told_attempt (s : State) (c : Byte) (f : HandoffFrame) (n : NodeNo) :
    (s.told c f n).link.attempt = s.link.attempt := by simp [State.told]

/-! ### Handoff FIFO -/

/-- Of the link, a placed HANDOFF frame changes the FIFO alone (R63, R163). -/
theorem State.placeHandoff_link (s : State) (h : HandoffOut) :
    (s.placeHandoff h).link = { s.link with fifo := s.fifoWith h } := by
  unfold State.placeHandoff State.fifoWith
  cases hr : s.running
  · simp
  · by_cases hl : fifoDepth ≤ s.link.fifo.length
    · have : ¬ s.link.fifo.length < fifoDepth := by omega
      simp [hl, this]
    · have : s.link.fifo.length < fifoDepth := by omega
      simp [hl, this]

/-- Outside T6 the tallies stay when a frame is placed (R163). -/
theorem State.placeHandoff_tally (s : State) (h : HandoffOut) :
    (s.placeHandoff h).tally = { s.tally with t6 := (s.placeHandoff h).tally.t6 } := by
  unfold State.placeHandoff
  repeat' split
  all_goals rfl

/-! ### Bays -/

/-- The three outcomes of a start (R25, R41, R43, R45). -/
theorem Bay.startOrHold_cases (x : Bay) (clear : Bool) (r : Record) :
    (clear = false ∧ x.startOrHold clear r = x.enter (.held .lineStop) r) ∨
    (clear = true ∧ x.thermal = true ∧ x.startOrHold clear r = x.enter (.held .thermal) r) ∨
    (clear = true ∧ x.thermal = false ∧ x.startOrHold clear r = x.discharge r) := by
  cases clear <;> cases h : x.thermal <;> simp [Bay.startOrHold, h]

@[simp] theorem Bay.enter_slot (x : Bay) (st : PackState) (r : Record) :
    (x.enter st r).slot = .pack st { r with setpoint := 0 } := rfl
@[simp] theorem Bay.enter_contactor (x : Bay) (st : PackState) (r : Record) : (x.enter st r).contactor = false := rfl
@[simp] theorem Bay.enter_sink (x : Bay) (st : PackState) (r : Record) : (x.enter st r).sink = 0 := rfl
@[simp] theorem Bay.enter_gate (x : Bay) (st : PackState) (r : Record) : (x.enter st r).gate = false := rfl
@[simp] theorem Bay.vacate_slot (x : Bay) : x.vacate.slot = .empty := rfl

/-! ### Feed hold -/

/-- Everything but latch, fault record and feed controller stays when a feed hold reason is added (R88). -/
theorem State.addReason_eq (s : State) (h : HoldReason) (c : FaultCause) (place : Place) (tag : Option Tag) :
    s.addReason h c place tag =
      { s with latch := (s.raise h.cause place tag).latch, faults := (s.enterFault c place tag).faults
               feed := if s.feed.hold.isSet then { s.feed with hold := s.feed.hold.add h }
                 else ({ s.feed with hold := s.feed.hold.add h } : Feed).losePermissive } := by
  unfold State.addReason
  split <;> simp_all [State.losePermissive, State.enterFault, State.raise]

/-- The hold is set from the moment a reason is added (R88). -/
theorem HoldSet.add_isSet (h : HoldSet) (r : HoldReason) : (h.add r).isSet = true := by
  cases r <;> simp [HoldSet.add, HoldSet.isSet]

/-- The hold is clear exactly while its reason set is empty (R87). -/
theorem HoldSet.isSet_false_iff (h : HoldSet) :
    h.isSet = false ↔ h = { stray := false, feed := false, rotor := false } := by
  obtain ⟨a, b, c⟩ := h
  cases a <;> cases b <;> cases c <;> simp [HoldSet.isSet]

/-- After the loss of the permissive no feed is ACTIVE, and the rotor is not commanded to turn (R89). -/
theorem Feed.losePermissive_spec (f : Feed) :
    f.losePermissive.kind ≠ .active ∧ f.losePermissive.rotor.commanded = false ∧ f.losePermissive.hold = f.hold ∧
      f.losePermissive.queue = f.queue ∧ (f.kind = .active → f.losePermissive.gate = false) := by
  cases hk : f.kind <;> cases hr : f.rotor <;> cases hf : f.feedback <;>
    simp [Feed.losePermissive, Feed.abandon, Feed.enterStopping, Rotor.commanded, hk, hr, hf]

/-! ### The idle timer -/

/-- The idle timer runs exactly while its three conditions hold (R92). -/
theorem State.refreshIdle_spec (s : State) :
    (s.refreshIdle).feed.idleTimer.isSome =
      decide (s.feed.rotor = .running ∧ s.feed.queue = [] ∧ s.chute.reservation = none) := by
  unfold State.refreshIdle
  by_cases h : s.feed.rotor = .running ∧ s.feed.queue = [] ∧ s.chute.reservation = none
  · rw [if_pos h]
    cases hi : s.feed.idleTimer <;> simp [h, hi]
  · rw [if_neg h]; simp [h]

/-! ### The line view -/

/-- After a review the line view is what its inputs give, and they are the state's own (R151, R152). -/
theorem State.reviewLine_view (s : State) :
    s.reviewLine.view = { s.view with lineFire := s.lineFireNow, linePre := s.linePreNow } := by
  have hp : ∀ (u : State) (b : BayNo), (u.recallRelease b).view = u.view := by
    intro u b
    unfold State.recallRelease
    repeat' split
    all_goals simp
  unfold State.reviewLine
  simp only
  split
  · simp [State.lineFireRises, hp]
  · rfl

/-! ### Formation -/

/-- A STATUS formed takes its slot, and the sequence moves on (R165). -/
theorem State.placeStatus_link (s : State) :
    (s.placeStatus).link = { s.link with status := some s.formStatus, statusSeq := s.link.statusSeq + 1 } := by
  unfold State.placeStatus
  simp only
  split <;> simp [State.countOverrun]

/-- A TALLY formed takes its slot, and the sequence moves on (R165). -/
theorem State.placeTally_link (s : State) :
    (s.placeTally).link = { s.link with tally := some s.formTally, tallySeq := s.link.tallySeq + 1 } := by
  unfold State.placeTally
  simp only
  split <;> simp [State.countOverrun]

/-! ### Latch and fault record -/

/-- The fault record's last entry is the one handed in, and the first is kept once it stands (R157). -/
theorem State.enterFault_spec (s : State) (c : FaultCause) (place : Place) (tag : Option Tag) :
    (s.enterFault c place tag).faults.last = some ⟨c, place, tag, s.startup.nodeTime⟩ ∧
      (∀ e, s.faults.first = some e → (s.enterFault c place tag).faults.first = some e) ∧
      (s.faults.first = none → (s.enterFault c place tag).faults.first = some ⟨c, place, tag, s.startup.nodeTime⟩) ∧
      (s.enterFault c place tag).faults.count = min (s.faults.count + 1) 65535 := by
  refine ⟨rfl, ?_, ?_, rfl⟩
  · intro e h; simp [State.enterFault, h]
  · intro h; simp [State.enterFault, h]

/-- Outside the latch nothing changes when a cause is raised (R146). -/
theorem State.raise_eq (s : State) (c : Cause) (place : Place) (tag : Option Tag) :
    s.raise c place tag = { s with latch := (s.raise c place tag).latch } := rfl

/-- An entry stands in the set it was inserted into (R146). -/
theorem mem_insertEntry (e : PendingEntry) (l : List PendingEntry) : e ∈ insertEntry e l := by
  induction l with
  | nil => simp [insertEntry]
  | cons x xs ih =>
    unfold insertEntry
    split
    · simp
    · split
      · simp
      · exact List.mem_cons_of_mem _ ih

/-! ### Lamps -/

/-- A lamp that shows a pattern has that pattern (R15). -/
theorem Lamp.show_pattern (l : Lamp) (p : Pattern) : (l.show p).pattern = p := by
  unfold Lamp.show
  split
  · assumption
  · rfl

end Sys2Proof.Machine
end

