-- ==== Sys2Proof/Laws/Frames.lean ====
section
/-! SUPPORT. What a STATUS and a TALLY formed carry, field by field, and what the end of an attempt does. -/

namespace Sys2Proof.Machine

open Sys2Proof.Config

/-! ### Bytes -/

theorem leNat_div (k : Nat) (l : List Byte) : leNat l / 256 ^ k = leNat (l.drop k) := by
  induction k generalizing l with
  | zero => simp
  | succ k ih =>
    cases l with
    | nil => simp [leNat]
    | cons b bs =>
      rw [List.drop_succ_cons, ← ih, Nat.pow_succ, Nat.mul_comm, ← Nat.div_div_eq_div_mul]
      congr 1
      have := b.isLt
      simp only [leNat]; omega

theorem leNat_mod (n : Nat) (l : List Byte) : leNat l % 256 ^ n = leNat (l.take n) := by
  induction n generalizing l with
  | zero => simp [leNat, Nat.mod_one]
  | succ n ih =>
    cases l with
    | nil => simp [leNat]
    | cons b bs =>
      rw [List.take_succ_cons]; simp only [leNat]
      rw [← ih, Nat.pow_succ, Nat.mul_comm (256 ^ n), Nat.mod_mul]
      have := b.isLt
      congr 1
      · omega
      · congr 2; omega

theorem leBytes_length (n x : Nat) : (leBytes n x).length = n := by
  induction n generalizing x with
  | zero => rfl
  | succ n ih => simp [leBytes, ih]

theorem leNat_leBytes (n x : Nat) : leNat (leBytes n x) = x % 256 ^ n := by
  induction n generalizing x with
  | zero => simp [leNat, leBytes, Nat.mod_one]
  | succ n ih =>
    simp only [leBytes, leNat, ih, BitVec.toNat_ofNat]
    rw [Nat.pow_succ (n := 256), Nat.mul_comm (256 ^ n), Nat.mod_mul]

/-- Bits of a block are the field of its bytes (R177). -/
theorem extract_field (N : Nat) (l : List Byte) (k n : Nat) (h : 8 * (k + n) ≤ N) :
    ((BitVec.ofNat N (leNat l)).extractLsb' (8 * k) (8 * n)).toNat = fieldAt l k n := by
  have p : ∀ m, 2 ^ (8 * m) = 256 ^ m := fun m => by rw [Nat.pow_mul]
  rw [BitVec.extractLsb'_toNat, BitVec.toNat_ofNat, Nat.shiftRight_eq_div_pow]
  have : 2 ^ N = 2 ^ (8 * k) * 2 ^ (8 * n) * 2 ^ (N - 8 * (k + n)) := by
    rw [← Nat.pow_add, ← Nat.pow_add]; congr 1; omega
  rw [this, Nat.mul_assoc, Nat.mod_mul_right_div_self, Nat.mod_mul_right_mod, p, p, leNat_div, leNat_mod]
  rfl

theorem fieldAt_past (l : List Byte) (k n : Nat) (h : l.length ≤ k) : fieldAt l k n = 0 := by
  simp [fieldAt, List.drop_eq_nil_of_le h, leNat]

theorem fieldAt_append (a b : List Byte) (k n : Nat) (h : a.length = k) : fieldAt (a ++ b) k n = fieldAt b 0 n := by
  simp [fieldAt, List.drop_left' h]

theorem fieldAt_leBytes (n x : Nat) (m : List Byte) : fieldAt (leBytes n x ++ m) 0 n = x % 256 ^ n := by
  simp only [fieldAt, List.drop_zero]; rw [List.take_left' (leBytes_length n _), leNat_leBytes]

theorem words32_cons (x : Nat) (l : List Nat) : words32 (x :: l) = leBytes 4 (cap32 x) ++ words32 l := by simp [words32]

theorem words32_length (l : List Nat) : (words32 l).length = 4 * l.length := by
  induction l with
  | nil => rfl
  | cons x xs ih => rw [words32_cons, List.length_append, leBytes_length, ih, List.length_cons]; omega

theorem fieldAt_words32 (l : List Nat) (m : List Byte) (i : Nat) (h : i < l.length) :
    fieldAt (words32 l ++ m) (4 * i) 4 = min (l.getD i 0) 4294967295 := by
  induction l generalizing i with
  | nil => cases h
  | cons x xs ih =>
    rw [words32_cons, List.append_assoc]
    cases i with
    | zero => rw [Nat.mul_zero, fieldAt_leBytes]; simp [cap32, max32]
    | succ i =>
      unfold fieldAt
      rw [show 4 * (i + 1) = 4 + 4 * i by omega, ← List.drop_drop, List.drop_left' (leBytes_length 4 _)]
      simpa [fieldAt] using ih i (by simpa using h)

/-! ### STATUS -/

theorem State.bays_toList (s : State) : s.bays.toList = [s.bay 0, s.bay 1, s.bay 2, s.bay 3] := by
  apply List.ext_getElem
  · simp
  · intro i h1 h2
    simp only [List.length_cons, List.length_nil] at h2
    match i, h2 with
    | 0, _ => simp [State.bay]
    | 1, _ => simp [State.bay]
    | 2, _ => simp [State.bay]
    | 3, _ => simp [State.bay]

theorem State.countBays_pos (s : State) (p : Slot → Bool) : 0 < s.countBays p ↔ ∃ b : BayNo, p (s.bay b).slot = true := by
  unfold State.countBays
  rw [List.countP_pos_iff]
  constructor
  · rintro ⟨x, hx, h⟩
    obtain ⟨i, hi, rfl⟩ := Vector.mem_iff_getElem.1 (Vector.mem_toList_iff.1 hx)
    exact ⟨⟨i, hi⟩, h⟩
  · rintro ⟨b, hb⟩
    exact ⟨s.bay b, Vector.mem_toList_iff.2 (Vector.mem_iff_getElem.2 ⟨b.val, b.isLt, rfl⟩), hb⟩

/-- The number whose bits are `l`, the first the lowest. -/
def natOfBits : List Bool → Nat
  | [] => 0
  | b :: l => b.toNat + 2 * natOfBits l

theorem natOfBits_testBit (l : List Bool) (i : Nat) : (natOfBits l).testBit i = l.getD i false := by
  induction l generalizing i with
  | nil => simp [natOfBits]
  | cons b l ih =>
    cases i with
    | zero => cases b <;> simp [natOfBits, Nat.testBit_zero]
    | succ i =>
      rw [Nat.testBit_succ, List.getD_cons_succ, ← ih]
      congr 1
      cases b <;> simp [natOfBits]
      omega

theorem natOfBits_lt (l : List Bool) : natOfBits l < 2 ^ l.length := by
  induction l with
  | nil => simp [natOfBits]
  | cons b l ih => have := b.toNat_lt; simp only [natOfBits, List.length_cons, Nat.pow_succ]; omega

/-- The sum of `l` as bits from bit `k` on. -/
def bitSum (k : Nat) : List Bool → Nat
  | [] => 0
  | b :: l => bitAt b k + bitSum (k + 1) l

theorem bitSum_eq (l : List Bool) (k : Nat) : bitSum k l = 2 ^ k * natOfBits l := by
  induction l generalizing k with
  | nil => simp [bitSum, natOfBits]
  | cons b l ih =>
    rw [bitSum, ih]
    cases b <;> simp [bitAt, natOfBits, Nat.pow_succ] <;> ring

/-- Each cause has its own flag, and no other bit is set (R170). -/
theorem causeFlags_bits (f : Cause → Bool) :
    let x := BitVec.ofNat 24 ((Cause.all.map (fun c => bitAt (f c) (c.priority - 1))).sum)
    (∀ c : Cause, x.getLsbD (c.priority - 1) = f c) ∧ x.toNat < 2 ^ 18 := by
  have hs : (Cause.all.map (fun c => bitAt (f c) (c.priority - 1))).sum = natOfBits (Cause.all.map f) := by
    have h := bitSum_eq (Cause.all.map f) 0
    rw [Nat.pow_zero, Nat.one_mul] at h
    rw [← h]
    simp only [Cause.all, List.map_cons, List.map_nil, List.sum_cons, List.sum_nil, Cause.priority, bitSum, Nat.reduceSub,
      Nat.reduceAdd]
  have hlt := natOfBits_lt (Cause.all.map f)
  rw [List.length_map, show Cause.all.length = 18 from rfl] at hlt
  rw [hs]
  constructor
  · intro c
    rw [BitVec.getLsbD_ofNat, natOfBits_testBit]
    cases c <;> rfl
  · rw [BitVec.toNat_ofNat]; omega

theorem intake_below_bound (o : Option Offered) (n : Nat) :
    (o.isNone = true ∧ n + o.toList.length < 8) ↔ (o = none ∧ n < 8) := by
  cases o <;> simp

/-- The accepting flag, by the conditions of R90. -/
theorem State.accepting_conditions (s : State) : s.accepting = true ↔
    s.atmos.state = .inert ∧ s.view.lineFire = false ∧ s.startup.life = .running ∧ s.view.silent = false ∧
      s.feed.hold = { stray := false, feed := false, rotor := false } ∧ s.chute.reservation = none ∧
      s.feed.queue.length < 8 := by
  have hi : (s.chute.reservation.isNone = true ∧ s.intake < intakeBound) ↔
      (s.chute.reservation = none ∧ s.feed.queue.length < 8) := intake_below_bound _ _
  simp only [State.accepting, State.permissive, State.lineClear, State.running, Bool.and_eq_true, decide_eq_true_eq,
    Bool.not_eq_true', HoldSet.isSet_false_iff, and_assoc, hi]
  tauto

/-- Every field of a STATUS formed from `s` (R170, R177). -/
theorem State.formStatus_statusOf (s : State) : s.StatusOf s.formStatus := by
  have flag : ∀ a b c d e : Bool, let x : Byte := byteOf (bitAt a 0 + bitAt b 1 + bitAt c 2 + bitAt d 3 + bitAt e 4)
      x.getLsbD 0 = a ∧ x.getLsbD 1 = b ∧ x.getLsbD 2 = c ∧ x.getLsbD 3 = d ∧ x.getLsbD 4 = e ∧ x.toNat < 2 ^ 5 := by
    decide
  have hf := flag s.fire.impaired s.view.silent s.view.lineFire s.view.linePre s.roleFlag
  have hr : s.formStatus.flags.getLsbD 4 = s.roleFlag := hf.2.2.2.2.1
  have hx : ∀ k n, 8 * (k + n) ≤ 128 → (s.formStatus.block.extractLsb' (8 * k) (8 * n)).toNat = fieldAt s.roleBlock k n :=
    fun k n h => extract_field 128 s.roleBlock k n h
  refine ⟨?_, ?_, ?_, ?_, rfl, rfl, causeFlags_bits s.condition, ⟨hf.1, hf.2.1, hf.2.2.1, hf.2.2.2.1, hf.2.2.2.2.2⟩, ?_, ?_,
    ?_, rfl, ?_, ?_, ?_⟩
  · refine ⟨?_, ?_, ?_⟩ <;> intro h <;> simp [State.formStatus, State.roleCode, h, Role.code] <;> rfl
  · intro h; simp [State.formStatus, h, Lifecycle.code]
  · simp only [State.formStatus]; cases s.fire.zone <;> simp [Zone.code] <;> rfl
  · have h1 := s.startup.straps.profile.isLt
    have h2 := s.startup.straps.power.isLt
    simp only [State.formStatus, byteOf, BitVec.toNat_ofNat]
    constructor <;> apply Nat.mod_eq_of_lt <;> omega
  · intro h
    have e : ∀ b : BayNo, (s.bay b).slot.free = true ↔ ((s.bay b).slot = .empty ∨ (s.bay b).slot = .orphan) := by
      intro b; cases (s.bay b).slot <;> simp [Slot.free]
    rw [hr]
    simp only [State.roleFlag, h, State.admitting, Bool.and_eq_true, decide_eq_true_eq, State.countBays_pos, State.hasRoom,
      Bool.not_eq_true', and_assoc, e]
  · intro h; rw [hr, ← s.accepting_conditions]; simp [State.roleFlag, h]
  · intro h; rw [hr]; simp [State.roleFlag, h]
  · intro h
    have hb : s.roleBlock = leBytes 2 s.ownPower ++
        [(s.bay 0).slot.code, (s.bay 1).slot.code, (s.bay 2).slot.code, (s.bay 3).slot.code] ++
        [byteOf (s.countBays Slot.releasable), byteOf s.unaccounted.length] := by
      simp only [State.roleBlock, h, State.bays_toList, List.map_cons, List.map_nil]
    rw [hb] at hx
    refine ⟨?_, ?_, ?_, ?_, ?_⟩
    · refine (hx 0 2 (by omega)).trans ?_
      rw [List.append_assoc, fieldAt_leBytes]; rfl
    · intro b
      apply BitVec.eq_of_toNat_eq
      rw [show 16 + 8 * b.val = 8 * (2 + b.val) by omega]
      refine (hx (2 + b.val) 1 (by omega)).trans ?_
      match b with
      | 0 => simp [fieldAt, leBytes, leNat]
      | 1 => simp [fieldAt, leBytes, leNat]
      | 2 => simp [fieldAt, leBytes, leNat]
      | 3 => simp [fieldAt, leBytes, leNat]
    · apply BitVec.eq_of_toNat_eq
      refine (hx 6 1 (by omega)).trans ?_
      simp only [fieldAt, leBytes, leNat, byteOf, List.cons_append, List.nil_append, List.drop_succ_cons, List.drop_zero,
        List.take_succ_cons, List.take_zero]
      have : Slot.releasable = fun x => x.isSafe || x.isOffered := by
        funext x
        cases x with
        | empty => rfl
        | orphan => rfl
        | pack st r => cases st <;> rfl
      rw [this]; simp
    · apply BitVec.eq_of_toNat_eq
      exact (hx 7 1 (by omega)).trans (by simp [fieldAt, leBytes, leNat, byteOf])
    · apply BitVec.eq_of_toNat_eq
      exact (hx 8 8 (by omega)).trans (by simp [fieldAt, leBytes, leNat, byteOf])
  · intro h
    have hb : s.roleBlock = s.atmos.state.code :: (leBytes 2 (orAbsent16 s.atmos.oxygen) ++
        [byteOf s.feed.queue.length, byteOf (bitAt s.chute.reservation.isSome 0), s.feed.rotor.code]) := by
      simp only [State.roleBlock, h]
    rw [hb] at hx
    refine ⟨?_, ?_, ?_, ?_, ?_, ?_⟩
    · apply BitVec.eq_of_toNat_eq
      exact (hx 0 1 (by omega)).trans (by simp [fieldAt, leNat])
    · exact (hx 1 2 (by omega)).trans (fieldAt_leBytes 2 _ _)
    · apply BitVec.eq_of_toNat_eq
      exact (hx 3 1 (by omega)).trans (by simp [fieldAt, leBytes, leNat, byteOf])
    · apply BitVec.eq_of_toNat_eq
      refine (hx 4 1 (by omega)).trans ?_
      cases s.chute.reservation <;> simp [fieldAt, leBytes, leNat, byteOf, bitAt]
    · apply BitVec.eq_of_toNat_eq
      exact (hx 5 1 (by omega)).trans (by simp [fieldAt, leBytes, leNat, byteOf])
    · apply BitVec.eq_of_toNat_eq
      exact (hx 6 10 (by omega)).trans (by simp [fieldAt, leBytes, leNat, byteOf])
  · intro h; simp [State.formStatus, State.roleBlock, h, leNat]

/-! ### TALLY -/

/-- Every field of a TALLY formed from `s` (R171, R177). -/
theorem State.formTally_tallyOf (s : State) : s.TallyOf s.tally s.formTally := by
  have hx : ∀ k n, 8 * (k + n) ≤ 464 → (s.formTally.body.extractLsb' (8 * k) (8 * n)).toNat = fieldAt s.tallyBody k n :=
    fun k n h => extract_field 464 s.tallyBody k n h
  refine ⟨rfl, ?_, ?_, ?_⟩
  · intro h
    have hb : s.tallyBody = words32 s.tally.t1.counters ++ [] := by simp [State.tallyBody, h]
    rw [hb] at hx
    refine ⟨by simp [State.formTally, State.tallyNumber, h], ?_, ?_⟩
    · intro i hi
      rw [show 32 * i = 8 * (4 * i) by omega]
      exact (hx (4 * i) 4 (by omega)).trans (fieldAt_words32 _ _ _ (by simpa [Tally1.counters] using hi))
    · apply BitVec.eq_of_toNat_eq
      exact (hx 32 26 (by omega)).trans (fieldAt_past _ _ _ (by rw [List.append_nil, words32_length]; rfl))
  · intro h
    have hb : s.tallyBody = words32 (s.tally.t4.settledFrom.toList ++ [s.tally.t4.shredded]) ++
        (leBytes 2 (cap16 s.tally.t4.strays) ++
          (leBytes 2 (cap16 s.tally.t4.arrivalMissed) ++ (leBytes 2 (cap16 s.tally.t4.rotorStarts) ++ []))) := by
      simp [State.tallyBody, h]
    have hl : (s.tally.t4.settledFrom.toList ++ [s.tally.t4.shredded]).length = 13 := by simp
    have hc : ∀ x, cap16 x % 256 ^ 2 = min x 65535 := by intro x; simp [cap16]
    rw [hb] at hx
    refine ⟨by simp [State.formTally, State.tallyNumber, h], ?_, ?_, ?_, ?_, ?_⟩
    · intro i
      rw [show 32 * i.val = 8 * (4 * i.val) by omega]
      refine (hx (4 * i) 4 (by omega)).trans ?_
      rw [fieldAt_words32 _ _ _ (by omega)]; simp [List.getElem?_append]
    · refine (hx (4 * 12) 4 (by omega)).trans ?_
      rw [fieldAt_words32 _ _ _ (by omega)]; simp
    · refine (hx 52 2 (by omega)).trans ?_
      rw [fieldAt_append _ _ _ _ (by rw [words32_length, hl]), fieldAt_leBytes, hc]
    · refine (hx 54 2 (by omega)).trans ?_
      rw [← List.append_assoc,
        fieldAt_append _ _ _ _ (by rw [List.length_append, words32_length, hl, leBytes_length]), fieldAt_leBytes, hc]
    · refine (hx 56 2 (by omega)).trans ?_
      rw [← List.append_assoc, ← List.append_assoc,
        fieldAt_append _ _ _ _ (by simp only [List.length_append, words32_length, hl, leBytes_length]), fieldAt_leBytes, hc]
  · intro h
    have hb : s.tallyBody = words32 s.tally.t6.counters ++ [] := by simp [State.tallyBody, h]
    rw [hb] at hx
    refine ⟨by simp [State.formTally, State.tallyNumber, h], ?_, ?_⟩
    · intro i hi
      rw [show 32 * i = 8 * (4 * i) by omega]
      exact (hx (4 * i) 4 (by omega)).trans (fieldAt_words32 _ _ _ (by simpa [Tally6.counters] using hi))
    · apply BitVec.eq_of_toNat_eq
      exact (hx 40 18 (by omega)).trans (fieldAt_past _ _ _ (by rw [List.append_nil, words32_length]; rfl))

/-! ### Formations at the end of an attempt -/

/-- What a STATUS carries depends on the parts of the state that the end of an attempt leaves. -/
theorem State.StatusOf.congr {s t : State} {f : StatusFrame} (h : t = { s with
    link := t.link, tally := t.tally, latch := { t.latch with entries := s.latch.entries } }) (g : s.StatusOf f) :
    t.StatusOf f := by
  obtain ⟨a, b, c, d, e, i, j, k, l, m, n, o, p, q, r⟩ := g
  have h1 : t.startup = s.startup := by rw [h]
  have h2 : t.bays = s.bays := by rw [h]
  have h3 : t.fire = s.fire := by rw [h]
  have h4 : t.view = s.view := by rw [h]
  have h5 : t.feed = s.feed := by rw [h]
  have h6 : t.chute = s.chute := by rw [h]
  have h7 : t.atmos = s.atmos := by rw [h]
  have h8 : t.unaccounted = s.unaccounted := by rw [h]
  have h9 : t.store = s.store := by rw [h]
  have h10 : t.latch.entries = s.latch.entries := by rw [h]
  have hr : t.role = s.role := by simp only [State.role, h1]
  have hb : t.bay = s.bay := by funext b; simp only [State.bay, h2]
  have hl : t.l1Count = s.l1Count := by simp only [State.l1Count, State.countBays, h2, h9]
  have hc : t.capacity = s.capacity := by simp only [State.capacity, State.profile, h1]
  have hn : ∀ p, t.countBays p = s.countBays p := by intro p; simp only [State.countBays, h2]
  have hcond : t.condition = s.condition := by
    have g1 : t.peers = s.peers := by rw [h]
    have g2 : t.handoff = s.handoff := by rw [h]
    funext c; cases c <;> simp only [State.condition, h2, h3, h5, h7, h8, h9, hc, g1, g2]
  refine ⟨?_, ?_, ?_, ?_, ?_, ?_, ?_, ?_, ?_, ?_, ?_, o, ?_, ?_, ?_⟩ <;>
    simp only [hcond, h1, h2, h3, h4, h5, h6, h7, h8, h10, hr, hb, hl, hc, hn] <;> assumption

theorem State.TallyOf.congr {s t : State} {y : Tally} {f : TallyFrame} (h : t.startup = s.startup) (g : s.TallyOf y f) :
    t.TallyOf y f := by
  obtain ⟨a, b, c, d⟩ := g
  refine ⟨?_, ?_, ?_, ?_⟩ <;> simp only [h, State.role] <;> assumption

/-- The link tallies after a formation that replaced an unsent frame (`replaced`) or did not. -/
def Tally6.afterFormation (x : Tally6) (replaced : Bool) : Tally6 :=
  if replaced then { x with statusOverrun := min (x.statusOverrun + 1) max32 } else x

theorem Tally6.afterFormation_eq (x : Tally6) (replaced : Bool) : x.afterFormation replaced =
    { x with statusOverrun := if replaced then min (x.statusOverrun + 1) max32 else x.statusOverrun } := by
  cases replaced <;> rfl

theorem State.placeStatus_eq (s : State) : s.placeStatus = { s with
    link := { s.link with status := some s.formStatus, statusSeq := s.link.statusSeq + 1 }
    tally := { s.tally with t6 := s.tally.t6.afterFormation s.link.status.isSome } } := by
  unfold State.placeStatus Tally6.afterFormation; cases h : s.link.status <;> rfl

theorem State.placeTally_eq (s : State) : s.placeTally = { s with
    link := { s.link with tally := some s.formTally, tallySeq := s.link.tallySeq + 1 }
    tally := { s.tally with t6 := s.tally.t6.afterFormation s.link.tally.isSome } } := by
  unfold State.placeTally Tally6.afterFormation; cases h : s.link.tally <;> rfl

/-- All that the end of an attempt does (R147, R164, R165). -/
theorem State.endAttempt_ends (s : State) : s.AttemptEnds s.endAttempt s.link.status s.link.tally ∧
    s.endAttempt = { s with link := s.endAttempt.link, latch := { s.latch with after := none }
                            tally := { s.tally with t6 := s.endAttempt.tally.t6 } } ∧
    s.endAttempt.link = { s.link with
      attempt := none, statusDue := false, tallyDue := false, status := s.endAttempt.link.status
      tally := s.endAttempt.link.tally, statusSeq := s.endAttempt.link.statusSeq
      tallySeq := s.endAttempt.link.tallySeq } ∧
    s.endAttempt.tally.t6 = { s.tally.t6 with statusOverrun := s.endAttempt.tally.t6.statusOverrun } := by
  generalize ht : s.endAttempt = t
  have he := ht.symm
  unfold State.endAttempt at he
  simp only at he
  rcases h1 : s.link.statusDue <;> rcases h2 : s.link.tallyDue
  · simp only [h1, Bool.false_eq_true, if_false, h2] at he
    refine ⟨⟨?_, ?_, ?_, ?_, ?_, ?_, ?_, ?_⟩, ?_, ?_, ?_⟩ <;> rw [he]
    · exact ⟨rfl, rfl⟩
    · exact fun _ => ⟨rfl, rfl⟩
    · intro h; rw [h1] at h; cases h
    · exact fun _ => ⟨rfl, rfl⟩
    · intro h; rw [h2] at h; cases h
    · simp [h1, h2]
  · simp only [h1, Bool.false_eq_true, if_false, h2, if_true, State.placeTally_eq] at he
    refine ⟨⟨?_, ?_, ?_, ?_, ?_, ?_, ?_, ?_⟩, ?_, ?_, ?_⟩
    · rw [he]
    · rw [he]
    · rw [he]; exact ⟨rfl, rfl⟩
    · rw [he]; exact fun _ => ⟨rfl, rfl⟩
    · intro h; rw [h1] at h; cases h
    · intro h; rw [h2] at h; cases h
    · intro _
      refine ⟨by rw [he], _, by rw [he], rfl, fun _ => ?_⟩
      have := State.TallyOf.congr (t := t) (by rw [he]) (State.formTally_tallyOf { s with
        link := { s.link with attempt := none, statusDue := false, tallyDue := false }
        latch := { s.latch with after := none } })
      convert this using 1
      rw [he]; simp only [Tally6.afterFormation_eq]
    · rw [he]; cases h : s.link.tally <;> simp [Tally6.afterFormation, h1, h2]
    · rw [he]
    · rw [he]
    · rw [he]; simp only [Tally6.afterFormation_eq]
  · simp only [h1, Bool.false_eq_true, if_false, h2, if_true, State.placeStatus_eq] at he
    refine ⟨⟨?_, ?_, ?_, ?_, ?_, ?_, ?_, ?_⟩, ?_, ?_, ?_⟩
    · rw [he]
    · rw [he]
    · rw [he]; exact ⟨rfl, rfl⟩
    · intro h; rw [h1] at h; cases h
    · intro _
      refine ⟨by rw [he], _, by rw [he], rfl, ?_⟩
      refine State.StatusOf.congr ?_ (State.formStatus_statusOf _)
      rw [he]
    · rw [he]; exact fun _ => ⟨rfl, rfl⟩
    · intro h; rw [h2] at h; cases h
    · rw [he]; cases h : s.link.status <;> simp [Tally6.afterFormation, h1, h2]
    · rw [he]
    · rw [he]
    · rw [he]; simp only [Tally6.afterFormation_eq]
  · simp only [h1, h2, if_true, State.placeStatus_eq, State.placeTally_eq] at he
    refine ⟨⟨?_, ?_, ?_, ?_, ?_, ?_, ?_, ?_⟩, ?_, ?_, ?_⟩
    · rw [he]
    · rw [he]
    · rw [he]; exact ⟨rfl, rfl⟩
    · intro h; rw [h1] at h; cases h
    · intro _
      refine ⟨by rw [he], _, by rw [he], rfl, ?_⟩
      refine State.StatusOf.congr ?_ (State.formStatus_statusOf _)
      rw [he]
    · intro h; rw [h2] at h; cases h
    · intro _; refine ⟨by rw [he], _, by rw [he], rfl, ?_⟩
      intro h; rw [h1] at h; cases h
    · rw [he]; cases h : s.link.status <;> cases h' : s.link.tally <;> simp [Tally6.afterFormation, h1, h2]; omega
    · rw [he]
    · rw [he]
    · rw [he]; simp only [Tally6.afterFormation_eq]

end Sys2Proof.Machine
end

