-- ==== Sys2Proof/Laws/Latch.lean ====
section
/-! SUPPORT. Raises, entries of the fault record and frames placed in the handoff FIFO, in the terms of Safety.lean. -/

namespace Sys2Proof.Machine

open Sys2Proof.Config

/-! ### The pending set -/

/-- The entry that a raise makes or changes is that of its cause. -/
theorem foldRaise_cause (now : NodeTime) (c : Cause) (p : Place) (g : Option Tag) (l : List PendingEntry) :
    (foldRaise now c p g (findEntry c l)).cause = c := by
  unfold foldRaise findEntry
  split
  · rfl
  · rename_i e h; have := List.find?_some h; simpa using this

/-- An insertion leaves the entries of every other cause (R145). -/
theorem insertEntry_others (e o : PendingEntry) (l : List PendingEntry) (hc : o.cause ≠ e.cause) :
    o ∈ insertEntry e l ↔ o ∈ l := by
  induction l with
  | nil =>
    simp only [insertEntry, List.mem_singleton, List.not_mem_nil, iff_false]
    intro h; exact hc (by rw [h])
  | cons y ys ih =>
    unfold insertEntry
    split
    · rename_i he
      simp only [List.mem_cons]
      exact or_congr ⟨fun h => absurd (by rw [h]) hc, fun h => absurd (by rw [h, he]) hc⟩ Iff.rfl
    · split
      · simp only [List.mem_cons]
        exact ⟨fun h => h.resolve_left (fun h => hc (by rw [h])), Or.inr⟩
      · simp only [List.mem_cons, ih]

/-- An insertion leaves what is found of every other cause. -/
theorem findEntry_insertEntry (c : Cause) (e : PendingEntry) (l : List PendingEntry) (hc : e.cause ≠ c) :
    findEntry c (insertEntry e l) = findEntry c l := by
  induction l with
  | nil => simp [insertEntry, findEntry, hc]
  | cons y ys ih =>
    unfold insertEntry
    split
    · rename_i h
      have : y.cause ≠ c := by rw [← h]; exact hc
      simp [findEntry, hc, this]
    · split
      · simp [findEntry, List.find?_cons, hc]
      · simp only [findEntry, List.find?_cons] at ih ⊢
        split
        · rfl
        · exact ih

/-- A state has the latch, the attempt and the node time of another, as far as one cause goes. -/
structure State.SameFor (s u : State) (c : Cause) : Prop where
  entry : findEntry c u.latch.entries = findEntry c s.latch.entries
  after : s.attempting c = true → u.latch.after = s.latch.after
  attempt : u.link.attempt = s.link.attempt
  now : u.startup.nodeTime = s.startup.nodeTime

theorem State.SameFor.of_latch {s u : State} (c : Cause) (hl : u.latch = s.latch) (ha : u.link.attempt = s.link.attempt)
    (hn : u.startup.nodeTime = s.startup.nodeTime) : s.SameFor u c := ⟨by rw [hl], fun _ => by rw [hl], ha, hn⟩

theorem State.attempting_iff (s : State) (c : Cause) :
    s.attempting c = true ↔ ∃ a : Attempt, s.link.attempt = some a ∧ a.buffer = .alarm c := by
  unfold State.attempting
  cases s.link.attempt <;> simp

theorem State.attempting_congr {s u : State} (c : Cause) (h : u.link.attempt = s.link.attempt) :
    u.attempting c = s.attempting c := by unfold State.attempting; rw [h]

/-- Raises after which a state has the same latch. -/
theorem State.RaisedTimes.congr {s t u : State} {k : Nat} {c : Cause} {p : Place} {g : Option Tag}
    (h : u.latch = t.latch) (r : s.RaisedTimes t k c p g) : s.RaisedTimes u k c p g :=
  ⟨by rw [h]; exact r.entry, by rw [h]; exact r.after⟩

/-- Raises counted from a state that differs in other causes only. -/
theorem State.RaisedTimes.of_same {s u t : State} {k : Nat} {c : Cause} {p : Place} {g : Option Tag}
    (h : s.SameFor u c) (r : u.RaisedTimes t k c p g) : s.RaisedTimes t k c p g := by
  obtain ⟨⟨e, he, hc, f1, f2, f3⟩, ha⟩ := r
  refine ⟨⟨e, he, hc, f1, by rw [← h.entry, ← h.now]; exact f2, by rw [← h.entry]; exact f3⟩, ?_⟩
  intro a h1 h2
  obtain ⟨e, e1, e2, e3, e4, e5⟩ := ha a (h.attempt.trans h1) h2
  have hl := h.after ((s.attempting_iff c).2 ⟨a, h1, h2⟩)
  rw [hl] at e2 e4 e5
  exact ⟨e, e1, e2, e3, by rw [← h.now]; exact e4, e5⟩

theorem State.OthersPend.congr {s t s' t' : State} {l : List Cause} (h : s'.latch = s.latch)
    (ha : s'.link.attempt = s.link.attempt) (h' : t'.latch = t.latch) (q : s.OthersPend t l) : s'.OthersPend t' l :=
  ⟨by rw [h, h']; exact q.entries, by rw [h, h', ha]; exact q.after⟩

theorem State.OthersPend.refl {s t : State} (l : List Cause) (h : t.latch = s.latch) : s.OthersPend t l :=
  ⟨fun _ _ => by rw [h], fun _ => by rw [h]⟩

theorem State.OthersPend.mono {s t : State} {l m : List Cause} (h : ∀ c ∈ l, c ∈ m) (q : s.OthersPend t l) :
    s.OthersPend t m :=
  ⟨fun o ho => q.entries o (fun hh => ho (h _ hh)), fun hm => q.after (fun a c h1 h2 hc => hm a c h1 h2 (h _ hc))⟩

theorem State.OthersPend.trans {s t u : State} {l : List Cause} (ht : t.link.attempt = s.link.attempt)
    (a : s.OthersPend t l) (b : t.OthersPend u l) : s.OthersPend u l :=
  ⟨fun o ho => (b.entries o ho).trans (a.entries o ho), fun hl => (b.after (by rw [ht]; exact hl)).trans (a.after hl)⟩

theorem State.raise_others (s : State) (c : Cause) (p : Place) (g : Option Tag) : s.OthersPend (s.raise c p g) [c] := by
  refine ⟨fun _ ho => insertEntry_others _ _ _ (by rw [foldRaise_cause]; simpa using ho), fun h => ?_⟩
  have hn : s.attempting c ≠ true := fun hc => by
    obtain ⟨a, h1, h2⟩ := (s.attempting_iff c).1 hc
    exact h a c h1 h2 (by simp)
  simp only [State.raise, hn, if_false, Bool.false_eq_true]

/-- A raise leaves what another cause has. -/
theorem State.raise_sameFor (s : State) (c c' : Cause) (p : Place) (g : Option Tag) (hc : c' ≠ c) :
    s.SameFor (s.raise c' p g) c := by
  refine ⟨findEntry_insertEntry _ _ _ (by rw [foldRaise_cause]; exact hc), fun h => ?_, rfl, rfl⟩
  obtain ⟨a, h1, h2⟩ := (s.attempting_iff c).1 h
  have hn : s.attempting c' ≠ true := fun hh => by
    obtain ⟨b, h3, h4⟩ := (s.attempting_iff c').1 hh
    rw [h1] at h3; cases h3
    rw [h2] at h4; exact hc (by cases h4; rfl)
  simp only [State.raise, hn, if_false, Bool.false_eq_true]

theorem State.SameFor.trans {s t u : State} {c : Cause} (a : s.SameFor t c) (b : t.SameFor u c) : s.SameFor u c :=
  ⟨b.entry.trans a.entry, fun h => (b.after (by rw [State.attempting_congr c a.attempt]; exact h)).trans (a.after h),
    b.attempt.trans a.attempt, b.now.trans a.now⟩

theorem foldRaise_folds (s : State) (c : Cause) (p : Place) (g : Option Tag) (o : Option PendingEntry) :
    s.Folds 1 p g o (foldRaise s.startup.nodeTime c p g o) := by
  cases o with
  | none => exact ⟨⟨rfl, rfl⟩, fun _ => ⟨rfl, rfl⟩, fun _ h => by cases h⟩
  | some e => exact ⟨⟨rfl, rfl⟩, (fun h => by cases h), (fun _ h => by cases h; exact ⟨rfl, rfl, rfl⟩)⟩

/-- One raise (R146, R147). -/
theorem State.raise_raisedIn (s : State) (c : Cause) (p : Place) (g : Option Tag) : s.RaisedIn (s.raise c p g) c p g := by
  refine ⟨⟨_, mem_insertEntry _ _, foldRaise_cause _ _ _ _ _, foldRaise_folds _ _ _ _ _⟩, ?_⟩
  intro a h1 h2
  have ha : s.attempting c = true := (s.attempting_iff c).2 ⟨a, h1, h2⟩
  refine ⟨foldRaise s.startup.nodeTime c p g s.latch.after, by simp only [State.raise, ha, if_true], ?_,
    foldRaise_folds _ _ _ _ _⟩
  intro h; rw [h]; rfl

/-- A raise from a state with the latch, the attempt and the node time of `s` is a raise from `s`. -/
theorem State.raise_raised (s u : State) (hl : u.latch = s.latch) (ha : u.link.attempt = s.link.attempt)
    (hn : u.startup.nodeTime = s.startup.nodeTime) (c : Cause) (p : Place) (g : Option Tag) :
    s.Raised (u.raise c p g) c p g :=
  ⟨(u.raise_raisedIn c p g).of_same (.of_latch c hl ha hn), (u.raise_others c p g).congr hl.symm ha.symm rfl⟩

theorem State.Raised.congr {s t u : State} {c : Cause} {p : Place} {g : Option Tag} (h : u.latch = t.latch)
    (r : s.Raised t c p g) : s.Raised u c p g := ⟨r.raise.congr h, r.others.congr rfl rfl h⟩

/-- A raise of another cause keeps raises that were made. -/
theorem State.RaisedTimes.raise {s u : State} {k : Nat} {c : Cause} {p : Place} {g : Option Tag}
    (h : s.RaisedTimes u k c p g) (hu : u.link.attempt = s.link.attempt) (c' : Cause) (p' : Place) (g' : Option Tag)
    (hc : c ≠ c') : s.RaisedTimes (u.raise c' p' g') k c p g := by
  obtain ⟨⟨e, he, h1, h2⟩, ha⟩ := h
  refine ⟨⟨e, (insertEntry_others _ _ _ (by rw [h1, foldRaise_cause]; exact hc)).2 he, h1, h2⟩, ?_⟩
  intro a h3 h4
  have := (u.raise_sameFor c c' p' g' (Ne.symm hc)).after
    ((u.attempting_iff c).2 ⟨a, hu.trans h3, h4⟩)
  rw [this]; exact ha a h3 h4

/-- The pending set holds one entry a cause at most, and it is the one found (R145). -/
theorem findEntry_insertEntry_self (e : PendingEntry) (l : List PendingEntry) :
    findEntry e.cause (insertEntry e l) = some e := by
  induction l with
  | nil => simp [insertEntry, findEntry]
  | cons y ys ih =>
    unfold insertEntry
    split
    · simp [findEntry]
    · split
      · simp [findEntry]
      · rename_i h _
        have hy : ¬ y.cause = e.cause := fun hh => h hh.symm
        simpa [findEntry, hy] using ih

theorem foldRaise_foldRaise_folds {s : State} {k : Nat} {p : Place} {g : Option Tag} {o : Option PendingEntry}
    {e : PendingEntry} (h : s.Folds k p g o e) (hk : 0 < k) (now : NodeTime) (c : Cause) (p' : Place) (g' : Option Tag) :
    s.Folds (k + 1) p' g' o (foldRaise now c p' g' (some e)) := by
  refine ⟨⟨rfl, rfl⟩, fun ho => ⟨?_, (h.new ho).2⟩, fun x hx => ⟨(h.more x hx).1, ?_, (h.more x hx).2.2⟩⟩
  · show min (e.count + 1) 255 = _
    rw [(h.new ho).1]; omega
  · show min (e.count + 1) 255 = _
    rw [(h.more x hx).2.1]; omega

/-! ### The fault record -/

theorem State.faultsAfter_nil (s : State) : s.faultsAfter [] = s.faults := by simp [State.faultsAfter]

/-- One entry handed in (R156, R157). -/
theorem State.enterFault_faultsAfter (s u : State) (hf : u.faults = s.faults)
    (hn : u.startup.nodeTime = s.startup.nodeTime) (c : FaultCause) (p : Place) (g : Option Tag) :
    (u.enterFault c p g).faults = s.faultsAfter [(c, p, g)] := by
  simp only [State.enterFault, State.faultsAfter, hf, hn, satAdd]
  cases h : s.faults.first <;> simp

/-- One more entry handed in after others. -/
theorem State.enterFault_faultsAfter_append (s u : State) (l : List (FaultCause × Place × Option Tag))
    (hf : u.faults = s.faultsAfter l) (hn : u.startup.nodeTime = s.startup.nodeTime) (c : FaultCause) (p : Place)
    (g : Option Tag) : (u.enterFault c p g).faults = s.faultsAfter (l ++ [(c, p, g)]) := by
  cases l with
  | nil => exact s.enterFault_faultsAfter u (by rw [hf, s.faultsAfter_nil]) hn c p g
  | cons x xs =>
    simp only [State.enterFault, hf, hn, satAdd, State.faultsAfter]
    cases s.faults.first <;>
      simp only [List.map_append, List.map_cons, List.map_nil, List.cons_append, List.head?_cons, List.length_append,
        List.length_cons, List.length_nil, reduceCtorEq, if_false, FaultRecord.mk.injEq] <;>
      refine ⟨by simp, ?_, by omega⟩ <;>
      rw [← List.cons_append, List.getLast?_concat] <;> rfl

/-! ### The handoff FIFO -/

theorem State.placeHandoff_t6 (s : State) (h : HandoffOut) : (s.placeHandoff h).tally = { s.tally with t6 := s.t6With } := by
  unfold State.placeHandoff State.t6With
  cases hr : s.running
  · simp
  · by_cases hl : fifoDepth ≤ s.link.fifo.length
    · simp [hl, State.onT6, bump, satAdd]
    · simp [hl]

/-- All that placing a frame does, from a state with the FIFO, the lifecycle and the tally of `s` (R63, R163). -/
theorem State.placeHandoff_eq (s u : State) (h : HandoffOut) (h1 : u.startup = s.startup)
    (h2 : u.link.fifo = s.link.fifo) (h3 : u.tally.t6 = s.tally.t6) :
    u.placeHandoff h = { u with link := { u.link with fifo := s.fifoWith h }, tally := { u.tally with t6 := s.t6With } } := by
  have hf : u.fifoWith h = s.fifoWith h := by simp [State.fifoWith, State.running, h1, h2]
  have ht : u.t6With = s.t6With := by simp [State.t6With, State.running, h1, h2, h3]
  rw [← hf, ← ht, ← State.placeHandoff_link u h, ← State.placeHandoff_t6 u h]
  unfold State.placeHandoff
  repeat' split
  all_goals rfl

/-! ### Feed hold -/

/-- A reason added to the feed hold (R88), from a state that the command has changed in its feed controller. -/
theorem State.addReason_held (s u : State) (h : HoldReason) (c : FaultCause) (p : Place) (g : Option Tag)
    (h1 : u.feed.hold = s.feed.hold) (h2 : u.startup = s.startup) (h3 : u.faults = s.faults) (h4 : u.latch = s.latch)
    (h5 : u.link.attempt = s.link.attempt) : s.FeedHeld (u.addReason h c p g) u.feed h c p g := by
  have hh : (u.addReason h c p g).feed.hold = s.feed.hold.add h := by
    rw [State.addReason_eq, ← h1]
    simp only
    split
    · rfl
    · exact (Feed.losePermissive_spec _).2.2.1
  have hf : (u.addReason h c p g).feed = if s.feed.hold.isSet then { u.feed with hold := s.feed.hold.add h }
      else ({ u.feed with hold := s.feed.hold.add h } : Feed).losePermissive := by
    rw [State.addReason_eq, ← h1]
  refine ⟨by rw [hh]; cases h <;> rfl, ?_, ?_, ?_, ?_⟩
  · simp only [hh, ← HoldSet.isSet_false_iff]
    rw [hf]; cases s.feed.hold.isSet <;> rfl
  · have : s.Raised (u.addReason h c p g) h.cause p g := by
      rw [State.addReason_eq]
      exact State.Raised.congr (t := u.raise h.cause p g) rfl (State.raise_raised s u h4 h5 (by rw [h2]) h.cause p g)
    cases h <;> exact this
  · rw [State.addReason_eq, ← State.enterFault_faultsAfter s u h3 (by rw [h2]) c p g]
  · intro hs
    rw [hf, (HoldSet.isSet_false_iff _).2 hs]
    exact ⟨(Feed.losePermissive_spec _).1, (Feed.losePermissive_spec _).2.1⟩

end Sys2Proof.Machine
end

