-- ==== Sys2Proof/Laws/LineFire.lean ====
section
/-! SUPPORT. What line_fire becoming true does to the bays and to the handoff FIFO, in the terms of Safety.lean. -/

namespace Sys2Proof.Machine

open Sys2Proof.Config

/-! ### Several frames placed -/

/-- The frames of `l` placed in order. -/
def State.placeAll (s : State) (l : List HandoffOut) : State := l.foldl State.placeHandoff s

theorem State.placeHandoff_startup_link (s u : State) (h : HandoffOut) (h1 : u.startup = s.startup) (h2 : u.link = s.link)
    (h3 : u.tally = s.tally) : (u.placeHandoff h).startup = (s.placeHandoff h).startup ∧
      (u.placeHandoff h).link = (s.placeHandoff h).link ∧ (u.placeHandoff h).tally = (s.placeHandoff h).tally := by
  rw [State.placeHandoff_eq s s h rfl rfl rfl, State.placeHandoff_eq s u h h1 (by rw [h2]) (by rw [h3])]
  exact ⟨h1, by simp only [h2], by simp only [h3]⟩

theorem State.placeAll_congr (s u : State) (l : List HandoffOut) (h1 : u.startup = s.startup) (h2 : u.link = s.link)
    (h3 : u.tally = s.tally) : (u.placeAll l).startup = (s.placeAll l).startup ∧
      (u.placeAll l).link = (s.placeAll l).link ∧ (u.placeAll l).tally = (s.placeAll l).tally := by
  unfold State.placeAll
  induction l generalizing s u with
  | nil => exact ⟨h1, h2, h3⟩
  | cons x xs ih =>
    obtain ⟨a, b, c⟩ := State.placeHandoff_startup_link s u x h1 h2 h3
    exact ih _ _ a b c

theorem State.placeAll_append (s : State) (l m : List HandoffOut) : s.placeAll (l ++ m) = (s.placeAll l).placeAll m := by
  unfold State.placeAll; rw [List.foldl_append]

theorem State.placeAll_startup (s : State) (l : List HandoffOut) : (s.placeAll l).startup = s.startup := by
  unfold State.placeAll
  induction l generalizing s with
  | nil => rfl
  | cons x xs ih => simp only [List.foldl_cons]; rw [ih, State.placeHandoff_eq s s x rfl rfl rfl]

/-- The FIFO takes the frames it has room for; the others are dropped and counted (R163). -/
theorem State.placeAll_spec (s : State) (l : List HandoffOut) :
    (s.placeAll l).link.fifo =
      (if s.running = true then s.link.fifo ++ l.take (fifoDepth - s.link.fifo.length) else s.link.fifo) ∧
    (s.placeAll l).tally.t6.handoffDropped =
      (if s.running = true ∧ fifoDepth - s.link.fifo.length < l.length then
        min (s.tally.t6.handoffDropped + (l.length - (fifoDepth - s.link.fifo.length))) max32
      else s.tally.t6.handoffDropped) := by
  unfold State.placeAll
  induction l generalizing s with
  | nil => simp
  | cons x xs ih =>
    simp only [List.foldl_cons]
    obtain ⟨i1, i2⟩ := ih (s.placeHandoff x)
    have hp := State.placeHandoff_eq s s x rfl rfl rfl
    have hr : (s.placeHandoff x).running = s.running := by rw [hp]; rfl
    rw [i1, i2, hr]
    cases hrun : s.running
    · rw [hp]; simp [State.fifoWith, State.t6With, hrun]
    · by_cases hl : s.link.fifo.length < fifoDepth
      · have hf : (s.placeHandoff x).link.fifo = s.link.fifo ++ [x] := by rw [hp]; simp [State.fifoWith, hrun, hl]
        have ht : (s.placeHandoff x).tally.t6 = s.tally.t6 := by rw [hp]; simp [State.t6With, Nat.not_le.2 hl]
        rw [hf, ht]
        have hk : fifoDepth - s.link.fifo.length = (fifoDepth - (s.link.fifo ++ [x]).length) + 1 := by simp; omega
        rw [hk]
        simp only [if_true, true_and, List.take_succ_cons, List.append_assoc, List.singleton_append, List.length_cons,
          Nat.add_lt_add_iff_right, Nat.add_sub_add_right]
      · have hf : (s.placeHandoff x).link.fifo = s.link.fifo := by rw [hp]; simp [State.fifoWith, hl]
        have ht : (s.placeHandoff x).tally.t6.handoffDropped = min (s.tally.t6.handoffDropped + 1) max32 := by
          rw [hp]; simp [State.t6With, hrun, Nat.not_lt.1 hl]
        rw [hf, ht]
        have hz : fifoDepth - s.link.fifo.length = 0 := by omega
        rw [hz]
        simp only [List.take_zero, Nat.sub_zero, true_and, List.length_cons, if_true, List.append_nil]
        rw [if_pos (show 0 < xs.length + 1 by omega)]
        split <;> omega

/-! ### One bay -/

/-- The WITHDRAW that a bay's release calls for (R73). -/
def Bay.withdrawal (x : Bay) (b : BayNo) : Option HandoffOut :=
  match x.slot with
  | .pack (.releasing n) r => if r.settleEarly then none else some (plainHandoff .withdraw n r.tag b)
  | _ => none

/-- The bay after its release is recalled (R73). -/
def Bay.recalled (x : Bay) : Bay :=
  match x.slot with
  | .pack (.releasing _) r => if r.settleEarly then x else x.backToSafe r
  | _ => x

theorem State.recalls_eq (s : State) :
    s.recalls = ([0, 1, 2, 3] : List BayNo).filterMap (fun b => (s.bay b).withdrawal b) := rfl

theorem Bay.withdrawal_lineStop (x : Bay) (b : BayNo) : x.lineStop.withdrawal b = x.withdrawal b := by
  obtain ⟨sl, _, _, _, _, _, _, _, _, _, _, _, _, _, _, _, _, _, _, _⟩ := x
  cases sl with
  | pack st r =>
    cases st with
    | held c => cases c <;> rfl
    | _ => rfl
  | _ => rfl

theorem Bay.withdrawal_mark (x : Bay) (b : BayNo) (mark : Record → Record)
    (hm : ∀ r, (mark r).settleEarly = r.settleEarly ∧ (mark r).tag = r.tag) :
    ({ x with slot := x.slot.onRecord mark } : Bay).withdrawal b = x.withdrawal b := by
  obtain ⟨sl, _, _, _, _, _, _, _, _, _, _, _, _, _, _, _, _, _, _, _⟩ := x
  cases sl with
  | pack st r =>
    cases st with
    | releasing n => simp only [Bay.withdrawal, Slot.onRecord, (hm r).1, (hm r).2]
    | _ => rfl
  | _ => rfl

theorem Bay.recalled_free (x : Bay) (mark : Record → Record) (h : x.slot.record = none) :
    ({ x with slot := x.slot.onRecord mark } : Bay).lineStop.recalled = x := by
  obtain ⟨sl, _, _, _, _, _, _, _, _, _, _, _, _, _, _, _, _, _, _, _⟩ := x
  cases sl with
  | pack st r => cases h
  | _ => rfl

/-! ### The four bays -/

theorem State.recallRelease_bay (s : State) (b k : BayNo) :
    (s.recallRelease b).bay k = if k = b then (s.bay k).recalled else s.bay k := by
  unfold State.recallRelease Bay.recalled
  cases h : (s.bay b).slot
  case pack st r => cases st with
    | releasing n =>
      simp only
      cases he : r.settleEarly <;> by_cases hk : k = b
      · subst hk; simp [h, he]
      · simp [hk]
      · subst hk; simp [h, he]
      · simp [hk]
    | _ => by_cases hk : k = b <;> simp only [hk, h, if_true, if_false]
  all_goals by_cases hk : k = b <;> simp only [hk, h, if_true, if_false]

/-- A recall of one bay, from a state with the lifecycle, link and tallies of `s` after the frames `l`. -/
theorem State.recallRelease_link (s u : State) (l : List HandoffOut) (b : BayNo) (h1 : u.startup = s.startup)
    (h2 : u.link = (s.placeAll l).link) (h3 : u.tally = (s.placeAll l).tally) :
    (u.recallRelease b).startup = s.startup ∧
    (u.recallRelease b).link = (s.placeAll (l ++ ((u.bay b).withdrawal b).toList)).link ∧
    (u.recallRelease b).tally = (s.placeAll (l ++ ((u.bay b).withdrawal b).toList)).tally := by
  rw [State.placeAll_append]
  have hc := fun v : State => State.placeAll_congr (s.placeAll l) v ((u.bay b).withdrawal b).toList
  have hs := State.placeAll_startup s l
  have hn : (u.bay b).withdrawal b = none → u.recallRelease b = u → (u.recallRelease b).startup = s.startup ∧
      (u.recallRelease b).link = ((s.placeAll l).placeAll ((u.bay b).withdrawal b).toList).link ∧
      (u.recallRelease b).tally = ((s.placeAll l).placeAll ((u.bay b).withdrawal b).toList).tally := by
    intro hw hr; rw [hw, hr]; exact ⟨h1, h2, h3⟩
  cases h : (u.bay b).slot
  case pack st r => cases st with
    | releasing n =>
      cases he : r.settleEarly
      · have hw : (u.bay b).withdrawal b = some (plainHandoff .withdraw n r.tag b) := by simp [Bay.withdrawal, h, he]
        have hr : u.recallRelease b =
            (u.setBay b ((u.bay b).backToSafe r)).placeHandoff (plainHandoff .withdraw n r.tag b) := by
          simp [State.recallRelease, h, he]
        rw [hw] at hc
        obtain ⟨a, c, d⟩ := hc (u.setBay b ((u.bay b).backToSafe r)) (h1.trans hs.symm) h2 h3
        rw [hw, hr]
        exact ⟨a.trans ((State.placeAll_startup _ _).trans hs), c, d⟩
      · exact hn (by simp [Bay.withdrawal, h, he]) (by simp [State.recallRelease, h, he])
    | _ => exact hn (by simp [Bay.withdrawal, h]) (by simp [State.recallRelease, h])
  all_goals exact hn (by simp [Bay.withdrawal, h]) (by simp [State.recallRelease, h])

theorem filterMap_bays (f : BayNo → Option HandoffOut) : ([0, 1, 2, 3] : List BayNo).filterMap f =
    (f 0).toList ++ (f 1).toList ++ (f 2).toList ++ (f 3).toList := by
  cases h0 : f 0 <;> cases h1 : f 1 <;> cases h2 : f 2 <;> cases h3 : f 3 <;>
    simp [h0, h1, h2, h3]

/-- The recalls of all bays, in their order (log entry 8). -/
theorem State.recallRelease_all (q : State) : let v := (((q.recallRelease 0).recallRelease 1).recallRelease 2).recallRelease 3
    (∀ k, v.bay k = (q.bay k).recalled) ∧ v.link = (q.placeAll q.recalls).link ∧ v.tally = (q.placeAll q.recalls).tally := by
  intro v
  have b1 : (q.recallRelease 0).bay 1 = q.bay 1 := by rw [State.recallRelease_bay]; rfl
  have b2 : ((q.recallRelease 0).recallRelease 1).bay 2 = q.bay 2 := by
    rw [State.recallRelease_bay, if_neg (by decide), State.recallRelease_bay]; rfl
  have b3 : (((q.recallRelease 0).recallRelease 1).recallRelease 2).bay 3 = q.bay 3 := by
    rw [State.recallRelease_bay, if_neg (by decide), State.recallRelease_bay, if_neg (by decide),
      State.recallRelease_bay]; rfl
  obtain ⟨x1, x2, x3⟩ := State.recallRelease_link q q [] 0 rfl rfl rfl
  obtain ⟨y1, y2, y3⟩ := State.recallRelease_link q _ _ 1 x1 x2 x3
  rw [b1] at y2 y3
  obtain ⟨z1, z2, z3⟩ := State.recallRelease_link q _ _ 2 y1 y2 y3
  rw [b2] at z2 z3
  obtain ⟨w1, w2, w3⟩ := State.recallRelease_link q _ _ 3 z1 z2 z3
  rw [b3] at w2 w3
  refine ⟨?_, by rw [State.recalls_eq, filterMap_bays]; exact w2, by rw [State.recalls_eq, filterMap_bays]; exact w3⟩
  intro k
  change ((((q.recallRelease 0).recallRelease 1).recallRelease 2).recallRelease 3).bay k = _
  simp only [State.recallRelease_bay]
  match k with
  | 0 => rfl
  | 1 => rfl
  | 2 => rfl
  | 3 => rfl

/-- All that line_fire becoming true does to the bays, the feed, the handoff FIFO and the tallies. -/
theorem State.lineFireRises_spec (q : State) : (∀ k, q.lineFireRises.bay k = (q.bay k).lineStop.recalled) ∧
    q.lineFireRises.link = (q.placeAll q.recalls).link ∧ q.lineFireRises.tally = (q.placeAll q.recalls).tally ∧
    q.lineFireRises.feed = q.feed.losePermissive := by
  have hfeed : ∀ (u : State) (b : BayNo), (u.recallRelease b).feed = u.feed := by
    intro u b; unfold State.recallRelease; repeat' split
    all_goals simp
  have h4 : q.lineFireRises.feed = q.feed.losePermissive := by
    unfold State.lineFireRises; simp [State.light, State.losePermissive, hfeed]
  obtain ⟨h1, h2, h3⟩ := State.recallRelease_all (q.mapBays Bay.lineStop)
  have hrec : (q.mapBays Bay.lineStop).recalls = q.recalls := by
    have h : (fun b => ((q.mapBays Bay.lineStop).bay b).withdrawal b) = fun b => (q.bay b).withdrawal b := by
      funext b; simp [Bay.withdrawal_lineStop]
    rw [State.recalls_eq, State.recalls_eq, h]
  obtain ⟨-, c2, c3⟩ := State.placeAll_congr q (q.mapBays Bay.lineStop) q.recalls rfl rfl rfl
  rw [hrec, c2] at h2
  rw [hrec, c3] at h3
  refine ⟨?_, ?_, ?_, h4⟩
  · intro k
    have := h1 k
    rw [State.mapBays_bay] at this
    rw [← this]
    unfold State.lineFireRises
    rw [State.light_bay, State.losePermissive_bay]
  · rw [← h2]; unfold State.lineFireRises; rw [State.light_link, State.losePermissive_link]
  · rw [← h3]; unfold State.lineFireRises; rw [State.light_tally, State.losePermissive_tally]

/-- `z` is `s` with its records marked, and `t` has from `z` what line_fire becoming true makes of it: what happened between
`s` and `t` is as R38, R73 and R163 say. -/
theorem State.LineFireStops.intro (s z t : State) (mark : Record → Record)
    (hm : ∀ r, (mark r).settleEarly = r.settleEarly ∧ (mark r).tag = r.tag)
    (hb : ∀ k, z.bay k = { s.bay k with slot := (s.bay k).slot.onRecord mark }) (hst : z.startup = s.startup)
    (hf : z.link.fifo = s.link.fifo) (hd : z.tally.t6.handoffDropped = s.tally.t6.handoffDropped)
    (tb : ∀ k, t.bay k = (z.bay k).lineStop.recalled) (tl : t.link = (z.placeAll z.recalls).link)
    (tt : t.tally.t6 = (z.placeAll z.recalls).tally.t6) : s.LineFireStops t mark := by
  have hrec : z.recalls = s.recalls := by
    have h : (fun b => (z.bay b).withdrawal b) = fun b => (s.bay b).withdrawal b := by
      funext b; rw [hb]; exact Bay.withdrawal_mark _ _ _ hm
    rw [State.recalls_eq, State.recalls_eq, h]
  have hrun : z.running = s.running := by simp [State.running, hst]
  obtain ⟨p1, p2⟩ := State.placeAll_spec z z.recalls
  rw [hrec, hrun, hf] at p1
  rw [hrec, hrun, hf, hd] at p2
  refine ⟨?_, ?_, ?_, ?_, ?_, by rw [tl, hrec]; exact p1, by rw [tt, hrec]; exact p2⟩
  · intro b st r h hs
    rw [tb, hb, h]; rcases hs with rfl | rfl | rfl <;> simp [Slot.onRecord, Bay.lineStop, Bay.recalled, Bay.enter, Bay.quiet]
  · intro b n r h he
    rw [tb, hb, h]
    simp [Slot.onRecord, Bay.lineStop, Bay.recalled, (hm r).1, he, Bay.backToSafe, Bay.enter, Bay.quiet, backoffMs]
  · intro b n r h he
    rw [tb, hb, h]; simp [Slot.onRecord, Bay.lineStop, Bay.recalled, (hm r).1, he]
  · intro b st r h h1 h2 h3 h4
    rw [tb, hb, h]
    cases st with
    | discharging => exact absurd rfl h1
    | admitted => exact absurd rfl h2
    | held c => cases c <;> first | exact absurd rfl h3 | simp [Slot.onRecord, Bay.lineStop, Bay.recalled]
    | releasing n => exact absurd rfl (h4 n)
    | _ => simp [Slot.onRecord, Bay.lineStop, Bay.recalled]
  · intro b h
    rw [tb, hb]; exact Bay.recalled_free _ _ h

end Sys2Proof.Machine
end

