-- ==== Sys2Proof/Laws/PerInstr.lean ====
section
/-! SUPPORT. One statement made of every row: a well-formed command that stands for a received frame stands for one that
CAN FD can carry. -/

namespace Sys2Proof.Laws.Fits

open Sys2Proof

/-- The frame of a well-formed row has at most 64 data bytes (R159, R177). -/
def Statement (i : Instr) : Prop := ∀ w : WireFrame, encodeFrame i = some w → i.wellFormed = true → w.fits = true

theorem of_none {i : Instr} (h : encodeFrame i = none) : Statement i := by
  intro w hw
  rw [h] at hw
  cases hw

theorem of_length {i : Instr} {w : WireFrame} (h : encodeFrame i = some w) (hl : w.data.length ≤ 64) : Statement i := by
  intro v hv _
  rw [h] at hv
  cases hv
  simpa [WireFrame.fits] using hl

theorem request_length (code : Byte) (f : RequestFrame) : (requestWire code f).data.length ≤ 64 := by
  simp [requestWire, plainFrame, RequestFrame.bytes, leBytes]

theorem handoff_length (message : Byte) (f : HandoffFrame) : (handoffWire message f).data.length ≤ 64 := by
  simp [handoffWire, plainFrame, HandoffFrame.bytes, leBytes]

theorem powerOnReset : Statement .powerOnReset := of_none rfl
theorem resetPinAsserted : Statement .resetPinAsserted := of_none rfl
theorem endOfReset (e : ResetSample) : Statement (.endOfReset e) := of_none rfl
theorem listenTimerExpiry : Statement .listenTimerExpiry := of_none rfl
theorem bayConversion (b : BayNo) (x : BayReading) : Statement (.bayConversion b x) := of_none rfl
theorem restTimerExpiry (b : BayNo) : Statement (.restTimerExpiry b) := of_none rfl
theorem headroomComputation : Statement .headroomComputation := of_none rfl
theorem offerCheck : Statement .offerCheck := of_none rfl
theorem answerTimerExpiry (b : BayNo) : Statement (.answerTimerExpiry b) := of_none rfl
theorem offerBackoffExpiry (b : BayNo) : Statement (.offerBackoffExpiry b) := of_none rfl
theorem releaseTimerExpiry (b : BayNo) : Statement (.releaseTimerExpiry b) := of_none rfl
theorem transitTimerExpiry (b : BayNo) : Statement (.transitTimerExpiry b) := of_none rfl
theorem offerReceived (f : HandoffFrame) : Statement (.offerReceived f) := of_length rfl (handoff_length _ _)
theorem takeReceived (f : HandoffFrame) : Statement (.takeReceived f) := of_length rfl (handoff_length _ _)
theorem declineReceived (f : HandoffFrame) : Statement (.declineReceived f) := of_length rfl (handoff_length _ _)
theorem withdrawReceived (f : HandoffFrame) : Statement (.withdrawReceived f) := of_length rfl (handoff_length _ _)
theorem settleReceived (f : HandoffFrame) : Statement (.settleReceived f) := of_length rfl (handoff_length _ _)
theorem chuteArrival : Statement .chuteArrival := of_none rfl
theorem arrivalTimerExpiry : Statement .arrivalTimerExpiry := of_none rfl
theorem feedPeriodExpiry : Statement .feedPeriodExpiry := of_none rfl
theorem rotorFeedbackOn : Statement .rotorFeedbackOn := of_none rfl
theorem rotorFeedbackOff : Statement .rotorFeedbackOff := of_none rfl
theorem startTimerExpiry : Statement .startTimerExpiry := of_none rfl
theorem stopTimerExpiry : Statement .stopTimerExpiry := of_none rfl
theorem idleTimerExpiry : Statement .idleTimerExpiry := of_none rfl
theorem feedConfirmSet : Statement .feedConfirmSet := of_none rfl
theorem feedTimerExpiry : Statement .feedTimerExpiry := of_none rfl
theorem atmosSample (x : AtmosReading) : Statement (.atmosSample x) := of_none rfl
theorem purgeSlowDeadline : Statement .purgeSlowDeadline := of_none rfl
theorem purgeLockoutDeadline : Statement .purgeLockoutDeadline := of_none rfl
theorem fireSample (x : FireReading) : Statement (.fireSample x) := of_none rfl
theorem statusReceived (src dst : Address) (f : StatusFrame) : Statement (.statusReceived src dst f) := of_length rfl (by simp [plainFrame, StatusFrame.bytes, leBytes])
theorem tallyReceived (src dst : Address) (f : TallyFrame) : Statement (.tallyReceived src dst f) := of_length rfl (by simp [plainFrame, TallyFrame.bytes, leBytes])
theorem alarmReceived (src dst : Address) (f : AlarmFrame) : Statement (.alarmReceived src dst f) := of_length rfl (by simp [plainFrame, AlarmFrame.bytes, leBytes])
theorem foreignFrameReceived (w : WireFrame) : Statement (.foreignFrameReceived w) := by
  intro v hv h
  cases hv
  simp only [Instr.wellFormed, Bool.and_eq_true] at h
  simp [h]
theorem receiveError : Statement .receiveError := of_none rfl
theorem peerAgeStale (n : NodeNo) : Statement (.peerAgeStale n) := of_none rfl
theorem peerAgeLost (n : NodeNo) : Statement (.peerAgeLost n) := of_none rfl
theorem repeatWindowExpiry (a : Fin 15) : Statement (.repeatWindowExpiry a) := of_none rfl
theorem silenceTimerExpiry : Statement .silenceTimerExpiry := of_none rfl
theorem statusPeriodExpiry : Statement .statusPeriodExpiry := of_none rfl
theorem tallyPeriodExpiry : Statement .tallyPeriodExpiry := of_none rfl
theorem transmitSelection : Statement .transmitSelection := of_none rfl
theorem transmitSuccess : Statement .transmitSuccess := of_none rfl
theorem arbitrationLost : Statement .arbitrationLost := of_none rfl
theorem transmitError (ackOnly : Bool) : Statement (.transmitError ackOnly) := of_none rfl
theorem busIdleSighting : Statement .busIdleSighting := of_none rfl
theorem admitPack (f : RequestFrame) : Statement (.admitPack f) := of_length rfl (request_length _ _)
theorem abort (f : RequestFrame) : Statement (.abort f) := of_length rfl (request_length _ _)
theorem resume (f : RequestFrame) : Statement (.resume f) := of_length rfl (request_length _ _)
theorem quarantineIn (f : RequestFrame) : Statement (.quarantineIn f) := of_length rfl (request_length _ _)
theorem quarantineOut (f : RequestFrame) : Statement (.quarantineOut f) := of_length rfl (request_length _ _)
theorem accountClear (f : RequestFrame) : Statement (.accountClear f) := of_length rfl (request_length _ _)
theorem alarmReset (f : RequestFrame) : Statement (.alarmReset f) := of_length rfl (request_length _ _)
theorem purgeReset (f : RequestFrame) : Statement (.purgeReset f) := of_length rfl (request_length _ _)
theorem flush (f : RequestFrame) : Statement (.flush f) := of_length rfl (request_length _ _)
theorem shredReset (f : RequestFrame) : Statement (.shredReset f) := of_length rfl (request_length _ _)
theorem peerForget (f : RequestFrame) : Statement (.peerForget f) := of_length rfl (request_length _ _)
theorem readRecord (f : RequestFrame) : Statement (.readRecord f) := of_length rfl (request_length _ _)
theorem readTally (f : RequestFrame) : Statement (.readTally f) := of_length rfl (request_length _ _)
theorem readQuarantine (f : RequestFrame) : Statement (.readQuarantine f) := of_length rfl (request_length _ _)
theorem identify (f : RequestFrame) : Statement (.identify f) := of_length rfl (request_length _ _)
theorem nodeReset (f : RequestFrame) : Statement (.nodeReset f) := of_length rfl (request_length _ _)
theorem unknownRequest (code : Byte) (f : RequestFrame) : Statement (.unknownRequest code f) := of_length rfl (request_length _ _)
theorem chuteArrivalSensorClear : Statement .chuteArrivalSensorClear := of_none rfl
theorem feedConfirmClear : Statement .feedConfirmClear := of_none rfl
theorem framePassedBy (w : WireFrame) : Statement (.framePassedBy w) := by
  intro v hv h
  cases hv
  simp only [Instr.wellFormed, Bool.and_eq_true] at h
  simp [h]

end Sys2Proof.Laws.Fits
end

