-- ==== Sys2Proof/Tests/Slice0.lean ====
section
/-! SUPPORT. The model's own tests: the row checks, frames written out from the spec's tables, the spec's worked examples
on one step each, and for every statement a state and operands that meet its hypotheses, clause by clause. -/

namespace Sys2Proof.Tests

open Sys2Proof Sys2Proof.Machine Sys2Proof.Config

/-! ## Small states -/

/-- The state after a command; every command has one. -/
def after (c : Instr) (s : State) : State :=
  match exec c s with
  | .next t => t
  | .fault _ => s
  | .refused _ => s

/-- A RUNNING node of a number, role, profile and power class, 1,000 ms after its reset. -/
def nodeOn (node : BitVec 4) (role profile power : BitVec 2) : State :=
  { State.reset with startup := { Startup.reset with
    life := .running, straps := { node := node, role := role, profile := profile, power := power }
    nodeTime := 1000 } }

/-- Node 3 of the worked samples of chapters 2 and 3: BAY, P0, class 12,000 W. -/
def bayNode : State := nodeOn 3 0 0 1

/-- Node 10 of the worked sequences of chapters 6 and 9: SHRED. -/
def shredNode : State := nodeOn 10 1 0 1

/-- The pack of the worked sample (section 2.10): s = 14, no declared capacity, the default time limit. -/
def pack : Record :=
  { tag := 9300, bay := 2, s := 14, capacity := none, timeLimit := 480, admittedAt := 100, readmitted := false
    fireExposed := false, round := 1, q := 3600000, e := 40000, eRem := 37500, setpoint := 850, lastV := 4830
    lastI := 850, lastT := 50, peakT := 51, dischargeMs := 3600000, restStartV := none, reboundV := none
    endCause := none, settleEarly := false, offers := 0 }

/-- A bay whose conversions run. -/
def bayWith (slot : Slot) : Bay :=
  { Bay.reset with slot := slot, convTimer := some 0, latest := { presence := true, v := some 4000, i := some 0, t := some 25 } }

/-- The bay of the worked sample at its last setpoint of 850, with a share of 875 W. -/
def discharging : Bay :=
  { bayWith (.pack .discharging pack) with contactor := true, sink := 850, prevSetpoint := 850, share := some 875 }

/-- Conversion readings. -/
def reads (v i : Nat) (t : Int) : BayReading := { presence := true, v := v, i := i, t := some t }

/-- A REQUEST from terminal 12 to a node, in bay form for bay 2 or in node form with 15. -/
def askOf (node : Address) (bay : Byte) : RequestFrame :=
  { src := 12, dst := node, bay := bay, tag := 9300, s := 14, capacity := 0, timeCode := 0, index := 0, node := 4
    headAction := 0, record := 1, number := 77 }

/-- A HANDOFF from node `src` to node `dst` for bay 2 and tag 9300. -/
def tellOf (src dst : Address) : HandoffFrame :=
  { src := src, dst := dst, bay := 2, s := 14, reason := 0, tag := 9300, energy := 63000, restV := 1890, spare := 0 }

/-- A STATUS of a role with a zone state and flags. -/
def statusOf (role zone flags : Byte) : StatusFrame :=
  { seq := 41, role := role, lifecycle := 2, zone := zone, flags := flags, profile := 0, power := 1, pending := 0
    time := 5000, causes := 0, spare := 0, block := 0 }

/-- A PRESENT peer with that STATUS. -/
def peerWith (f : StatusFrame) : Peer := { state := .present, fields := some f, gaps := 0, age := some 20 }

/-- An entry of the intake queue. -/
def queued (tag : Tag) (restV wait : Nat) : QueueEntry :=
  { pack := { tag := tag, source := 3, bay := 2, s := 14, energy := 63000, restV := restV }, wait := wait, feeding := false }

/-- The reserved pack. -/
def reserved : Offered := { tag := 9300, source := 3, bay := 2, s := 14, energy := 63000, restV := 1890 }

/-- A SHRED node ready to feed: INERT, the rotor RUNNING, two entries queued. -/
def feedNode : State :=
  { shredNode with
    atmos := { Atmos.reset with state := .inert, oxygen := some 250, sampleTimer := some 0 }
    feed := { Feed.reset with rotor := .running, run := true, feedback := true, periodTimer := some 0
                              queue := [queued 9300 1890 0, queued 9301 1890 0] } }

/-- A HANDOFF that is heard, by a test that computes. -/
def hearsTest (s : State) (message : Byte) (f : HandoffFrame) (n : NodeNo) : Bool :=
  s.receiving && decide (s.startup.straps.node.toNat ≤ 11) && decide (f.src = nodeAddress n) &&
    decide (f.src ≠ s.startup.straps.node) && decide (f.dst = s.startup.straps.node) &&
    !s.repeated (nodePlace n) (f.bytes message)

theorem hearsNode_of {s : State} {m : Byte} {f : HandoffFrame} {n : NodeNo} (h : hearsTest s m f n = true) :
    s.HearsNode m f n := by
  simp only [hearsTest, Bool.and_eq_true, decide_eq_true_eq, Bool.not_eq_true'] at h
  exact ⟨h.1.1.1.1.1, h.1.1.1.1.2, h.1.1.1.2, h.1.1.2, h.1.2, h.2⟩

theorem hearsHandoff_of {s : State} {m : Byte} {f : HandoffFrame} {n : NodeNo} {b : BayNo}
    (h : hearsTest s m f n = true) (ht : f.tag ≠ 0) (hb : f.bay.toNat = b.val) : s.HearsHandoff m f n b :=
  ⟨hearsNode_of h, ht, hb⟩

/-- A REQUEST that reaches the request unit, by a test that computes. -/
def asksTest (s : State) (code : Byte) (f : RequestFrame) (p : TerminalNo) : Bool :=
  s.receiving && decide (s.startup.straps.node.toNat ≤ 11) && decide (f.src = terminalAddress p) &&
    decide (f.dst = s.startup.straps.node) && !s.repeated (terminalPlace p) (f.bytes code)

theorem hearsTerminal_of {s : State} {code : Byte} {f : RequestFrame} {p : TerminalNo}
    (h : asksTest s code f p = true) : s.HearsTerminal code f p := by
  simp only [asksTest, Bool.and_eq_true, decide_eq_true_eq, Bool.not_eq_true'] at h
  exact ⟨h.1.1.1.1, h.1.1.1.2, h.1.1.2, h.1.2, h.2⟩

theorem hearsRequest_of {s : State} {code : Byte} {f : RequestFrame} {p : TerminalNo}
    (h : asksTest s code f p = true) (hr : s.startup.life = .running) : s.HearsRequest code f p :=
  ⟨hearsTerminal_of h, hr⟩

theorem evaluates_of {s : State} {code : Byte} {f : RequestFrame} {p : TerminalNo}
    (h : asksTest s code f p = true)
    (h2 : s.startup.life = .running ∧ s.link.replies[p] = none ∧ s.requests.resetPending = false) :
    s.Evaluates code f p :=
  ⟨hearsRequest_of h h2.1, h2.2.1, h2.2.2⟩

/-! ## Row checks and frames -/

/-- UNKNOWN_REQUEST with the code of ADMIT is no row of its own. -/
theorem test_wellFormed_refuses_known_code : (Instr.unknownRequest 1 (askOf 3 2)).wellFormed = false := by decide

/-- A STATUS of the right length from a node to all nodes is no foreign frame. -/
theorem test_wellFormed_refuses_allowed_frame :
    (Instr.foreignFrameReceived (plainFrame kindStatus 4 15 (statusOf 0 0 0).bytes)).wellFormed = false := by decide

/-- A frame for all nodes passes no node by. -/
theorem test_wellFormed_refuses_frame_for_all :
    (Instr.framePassedBy (plainFrame kindStatus 4 15 (statusOf 0 0 0).bytes)).wellFormed = false := by decide

/-- A frame of 65 bytes is none of CAN FD's. -/
theorem test_wellFormed_refuses_long_frame :
    (Instr.foreignFrameReceived (plainFrame kindTally 4 15 (List.replicate 65 0))).wellFormed = false := by decide

/-- Section 9.9: a TAKE of node 10 to node 3 has the identifier 419, its REPLY to terminal 13 has 941, its STATUS 1,199,
its TALLY 1,455, its ALARM 175. -/
theorem test_identifiers :
    identifier kindHandoff 10 3 = 419 ∧ identifier kindHandoff 10 4 = 420 ∧ identifier kindReply 10 13 = 941 ∧
      identifier kindStatus 10 15 = 1199 ∧ identifier kindTally 10 15 = 1455 ∧ identifier kindAlarm 10 15 = 175 := by
  decide

/-- An ADMIT written out byte by byte (9.8): code 1, bay 2, tag 9,300 = 0x2454, s 14, capacity 50, time code 190, index,
node, head action and record 0, number 513 = 0x0201. -/
theorem test_decode_admit :
    decodeFrame (plainFrame kindRequest 12 3 [1, 2, 0x54, 0x24, 0, 0, 14, 50, 0, 190, 0, 0, 0, 0, 0x01, 0x02]) =
      .admitPack { src := 12, dst := 3, bay := 2, tag := 9300, s := 14, capacity := 50, timeCode := 190, index := 0
                   node := 0, headAction := 0, record := 0, number := 513 } := by decide

/-- A request code 17 stands in no row of the table. -/
theorem test_decode_unknown_request :
    decodeFrame (plainFrame kindRequest 12 3 [17, 15, 0, 0, 0, 0, 0, 0, 0, 0, 0, 0, 0, 0, 5, 0]) =
      .unknownRequest 17 { src := 12, dst := 3, bay := 15, tag := 0, s := 0, capacity := 0, timeCode := 0, index := 0
                           node := 0, headAction := 0, record := 0, number := 5 } := by decide

/-- An OFFER written out (9.8): message 0, bay 2, s 14, reason 0, tag 9,300, energy 63,000 = 0xF618, rest V 1,890 = 0x0762. -/
theorem test_decode_offer :
    decodeFrame (plainFrame kindHandoff 3 10 [0, 2, 14, 0, 0x54, 0x24, 0, 0, 0x18, 0xF6, 0, 0, 0x62, 0x07, 0, 0]) =
      .offerReceived (tellOf 3 10) := by decide

/-- A STATUS written out: sequence 41, role 1, lifecycle 2, zone 0, flags 16, profile 0, power 1, pending 0, time 5,000 =
0x1388, causes 0, spare, and the SHRED block's atmosphere 2, oxygen 296 = 0x0128, 2 entries. -/
theorem test_decode_status :
    decodeFrame (plainFrame kindStatus 10 15 [41, 1, 2, 0, 16, 0, 1, 0, 0x88, 0x13, 0, 0, 0, 0, 0, 0, 2, 0x28, 1, 2, 0, 0,
      0, 0, 0, 0, 0, 0, 0, 0, 0, 0]) =
      .statusReceived 10 15 { statusOf 1 0 16 with block := 0x02012802 } := by decide

/-- A HANDOFF with message 5 names no step of the exchange. -/
theorem test_decode_foreign_handoff :
    (match decodeFrame (plainFrame kindHandoff 3 10 [5, 2, 14, 0, 1, 0, 0, 0, 0, 0, 0, 0, 0, 0, 0, 0]) with
      | .foreignFrameReceived _ => true
      | _ => false) = true := by decide

/-! ## Start-up -/

/-- A line reset of a BAY node finds presence in bay 1 (R16, R194, R196). -/
def sampled : ResetSample :=
  { straps := { node := 3, role := 0, profile := 0, power := 1 }, presence := #v[false, true, false, false]
    chute := false, confirm := false, feedback := false }

theorem test_endOfReset_powerOn : ((after (.endOfReset sampled) State.reset).bay 1).slot = .empty := by decide

theorem test_endOfReset_line :
    ((after (.endOfReset sampled) (after .resetPinAsserted bayNode)).bay 1).slot = .orphan := by decide

theorem test_powerOnReset : (after .powerOnReset bayNode).startup.life = .inReset := by decide

theorem test_resetPin_orphans_records :
    (after .resetPinAsserted (bayNode.setBay 2 discharging)).tally.t1.orphaned = 1 := by decide

/-- The entry to RUNNING starts the purge at a SHRED node (R114). -/
theorem test_listenExpiry_purges :
    (after .listenTimerExpiry { shredNode with startup := { shredNode.startup with
      life := .listen, listenTimer := some 0 } }).atmos.state = .purging := by decide

/-! ## Discharge regulation (sections 2.10 and 2.11) -/

/-- Section 2.10: the worked sample commands 907 with line_pre true. -/
theorem test_conversion_worked_sample :
    ((after (.bayConversion 2 (reads 4820 905 51))
      { bayNode.setBay 2 discharging with view := { LineView.reset with linePre := true } }).bay 2).sink = 907 := by decide

/-- Section 2.10: E grows by 43 J and the remainder is 99,600. -/
theorem test_conversion_energy :
    ((after (.bayConversion 2 (reads 4820 905 51)) (bayNode.setBay 2 discharging)).bay 2).slot.record.map
      (fun r => (r.q, r.e, r.eRem, r.dischargeMs, r.setpoint)) =
      some (3600905, 40043, 99600, 3600100, 1050) := by decide

/-- Section 2.10: a rest that ends at V = 1,890 makes the bay SAFE. -/
theorem test_restTimer_safe :
    ((after (.restTimerExpiry 2) (bayNode.setBay 2 { bayWith (.pack .resting pack) with
      restTimer := some 0, latest := { presence := true, v := some 1890, i := some 0, t := some 30 } })).bay 2).slot.code =
      6 := by decide

/-- Section 2.10: V = 1,990 in round 3 of 3 rejects the pack. -/
theorem test_restTimer_rejects :
    ((after (.restTimerExpiry 2) (bayNode.setBay 2 { bayWith (.pack .resting { pack with round := 3 }) with
      restTimer := some 0, latest := { presence := true, v := some 1990, i := some 0, t := some 30 } })).bay 2).slot.code =
      10 := by decide

/-- The regulator's numbers of sections 2.10 and 2.11 (R34, R35). -/
theorem test_limits :
    derated profileP0 51 = 2400 ∧ derated profileP1 64 = 333 ∧ powerLimit (some 875) 4820 = 1815 ∧
      powerLimit (some 1000) 3900 = 2564 ∧ targetCurrent profileP1 16 3900 50 (some 1000) = 1200 ∧
      setpointNext 1200 0 false = 200 := by decide

/-- Section 2.11: 4,700 mAh, 63,000 J and 4,230 s join T2. -/
theorem test_totals :
    (Tally.reset.t2.add { pack with q := 16920000, e := 63000, dischargeMs := 4230000 }) =
      { completed := 1, charge := 4700, energy := 63000, time := 4230, maxTime := 4230, maxEnergy := 63000 } := by
  simp [Tally2.add, bump, satAdd, max32, max64, Tally.reset]

/-! ## Headroom (section 3.9) -/

/-- The peer table of section 3.9. -/
def lineOfFour : Vector Peer 12 :=
  #v[Peer.reset, peerWith { statusOf 0 0 0 with block := 5200 }, Peer.reset, Peer.reset,
    peerWith { statusOf 0 0 0 with block := 3900 }, Peer.reset,
    { peerWith { statusOf 0 0 0 with block := 1000 } with state := .stale }, Peer.reset,
    { peerWith { statusOf 0 0 0 with block := 2000 } with state := .lost }, Peer.reset,
    peerWith (statusOf 1 0 0), peerWith { statusOf 2 0 0 with power := 2 }]

/-- Node 3 of section 3.9 before computation c1. -/
def headroomNode : State :=
  { (bayNode.setBay 0 discharging).setBay 2 discharging with
    peers := lineOfFour, headroom := { Headroom.reset with basis := 1500, timer := some 0 } }

/-- Computation c1: L = 12,000, S = 10,100, A = 1,750, shares 875. -/
theorem test_headroom_c1 :
    (after .headroomComputation headroomNode).headroom.limit = 12000 ∧
      (after .headroomComputation headroomNode).headroom.others = 10100 ∧
      (after .headroomComputation headroomNode).headroom.allowance = 1750 ∧
      ((after .headroomComputation headroomNode).bay 2).share = some 875 ∧
      ((after .headroomComputation headroomNode).bay 1).share = none := by decide

/-- Step 1 of section 3.9: products 9,180,000 and 4,362,100 make P_own 1,354 W. -/
theorem test_ownPower :
    ((bayNode.setBay 0 { Bay.reset with product := 9180000 }).setBay 2 { Bay.reset with product := 4362100 }).ownPower =
      1354 := by decide

/-! ## Handoff -/

/-- A node with bay 2 SAFE, and peer 10 an accepting SHRED node. -/
def offerNode : State :=
  { bayNode.setBay 2 (bayWith (.pack .safe pack)) with
    handoff := { Handoff.reset with offerTimer := some 0 }
    peers := Vector.set (Vector.replicate 12 Peer.reset) 10 (peerWith (statusOf 1 0 16)) }

theorem test_offerCheck : ((after .offerCheck offerNode).bay 2).slot.target = some 10 := by decide
theorem test_offerCheck_places : (after .offerCheck offerNode).link.fifo.map HandoffOut.message = [.offer] := by decide

/-- A bay in a state of the exchange with node 10, at a RUNNING BAY node. -/
def exchange (st : PackState) : Bay := bayWith (.pack st pack)

def offeredNode : State := bayNode.setBay 2 { exchange (.offered 10) with answerTimer := some 0 }
def releasingNode : State := bayNode.setBay 2 { exchange (.releasing 10) with releaseTimer := some 0, gate := true }
def transitNode : State := bayNode.setBay 2 { exchange (.inTransit 10) with transitTimer := some 0 }

theorem test_take_opens_the_gate : ((after (.takeReceived (tellOf 10 3)) offeredNode).bay 2).gate = true := by decide
theorem test_decline_backs_off : ((after (.declineReceived (tellOf 10 3)) offeredNode).bay 2).backoff = some 2000 := by
  decide
theorem test_answerTimer : ((after (.answerTimerExpiry 2) offeredNode).bay 2).slot.code = 6 := by decide
theorem test_backoff : ((after (.offerBackoffExpiry 2) (bayNode.setBay 2
    { exchange .safe with backoff := some 0 })).bay 2).backoff = none := by decide
theorem test_releaseTimer_jam : ((after (.releaseTimerExpiry 2) releasingNode).bay 2).jammed = true := by decide
theorem test_transitTimer : (after (.transitTimerExpiry 2) transitNode).unaccounted.length = 1 := by decide
theorem test_settle : (after (.settleReceived (tellOf 10 3)) transitNode).tally.t1.settled = 1 := by decide

/-- A SHRED node that takes offers, with peer 3 heard. -/
def takingNode : State :=
  { shredNode with
    atmos := { Atmos.reset with state := .inert }
    peers := Vector.set (Vector.replicate 12 Peer.reset) 3 (peerWith (statusOf 0 0 0)) }

def reservedNode : State := { takingNode with chute :=
  { Chute.reset with reservation := some reserved, arrivalTimer := some 0, conveyor := true } }

theorem test_offer_reserves : (after (.offerReceived (tellOf 3 10)) takingNode).chute.reservation = some reserved := by
  decide
theorem test_offer_declined_in_air : ((after (.offerReceived (tellOf 3 10))
    { takingNode with atmos := Atmos.reset }).link.fifo.map HandoffOut.reason) = [some .notInert] := by decide
theorem test_withdraw : (after (.withdrawReceived (tellOf 3 10)) reservedNode).chute.conveyor = false := by decide
theorem test_arrival_joins_the_queue : (after .chuteArrival reservedNode).feed.queue.length = 1 := by decide
theorem test_arrival_stray : (after .chuteArrival takingNode).feed.hold.stray = true := by decide
theorem test_chuteClear : (after .chuteArrivalSensorClear (after .chuteArrival takingNode)).chute.sensor = false := by
  decide
theorem test_arrivalTimer : (after .arrivalTimerExpiry reservedNode).tally.t4.arrivalMissed = 1 := by decide

/-! ## Feed controller -/

theorem test_feedPeriod_feeds : (after .feedPeriodExpiry feedNode).feed.gate = true := by decide
theorem test_feedPeriod_starts : (after .feedPeriodExpiry { feedNode with feed :=
    { feedNode.feed with rotor := .stopped, run := false, feedback := false } }).feed.rotor = .starting := by decide
theorem test_feedbackOn_uncommanded : (after .rotorFeedbackOn takingNode).feed.hold.rotor = true := by decide
theorem test_feedbackOff_stall : (after .rotorFeedbackOff feedNode).feed.rotor = .stopped := by decide
theorem test_startTimer : (after .startTimerExpiry { takingNode with feed :=
    { Feed.reset with rotor := .starting, run := true, startTimer := some 0 } }).feed.run = false := by decide
theorem test_stopTimer : (after .stopTimerExpiry { takingNode with feed :=
    { Feed.reset with rotor := .stopping, feedback := true, stopTimer := some 0 } }).feed.rotor = .stopped := by decide
theorem test_idleTimer : (after .idleTimerExpiry { feedNode with feed :=
    { feedNode.feed with queue := [], idleTimer := some 0 } }).feed.stopTimer = some 30000 := by decide
theorem test_confirm_counts : (after .feedConfirmSet (after .feedPeriodExpiry feedNode)).tally.t4.shreddedEnergy = 63000 := by
  decide
theorem test_confirmClear : (after .feedConfirmClear (after .feedConfirmSet feedNode)).feed.confirm = false := by decide
theorem test_feedTimer : (after .feedTimerExpiry (after .feedPeriodExpiry feedNode)).feed.hold.feed = true := by decide

/-! ## Atmosphere (section 6.11) -/

/-- The conversions of chapter 6. -/
theorem test_o2Reading :
    o2Reading 17376 = some 2090 ∧ o2Reading 17400 = some 2093 ∧ o2Reading 6500 = some 390 ∧ o2Reading 6600 = some 406 ∧
      o2Reading 5900 = some 296 ∧ o2Reading 5930 = some 301 ∧ o2Reading 7200 = some 500 ∧ o2Reading 3500 = none := by decide

/-- A purging node with 29 samples qualified. -/
def purgingNode : State :=
  { shredNode with atmos := { Atmos.reset with
    state := .purging, purge := true, stageTimer := some 354000, qualify := 29, sampleTimer := some 0 } }

/-- At 355: 5,850 and 5,900 µA make the thirtieth sample, and the valve keeps its open position. -/
theorem test_atmos_inert :
    (after (.atmosSample { o2a := 5850, o2b := 5900, pressure := some 120 }) purgingNode).atmos.state = .inert ∧
      (after (.atmosSample { o2a := 5850, o2b := 5900, pressure := some 120 }) purgingNode).atmos.purge = true := by decide

/-- At 325: sensor 1 reads 3,500 µA, the count returns to 0 and the fault record takes channel 1. -/
theorem test_atmos_sensor_fault :
    (after (.atmosSample { o2a := 6150, o2b := 3500, pressure := some 120 }) purgingNode).atmos.qualify = 0 ∧
      (after (.atmosSample { o2a := 6150, o2b := 3500, pressure := some 120 }) purgingNode).faults.last =
        some ⟨.o2SensorFault, .channel 1, none, 1000⟩ := by decide

theorem test_purgeSlow : (after .purgeSlowDeadline purgingNode).latch.entries.map PendingEntry.cause = [.purgeSlow] := by
  decide
theorem test_purgeLockout : (after .purgeLockoutDeadline purgingNode).atmos.state = .lockout := by decide

/-! ## Fire -/

/-- A fire sample with nothing amiss: 25.0 °C, 0 ppm, a loop of 10,000 ohms. -/
def calm : FireReading :=
  { key0 := false, key1 := false, key2 := false, key3 := false, d0 := some 250, d1 := some 250, d2 := some 0, loop := 10000 }

def sensing (s : State) : State := { s with fire := { s.fire with sampleTimer := some 0 } }

/-- An active flame loop confirms by itself (R133), and a SHRED node floods (R121). -/
theorem test_fire_flame : (after (.fireSample { calm with loop := 1000 }) (sensing shredNode)).atmos.state = .flood := by
  decide
/-- 55.0 °C is the pre grade (R131). -/
theorem test_fire_pre : (after (.fireSample { calm with d0 := some 550 }) (sensing bayNode)).fire.zone = .pre := by decide

/-! ## Line link -/

theorem test_status_fire_stops_the_bays :
    ((after (.statusReceived 4 15 (statusOf 2 2 0)) (bayNode.setBay 2 discharging)).bay 2).contactor = false := by decide
theorem test_status_own_source_is_a_clash :
    (after (.statusReceived 3 15 (statusOf 0 0 0)) bayNode).startup.life = .safeStop := by decide
set_option exponentiation.threshold 600 in
theorem test_tally_counts_a_difference :
    (after (.tallyReceived 10 15 { record := 4, seq := 0, time := 0, body := 0 })
      { bayNode with tally := { Tally.reset with t1 := { Tally.reset.t1 with settled := 1 } } }).handoff.differences = 1 := by
  rfl
theorem test_alarm_discarded :
    (after (.alarmReceived 4 15 { cause := 1, priority := 1, count := 1, active := 1, zone := 2, placeKind := 0, placeNo := 0
                                  seq := 0, first := 0, tag := 0 }) bayNode).view.lineFire = false := by decide
theorem test_foreign_counted :
    (after (.foreignFrameReceived (plainFrame 7 4 15 [])) bayNode).tally.t6.foreign = 1 := by decide
theorem test_passedBy_not_counted :
    (after (.framePassedBy (plainFrame kindRequest 12 7 ((askOf 7 15).bytes 15))) bayNode).tally.t6.foreign = 0 := by decide
theorem test_receiveError : (after .receiveError bayNode).link.rxErrors = 1 := by decide

/-- Node 3 has heard peer 4. -/
def heardNode : State := { bayNode with peers := Vector.set (Vector.replicate 12 Peer.reset) 4 (peerWith (statusOf 0 0 0)) }

theorem test_peerStale : ((after (.peerAgeStale 4) heardNode).peers[4]).state = .stale := by decide
theorem test_peerLost : (after (.peerAgeLost 4) heardNode).tally.t6.peersLost = 1 := by decide
theorem test_repeat_is_discarded :
    (after (.withdrawReceived (tellOf 10 3)) (after (.withdrawReceived (tellOf 10 3)) bayNode)).tally.t6.foreign = 1 := by
  decide
theorem test_repeat_window :
    (after (.withdrawReceived (tellOf 10 3)) (after (.repeatWindowExpiry 10)
      (after (.withdrawReceived (tellOf 10 3)) bayNode))).tally.t6.foreign = 2 := by decide
theorem test_silence_holds :
    ((after .silenceTimerExpiry { bayNode.setBay 2 discharging with
      view := { LineView.reset with silenceTimer := some 0 } }).bay 2).slot.holdCause = some .lineStop := by decide

/-- Node 10 of section 9.9 at its start: a TAKE and a SETTLE, a REPLY to terminal 13, a STATUS, and 16 transmit errors. -/
def selectorNode : State :=
  { shredNode with link := { Link.reset with
    txErrors := 16
    fifo := [plainHandoff .take 3 9300 2, plainHandoff .settle 4 9301 1]
    replies := #v[none, some { code := 15, reason := none, bay := 15, number := 1, role := 1, payload := [] }, none]
    status := some (statusOf 1 0 0), statusSeq := 42, statusTimer := some 0, tallyTimer := some 0 } }

/-- Step 1: the TAKE is chosen, with the identifier 419. -/
theorem test_selection_take :
    (after .transmitSelection selectorNode).link.attempt.map Attempt.ident = some 419 := by decide
/-- Steps 3 and 4: a raised cause goes ahead of the TAKE, with the identifier 175. -/
theorem test_selection_alarm :
    (after .transmitSelection (selectorNode.raise .sensorDisagree .none none)).link.attempt.map Attempt.ident = some 175 := by
  decide
/-- Step 5: a bit error adds 8 to 15. -/
theorem test_transmitError :
    (after (.transmitError false) (after .transmitSelection
      { selectorNode with link := { selectorNode.link with txErrors := 15 } })).link.txErrors = 23 := by decide
/-- Step 6: the TAKE leaves the FIFO. -/
theorem test_transmitSuccess :
    (after .transmitSuccess (after .transmitSelection selectorNode)).link.fifo.map HandoffOut.message = [.settle] := by decide
/-- Step 2: a lost arbitration leaves every buffer as it was. -/
theorem test_arbitrationLost :
    (after .arbitrationLost (after .transmitSelection selectorNode)).link = selectorNode.link := by decide
/-- Step 7: STATUS 42 replaces 41, and status_overrun grows. -/
theorem test_statusPeriod :
    (after .statusPeriodExpiry selectorNode).link.status.map StatusFrame.seq = some 42 ∧
      (after .statusPeriodExpiry selectorNode).tally.t6.statusOverrun = 1 := by decide
theorem test_tallyPeriod : (after .tallyPeriodExpiry selectorNode).link.tally.map TallyFrame.record = some 4 := by decide
theorem test_busIdleSighting :
    (after .busIdleSighting { bayNode with link := { Link.reset with state := .off, txErrors := 256, sightings := 127 } }).link =
      Link.reset := by decide

/-! ## Requests -/

/-- The reply in terminal 12's slot. -/
def replyAfter (c : Instr) (s : State) : Option (Option Reason × List Byte) :=
  ((after c s).link.replies[0]).map (fun r => (r.reason, r.payload))

/-- R4's time codes under profile P0, and R5's bound for s = 14. -/
theorem test_operands :
    timeLimitOf profileP0 0 = some 480 ∧ timeLimitOf profileP0 180 = some 180 ∧ timeLimitOf profileP0 181 = some 210 ∧
      timeLimitOf profileP0 190 = some 480 ∧ timeLimitOf profileP0 250 = some 2280 ∧ timeLimitOf profileP0 251 = none ∧
      admitBound 365 14 = 6387 := by decide

def emptyBayNode : State := bayNode.setBay 2 (bayWith .empty)

theorem test_admit : replyAfter (.admitPack (askOf 3 2)) emptyBayNode = some (none, [0xE0, 0x01]) := by decide
theorem test_admit_zero_tag :
    replyAfter (.admitPack { askOf 3 2 with tag := 0 }) emptyBayNode = some (some .duplicateTag, []) := by decide
theorem test_abort : ((after (.abort (askOf 3 2)) (bayNode.setBay 2 discharging)).bay 2).slot.code = 10 := by decide
theorem test_abort_releasing : replyAfter (.abort (askOf 3 2)) releasingNode = some (some .bayState, []) := by decide
theorem test_resume : replyAfter (.resume (askOf 3 2)) (bayNode.setBay 2 (bayWith (.pack (.held .fault) pack))) =
    some (none, [3, 0]) := by decide

/-- A bay that holds a rejected pack, lifted out. -/
def rejectedBay : Bay :=
  { bayWith (.pack .rejected { pack with endCause := some .abort }) with latest := Readings.reset }

theorem test_quarantineIn : (after (.quarantineIn (askOf 3 2)) (bayNode.setBay 2 rejectedBay)).store.length = 1 := by decide
theorem test_quarantineOut :
    (after (.quarantineOut (askOf 3 15)) (after (.quarantineIn { askOf 3 2 with src := 13 })
      (bayNode.setBay 2 rejectedBay))).store = [] := by decide
theorem test_accountClear :
    (after (.accountClear (askOf 3 2)) (bayNode.setBay 2 (bayWith (.pack .missing pack)))).tally.t1.writtenOff = 1 := by decide
theorem test_alarmReset :
    replyAfter (.alarmReset (askOf 3 15)) { bayNode.setBay 2 (bayWith (.pack .safe { pack with fireExposed := true })) with
      fire := { Fire.reset with zone := .fire } } = some (none, [0, 1]) := by decide
theorem test_purgeReset :
    replyAfter (.purgeReset (askOf 10 15)) { shredNode with atmos := { Atmos.reset with state := .lockout } } =
      some (none, [1, 0xFF, 0xFF]) := by decide
theorem test_flush : replyAfter (.flush (askOf 10 15)) feedNode = some (none, [2, 2]) := by decide
theorem test_shredReset : replyAfter (.shredReset { askOf 10 15 with headAction := 1 }) { feedNode with feed :=
    { feedNode.feed with rotor := .stopped, run := false, feedback := false } } = some (none, [1]) := by decide

/-- Peer 4 is LOST. -/
def lostNode : State :=
  let gone : Peer := { peerWith (statusOf 0 0 0) with state := .lost, age := none }
  { heardNode with peers := Vector.set (Vector.replicate 12 Peer.reset) 4 gone }

theorem test_peerForget : replyAfter (.peerForget (askOf 3 15)) lostNode = some (none, [0, 0, 1, 41, 0]) := by decide
theorem test_readRecord :
    (replyAfter (.readRecord (askOf 3 2)) (bayNode.setBay 2 discharging)).map (fun x => x.2.length) = some 50 := by decide
theorem test_readTally : replyAfter (.readTally { askOf 3 15 with record := 7 }) bayNode = some (some .badField, []) := by
  decide
theorem test_readQuarantine : replyAfter (.readQuarantine (askOf 3 15)) bayNode = some (some .notFound, []) := by decide
/-- Part code 4,104 = 0x1008, revision 2, node 3, role 0, profile 0, power 1, POWER_ON, no line reset, 1,000 ms = 0x03E8. -/
theorem test_identify : replyAfter (.identify (askOf 3 15)) bayNode =
    some (none, [0x08, 0x10, 2, 3, 0, 0, 1, 0, 0, 0, 0xE8, 0x03, 0, 0]) := by decide
theorem test_nodeReset :
    (after .transmitSuccess (after .transmitSelection (after (.nodeReset (askOf 3 15)) bayNode))).startup.resetting = .request := by
  decide
theorem test_unknownRequest : replyAfter (.unknownRequest 17 (askOf 3 15)) bayNode = some (some .badField, []) := by decide

/-! ## Witnesses

For every statement with hypotheses, a state and operands that meet them, for each clause on its own at a boundary of its
range. -/

theorem witness_StepRunsFrontCommand :
    ({ bayNode with pending := [.offerCheck, .receiveError] } : State).pending = .offerCheck :: [.receiveError] := rfl

/-- A node in RUNNING with its lamps as the state asks for, the zone PRE and the link PASSIVE. -/
def shown : State := after (.fireSample { calm with d0 := some 550 }) (after .listenTimerExpiry
  { bayNode with
    fire := { Fire.reset with sampleTimer := some 0 }
    link := { Link.reset with txErrors := 128, state := .passive }
    startup := { bayNode.startup with life := .listen, listenTimer := some 0 } })

theorem witness_IdleStepMovesTheClock :
    State.reset.pending = [] ∧ State.reset.startup.life = .inReset ∧ transitNode.pending = [] ∧
      transitNode.startup.life ≠ .inReset ∧ (transitNode.bay 2).transitTimer = some 0 ∧
      transitNode.view.silenceTimer = none ∧ (heardNode.peers[4]).age = some 20 ∧
      shown.lamps.node.pattern = .steady ∧ shown.lamps.beacon.pattern = .blink 500 500 := by decide

theorem witness_ResetsBegin :
    bayNode.startup.life ≠ .inReset ∧
      (State.reset.startup.life = .inReset ∧ State.reset.startup.resetting = .powerOn) ∧
      ((after .resetPinAsserted bayNode).startup.life = .inReset ∧
        (after .resetPinAsserted bayNode).startup.resetting ≠ .powerOn) := by decide

/-- The straps at the edges of R197 and R194: node 11 with role 2, node 12, and role 3. -/
def strapped (node : BitVec 4) (role : BitVec 2) : ResetSample :=
  { sampled with straps := { node := node, role := role, profile := 3, power := 3 } }

theorem witness_EndOfResetRebuilds :
    State.reset.startup.life = .inReset ∧
      ((strapped 11 2).straps.node.toNat ≤ 11 ∧ (strapped 11 2).straps.role.toNat ≤ 2) ∧
      ¬ ((strapped 12 0).straps.node.toNat ≤ 11 ∧ (strapped 12 0).straps.role.toNat ≤ 2) ∧
      ¬ ((strapped 0 3).straps.node.toNat ≤ 11 ∧ (strapped 0 3).straps.role.toNat ≤ 2) ∧
      (strapped 10 1).straps.role = 1 ∧ (sampled.straps.role = 0 ∧ sampled.presence[(1 : BayNo)] = true ∧
        sampled.presence[(0 : BayNo)] = false ∧ sampled.straps.node.toNat ≤ 11) ∧
      ((after .resetPinAsserted bayNode).startup.life = .inReset ∧
        (after .resetPinAsserted bayNode).startup.resetting ≠ .powerOn) := by decide

theorem witness_ListenExpiryEntersRunning :
    let s : State := { shredNode with startup := { shredNode.startup with life := .listen, listenTimer := some 0 } }
    let u : State := { bayNode with startup := { bayNode.startup with life := .listen, listenTimer := some 0 } }
    (s.startup.listenTimer = some 0 ∧ s.isShred = true ∧ s.atmos.state = .air ∧ s.link.status = none ∧
        s.link.tally = none) ∧
      (u.startup.listenTimer = some 0 ∧ u.isShred = false ∧ u.link.status = none ∧ u.link.tally = none) := by decide

/-- A bay in a state with the pack of the worked sample. -/
def inState (st : PackState) : State := bayNode.setBay 2 (bayWith (.pack st pack))

/-- The same with line_fire. -/
def stopped (s : State) : State := { s with view := { s.view with lineFire := true } }

theorem witness_StartCheckAndHoldEvaluation :
    (∀ st ∈ [PackState.admitted, .held .lineStop, .held .thermal, .held .fault],
      ((inState st).bay 2).convTimer.isSome = true ∧ ((inState st).bay 2).slot = .pack st pack) ∧
      (reads 12001 0 25).presence = true ∧ (judgeBay (reads 12001 0 25)).valid = false ∧
      (judgeBay (reads 12000 6000 60)).valid = true ∧ (inState .admitted).lineClear = true ∧
      (stopped (inState .admitted)).lineClear = false ∧
      thermalNext (inState .admitted).profile (judgeBay (reads 12000 6000 60)).t false = true ∧
      thermalNext (inState .admitted).profile (judgeBay (reads 12000 6000 59)).t false = false ∧
      thermalNext (inState .admitted).profile (judgeBay (reads 12000 6000 46)).t true = true ∧
      thermalNext (inState .admitted).profile (judgeBay (reads 12000 6000 45)).t true = false := by decide

/-- The worked sample's bay, with 18 deviations in a row. -/
def deviating (n : Nat) (r : Record) : State :=
  bayNode.setBay 2 { discharging with slot := .pack .discharging r, deviation := n }

/-- I = 1,035 follows the last setpoint 850 and I = 1,036 does not; V = 1,401 is the first voltage above the safe one,
and 59 °C the last temperature below T_stop. -/
theorem witness_DischargeSampleSetsTheCurrent :
    ((deviating 18 pack).bay 2).convTimer.isSome = true ∧ (reads 1401 1035 59).presence = true ∧
      ((deviating 18 pack).bay 2).slot = .pack .discharging pack ∧ 1401 ≤ 12000 ∧ 1036 ≤ 6000 ∧
      (reads 1401 1035 59).t = some 59 ∧
      (1035 ≤ 850 + (850 / 10 + 100) ∧ 850 ≤ 1035 + (850 / 10 + 100)) ∧
      (¬ 1036 ≤ 850 + (850 / 10 + 100) ∧ ((deviating 18 pack).bay 2).deviation < 19) ∧
      ((deviating 18 pack).bay 2).prevSetpoint = 850 ∧ pack.capacity = none ∧
      min (pack.q + 1035) 4294967295 < 7 * 540000 ∧
      min (pack.dischargeMs + 100) 4294967295 < pack.timeLimit * 60000 ∧
      pack.s * (deviating 18 pack).profile.safeCell < 1401 ∧ (59 : Int) < (deviating 18 pack).profile.tStop := by decide

/-- The sample that reaches each ending: the charge limit, the time limit, the safe voltage 1,400, and 60 °C. -/
theorem witness_DischargeSampleEndings :
    let s := deviating 0 pack
    (s.bay 2).convTimer.isSome = true ∧ (s.bay 2).slot = .pack .discharging pack ∧ (s.bay 2).prevSetpoint = 850 ∧
      (850 ≤ 850 + (850 / 10 + 100)) ∧
      7 * 540000 ≤ min (3779000 + 1000) 4294967295 ∧ ¬ 7 * 540000 ≤ min (3778000 + 850) 4294967295 ∧
      pack.timeLimit * 60000 ≤ min (28799900 + 100) 4294967295 ∧
      ¬ pack.timeLimit * 60000 ≤ min (pack.dischargeMs + 100) 4294967295 ∧
      1400 ≤ pack.s * s.profile.safeCell ∧ ¬ 1401 ≤ pack.s * s.profile.safeCell ∧ s.profile.tStop ≤ 60 := by decide

/-- V = 12,001 is invalid, and I = 1,036 after 19 deviations is the twentieth. -/
theorem witness_DischargeSampleFaults :
    ((deviating 19 pack).bay 2).convTimer.isSome = true ∧
      ((deviating 19 pack).bay 2).slot = .pack .discharging pack ∧ ¬ (reads 12001 850 25).v ≤ 12000 ∧
      (reads 12001 850 25).presence = true ∧ (reads 4000 1036 25).presence = true ∧
      ((reads 4000 1036 25).v ≤ 12000 ∧ (reads 4000 1036 25).i ≤ 6000) ∧
      ¬ (1036 ≤ 850 + (850 / 10 + 100) ∧ 850 ≤ 1036 + (850 / 10 + 100)) ∧
      19 ≤ ((deviating 19 pack).bay 2).deviation := by decide

/-- A conversion that shows no pack. -/
def gone : BayReading := { presence := false, v := 0, i := 0, t := some 25 }

theorem witness_PresenceClears :
    gone.presence = false ∧
      (∀ st ∈ [PackState.admitted, .discharging, .held .fault, .resting, .safe, .offered 10, .releasing 10,
        .inTransit 10, .rejected, .missing], ((inState st).bay 2).convTimer.isSome = true ∧
        ((inState st).bay 2).slot = .pack st pack) ∧
      pack.settleEarly = false ∧ ({ pack with settleEarly := true } : Record).settleEarly = true := by decide

/-- T at T_derate, between it and T_stop, and at T_stop; the reading that heats the pack; and a bay with no conversions. -/
theorem witness_ConversionFrame :
    ((inState .safe).bay 2).convTimer.isSome = true ∧ (bayNode.bay 2).convTimer = none ∧
      (45 : Int) ≤ bayNode.profile.tDerate ∧ bayNode.profile.tDerate < (46 : Int) ∧ (59 : Int) < bayNode.profile.tStop ∧
      bayNode.profile.tStop ≤ (60 : Int) ∧ (reads 4000 0 151).t.filter (fun c => decide (-40 ≤ c ∧ c ≤ 150)) = none ∧
      (inState .safe).condition .bayOverheat = false ∧
      (after (.bayConversion 2 (reads 4000 0 79)) (inState .safe)).condition .bayOverheat = false ∧
      (after (.bayConversion 2 (reads 4000 0 80)) (inState .safe)).condition .bayOverheat = true := by decide

/-- The bays that a conversion leaves: with presence, EMPTY or ORPHAN or one of six pack states; without it, EMPTY. -/
theorem witness_ConversionFrame_stays :
    (∀ x ∈ [Slot.empty, .orphan, .pack .missing pack, .pack .rejected pack, .pack (.inTransit 10) pack, .pack .safe pack,
        .pack (.offered 10) pack, .pack (.releasing 10) pack],
      ((bayNode.setBay 2 (bayWith x)).bay 2).convTimer.isSome = true ∧ ((bayNode.setBay 2 (bayWith x)).bay 2).slot = x) ∧
      (reads 4000 0 25).presence = true ∧ gone.presence = false ∧
      ((after (.bayConversion 2 (reads 4000 0 25)) (inState .missing)).bay 2).slot.code = 11 := by decide

/-- A bay at the end of its rest, with a latest valid V or none, in a round. -/
def rested (v : Option Nat) (round : Nat) : State :=
  bayNode.setBay 2 { bayWith (.pack .resting { pack with round := round }) with
    restTimer := some 0, latest := { presence := true, v := v, i := some 0, t := some 30 } }

/-- Fourteen cells at 1.40 V pass and 10 mV more fail; round 2 of 3 is not the last and round 3 is. -/
theorem witness_RestEndsByTheReboundTest :
    ((rested none 1).bay 2).restTimer = some 0 ∧
      ((rested none 1).bay 2).slot = .pack .resting { pack with round := 1 } ∧
      ((rested none 1).bay 2).latest.v = none ∧ ((rested (some 1960) 1).bay 2).latest.v = some 1960 ∧
      1960 ≤ pack.s * (rested none 1).profile.reboundLimit ∧ pack.s * (rested none 1).profile.reboundLimit < 1961 ∧
      2 < (rested none 2).profile.maxRounds ∧ (rested none 3).profile.maxRounds ≤ 3 ∧
      (rested (some 1961) 2).lineClear = true ∧ (stopped (rested (some 1961) 2)).lineClear = false ∧
      ((rested (some 1961) 2).bay 2).thermal = false := by decide

/-- A RESTING bay with the rebound test owed or not, at a conversion. -/
def resting (owed : Bool) : State :=
  bayNode.setBay 2 { bayWith (.pack .resting pack) with restTimer := if owed then none else some 700, restOwed := owed }

/-- V = 12,000 is the last valid voltage, and 12,001 leaves the owed test to a later conversion. -/
theorem witness_RestEndsByTheReboundTest_owed :
    (∀ o : Bool, ((resting o).bay 2).convTimer.isSome = true ∧ ((resting o).bay 2).slot = .pack .resting pack ∧
        ((resting o).bay 2).restOwed = o) ∧
      (reads 12000 0 25).presence = true ∧ (reads 12000 0 25).v ≤ 12000 ∧ 12000 < (reads 12001 0 25).v ∧
      (reads 1960 0 25).v ≤ pack.s * (resting true).profile.reboundLimit := by decide

theorem witness_ResumeLeavesAFaultHold :
    (inState (.held .fault)).Evaluates 3 (askOf 3 2) 0 ∧ (inState (.held .fault)).isBay = true ∧
      (askOf 3 2).bay.toNat = (2 : BayNo).val ∧ ((inState (.held .fault)).bay 2).slot = .pack (.held .fault) pack ∧
      ((inState (.held .fault)).bay 2).latest.valid = true ∧ (inState (.held .fault)).lineClear = true ∧
      (stopped (inState (.held .fault))).lineClear = false ∧
      ((rested none 1).setBay 2 { bayWith (.pack (.held .fault) pack) with latest := Readings.reset } |>.bay 2).latest.valid =
        false ∧
      ((inState (.held .thermal)).bay 2).slot ≠ .pack (.held .fault) pack :=
  ⟨evaluates_of (by decide) (by decide), by decide⟩

theorem witness_HeadroomComputation : headroomNode.headroom.timer = some 0 := by decide

theorem witness_OfferCheck :
    offerNode.handoff.offerTimer = some 0 ∧
      (offerNode.lineClear = true ∧ offerNode.countBays Slot.isOffered = 0 ∧ offerNode.transfers < 4) ∧
      ((offerNode.bay 2).slot = .pack .safe pack ∧ (offerNode.bay 2).backoff = none ∧ pack.fireExposed = false) ∧
      (∀ i : BayNo, i < 2 → (offerNode.bay i).slot = .empty) ∧ (offerNode.peers[10]).acceptingShred = true ∧
      (∀ i : NodeNo, i < 10 → (offerNode.peers[i]).acceptingShred = false) ∧
      (offeredNode.countBays Slot.isOffered ≠ 0) := by decide

/-- The same with the handoff FIFO full. -/
def crowded (s : State) : State :=
  { s with link := { s.link with fifo := List.replicate 4 (plainHandoff .withdraw 10 9400 0) } }

/-- The fifth frame finds the FIFO full: it is dropped and counted (R163). -/
theorem test_full_fifo_drops :
    (after .offerCheck (crowded offerNode)).link.fifo.length = 4 ∧
      (after .offerCheck (crowded offerNode)).tally.t6.handoffDropped = 1 := by decide

theorem witness_HandoffTimersExpire :
    ((offeredNode.bay 2).answerTimer = some 0 ∧ (offeredNode.bay 2).slot = .pack (.offered 10) pack) ∧
      ((releasingNode.bay 2).releaseTimer = some 0 ∧ (releasingNode.bay 2).slot = .pack (.releasing 10) pack ∧
        pack.settleEarly = false ∧ ({ pack with settleEarly := true } : Record).settleEarly = true) ∧
      ((transitNode.bay 2).transitTimer = some 0 ∧ (transitNode.bay 2).slot = .pack (.inTransit 10) pack ∧
        transitNode.unaccounted = [] ∧ (after (.transitTimerExpiry 2) transitNode).unaccounted ≠ []) := by decide

/-- A TAKE and a DECLINE that match, one that comes under line_fire, and one for a bay that is not OFFERED. -/
theorem witness_AnswersToAnOffer :
    (offeredNode.HearsHandoff 1 (tellOf 10 3) 10 2 ∧ offeredNode.HearsHandoff 2 (tellOf 10 3) 10 2) ∧
      (stopped offeredNode).HearsHandoff 1 (tellOf 10 3) 10 2 ∧
      transitNode.HearsHandoff 1 (tellOf 10 3) 10 2 ∧ transitNode.HearsHandoff 2 (tellOf 10 3) 10 2 ∧
      (offeredNode.isBay = true ∧ offeredNode.startup.life = .running ∧
        (offeredNode.bay 2).slot = .pack (.offered 10) pack ∧ pack.tag = (tellOf 10 3).tag ∧
        offeredNode.lineClear = true ∧ pack.fireExposed = false ∧ (stopped offeredNode).lineClear = false ∧
        (transitNode.bay 2).slot ≠ .pack (.offered 10) pack) :=
  ⟨⟨hearsHandoff_of (by decide) (by decide) (by decide), hearsHandoff_of (by decide) (by decide) (by decide)⟩,
    hearsHandoff_of (by decide) (by decide) (by decide), hearsHandoff_of (by decide) (by decide) (by decide),
    hearsHandoff_of (by decide) (by decide) (by decide), by decide⟩

/-- A SETTLE for a pack in transit, for one in the unaccounted list, for one that is still being released, for none, and
in LISTEN. -/
theorem witness_SettleByWhereTheTagStands :
    (transitNode.HearsHandoff 4 (tellOf 10 3) 10 2 ∧
        (after (.transitTimerExpiry 2) transitNode).HearsHandoff 4 (tellOf 10 3) 10 2 ∧
        releasingNode.HearsHandoff 4 (tellOf 10 3) 10 2 ∧ bayNode.HearsHandoff 4 (tellOf 10 3) 10 2 ∧
        ({ transitNode with startup := { transitNode.startup with life := .listen } } : State).HearsHandoff 4
          (tellOf 10 3) 10 2) ∧
      transitNode.isBay = true ∧
      ((transitNode.bay 2).slot = .pack (.inTransit 10) pack ∧ pack.tag = (tellOf 10 3).tag ∧
        ∀ k : BayNo, k < 2 → (transitNode.bay k).settles 9300 10 = false) ∧
      ((after (.transitTimerExpiry 2) transitNode).unaccounted =
          [] ++ { tag := 9300, bay := 2, shred := 10, time := 1000 } :: [] ∧
        ∀ k : BayNo, ((after (.transitTimerExpiry 2) transitNode).bay k).settles 9300 10 = false) ∧
      ((releasingNode.bay 2).slot = .pack (.releasing 10) pack ∧ pack.settleEarly = false ∧
        (∀ k : BayNo, (releasingNode.bay k).settles 9300 10 = false) ∧ releasingNode.unaccounted = [] ∧
        ∀ k : BayNo, k < 2 → (releasingNode.bay k).settlesEarly 9300 10 = false) ∧
      (∀ k : BayNo, (bayNode.bay k).settles 9300 10 = false ∧ (bayNode.bay k).settlesEarly 9300 10 = false) ∧
      bayNode.unaccounted = [] :=
  ⟨⟨hearsHandoff_of (by decide) (by decide) (by decide), hearsHandoff_of (by decide) (by decide) (by decide),
    hearsHandoff_of (by decide) (by decide) (by decide), hearsHandoff_of (by decide) (by decide) (by decide),
    hearsHandoff_of (by decide) (by decide) (by decide)⟩, by decide⟩

/-- Seven entries in the queue, the most that leaves room for one more. -/
def nearlyFull : State :=
  { takingNode with feed := { takingNode.feed with queue := (List.range 7).map (fun n => queued (9301 + BitVec.ofNat 32 n) 1890 0) } }

/-- An offer taken with 7 entries queued and s at 1 and at 32, and one declined for each reason. -/
theorem witness_OfferTakenOrDeclined :
    (nearlyFull.HearsHandoff 0 { tellOf 3 10 with s := 32 } 3 2 ∧ nearlyFull.HearsHandoff 0 { tellOf 3 10 with s := 1 } 3 2 ∧
        takingNode.HearsHandoff 0 { tellOf 3 10 with s := 33 } 3 2 ∧ feedNode.HearsHandoff 0 (tellOf 3 10) 3 2 ∧
        reservedNode.HearsHandoff 0 (tellOf 3 10) 3 2) ∧
      (nearlyFull.isShred = true ∧ nearlyFull.startup.life = .running ∧ nearlyFull.view.silent = false ∧
        nearlyFull.atmos.state = .inert ∧ nearlyFull.view.lineFire = false ∧ nearlyFull.feed.hold = HoldSet.none ∧
        nearlyFull.chute.reservation = none ∧ nearlyFull.feed.queue.length < 8 ∧
        (∀ e ∈ nearlyFull.feed.queue, e.pack.tag ≠ 9300) ∧ (nearlyFull.peers[3]).state = .present) ∧
      (∃ e ∈ feedNode.feed.queue, e.pack.tag = (tellOf 3 10).tag) ∧ reservedNode.chute.reservation ≠ none ∧
      8 ≤ ((after .chuteArrival { nearlyFull with chute := { Chute.reset with reservation := some reserved } }).feed.queue.length) ∧
      (feedNode.peers[3]).state ≠ .present :=
  ⟨⟨hearsHandoff_of (by decide) (by decide) (by decide), hearsHandoff_of (by decide) (by decide) (by decide),
    hearsHandoff_of (by decide) (by decide) (by decide), hearsHandoff_of (by decide) (by decide) (by decide),
    hearsHandoff_of (by decide) (by decide) (by decide)⟩, by decide⟩

theorem witness_ReservationEnds :
    (reservedNode.HearsHandoff 3 (tellOf 3 10) 3 2 ∧ takingNode.HearsHandoff 3 (tellOf 3 10) 3 2) ∧
      reservedNode.isShred = true ∧ reservedNode.startup.life = .running ∧
      reservedNode.chute.reservation = some reserved ∧ reserved.tag = (tellOf 3 10).tag ∧ reserved.source = 3 ∧
      takingNode.chute.reservation = none ∧ reservedNode.chute.arrivalTimer = some 0 :=
  ⟨⟨hearsHandoff_of (by decide) (by decide) (by decide), hearsHandoff_of (by decide) (by decide) (by decide)⟩, by decide⟩

theorem witness_ChuteArrival :
    reservedNode.isShred = true ∧ reservedNode.awake = true ∧ reservedNode.chute.sensor = false ∧
      reservedNode.chute.reservation = some reserved ∧ takingNode.chute.reservation = none ∧
      (after .chuteArrival takingNode).chute.sensor = true := by decide

/-- A SHRED node with the rotor STOPPED, INERT, and a queue. -/
def waiting (q : List QueueEntry) : State :=
  { takingNode with feed := { Feed.reset with periodTimer := some 0, queue := q } }

/-- Three entries are the watermark of P0; a wait of 119,900 ms ends at 120,000; no peer has a pack to release; and a
flush is asked for while peer 3 has one. -/
theorem witness_FeedPeriodStartsTheRotor :
    let q := [queued 9300 1890 119900]
    ((waiting q).feed.periodTimer = some 0 ∧ (waiting q).feed.rotor = .stopped ∧ (waiting q).permissive = true ∧
        (waiting q).fire.impaired = false ∧ (waiting q).feed.feedback = false ∧ (waiting q).feed.queue ≠ []) ∧
      (waiting q).profile.batchWatermark ≤ [1, 2, 3].length ∧ ¬ (waiting q).profile.batchWatermark ≤ q.length ∧
      120000 ≤ 119900 + 100 ∧ (waiting q).chute.reservation = none ∧
      (∀ n : NodeNo, ((waiting q).peers[n]).hasReleasable = false) ∧
      (after (.flush (askOf 10 15)) (waiting q)).feed.flush = true ∧
      (waiting []).feed.queue = [] ∧ reservedNode.chute.reservation ≠ none := by decide

/-- Fourteen cells at 1.40 V are fed, and 10 mV more hold the feed. -/
theorem witness_FeedPeriodFeedsTheHead :
    (feedNode.feed.periodTimer = some 0 ∧ feedNode.feed.rotor ≠ .stopped) ∧
      (feedNode.feed.rotor = .running ∧ feedNode.permissive = true ∧ feedNode.feed.kind = .none ∧
        feedNode.feed.confirm = false ∧ feedNode.feed.queue = [queued 9300 1890 0, queued 9301 1890 0]) ∧
      (queued 9300 1960 0).pack.restV ≤ (queued 9300 1960 0).pack.s * feedNode.profile.reboundLimit ∧
      (queued 9300 1961 0).pack.s * feedNode.profile.reboundLimit < (queued 9300 1961 0).pack.restV ∧
      (after .feedPeriodExpiry feedNode).feed.kind ≠ .none := by decide

/-- The rotor in each of its states, with its timer at 0. -/
def rotorIn (r : Rotor) (feedback : Bool) : State :=
  { takingNode with feed := { Feed.reset with
      rotor := r, run := r.commanded, feedback := feedback
      startTimer := if r = .starting then some 0 else none, stopTimer := if r = .stopping then some 0 else none
      idleTimer := if r = .running then some 0 else none } }

theorem witness_RotorFeedbackAndTimers :
    (∀ r ∈ [Rotor.stopped, .starting, .running, .stopping], ∀ b : Bool, (rotorIn r b).isShred = true ∧
        (rotorIn r b).awake = true ∧ (rotorIn r b).feed.feedback = b ∧ (rotorIn r b).feed.rotor = r) ∧
      (rotorIn .starting false).feed.startTimer = some 0 ∧ (rotorIn .stopping true).feed.stopTimer = some 0 ∧
      (rotorIn .running true).feed.idleTimer = some 0 ∧
      (after .feedPeriodExpiry feedNode).feed.kind = .active := by decide

/-- The permissive is lost with feedback on and with feedback off, in STARTING and in RUNNING. -/
theorem witness_RotorFeedbackAndTimers_lost :
    (rotorIn .starting true).feed.losePermissive.rotor = .stopping ∧
      (rotorIn .running true).feed.losePermissive.rotor = .stopping ∧
      (rotorIn .starting false).feed.losePermissive.rotor = .stopped ∧
      (after .rotorFeedbackOn { rotorIn .starting false with
        feed := (rotorIn .starting false).feed.losePermissive }).feed.hold.rotor = true := by decide

/-- A hold that a stray set already, in each state of the rotor: a further reason joins it (R88). -/
theorem witness_RotorFeedbackAndTimers_held :
    let held := fun (r : Rotor) (b : Bool) => ({ rotorIn r b with feed := { (rotorIn r b).feed with
      hold := { stray := true, feed := false, rotor := false } } } : State)
    (∀ r ∈ [Rotor.stopped, .starting, .running, .stopping], ∀ b : Bool, (held r b).isShred = true ∧
        (held r b).awake = true ∧ (held r b).feed.rotor = r ∧
        (held r b).feed.hold ≠ { stray := false, feed := false, rotor := false }) ∧
      (rotorIn .stopped false).feed.hold = { stray := false, feed := false, rotor := false } ∧
      (after .rotorFeedbackOn (held .stopped false)).feed.hold = { stray := true, feed := false, rotor := true } := by decide

/-- A feed in progress, ACTIVE or ABANDONED. -/
def feedingNode (k : FeedKind) : State :=
  { after .feedPeriodExpiry feedNode with feed := { (after .feedPeriodExpiry feedNode).feed with
      kind := k, gate := decide (k = .active), feedTimer := some 0 } }

theorem witness_FeedEnds :
    (∀ k ∈ [FeedKind.active, .abandoned], (feedingNode k).isShred = true ∧ (feedingNode k).awake = true ∧
        (feedingNode k).feed.confirm = false ∧ (feedingNode k).feed.kind = k ∧ (feedingNode k).feed.feedTimer = some 0 ∧
        (feedingNode k).feed.queue = { queued 9300 1890 100 with feeding := true } :: [queued 9301 1890 100]) ∧
      feedNode.feed.kind = .none ∧ (after .feedConfirmSet feedNode).feed.confirm = true := by decide

/-- An INERT node with 9 low-pressure samples in a row behind it. -/
def inertNode : State := { purgingNode with atmos := { purgingNode.atmos with
  state := .inert, stageTimer := none, lowPressure := 9, disagree := 4 } }

/-- An atmosphere sample. -/
def air (a b : Nat) (p : Option Int) : AtmosReading := { o2a := a, o2b := b, pressure := p }

/-- 6,563 µA is 4.00 % and the last good sample, 6,570 µA is above it; 7,206 µA is above 5.00 %; 49 Pa is low. -/
theorem witness_AtmosphereSample :
    (purgingNode.atmos.sampleTimer = some 0 ∧ purgingNode.atmos.state = .purging ∧ 29 ≤ purgingNode.atmos.qualify) ∧
      (o2Reading (air 6563 6563 none).o2a = some 400 ∧ o2Reading 6570 = some 401 ∧ o2Reading 3599 = none ∧
        o2Reading 3600 = some 0 ∧ o2Reading 21000 = some 2500 ∧ o2Reading 21001 = none) ∧
      (inertNode.atmos.sampleTimer = some 0 ∧ inertNode.atmos.state = .inert ∧ inertNode.atmos.disagree = 4 ∧
        9 ≤ inertNode.atmos.lowPressure ∧ o2Reading 7207 = some 501 ∧ ¬ (50 : Int) ≤ 49) ∧
      (purgingNode.atmos.o2ValidA = true ∧ purgingNode.atmos.o2ValidB = true ∧ purgingNode.atmos.pressureValid = true) ∧
      ({ shredNode with atmos := { Atmos.reset with sampleTimer := some 0 } } : State).atmos.state = .air := by decide

theorem witness_PurgeDeadlines :
    purgingNode.atmos.stageTimer = some 354000 ∧ purgingNode.atmos.slow = false ∧
      (after .purgeSlowDeadline purgingNode).atmos.slow = true ∧ bayNode.atmos.stageTimer = none := by decide

/-- The fire unit's sources as they stand after a sample's channels and the bay heat. -/
def judged (s : State) (x : FireReading) : Fire :=
  { s.fire with
    channels := channelsNext s.fire.channels x
    bayHeat := if s.isBay = true then s.fire.bayHeat.advance (if s.bayHeat = true then .fire else .none)
      else s.fire.bayHeat }

/-- A loop of 1,000 ohms at a BAY and at a SHRED node, with the zone NORMAL. -/
theorem witness_FireConfirmed :
    ((sensing bayNode).fire.sampleTimer = some 0 ∧ (sensing bayNode).fire.zone ≠ .fire ∧
        (judged (sensing bayNode) { calm with loop := 1000 }).confirmed = true ∧ (sensing bayNode).isBay = true) ∧
      ((sensing shredNode).fire.sampleTimer = some 0 ∧
        (judged (sensing shredNode) { calm with loop := 1000 }).confirmed = true ∧
        (sensing shredNode).isShred = true ∧ (sensing shredNode).awake = true) := by decide

/-- Each state of a bay that line_fire finds, before it and under it already. -/
theorem witness_FireConfirmed_bays :
    (∀ st ∈ [PackState.admitted, .discharging, .held .thermal, .held .fault, .resting, .safe, .offered 10, .releasing 10,
        .inTransit 10, .rejected, .missing], ((sensing (inState st)).bay 2).slot = .pack st pack ∧
          (sensing (inState st)).view.lineFire = false ∧ (sensing (inState st)).fire.sampleTimer = some 0) ∧
      ((sensing bayNode).bay 2).slot.record = none ∧ (sensing (stopped releasingNode)).view.lineFire = true ∧
      (sensing (crowded releasingNode)).recalls.length = 1 ∧
      (after (.fireSample { calm with loop := 1000 }) (sensing (crowded releasingNode))).tally.t6.handoffDropped = 1 := by
  decide

/-- Two channels without a reading come to be bad at one sample, with and without the flame loop: two raises, the last of
them for channel 1. -/
theorem witness_FireConfirmed_onsets :
    let x : FireReading := { calm with d0 := none, d1 := none }
    (([0, 1, 2, 3] : List (Fin 4)).filter (fun c => (channelsNext (sensing bayNode).fire.channels x)[c].bad &&
        !((sensing bayNode).fire.channels[c]).bad) = [0, 1]) ∧
      (judged (sensing bayNode) x).confirmed = false ∧ (judged (sensing bayNode) { x with loop := 1000 }).confirmed = true ∧
      (∀ l ∈ [10000, 1000], (findEntry .channelFault (after (.fireSample { x with loop := l }) (sensing bayNode)).latch.entries).map
        (fun e => (e.count, e.place)) = some (2, .channel 1)) ∧
      (stopped (sensing bayNode)).isShred = false ∧ (stopped (sensing bayNode)).view.lineFire = true := by decide

/-- A zone in a state with a clear count. -/
def zoneNode (z : Zone) (n : Nat) : State :=
  sensing { bayNode with fire := { Fire.reset with zone := z, clearCount := n } }

/-- 55.0 °C is the least that alerts and 54.9 °C does not; the thirtieth clear sample ends PRE and the twenty-ninth does
not; the zone FIRE stays; and a channel without a reading comes to be bad alone. -/
theorem witness_FireSampleMovesTheZone :
    let hot := { calm with d0 := some 550 }
    let warm := { calm with d0 := some 549 }
    (∀ z ∈ [Zone.normal, .pre], (zoneNode z 28).fire.sampleTimer = some 0 ∧
        (judged (zoneNode z 28) hot).confirmed = false ∧ (judged (zoneNode z 28) warm).confirmed = false ∧
        (∃ y ∈ (judged (zoneNode z 28) hot).sources, y.grade ≠ .none) ∧
        ¬ (∃ y ∈ (judged (zoneNode z 28) warm).sources, y.grade ≠ .none)) ∧
      29 ≤ (zoneNode .pre 29).fire.clearCount ∧ (zoneNode .pre 28).fire.clearCount < 29 ∧
      (zoneNode .fire 0).fire.zone = .fire ∧
      (channelsNext (zoneNode .normal 0).fire.channels { calm with d2 := none })[2].bad = true ∧
      (∀ d : Fin 4, d ≠ 2 → (channelsNext (zoneNode .normal 0).fire.channels { calm with d2 := none })[d].bad = false) ∧
      ((zoneNode .normal 0).fire.channels[(2 : Fin 4)]).bad = false := by decide

/-- The edges of the channels' grades: a heat channel at 70.0 °C, 69.9, 55.0, 54.9 and one step out of its range at each end;
a rise of 20.0, 19.9 and 10.0 over ten samples; gas at 50 and 200 ppm; a loop at 100, 1,500, 1,501, 15,000 and 15,001. -/
theorem witness_FireSampleMovesTheZone_channels :
    let heat := fun (ring : List Int) (v : Int) => (({ Channel.reset with ring := ring } : Channel).heat false (some v)).source.grade
    (heat [] 700 = .fire ∧ heat [] 699 = .pre ∧ heat [] 550 = .pre ∧ heat [] 549 = .none) ∧
      (heat (List.replicate 10 300) 500 = .fire ∧ heat (List.replicate 10 300) 499 = .pre ∧
        heat (List.replicate 10 300) 400 = .pre ∧ heat (List.replicate 10 300) 399 = .none ∧
        heat (List.replicate 9 300) 500 = .none) ∧
      ((Channel.reset.heat false (some 2001)).faulted = true ∧ (Channel.reset.heat false (some (-401))).faulted = true ∧
        (Channel.reset.heat false none).faulted = true ∧ (Channel.reset.heat true (some 700)).isolated = true) ∧
      ((Channel.reset.gas false (some 200)).source.grade = .fire ∧ (Channel.reset.gas false (some 50)).source.grade = .pre ∧
        (Channel.reset.gas false (some 49)).source.grade = .none ∧ (Channel.reset.gas false (some (-1))).faulted = true) ∧
      ((Channel.reset.flame false 99).faulted = true ∧ (Channel.reset.flame false 100).source.grade = .fire ∧
        (Channel.reset.flame false 1500).source.grade = .fire ∧ (Channel.reset.flame false 1501).source.grade = .none ∧
        (Channel.reset.flame false 15000).faulted = false ∧ (Channel.reset.flame false 15001).faulted = true) := by decide

theorem hearsAll_of {s : State} {src dst : Address} {n : NodeNo}
    (h : s.receiving = true ∧ src = nodeAddress n ∧ src ≠ s.startup.straps.node ∧ dst = 15) : s.HearsAll src dst n :=
  ⟨h.1, h.2.1, h.2.2.1, h.2.2.2⟩

/-- A STATUS with every code at the end of its range, one past it, the zone FIRE, and a peer heard before. -/
theorem witness_StatusTaken :
    (bayNode.HearsAll 4 15 4 ∧ heardNode.HearsAll 4 15 4 ∧ releasingNode.HearsAll 4 15 4) ∧
      (releasingNode.view.lineFire = false ∧
        (after (.statusReceived 4 15 (statusOf 2 2 0)) releasingNode).view.lineFire = true ∧
        (releasingNode.bay 2).slot = .pack (.releasing 10) pack ∧ pack.settleEarly = false) ∧
      (∀ f ∈ [{ statusOf 2 2 0 with profile := 3, power := 3 }], f.role.toNat ≤ 2 ∧ f.zone.toNat ≤ 2 ∧
        f.profile.toNat ≤ 3 ∧ f.power.toNat ≤ 3) ∧
      ¬ (statusOf 3 0 0).role.toNat ≤ 2 ∧ ¬ (statusOf 0 3 0).zone.toNat ≤ 2 ∧ (bayNode.peers[4]).state = .absent ∧
      (heardNode.peers[4]).state ≠ .absent ∧ (heardNode.peers[4]).fields = some (statusOf 0 0 0) ∧
      bayNode.view.lineFire = false ∧ (statusOf 2 2 0).zone = 2 :=
  ⟨⟨hearsAll_of (by decide), hearsAll_of (by decide), hearsAll_of (by decide)⟩, by decide⟩

theorem witness_PeersAgeAndAreForgotten :
    lostNode.Evaluates 11 (askOf 3 15) 0 ∧ lostNode.LineViewLaw ∧ heardNode.LineViewLaw ∧
      ((heardNode.peers[4]).age = some 20 ∧ (heardNode.peers[4]).state = .present ∧ (lostNode.peers[4]).age = none ∧
        (lostNode.peers[4]).state = .lost ∧ (askOf 3 15).bay = 15 ∧ (askOf 3 15).node.toNat = (4 : NodeNo).val ∧
        (4 : NodeNo).val ≠ lostNode.startup.straps.node.toNat ∧ 11 < ({ askOf 3 15 with node := 12 }).node.toNat ∧
        (heardNode.peers[4]).state ≠ .lost) :=
  ⟨evaluates_of (by decide) (by decide), ⟨by decide, by decide⟩, ⟨by decide, by decide⟩, by decide⟩

/-- A REPLY waits for another terminal, and stays. -/
theorem witness_PeersAgeAndAreForgotten_slots :
    let s : State := { lostNode with link := { Link.reset with replies := selectorNode.link.replies } }
    s.Evaluates 11 (askOf 3 15) 0 ∧ (after (.peerForget (askOf 3 15)) s).link.replies[1] = s.link.replies[1] ∧
      s.link.replies[1].isSome = true :=
  ⟨evaluates_of (by decide) (by decide), by decide⟩

/-- T4's first count for node 0 to 11 stands at byte 6 on; a count that agrees, one that differs, and T1. -/
theorem witness_TallyCompared :
    bayNode.HearsAll 10 15 10 ∧ shredNode.HearsAll 4 15 4 ∧
      bayNode.startup.straps.node = nodeAddress 3 ∧ bayNode.isBay = true ∧ shredNode.isBay = false ∧
      bayNode.handoff.differences = 0 :=
  ⟨hearsAll_of (by decide), hearsAll_of (by decide), by decide⟩

theorem witness_FramesJudged :
    heardNode.HearsAll 4 15 4 ∧
      (bayNode.receiving = true ∧ (6 : BitVec 3).toNat ≥ 6 ∧ (plainFrame 6 4 15 []).src ≠ bayNode.startup.straps.node) ∧
      ((Instr.framePassedBy (plainFrame kindRequest 12 7 ((askOf 7 15).bytes 15))).wellFormed = true ∧
        (12 : Address) ≠ bayNode.startup.straps.node ∧ (7 : Address) ≠ bayNode.startup.straps.node) ∧
      (bayNode.HearsNode 1 { tellOf 10 3 with tag := 0 } 10 ∧ bayNode.HearsNode 1 { tellOf 10 3 with bay := 4 } 10) ∧
      (let s := after (.withdrawReceived (tellOf 10 3)) bayNode
       let w := plainFrame kindHandoff 10 3 ((tellOf 10 3).bytes 3)
       encodeFrame (.withdrawReceived (tellOf 10 3)) = some w ∧ s.receiving = true ∧
         w.src ≠ s.startup.straps.node ∧ w.dst = s.startup.straps.node ∧ s.startup.straps.node.toNat ≤ 11 ∧
         sourceAllowed w.kind w.src = true ∧ s.repeated 10 w.data = true) ∧
      State.reset.receiving = false :=
  ⟨hearsAll_of (by decide), by decide, by decide, ⟨hearsNode_of (by decide), hearsNode_of (by decide)⟩, by decide,
    by decide⟩

/-- A node in a lifecycle. -/
def living (l : Lifecycle) (s : State) : State := { s with startup := { s.startup with life := l } }

/-- Messages of the wrong role, messages out of RUNNING, and a message byte of 5. -/
theorem witness_FramesJudged_foreign :
    (∀ m ∈ [(0 : Byte), 3], bayNode.HearsHandoff m (tellOf 10 3) 10 2) ∧
      (∀ m ∈ [(1 : Byte), 2, 4], shredNode.HearsHandoff m (tellOf 3 10) 3 2) ∧
      (∀ l ∈ [Lifecycle.listen, .safeStop], ∀ m ∈ [(0 : Byte), 3], (living l shredNode).HearsHandoff m (tellOf 3 10) 3 2) ∧
      (∀ l ∈ [Lifecycle.listen, .safeStop], ∀ m ∈ [(1 : Byte), 2], (living l bayNode).HearsHandoff m (tellOf 10 3) 10 2) ∧
      (living .listen bayNode).HearsHandoff 4 (tellOf 10 3) 10 2 ∧
      (bayNode.isShred = false ∧ shredNode.isBay = false) ∧
      (let w := plainFrame kindHandoff 10 3 ((tellOf 10 3).bytes 5)
       w.data.length = 16 ∧ 4 < (w.data.getD 0 0).toNat ∧
         bayNode.HearsNode (w.data.getD 0 0) (HandoffFrame.ofBytes w.src w.dst w.data) 10) := by
  refine ⟨fun m hm => hearsHandoff_of ?_ (by decide) (by decide), fun m hm => hearsHandoff_of ?_ (by decide) (by decide),
    fun l hl m hm => hearsHandoff_of ?_ (by decide) (by decide), fun l hl m hm => hearsHandoff_of ?_ (by decide) (by decide),
    hearsHandoff_of (by decide) (by decide) (by decide), by decide, by decide, by decide, hearsNode_of (by decide)⟩
  · revert m; decide
  · revert m; decide
  · revert l m; decide
  · revert l m; decide

theorem witness_ClashEntersSafeStop :
    let c := Instr.statusReceived 3 15 (statusOf 0 0 0)
    encodeFrame c = some (plainFrame kindStatus 3 15 (statusOf 0 0 0).bytes) ∧ offeredNode.receiving = true ∧
      (3 : Address) = offeredNode.startup.straps.node ∧ offeredNode.startup.life = .running ∧
      (offeredNode.bay 2).slot = .pack (.offered 10) pack ∧
      (after c offeredNode).startup.life = .safeStop ∧ (after c offeredNode).receiving = true := by decide

/-- Each state of a bay that a clash finds, with an early settle and without. -/
theorem witness_ClashEntersSafeStop_bays :
    (∀ st ∈ [PackState.admitted, .discharging, .held .thermal, .held .fault, .resting, .safe, .offered 10, .releasing 10,
        .inTransit 10, .rejected, .missing], ((inState st).bay 2).slot = .pack st pack ∧
          (inState st).receiving = true ∧ (inState st).startup.life = .running ∧
          (3 : Address) = (inState st).startup.straps.node) ∧
      pack.settleEarly = false ∧ ({ pack with settleEarly := true } : Record).settleEarly = true ∧
      (living .listen bayNode).receiving = true ∧ (living .safeStop bayNode).receiving = true := by decide

/-- The counts at their edges: 127 and 128, 255 and 256; a frame under attempt; the 127th sighting. -/
theorem witness_LinkErrors :
    let s : State := { bayNode with link := { Link.reset with txErrors := 248, rxErrors := 127, state := .passive } }
    let t := after .transmitSelection selectorNode
    (s.receiving = true ∧ t.receiving = true ∧ t.link.state ≠ .off ∧ t.link.statusDue = false ∧
        t.link.tallyDue = false) ∧
      (∃ a : Attempt, t.link.attempt = some a) ∧ s.link.attempt = none ∧
      ({ Link.reset with state := .off, txErrors := 256, sightings := 126 } : Link).state = .off ∧
      bayNode.link.state ≠ .off := by
  refine ⟨by decide, ⟨_, rfl⟩, by decide, by decide, by decide⟩

/-- An attempt of each buffer. -/
def attempting (b : Buffer) : State :=
  { selectorNode with
    latch := { Latch.reset with entries := [⟨.sensorDisagree, 1, 1000, .none, none⟩] }
    link := { selectorNode.link with attempt := some { buffer := b, ident := 0, data := [] }, tally := none } }

/-- The same with both formations put off. -/
def owing (b : Buffer) : State :=
  { attempting b with link := { (attempting b).link with statusDue := true, tallyDue := true } }

/-- Both formations wait for the end of an attempt, beside an unsent STATUS. -/
theorem witness_LinkErrors_due :
    (owing .handoff).link.attempt.isSome = true ∧ (owing .handoff).link.state ≠ .off ∧
      (owing .handoff).link.statusDue = true ∧ (owing .handoff).link.tallyDue = true ∧
      (owing .handoff).link.status ≠ none ∧ (owing .handoff).link.tally = none := by decide

theorem witness_SilenceAndPeriods :
    let s : State := { inState .discharging with view := { LineView.reset with silenceTimer := some 0 } }
    let t := after .transmitSelection { selectorNode with link := { selectorNode.link with
      fifo := [], replies := Vector.replicate 3 none } }
    (s.view.silenceTimer = some 0 ∧ (s.bay 2).slot = .pack .discharging pack ∧ (s.bay 1).slot = .empty) ∧
      (selectorNode.link.statusTimer = some 0 ∧ selectorNode.link.tallyTimer = some 0 ∧
        selectorNode.link.attempt = none) ∧
      (t.link.statusTimer = some 0 ∧ t.link.attempt.map Attempt.buffer = some .status) := by decide

theorem witness_TransmitSelection :
    (bayNode.startup.life = .running ∧ bayNode.link.state ≠ .off ∧ bayNode.link.attempt = none ∧
        bayNode.latch.entries = [] ∧ bayNode.link.fifo = [] ∧ (∀ p : TerminalNo, bayNode.link.replies[p] = none) ∧
        bayNode.link.status = none ∧ bayNode.link.tally = none) ∧
      ((selectorNode.raise .sensorDisagree .none none).latch.entries.map PendingEntry.cause = [.sensorDisagree]) ∧
      (selectorNode.latch.entries = [] ∧
        selectorNode.link.fifo = plainHandoff .take 3 9300 2 :: [plainHandoff .settle 4 9301 1] ∧
        selectorNode.link.replies[1].isSome = true ∧ (∀ q : TerminalNo, q < 1 → selectorNode.link.replies[q] = none)) ∧
      State.reset.startup.life ≠ .running := by decide

/-- A node whose only buffer in use is a reply slot, with a payload at each end of its range, or the STATUS or TALLY slot. -/
theorem witness_TransmitSelection_each :
    (∀ n ∈ [0, 56], let r : Reply := { code := 15, reason := none, bay := 15, number := 1, role := 0,
                                       payload := List.replicate n 0 }
      let s : State := { bayNode with link := { Link.reset with replies := #v[none, none, some r] } }
      s.latch.entries = [] ∧ s.link.fifo = [] ∧ s.link.replies[(2 : TerminalNo)] = some r ∧
        (∀ q : TerminalNo, q < 2 → s.link.replies[q] = none) ∧ r.payload.length ≤ 56 ∧
        s.startup.life = .running ∧ s.link.state ≠ .off ∧ s.link.attempt = none) ∧
      (let s : State := { selectorNode with link := { selectorNode.link with fifo := [], replies := Vector.replicate 3 none } }
       s.latch.entries = [] ∧ (∀ p : TerminalNo, s.link.replies[p] = none) ∧ s.link.status.isSome = true ∧
         (after .tallyPeriodExpiry { s with link := { s.link with status := none } }).link.tally.isSome = true ∧
         (after .tallyPeriodExpiry { s with link := { s.link with status := none } }).link.status = none) := by decide

theorem witness_TransmitSuccess :
    (∀ b ∈ [Buffer.alarm .sensorDisagree, .handoff, .reply 1, .status, .tally],
      (attempting b).link.attempt = some { buffer := b, ident := 0, data := [] } ∧
        (attempting b).resetAttempt b = false ∧ (attempting b).link.state ≠ .off ∧
        (attempting b).link.statusDue = false ∧ (attempting b).link.tallyDue = false ∧
        (attempting b).latch.after = none ∧ (owing b).link.attempt = some { buffer := b, ident := 0, data := [] } ∧
        (owing b).resetAttempt b = false ∧ (owing b).link.state ≠ .off ∧ (owing b).link.statusDue = true ∧
        (owing b).link.tallyDue = true) ∧
      (attempting (.reply 1)).requests.held[(1 : TerminalNo)] = none ∧
      (attempting .status).link.status = some (statusOf 1 0 0) := by decide

/-- Two raises of the cause under attempt: the first starts a count of its own and the second adds to it. -/
theorem witness_TransmitSuccess_raises :
    let s := attempting (.alarm .sensorDisagree)
    let t := s.raise .sensorDisagree .none none
    s.attempting .sensorDisagree = true ∧ s.latch.after = none ∧ t.attempting .sensorDisagree = true ∧
      t.latch.after.map PendingEntry.count = some 1 ∧
      (t.raise .sensorDisagree .none none).latch.after.map PendingEntry.count = some 2 ∧
      s.attempting .jam = false := by decide

/-- A request in LISTEN, one that is held, one met by a pending reset, and one of each form. -/
theorem witness_RequestPathsAndForms :
    requestRow (.purgeReset (askOf 3 15)) = some (8, askOf 3 15) ∧
      ({ bayNode with startup := { bayNode.startup with life := .listen } } : State).HearsTerminal 8 (askOf 3 15) 0 ∧
      (after (.nodeReset { askOf 3 15 with src := 13 }) bayNode).HearsRequest 8 (askOf 3 15) 0 ∧
      (after (.identify (askOf 3 15)) bayNode).HearsRequest 8 (askOf 3 15) 0 ∧
      bayNode.Evaluates 0 (askOf 3 15) 0 ∧ bayNode.Evaluates 17 (askOf 3 15) 0 ∧
      bayNode.Evaluates 8 (askOf 3 15) 0 ∧ shredNode.Evaluates 1 (askOf 10 2) 0 ∧
      bayNode.Evaluates 1 (askOf 3 4) 0 ∧ bayNode.Evaluates 13 (askOf 3 0) 0 ∧
      ((after (.identify (askOf 3 15)) bayNode).link.replies[(0 : TerminalNo)] ≠ none ∧
        (after (.nodeReset { askOf 3 15 with src := 13 }) bayNode).requests.resetPending = true ∧
        bayNode.isShred = false ∧ shredNode.isBay = false ∧ 3 < (askOf 3 4).bay.toNat ∧ (askOf 3 0).bay ≠ 15) :=
  ⟨rfl, hearsTerminal_of (by decide), hearsRequest_of (by decide) (by decide), hearsRequest_of (by decide) (by decide),
    evaluates_of (by decide) (by decide), evaluates_of (by decide) (by decide), evaluates_of (by decide) (by decide),
    evaluates_of (by decide) (by decide), evaluates_of (by decide) (by decide), evaluates_of (by decide) (by decide),
    by decide⟩

/-- Fourteen cells of P0 at 6,387, the most that R5 admits, with 5 of the 6 places counted. -/
def admitting : State :=
  { bayNode.setBay 2 { bayWith .empty with latest := { presence := true, v := some 6387, i := some 0, t := some 80 } } with
    store := List.replicate 5 { tag := none, bay := 0, reason := .orphan, time := 0 } }

theorem witness_AdmitAccepted :
    admitting.Evaluates 1 (askOf 3 2) 0 ∧ admitting.isBay = true ∧ (askOf 3 2).bay.toNat = (2 : BayNo).val ∧
      (admitting.bay 2).slot = .empty ∧ (admitting.bay 2).latest.presence = true ∧ (askOf 3 2).tag ≠ 0 ∧
      (askOf 3 2).tag ∉ admitting.bayTags ∧ 1 ≤ (askOf 3 2).s.toNat ∧ (askOf 3 2).s.toNat ≤ 32 ∧
      (askOf 3 2).capacity.toNat ≤ 2000 ∧ timeLimitOf admitting.profile (askOf 3 2).timeCode.toNat = some 480 ∧
      (admitting.bay 2).latest.v = some 6387 ∧ 6387 ≤ (askOf 3 2).s.toNat * admitting.profile.nominalCell * 5 / 4 ∧
      admitting.fire.zone ≠ .fire ∧ admitting.fire.impaired = false ∧ admitting.view.lineFire = false ∧
      admitting.l1Count + 1 ≤ admitting.capacity ∧ admitting.condition .bayOverheat = false :=
  ⟨evaluates_of (by decide) (by decide), by decide⟩

/-- Each condition of R5 broken on its own: a record, no presence, tag 0, s = 33, a V of 6,388, FIRE, line_fire, and all
6 places counted. -/
theorem witness_AdmitRefused :
    admitting.Evaluates 1 (askOf 3 2) 0 ∧ (inState .safe).Evaluates 1 (askOf 3 2) 0 ∧
      bayNode.Evaluates 1 (askOf 3 2) 0 ∧ admitting.Evaluates 1 { askOf 3 2 with tag := 0 } 0 ∧
      admitting.Evaluates 1 { askOf 3 2 with s := 33 } 0 ∧ (stopped admitting).Evaluates 1 (askOf 3 2) 0 ∧
      ({ admitting with store := { tag := none, bay := 0, reason := .orphan, time := 0 } :: admitting.store } : State).Evaluates
        1 (askOf 3 2) 0 ∧
      ((inState .safe).isBay = true ∧ ((inState .safe).bay 2).slot.record ≠ none ∧
        (admitting.bay 2).slot.record = none ∧ (bayNode.bay 2).latest.presence = false ∧
        (admitting.bay 2).latest.presence = true ∧ 32 < ({ askOf 3 2 with s := 33 }).s.toNat ∧
        (askOf 3 2).s.toNat * admitting.profile.nominalCell * 5 / 4 < 6388 ∧
        (stopped admitting).view.lineFire = true ∧
        admitting.capacity ≤ ({ admitting with
          store := { tag := none, bay := 0, reason := .orphan, time := 0 } :: admitting.store } : State).l1Count) :=
  ⟨evaluates_of (by decide) (by decide), evaluates_of (by decide) (by decide), evaluates_of (by decide) (by decide),
    evaluates_of (by decide) (by decide), evaluates_of (by decide) (by decide), evaluates_of (by decide) (by decide),
    evaluates_of (by decide) (by decide), by decide⟩

theorem witness_AbortAndAccountClear :
    ((∀ st ∈ [PackState.admitted, .discharging, .held .thermal, .resting, .safe, .offered 10, .releasing 10,
        .inTransit 10, .rejected, .missing], ((inState st).bay 2).slot = .pack st pack ∧
          asksTest (inState st) 2 (askOf 3 2) 0 = true ∧ (inState st).startup.life = .running)) ∧
      bayNode.Evaluates 2 (askOf 3 2) 0 ∧ (inState .missing).Evaluates 6 (askOf 3 2) 0 ∧
      (after (.transitTimerExpiry 2) transitNode).Evaluates 6 (askOf 3 15) 0 ∧
      bayNode.Evaluates 6 { askOf 3 15 with tag := 0 } 0 ∧ bayNode.Evaluates 6 (askOf 3 15) 0 ∧
      ((after (.transitTimerExpiry 2) transitNode).unaccounted =
          [] ++ { tag := 9300, bay := 2, shred := 10, time := 1000 } :: [] ∧ bayNode.unaccounted = [] ∧
        bayNode.isBay = true ∧ (askOf 3 2).bay.toNat = (2 : BayNo).val) :=
  ⟨by decide, evaluates_of (by decide) (by decide), evaluates_of (by decide) (by decide),
    evaluates_of (by decide) (by decide), evaluates_of (by decide) (by decide), evaluates_of (by decide) (by decide),
    by decide⟩

/-- A bay with an ORPHAN that was lifted out, with some counted places. -/
def orphanNode (places : Nat) : State :=
  { bayNode.setBay 2 { bayWith .orphan with latest := Readings.reset } with
    store := List.replicate places { tag := none, bay := 0, reason := .orphan, time := 0 } }

theorem witness_QuarantineRequests :
    ((bayNode.setBay 2 rejectedBay).Evaluates 4 (askOf 3 2) 0 ∧ (orphanNode 5).Evaluates 4 (askOf 3 2) 0 ∧
        (orphanNode 6).Evaluates 4 (askOf 3 2) 0 ∧ (inState .safe).Evaluates 4 (askOf 3 2) 0 ∧
        (inState .rejected).Evaluates 4 (askOf 3 2) 0) ∧
      ((after (.quarantineIn { askOf 3 2 with src := 13 }) (bayNode.setBay 2 rejectedBay)).Evaluates 5 (askOf 3 15) 0 ∧
        (orphanNode 1).Evaluates 5 { askOf 3 15 with tag := 0 } 0 ∧ bayNode.Evaluates 5 { askOf 3 15 with tag := 0 } 0) ∧
      (((bayNode.setBay 2 rejectedBay).bay 2).slot = .pack .rejected { pack with endCause := some .abort } ∧
        ((bayNode.setBay 2 rejectedBay).bay 2).latest.presence = false ∧ ((orphanNode 5).bay 2).slot = .orphan ∧
        (orphanNode 5).l1Count + 1 ≤ (orphanNode 5).capacity ∧ (orphanNode 6).capacity < (orphanNode 6).l1Count + 1 ∧
        ((inState .rejected).bay 2).latest.presence = true ∧
        (after (.quarantineIn { askOf 3 2 with src := 13 }) (bayNode.setBay 2 rejectedBay)).store =
          [] ++ { tag := some 9300, bay := 2, reason := .ended .abort, time := 1000 } :: [] ∧
        (orphanNode 1).store = [] ++ { tag := none, bay := 0, reason := .orphan, time := 0 } :: [] ∧
        ([] : List QuarantineEntry).length = (askOf 3 15).index.toNat ∧
        bayNode.store.length ≤ (askOf 3 15).index.toNat) :=
  ⟨⟨evaluates_of (by decide) (by decide), evaluates_of (by decide) (by decide), evaluates_of (by decide) (by decide),
    evaluates_of (by decide) (by decide), evaluates_of (by decide) (by decide)⟩,
    ⟨evaluates_of (by decide) (by decide), evaluates_of (by decide) (by decide), evaluates_of (by decide) (by decide)⟩,
    by decide⟩

/-- An alarm that may end, at a BAY node with an exposed record and at a SHRED node in FLOOD, and one whose source still
stands. -/
theorem witness_AlarmResetEndsTheAlarm :
    let s : State := { bayNode.setBay 2 (bayWith (.pack .safe { pack with fireExposed := true })) with
      fire := { Fire.reset with zone := .fire } }
    let t : State := { shredNode with atmos := { Atmos.reset with state := .flood, purge := true, flood := true } }
    let h := after (.fireSample { calm with d0 := some 550 }) (sensing bayNode)
    (s.Evaluates 7 (askOf 3 15) 0 ∧ t.Evaluates 7 (askOf 10 15) 0 ∧ h.Evaluates 7 (askOf 3 15) 0) ∧
      ((∀ x ∈ s.fire.sources, x.grade = .none) ∧ s.isBay = true ∧ s.fire.zone = .fire ∧
        (∀ x ∈ t.fire.sources, x.grade = .none) ∧ t.isShred = true ∧ t.atmos.state = .flood ∧
        ∃ x ∈ h.fire.sources, x.grade ≠ .none) :=
  ⟨⟨evaluates_of (by decide) (by decide), evaluates_of (by decide) (by decide),
    evaluates_of (by decide) (by decide)⟩, by decide⟩

/-- A SHRED node that is clear for a SHRED_RESET, with a queue or none. -/
def clearNode (q : List QueueEntry) : State :=
  { shredNode with atmos := { Atmos.reset with state := .lockout }, feed := { Feed.reset with queue := q } }

theorem witness_ShredderRequests :
    let q := [queued 9300 1890 0]
    ((clearNode q).Evaluates 8 (askOf 10 15) 0 ∧ feedNode.Evaluates 8 (askOf 10 15) 0 ∧
        (clearNode q).Evaluates 9 (askOf 10 15) 0 ∧ (clearNode []).Evaluates 9 (askOf 10 15) 0 ∧
        (clearNode q).Evaluates 10 { askOf 10 15 with headAction := 1 } 0 ∧
        (clearNode []).Evaluates 10 { askOf 10 15 with headAction := 1 } 0 ∧ feedNode.Evaluates 10 (askOf 10 15) 0 ∧
        (clearNode q).Evaluates 10 { askOf 10 15 with headAction := 2 } 0) ∧
      ((clearNode q).isShred = true ∧ (clearNode q).atmos.state = .lockout ∧ feedNode.atmos.state ≠ .lockout ∧
        (clearNode q).feed.queue = queued 9300 1890 0 :: [] ∧ (clearNode []).feed.queue = [] ∧
        ((clearNode q).feed.rotor = .stopped ∧ (clearNode q).feed.feedback = false ∧ (clearNode q).feed.kind = .none ∧
          (clearNode q).feed.confirm = false ∧ (clearNode q).chute.sensor = false) ∧
        feedNode.feed.rotor ≠ .stopped ∧ 1 < ({ askOf 10 15 with headAction := 2 }).headAction.toNat) :=
  ⟨⟨evaluates_of (by decide) (by decide), evaluates_of (by decide) (by decide), evaluates_of (by decide) (by decide),
    evaluates_of (by decide) (by decide), evaluates_of (by decide) (by decide), evaluates_of (by decide) (by decide),
    evaluates_of (by decide) (by decide), evaluates_of (by decide) (by decide)⟩, by decide⟩

/-- A record and none; record 0, 1, 6 and 7 with index 0, 1 and 2; quarantine index 0, 16 and 20. -/
theorem witness_ReadsAnswer :
    (requestRow (.readRecord (askOf 3 2)) = some (12, askOf 3 2) ∧
        requestRow (.readTally (askOf 3 15)) = some (13, askOf 3 15) ∧
        requestRow (.readQuarantine (askOf 3 15)) = some (14, askOf 3 15) ∧
        requestRow (.identify (askOf 3 15)) = some (15, askOf 3 15)) ∧
      ((inState .safe).Evaluates 12 (askOf 3 2) 0 ∧ bayNode.Evaluates 12 (askOf 3 2) 0 ∧
        bayNode.Evaluates 13 { askOf 3 15 with record := 6, index := 1 } 0 ∧
        bayNode.Evaluates 13 { askOf 3 15 with record := 7 } 0 ∧
        bayNode.Evaluates 13 { askOf 3 15 with record := 6, index := 2 } 0 ∧
        (orphanNode 1).Evaluates 14 (askOf 3 15) 0 ∧
        (after (.transitTimerExpiry 2) transitNode).Evaluates 14 { askOf 3 15 with index := 16 } 0 ∧
        bayNode.Evaluates 14 { askOf 3 15 with index := 19 } 0 ∧ bayNode.Evaluates 14 { askOf 3 15 with index := 20 } 0 ∧
        bayNode.Evaluates 15 (askOf 3 15) 0) ∧
      (((inState .safe).bay 2).slot.record = some pack ∧ (bayNode.bay 2).slot.record = none ∧
        (orphanNode 1).store[0]? = some { tag := none, bay := 0, reason := .orphan, time := 0 } ∧
        (after (.transitTimerExpiry 2) transitNode).unaccounted[16 - 16]? =
          some { tag := 9300, bay := 2, shred := 10, time := 1000 } ∧ bayNode.unaccounted.length ≤ 19 - 16) :=
  ⟨⟨rfl, rfl, rfl, rfl⟩,
    ⟨evaluates_of (by decide) (by decide), evaluates_of (by decide) (by decide), evaluates_of (by decide) (by decide),
      evaluates_of (by decide) (by decide), evaluates_of (by decide) (by decide), evaluates_of (by decide) (by decide),
      evaluates_of (by decide) (by decide), evaluates_of (by decide) (by decide), evaluates_of (by decide) (by decide),
      evaluates_of (by decide) (by decide)⟩, by decide⟩

/-- Every record number and index is evaluated, those that name a part of T1 to T6 and those that name none. -/
theorem witness_ReadsAnswer_parts (record index : Byte) :
    bayNode.Evaluates 13 { askOf 3 15 with record := record, index := index } 0 ∧
      ((inState .safe).bay 2).slot = .pack .safe pack :=
  ⟨evaluates_of rfl (by decide), by decide⟩

theorem witness_NodeResetTakesALineReset :
    let s := after .transmitSelection (after (.nodeReset (askOf 3 15)) bayNode)
    bayNode.Evaluates 16 (askOf 3 15) 0 ∧ (inState .discharging).Evaluates 16 (askOf 3 15) 0 ∧
      reservedNode.Evaluates 16 (askOf 10 15) 0 ∧
      ((inState .discharging).bay 2).slot = .pack .discharging pack ∧ reservedNode.chute.reservation ≠ none ∧
      (s.link.attempt.map Attempt.buffer = some (.reply 0) ∧ s.requests.resetPending = true ∧
        s.link.replies[(0 : TerminalNo)] =
          some { code := 16, reason := none, bay := 15, number := 77, role := 0, payload := [] }) :=
  ⟨evaluates_of (by decide) (by decide), evaluates_of (by decide) (by decide), evaluates_of (by decide) (by decide),
    by decide⟩

/-- Node 10 with its zone in FIRE, flooding, a peer heard, and NODE_RESET's reply under attempt: the line reset clears them
(R112, R126, R144, R172). -/
theorem witness_NodeResetTakesALineReset_clears :
    let s := after (.fireSample { calm with loop := 1000 }) (sensing (after .transmitSelection
      (after (.nodeReset (askOf 10 15)) takingNode)))
    let t := after .transmitSuccess s
    (s.link.attempt.map Attempt.buffer = some (.reply 0) ∧ s.requests.resetPending = true ∧
        s.link.replies[(0 : TerminalNo)].map Reply.code = some 16) ∧
      (s.fire.zone = .fire ∧ s.atmos.state = .flood ∧ s.latch.entries ≠ [] ∧ (s.peers[3]).state = .present) ∧
      (t.fire.zone = .normal ∧ t.atmos.state = .air ∧ t.latch.entries = [] ∧ (t.peers[3]).state = .absent) := by decide

/-! The laws are premises too: states away from reset that meet them, with a command in front. -/

/-- A state with a command in front, and the state after its step. -/
def front (c : Instr) (s : State) : State := { s with pending := [c] }

theorem witness_LineViewLawKept :
    (front (.statusReceived 4 15 (statusOf 2 2 0)) heardNode).LineViewLaw ∧
      (∃ t, step (front (.statusReceived 4 15 (statusOf 2 2 0)) heardNode) = .next t) ∧
      heardNode.view.lineFire = false :=
  ⟨⟨by decide, by decide⟩, ⟨_, rfl⟩, by decide⟩

/-- A bay in DISCHARGING as the laws ask for it. -/
def lawfulBay : State :=
  bayNode.setBay 2 { discharging with slot := .pack .discharging { pack with setpoint := 850 } }

theorem bayConsistent_of {x : Bay}
    (h : x.contactor = x.slot.isDischarging ∧ x.sink = x.slot.setpoint ∧
      (x.slot.isDischarging = false → x.slot.setpoint = 0) ∧
      x.gate = (x.slot.isReleasing && !x.slot.settledEarly) ∧
      (x.slot.settledEarly = true → x.slot.isReleasing = true) ∧
      (x.restTimer.isSome = true ∨ x.restOwed = true → x.slot.isResting = true) ∧
      x.answerTimer.isSome = x.slot.isOffered ∧ x.releaseTimer.isSome = x.slot.isReleasing ∧
      x.transitTimer.isSome = x.slot.isInTransit ∧
      (x.backoff.isSome = true ∨ x.jammed = true → x.slot.isSafe = true) ∧
      (x.share.isSome = true → x.slot.isDischarging = true)) : x.Consistent :=
  ⟨h.1, h.2.1, h.2.2.1, h.2.2.2.1, h.2.2.2.2.1, h.2.2.2.2.2.1, h.2.2.2.2.2.2.1, h.2.2.2.2.2.2.2.1,
    h.2.2.2.2.2.2.2.2.1, h.2.2.2.2.2.2.2.2.2.1, h.2.2.2.2.2.2.2.2.2.2⟩

theorem witness_BayLawKept :
    lawfulBay.BayLaw ∧ (lawfulBay.bay 2).contactor = true ∧
      ∃ t, step (front (.bayConversion 2 (reads 4820 905 51)) lawfulBay) = .next t := by
  refine ⟨fun b => ⟨bayConsistent_of ?_, ?_⟩, by decide, ⟨_, rfl⟩⟩
  · revert b; decide
  · revert b; decide

/-- The feed gate open, in an INERT atmosphere. -/
def gateOpen : State := feedingNode .active

theorem witness_FeedLawKept :
    gateOpen.FeedLaw ∧ (gateOpen.feed.gate = true ∧ feedNode.feed.gate = false ∧
        (after .feedPeriodExpiry feedNode).feed.gate = true) ∧
      ∃ t, step (front .feedTimerExpiry gateOpen) = .next t := by
  refine ⟨⟨⟨?_, ?_, ?_, ?_, ?_, ?_, ?_⟩, ⟨?_, ?_, ?_, ?_, ?_, ?_, ?_, ?_⟩, ?_, ?_⟩, by decide, ⟨_, rfl⟩⟩ <;> decide

theorem witness_IntakeAndTransferLawsKept :
    (nearlyFull.IntakeLaw ∧ nearlyFull.TransferLaw) ∧
      ((after (.offerReceived (tellOf 3 10)) nearlyFull).chute.reservation ≠ none ∧
        nearlyFull.chute.reservation = none) ∧
      (((after .offerCheck offerNode).bay 2).slot.isOffered = true ∧ (offerNode.bay 2).slot.isOffered = false) ∧
      ∃ t, step (front (.offerReceived (tellOf 3 10)) nearlyFull) = .next t := by
  refine ⟨⟨?_, ?_⟩, by decide, by decide, ⟨_, rfl⟩⟩
  · unfold State.IntakeLaw; decide
  · unfold State.TransferLaw; decide

theorem witness_CapacityAndTagLawsKept :
    (admitting.QuarantineLaw ∧ lawfulBay.TagLaw) ∧ (after (.admitPack (askOf 3 2)) admitting).capacity = admitting.capacity ∧
      ∃ t, step (front (.admitPack (askOf 3 2)) admitting) = .next t := by
  refine ⟨⟨?_, ?_⟩, by decide, ⟨_, rfl⟩⟩
  · unfold State.QuarantineLaw; decide
  · unfold State.TagLaw; decide

/-- One pack admitted and held. -/
def balanced : State := { lawfulBay with tally := { Tally.reset with t1 := { Tally.reset.t1 with admitted := 1 } } }

theorem witness_ConservationLawKept :
    balanced.ConservationLaw ∧ (after .resetPinAsserted balanced).tally.t1.below ∧
      (front .resetPinAsserted balanced).pending = .resetPinAsserted :: [] ∧
      ∃ t, step (front .resetPinAsserted balanced) = .next t := by
  refine ⟨?_, ?_, rfl, ⟨_, rfl⟩⟩
  · unfold State.ConservationLaw; decide
  · unfold Tally1.below; decide

theorem witness_HeadroomLawKept :
    (after .headroomComputation headroomNode).HeadroomLaw ∧
      ∃ t, step (front (.bayConversion 2 gone) (after .headroomComputation headroomNode)) = .next t := by
  refine ⟨?_, ⟨_, rfl⟩⟩
  unfold State.HeadroomLaw; decide

theorem witness_OutputsAndBuffersKept :
    (shown.RelayLaw ∧ shown.LampLaw ∧ shown.LinkLaw ∧ shown.LatchLaw ∧ shown.FifoLaw ∧ selectorNode.ReplyLaw) ∧
      ∃ t, step (front .resetPinAsserted shown) = .next t := by
  refine ⟨⟨?_, ?_, ?_, ?_, ?_, ?_⟩, ⟨_, rfl⟩⟩
  · unfold State.RelayLaw; decide
  · unfold State.LampLaw; decide
  · show shown.link.txErrors ≤ 255 ∧ _
    decide
  · unfold State.LatchLaw; decide
  · unfold State.FifoLaw; decide
  · unfold State.ReplyLaw; decide

/-- A command that changes a pattern, one that keeps a blink in mid-phase, and a lamp of each pattern. -/
theorem witness_OutputsAndBuffersKept_phases :
    let s : State := { shown with lamps := { shown.lamps with beacon := { shown.lamps.beacon with phase := 700 } } }
    (front .resetPinAsserted shown).pending ≠ [] ∧ shown.lamps.beacon.pattern = .blink 500 500 ∧
      shown.lamps.node.pattern = .steady ∧ (shown.lamps.bays[(0 : BayNo)]).pattern = .off ∧
      (after (.fireSample { calm with d0 := some 550 }) (sensing s)).lamps.beacon.phase = 700 ∧
      (after .resetPinAsserted s).lamps.beacon.pattern = .off ∧ s.lamps.beacon.lit = false ∧
      shown.lamps.beacon.lit = true := by decide

theorem witness_SilenceLawKept :
    (after .resetPinAsserted shown).SilenceLaw ∧ (after .resetPinAsserted shown).startup.life ≠ .running ∧
      ∃ t, step (front (.endOfReset sampled) (after .resetPinAsserted shown)) = .next t :=
  ⟨fun _ => ⟨by decide, by decide, by decide, by decide, by decide, by decide, by decide⟩, by decide, ⟨_, rfl⟩⟩

theorem witness_AcceptingFlagLaw :
    let s : State := front .statusPeriodExpiry { takingNode with link := { Link.reset with statusTimer := some 0 } }
    let t := after .statusPeriodExpiry s
    (∃ u, step s = .next u) ∧ s.link.status = none ∧ t.link.status.isSome = true ∧ t.isShred = true ∧
      t.link.status.map (fun f => f.flags.getLsbD 4) = some true :=
  ⟨⟨_, rfl⟩, by decide⟩

theorem witness_FramesDecodeToTheirRows :
    (encodeFrame (.admitPack (askOf 3 2))).isSome = true ∧ (Instr.admitPack (askOf 3 2)).wellFormed = true ∧
      (encodeFrame (.unknownRequest 17 (askOf 3 15))).isSome = true ∧
      (Instr.unknownRequest 17 (askOf 3 15)).wellFormed = true ∧
      (encodeFrame (.statusReceived 11 15 (statusOf 2 2 0))).isSome = true ∧
      (Instr.statusReceived 11 15 (statusOf 2 2 0)).wellFormed = true := by decide

end Sys2Proof.Tests
end

