-- ==== Sys2Proof/Proofs/Headroom.lean ====
section
/-! One headroom computation (R55 to R58): what stands in the state after it, and the line limit as a minimum. -/

namespace Sys2Proof.Machine

open Sys2Proof Sys2Proof.Config

/-! ### The line limit -/

/-- A peer's class is among the classes that a computation takes exactly when some place of the peer table holds it. -/
theorem State.mem_peerWatts (s : State) (w : Nat) :
    w ∈ s.peers.toList.filterMap Peer.watts ↔ ∃ k : NodeNo, (s.peers[k]).watts = some w := by
  rw [List.mem_filterMap]
  constructor
  · rintro ⟨p, hp, hw⟩
    obtain ⟨i, hi, rfl⟩ := Vector.mem_iff_getElem.1 (Vector.mem_toList_iff.1 hp)
    exact ⟨⟨i, hi⟩, hw⟩
  · rintro ⟨k, hw⟩
    exact ⟨s.peers[k], Vector.mem_toList_iff.2 (Vector.getElem_mem k.isLt), hw⟩

/-- R55: the line limit is the minimum of the own class and the classes of the peers that are not ABSENT. -/
theorem State.min?_classes_eq_lineLimit (s : State) :
    (s.ownClass :: s.peers.toList.filterMap Peer.watts).min? = some s.lineLimit :=
  List.min?_cons'

theorem State.lineLimit_le_ownClass (s : State) : s.lineLimit ≤ s.ownClass :=
  (List.min?_eq_some_iff.1 s.min?_classes_eq_lineLimit).2 _ List.mem_cons_self

theorem State.lineLimit_le_watts (s : State) {k : NodeNo} {w : Nat} (hw : (s.peers[k]).watts = some w) :
    s.lineLimit ≤ w :=
  (List.min?_eq_some_iff.1 s.min?_classes_eq_lineLimit).2 _
    (List.mem_cons_of_mem _ ((s.mem_peerWatts w).2 ⟨k, hw⟩))

/-- The line limit is attained, by the own class or by a peer. -/
theorem State.lineLimit_attained (s : State) :
    s.lineLimit = s.ownClass ∨ ∃ k : NodeNo, (s.peers[k]).watts = some s.lineLimit := by
  have hmem := (List.min?_eq_some_iff.1 s.min?_classes_eq_lineLimit).1
  rwa [List.mem_cons, s.mem_peerWatts] at hmem

/-! ### The computation -/

theorem exec_headroomComputation_of_timer {s : State} {n : Nat} (h : s.headroom.timer = some n) :
    exec .headroomComputation s = .next s.computeHeadroom := by
  have harm : exec .headroomComputation s = execHeadroomComputation s := rfl
  simp [harm, execHeadroomComputation, h]

@[simp] theorem State.computeHeadroom_headroom (s : State) :
    s.computeHeadroom.headroom =
      { basis := s.headroom.basis, limit := s.lineLimit, others := s.sumOthers,
        allowance := allowanceOf s.lineLimit s.sumOthers s.headroom.basis, timer := some fastPeriod } := rfl

/-- R58: a computation writes the share of each bay, and nothing else of it. -/
theorem State.computeHeadroom_bay (s : State) (b : BayNo) :
    s.computeHeadroom.bay b = { s.bay b with
      share := shareOf s.computeHeadroom.headroom.allowance (s.countBays Slot.isDischarging) (s.bay b) } :=
  s.mapBays_bay (fun x => { x with
    share := shareOf s.computeHeadroom.headroom.allowance (s.countBays Slot.isDischarging) x }) b

/-- The frame of a computation: the bays and the headroom unit only. -/
theorem State.computeHeadroom_frame (s : State) :
    s.computeHeadroom = { s with bays := s.computeHeadroom.bays, headroom := s.computeHeadroom.headroom } := rfl

end Sys2Proof.Machine

namespace Sys2Proof.Proofs

open Sys2Proof Sys2Proof.Machine Sys2Proof.Config

/-- Settles O15: the computation's outcome is `computeHeadroom`, its limit is the minimum of R55, and the sum, the
allowance and the shares are those of R56 to R58. -/
theorem headroomComputation : Obligations.HeadroomComputation := by
  intro s n htimer
  refine ⟨s.computeHeadroom, exec_headroomComputation_of_timer htimer, s.lineLimit_le_ownClass,
    fun _ _ hw => s.lineLimit_le_watts hw, s.lineLimit_attained, ?sum, ?allowance, s.computeHeadroom_bay,
    ?basis, ?period, s.computeHeadroom_frame⟩
  case sum => simp [State.sumOthers]
  case allowance => simp [allowanceOf, nodeMaxPower, allowanceRise]
  case basis => simp
  case period => simp [fastPeriod]

end Sys2Proof.Proofs
end

