-- ==== Sys2Proof/Proofs/Counts.lean ====
section
/-! The counts over the bay table (R81), bay by bay: what a change of one bay does to them, and the lowest place that
meets a test. -/

namespace Sys2Proof.Machine

open Sys2Proof Sys2Proof.Config

/-! ### Counts over the bays -/

theorem State.countBays_eq_countP (s : State) (p : Slot → Bool) :
    s.countBays p = (List.finRange 4).countP (fun b => p (s.bay b).slot) := by
  rw [State.countBays, show s.bays.toList = (List.finRange 4).map s.bay from s.bays_toList, List.countP_map]
  rfl

/-- A count does not grow when every bay that meets the test met it before. -/
theorem State.countBays_le {s t : State} {p : Slot → Bool}
    (h : ∀ b : BayNo, p (t.bay b).slot = true → p (s.bay b).slot = true) : t.countBays p ≤ s.countBays p := by
  rw [s.countBays_eq_countP, t.countBays_eq_countP]
  exact List.countP_mono_left fun b _ => h b

/-- A changed bay leaves its part of the count and takes its new one. -/
theorem State.countBays_setBay (s : State) (b : BayNo) (x : Bay) (p : Slot → Bool) :
    (s.setBay b x).countBays p + (p (s.bay b).slot).toNat = s.countBays p + (p x.slot).toNat := by
  have hrest : ((List.finRange 4).erase b).countP (fun k => p ((s.setBay b x).bay k).slot) =
      ((List.finRange 4).erase b).countP (fun k => p (s.bay k).slot) :=
    List.countP_congr fun k hk => by
      rw [s.setBay_bay_ne b k x ((List.nodup_finRange 4).mem_erase_iff.1 hk).1]
  have hsplit : ∀ u : State, u.countBays p =
      ((List.finRange 4).erase b).countP (fun k => p (u.bay k).slot) + (p (u.bay b).slot).toNat := by
    intro u
    rw [u.countBays_eq_countP, (List.perm_cons_erase (List.mem_finRange b)).countP_eq, List.countP_cons]
    cases p (u.bay b).slot <;> rfl
  rw [hsplit (s.setBay b x), hsplit s, hrest, s.setBay_bay_self]
  omega

/-! ### The lowest bay and the lowest peer -/

theorem State.lowestBay_eq_find? (s : State) (p : Bay → Bool) : s.lowestBay p = Fin.find? (fun b => p (s.bay b)) :=
  Fin.find?_eq_find?_finRange.symm

theorem State.lowestPeer_eq_find? (s : State) (p : Peer → Bool) :
    s.lowestPeer p = Fin.find? (fun n : NodeNo => p s.peers[n]) :=
  Fin.find?_eq_find?_finRange.symm

theorem State.lowestBay_eq_some_iff (s : State) (p : Bay → Bool) (b : BayNo) :
    s.lowestBay p = some b ↔ p (s.bay b) = true ∧ ∀ i < b, p (s.bay i) = false := by
  rw [s.lowestBay_eq_find?, Fin.find?_eq_some_iff]

theorem State.lowestBay_eq_none_iff (s : State) (p : Bay → Bool) :
    s.lowestBay p = none ↔ ∀ b : BayNo, p (s.bay b) = false := by
  rw [s.lowestBay_eq_find?, Fin.find?_eq_none_iff]

theorem State.lowestPeer_eq_some_iff (s : State) (p : Peer → Bool) (n : NodeNo) :
    s.lowestPeer p = some n ↔ p s.peers[n] = true ∧ ∀ i : NodeNo, i < n → p s.peers[i] = false := by
  rw [s.lowestPeer_eq_find?, Fin.find?_eq_some_iff]

theorem State.lowestPeer_eq_none_iff (s : State) (p : Peer → Bool) :
    s.lowestPeer p = none ↔ ∀ n : NodeNo, p s.peers[n] = false := by
  rw [s.lowestPeer_eq_find?, Fin.find?_eq_none_iff]

end Sys2Proof.Machine
end

