-- ==== Sys2Proof/Proofs/OfferCheck.lean ====
section
/-! The offer check (R65, R66): when it offers, which bay to which peer, and what an offer changes. -/

namespace Sys2Proof.Machine

open Sys2Proof Sys2Proof.Config

/-! ### Eligibility -/

theorem Bay.offerable_iff (x : Bay) :
    x.offerable = true ↔ ∃ r : Record, x.slot = .pack .safe r ∧ x.backoff = none ∧ r.fireExposed = false := by
  unfold Bay.offerable
  split
  case h_1 r hslot => simp [hslot]
  case h_2 hslot => simpa using fun r h => absurd h (hslot r)

theorem State.mayOffer_iff (s : State) :
    s.mayOffer = true ↔ s.lineClear = true ∧ s.countBays Slot.isOffered = 0 ∧ s.transfers < 4 := by
  simp [State.mayOffer, and_assoc]

/-! ### The check -/

/-- The offer of the lowest offerable bay to the lowest accepting SHRED peer (R65). -/
theorem State.checkOffers_of_eligible {s : State} {b : BayNo} {n : NodeNo} {r : Record} (hmay : s.mayOffer = true)
    (hbay : s.lowestBay Bay.offerable = some b) (hpeer : s.lowestPeer Peer.acceptingShred = some n)
    (hslot : (s.bay b).slot = .pack .safe r) : s.checkOffers = (s.offer b n r).light := by
  simp [State.checkOffers, hmay, hbay, hpeer, hslot]

theorem State.checkOffers_of_not_eligible {s : State} (h : s.mayOffer = false ∨
    s.lowestBay Bay.offerable = none ∨ s.lowestPeer Peer.acceptingShred = none) : s.checkOffers = s := by
  unfold State.checkOffers
  rcases h with h | h | h
  · simp [h]
  · simp [h]
  · rw [h]
    split
    · rfl
    · cases s.lowestBay Bay.offerable <;> rfl

/-- The check does nothing, or it offers a SAFE bay (R65). -/
theorem State.checkOffers_cases (s : State) : s.checkOffers = s ∨
    ∃ (b : BayNo) (n : NodeNo) (r : Record), s.mayOffer = true ∧ (s.bay b).slot = .pack .safe r ∧
      s.checkOffers = (s.offer b n r).light := by
  cases hmay : s.mayOffer
  case false => exact .inl (s.checkOffers_of_not_eligible (.inl hmay))
  cases hbay : s.lowestBay Bay.offerable
  case none => exact .inl (s.checkOffers_of_not_eligible (.inr (.inl hbay)))
  case some b =>
    cases hpeer : s.lowestPeer Peer.acceptingShred
    case none => exact .inl (s.checkOffers_of_not_eligible (.inr (.inr hpeer)))
    case some n =>
      obtain ⟨r, hslot, -, -⟩ := (s.bay b).offerable_iff.1 ((s.lowestBay_eq_some_iff _ b).1 hbay).1
      exact .inr ⟨b, n, r, rfl, hslot, s.checkOffers_of_eligible hmay hbay hpeer hslot⟩

/-- The offer period starts again (R64). -/
def State.restartOfferPeriod (s : State) : State := { s with handoff := { s.handoff with offerTimer := some fastPeriod } }

theorem exec_offerCheck_of_timer {s : State} {k : Nat} (h : s.handoff.offerTimer = some k) :
    exec .offerCheck s = .next s.restartOfferPeriod.checkOffers := by
  have harm : exec .offerCheck s = execOfferCheck s := rfl
  simp [harm, execOfferCheck, h, State.restartOfferPeriod]

/-! ### What an offer changes -/

/-- The OFFER of a bay's record (R63, R66). -/
def offerFrame (b : BayNo) (n : NodeNo) (r : Record) : HandoffOut :=
  { dst := n, message := .offer, bay := b, s := r.s, reason := none, tag := r.tag, energy := r.e
    restV := r.reboundV.getD 0 }

/-- A bay when it is offered: OFFERED with the offer counted and the answer timer started (R66). -/
def Bay.offered (x : Bay) (n : NodeNo) (r : Record) : Bay :=
  { x.enter (.offered n) { r with offers := satAdd 255 r.offers 1 } with answerTimer := some answerMs }

theorem State.offer_eq (s : State) (b : BayNo) (n : NodeNo) (r : Record) :
    s.offer b n r = { s.setBay b ((s.bay b).offered n r) with
      link := { s.link with fifo := s.fifoWith (offerFrame b n r) }
      tally := { s.tally with t3 := { s.tally.t3 with offers := bump s.tally.t3.offers }, t6 := s.t6With } } := by
  have hplace := State.placeHandoff_eq s (s.setBay b ((s.bay b).offered n r)) (offerFrame b n r) rfl rfl rfl
  exact congrArg (fun u : State => u.onT3 (fun t => { t with offers := bump t.offers })) hplace

theorem State.offer_bay_self (s : State) (b : BayNo) (n : NodeNo) (r : Record) :
    (s.offer b n r).bay b = (s.bay b).offered n r := by
  rw [s.offer_eq]
  exact s.setBay_bay_self b _

theorem State.offer_bay_ne (s : State) {b k : BayNo} (n : NodeNo) (r : Record) (h : k ≠ b) :
    (s.offer b n r).bay k = s.bay k := by
  rw [s.offer_eq]
  exact s.setBay_bay_ne b k _ h

end Sys2Proof.Machine

namespace Sys2Proof.Proofs

open Sys2Proof Sys2Proof.Machine Sys2Proof.Config

/-- Settles O16: the check restarts its period; where R65 finds a bay and a peer, its outcome is `State.offer` of the
lowest of each, and otherwise nothing more. -/
theorem offerCheck : Obligations.OfferCheck := by
  intro s k htimer
  set u := s.restartOfferPeriod
  have hmay : u.mayOffer = true ↔ s.lineClear = true ∧ s.countBays Slot.isOffered = 0 ∧ s.transfers < 4 :=
    u.mayOffer_iff
  refine ⟨u.checkOffers, exec_offerCheck_of_timer htimer, ?handoff, ?offered, ?idle⟩
  case handoff =>
    rcases u.checkOffers_cases with h | ⟨b, n, r, -, -, h⟩
    · rw [h]; rfl
    · rw [h, u.offer_eq]; rfl
  case offered =>
    intro b n r hready hcan hslot hlower htakes hfirst
    have hbay : u.lowestBay Bay.offerable = some b := (u.lowestBay_eq_some_iff _ b).2
      ⟨(u.bay b).offerable_iff.2 hcan, fun i hi =>
        Bool.eq_false_iff.2 fun h => hlower i hi ((u.bay i).offerable_iff.1 h)⟩
    have hpeer : u.lowestPeer Peer.acceptingShred = some n := (u.lowestPeer_eq_some_iff _ n).2
      ⟨htakes, fun i hi => Bool.eq_false_iff.2 (hfirst i hi)⟩
    have hout := u.checkOffers_of_eligible (hmay.2 hready) hbay hpeer hslot
    have hself : u.checkOffers.bay b = (s.bay b).offered n r := by
      rw [hout, State.light_bay]; exact u.offer_bay_self b n r
    refine ⟨by rw [hself]; rfl, by rw [hself]; rfl, by rw [hself]; rfl, by rw [hself]; rfl, ?_, ?_, ?_, ?_⟩
    · rw [hout, u.offer_eq]; rfl
    · rw [hout, u.offer_eq]; rfl
    · intro k hk
      rw [hout, State.light_bay]; exact u.offer_bay_ne n r hk
    · rw [hout, u.offer_eq]; rfl
  case idle =>
    intro hnone
    have hsame : u.checkOffers = u := u.checkOffers_of_not_eligible <| by
      rcases hnone with h | h | h
      · exact .inl (Bool.eq_false_iff.2 (mt hmay.1 h))
      · exact .inr (.inl ((u.lowestBay_eq_none_iff _).2 fun b =>
          Bool.eq_false_iff.2 (mt (u.bay b).offerable_iff.1 (h b))))
      · exact .inr (.inr ((u.lowestPeer_eq_none_iff _).2 fun n => Bool.eq_false_iff.2 (h n)))
    rw [hsame]; rfl

end Sys2Proof.Proofs
end

