-- ==== Sys2Proof/Proofs/NoNewHandoff.lean ====
section
/-! The relation `State.NoNewHandoff`: between two states no reservation is made, no bay enters OFFERED, and neither the
intake of R86 nor the transfers of R81 grow. It is reflexive and transitive, so an operation keeps it when its parts do. -/

namespace Sys2Proof.Machine

open Sys2Proof Sys2Proof.Config

/-! ### One bay -/

/-- From `x` to `y` a bay enters neither OFFERED nor the states counted under L10 (R81). -/
structure Bay.NoNewFlight (x y : Bay) : Prop where
  offered : y.slot.isOffered = true → x.slot.isOffered = true
  inFlight : y.slot.inFlight = true → x.slot.inFlight = true

theorem Slot.inFlight_of_isOffered {x : Slot} (h : x.isOffered = true) : x.inFlight = true := by
  unfold Slot.isOffered at h
  split at h
  · rfl
  · cases h

theorem Bay.NoNewFlight.of_slot {x y : Bay} (h : y.slot = x.slot) : x.NoNewFlight y :=
  ⟨fun hy => h ▸ hy, fun hy => h ▸ hy⟩

/-- A bay may take any state that is not counted under L10. -/
theorem Bay.NoNewFlight.of_landed {x y : Bay} (h : y.slot.inFlight = false) : x.NoNewFlight y := by
  have hno : ¬ y.slot.inFlight = true := by simp [h]
  exact ⟨fun hy => absurd (Slot.inFlight_of_isOffered hy) hno, fun hy => absurd hy hno⟩

/-- A bay in flight may take any state but OFFERED. -/
theorem Bay.NoNewFlight.of_inFlight {x y : Bay} (hx : x.slot.inFlight = true) (hy : y.slot.isOffered = false) :
    x.NoNewFlight y :=
  ⟨fun h => by simp [hy] at h, fun _ => hx⟩

theorem Bay.NoNewFlight.trans {x y z : Bay} (h : x.NoNewFlight y) (g : y.NoNewFlight z) : x.NoNewFlight z :=
  ⟨fun hz => h.offered (g.offered hz), fun hz => h.inFlight (g.inFlight hz)⟩

@[simp] theorem Slot.onRecord_isOffered (x : Slot) (f : Record → Record) : (x.onRecord f).isOffered = x.isOffered := by
  cases x with
  | pack st r => cases st <;> rfl
  | empty => rfl
  | orphan => rfl

@[simp] theorem Slot.onRecord_inFlight (x : Slot) (f : Record → Record) : (x.onRecord f).inFlight = x.inFlight := by
  cases x with
  | pack st r => cases st <;> rfl
  | empty => rfl
  | orphan => rfl

/-- A change of the record alone (R22, R137). -/
theorem Bay.NoNewFlight.of_onRecord {x y : Bay} {f : Record → Record} (h : y.slot = x.slot.onRecord f) :
    x.NoNewFlight y :=
  ⟨by simp [h], by simp [h]⟩

/-! ### The node -/

/-- From `s` to `t` no handoff begins: no reservation is made, no bay enters OFFERED, and the counts of L4 and L10 do not
grow (R81, R86). -/
structure State.NoNewHandoff (s t : State) : Prop where
  intake : t.intake ≤ s.intake
  reservation : t.chute.reservation = none ∨ t.chute.reservation = s.chute.reservation
  transfers : t.transfers ≤ s.transfers
  offered : ∀ b : BayNo, (t.bay b).slot.isOffered = true → (s.bay b).slot.isOffered = true

/-- The parts of the state that `NoNewHandoff` is about. -/
def State.handoffPart (s : State) : Vector Bay 4 × List UnaccountedEntry × Option Offered × Nat :=
  (s.bays, s.unaccounted, s.chute.reservation, s.feed.queue.length)

namespace State.NoNewHandoff

theorem refl (s : State) : s.NoNewHandoff s := ⟨le_rfl, .inr rfl, le_rfl, fun _ h => h⟩

theorem trans {s t u : State} (h : s.NoNewHandoff t) (g : t.NoNewHandoff u) : s.NoNewHandoff u where
  intake := g.intake.trans h.intake
  reservation := g.reservation.elim .inl fun e => e ▸ h.reservation
  transfers := g.transfers.trans h.transfers
  offered b hb := h.offered b (g.offered b hb)

/-- Only the bays, the unaccounted list, the reservation and the queue's length matter. Where these stay by definition,
`by rfl` proves it, which Lean elaborates last, when both states are known. -/
theorem frame {s u t : State} (h : s.NoNewHandoff u) (hpart : t.handoffPart = u.handoffPart) : s.NoNewHandoff t := by
  simp only [State.handoffPart, Prod.mk.injEq] at hpart
  obtain ⟨hbays, hlist, hres, hqueue⟩ := hpart
  refine h.trans ⟨?_, .inr hres, ?_, fun b => ?_⟩
  · simp only [State.intake, hres, hqueue, le_refl]
  · simp only [State.transfers, State.countBays, hbays, hlist, le_refl]
  · simp only [State.bay, hbays, imp_self]

/-- The feed controller changes, with as many entries in its queue. -/
theorem setFeed {s u : State} (h : s.NoNewHandoff u) {f : Feed} (hqueue : f.queue.length = u.feed.queue.length) :
    s.NoNewHandoff { u with feed := f } :=
  h.frame (by simp only [State.handoffPart, hqueue])

/-- A change in which no bay takes off, no reservation is made, and neither list grows. -/
theorem of_bays {s t : State} (hbays : ∀ b : BayNo, (s.bay b).NoNewFlight (t.bay b))
    (hlist : t.unaccounted.length ≤ s.unaccounted.length)
    (hres : t.chute.reservation = none ∨ t.chute.reservation = s.chute.reservation)
    (hqueue : t.feed.queue.length ≤ s.feed.queue.length) : s.NoNewHandoff t where
  intake := by
    rcases hres with h | h <;> simp only [State.intake, h, Option.toList_none, List.length_nil] <;> omega
  reservation := hres
  transfers := Nat.add_le_add (State.countBays_le fun b => (hbays b).inFlight) hlist
  offered b := (hbays b).offered

theorem setBay {s u : State} {b : BayNo} {x : Bay} (h : s.NoNewHandoff u) (hx : (u.bay b).NoNewFlight x) :
    s.NoNewHandoff (u.setBay b x) := by
  refine h.trans (of_bays (fun k => ?_) le_rfl (.inr rfl) le_rfl)
  by_cases hk : k = b
  · subst hk; simpa using hx
  · simpa [hk] using Bay.NoNewFlight.of_slot rfl

theorem mapBays {s u : State} {f : Bay → Bay} (h : s.NoNewHandoff u) (hf : ∀ x : Bay, x.NoNewFlight (f x)) :
    s.NoNewHandoff (u.mapBays f) :=
  h.trans (of_bays (fun k => by simpa using hf (u.bay k)) le_rfl (.inr rfl) le_rfl)

/-- A command that acts under a condition only. -/
theorem ite {s u v : State} {p : Prop} [Decidable p] (hu : s.NoNewHandoff u) (hv : s.NoNewHandoff v) :
    s.NoNewHandoff (if p then u else v) := by
  split
  · exact hu
  · exact hv

end State.NoNewHandoff

end Sys2Proof.Machine
end

