-- ==== Sys2Proof/Proofs/HandoffFrame.lean ====
section
/-! The operations of the node that begin no handoff, block by block in the order of the model's files. Each rule takes
`s.NoNewHandoff u` to the state that the operation makes of `u`. -/

namespace Sys2Proof.Machine

open Sys2Proof Sys2Proof.Config

/-! ### One bay -/

namespace Bay.NoNewFlight

theorem lineStop (x : Bay) : x.NoNewFlight x.lineStop := by
  unfold Bay.lineStop
  split
  · exact .of_landed rfl
  · exact .of_landed rfl
  · exact .of_landed rfl
  · exact .of_slot rfl

theorem safeStop (x : Bay) : x.NoNewFlight x.safeStop := by
  unfold Bay.safeStop
  split
  · exact .of_landed rfl
  · split
    · exact .of_slot rfl
    · exact .of_landed rfl
  · exact (lineStop x).trans (.of_slot rfl)

theorem settleEarly (x : Bay) : x.NoNewFlight x.settleEarly := by
  unfold Bay.settleEarly
  split
  · next st r hslot => exact .of_onRecord (f := fun r => { r with settleEarly := true }) (by rw [hslot]; rfl)
  · exact .of_slot rfl

theorem startOrHold (x y : Bay) (clear : Bool) (r : Record) : x.NoNewFlight (y.startOrHold clear r) := by
  rcases y.startOrHold_cases clear r with ⟨-, h⟩ | ⟨-, -, h⟩ | ⟨-, -, h⟩ <;> exact .of_landed (by rw [h]; rfl)

end Bay.NoNewFlight

/-- After a reset no bay is in flight (R16). -/
theorem bayAfterReset_landed (isBay line presence : Bool) :
    (bayAfterReset isBay line presence).slot.inFlight = false := by
  unfold bayAfterReset
  cases isBay && line && presence <;> rfl

/-! ### The queue -/

@[simp] theorem State.losePermissive_queue (s : State) : s.losePermissive.feed.queue = s.feed.queue :=
  (Feed.losePermissive_spec s.feed).2.2.2.1

@[simp] theorem State.refreshIdle_queue (s : State) : s.refreshIdle.feed.queue = s.feed.queue := by
  unfold State.refreshIdle
  repeat' split
  all_goals rfl

@[simp] theorem State.addReason_queue (s : State) (h : HoldReason) (c : FaultCause) (place : Place) (tag : Option Tag) :
    (s.addReason h c place tag).feed.queue = s.feed.queue := by
  rw [State.addReason_eq]
  split
  · rfl
  · exact (Feed.losePermissive_spec _).2.2.2.1

@[simp] theorem Feed.enterStopping_queue (f : Feed) : f.enterStopping.queue = f.queue := by
  unfold Feed.enterStopping
  split <;> rfl

@[simp] theorem Feed.abandon_queue (f : Feed) : f.abandon.queue = f.queue := by
  unfold Feed.abandon
  split <;> rfl

theorem Feed.stall_queue (f : Feed) : f.stall.queue = f.queue := f.abandon_queue

theorem length_requeueHead (q : List QueueEntry) : (requeueHead q).length = q.length := by cases q <;> rfl

theorem length_feedHead (q : List QueueEntry) : (feedHead q).length = q.length := by cases q <;> rfl

namespace State.NoNewHandoff

variable {s u : State}

/-! ### Shared operations -/

theorem losePermissive (h : s.NoNewHandoff u) : s.NoNewHandoff u.losePermissive :=
  h.frame (by simp [State.handoffPart])

theorem addReason (h : s.NoNewHandoff u) {r : HoldReason} {c : FaultCause} {place : Place} {tag : Option Tag} :
    s.NoNewHandoff (u.addReason r c place tag) := by
  have hqueue := u.addReason_queue r c place tag
  have heq := u.addReason_eq r c place tag
  exact h.frame (by rw [State.handoffPart, hqueue, heq]; rfl)

theorem placeHandoff (h : s.NoNewHandoff u) (f : HandoffOut) : s.NoNewHandoff (u.placeHandoff f) :=
  h.frame (by simp [State.handoffPart])

theorem refreshIdle (h : s.NoNewHandoff u) : s.NoNewHandoff u.refreshIdle :=
  h.frame (by simp [State.handoffPart])

theorem setErrors (h : s.NoNewHandoff u) (tx rx : Nat) : s.NoNewHandoff (u.setErrors tx rx) :=
  h.frame (by simp [State.handoffPart])

theorem placeStatus (h : s.NoNewHandoff u) : s.NoNewHandoff u.placeStatus :=
  h.frame (by simp [State.handoffPart])

theorem placeTally (h : s.NoNewHandoff u) : s.NoNewHandoff u.placeTally :=
  h.frame (by simp [State.handoffPart])

theorem light (h : s.NoNewHandoff u) : s.NoNewHandoff u.light := h.frame (by rfl)

theorem dropReservation (h : s.NoNewHandoff u) : s.NoNewHandoff u.dropReservation :=
  (h.trans (of_bays (t := { u with chute := { u.chute with reservation := none, arrivalTimer := none, conveyor := false } })
    (fun _ => .of_slot rfl) le_rfl (.inl rfl) le_rfl)).refreshIdle

theorem removeHead (h : s.NoNewHandoff u) : s.NoNewHandoff u.removeHead := by
  unfold State.removeHead
  exact .refreshIdle (h.trans (of_bays (fun _ => .of_slot rfl) le_rfl (.inr rfl) (by simp)))

theorem endAttempt (h : s.NoNewHandoff u) : s.NoNewHandoff u.endAttempt := by
  obtain ⟨-, heq, -, -⟩ := u.endAttempt_ends
  exact h.frame (by rw [heq]; rfl)

theorem reject (h : s.NoNewHandoff u) (b : BayNo) (r : Record) (c : EndCause) : s.NoNewHandoff (u.reject b r c) :=
  .frame (h.setBay (b := b) (x := (u.bay b).enter .rejected { r with endCause := some c }) (.of_landed rfl)) (by rfl)

theorem settle (h : s.NoNewHandoff u) (b : BayNo) : s.NoNewHandoff (u.settle b) :=
  .frame (h.setBay (b := b) (x := (u.bay b).vacate) (.of_landed rfl)) (by rfl)

theorem holdFault (h : s.NoNewHandoff u) (b : BayNo) (r : Record) (c : FaultCause) :
    s.NoNewHandoff (u.holdFault b r c) :=
  .frame (h.setBay (b := b) (x := (u.bay b).enter (.held .fault) r) (.of_landed rfl)) (by rfl)

/-! ### Line view and SAFE-STOP -/

theorem recallRelease (h : s.NoNewHandoff u) (b : BayNo) : s.NoNewHandoff (u.recallRelease b) := by
  unfold State.recallRelease
  split
  · exact h.ite ((h.setBay (.of_landed rfl)).placeHandoff _)
  · exact h

theorem reviewLine (h : s.NoNewHandoff u) : s.NoNewHandoff u.reviewLine := by
  unfold State.reviewLine State.lineFireRises
  have hview : s.NoNewHandoff { u with view := { u.view with lineFire := u.lineFireNow, linePre := u.linePreNow } } :=
    h.frame (by rfl)
  exact .ite (((((hview.mapBays Bay.NoNewFlight.lineStop).recallRelease 0).recallRelease 1).recallRelease 2).recallRelease
    3).losePermissive.light hview

theorem enterSafeStop (h : s.NoNewHandoff u) : s.NoNewHandoff u.enterSafeStop := by
  unfold State.enterSafeStop
  exact .light (.dropReservation (.losePermissive (.mapBays (h.frame (by rfl)) Bay.NoNewFlight.safeStop)))

theorem clash (h : s.NoNewHandoff u) : s.NoNewHandoff u.clash := by
  unfold State.clash
  exact .ite (h.frame (by rfl)) (h.enterSafeStop.frame (by rfl))

/-! ### Resets and the clock -/

theorem powerOn (s : State) : s.NoNewHandoff s.powerOn :=
  of_bays (fun b => .of_landed (by simp [State.bay, State.powerOn, State.reset, Bay.reset, Slot.inFlight]))
    (Nat.zero_le _) (.inl rfl) (Nat.zero_le _)

theorem lineReset (s : State) (cause : ResetCause) : s.NoNewHandoff (s.lineReset cause) :=
  of_bays (fun b => .of_landed (by simp [State.bay, State.lineReset, State.reset, Bay.reset, Slot.inFlight]))
    le_rfl (.inl rfl) (by simp [State.lineReset, keepQueue])

theorem assertPin (s : State) : s.NoNewHandoff s.assertPin := by
  unfold State.assertPin
  exact .ite (.ite (refl s) ((refl s).frame (by rfl))) (lineReset s .pin)

theorem endReset (s : State) (e : ResetSample) : s.NoNewHandoff (s.endReset e) := by
  unfold State.endReset
  refine .light (of_bays (fun b => .of_landed ?_) ?_ (.inr rfl) ?_)
  · simp [State.bay, bayAfterReset_landed]
  · dsimp only; split <;> simp
  · dsimp only; split <;> simp

theorem startPurge (h : s.NoNewHandoff u) : s.NoNewHandoff u.startPurge := by
  unfold State.startPurge
  exact .ite (h.frame (by rfl)) h

theorem enterRunning (s : State) : s.NoNewHandoff s.enterRunning := by
  unfold State.enterRunning
  have hpurge : s.NoNewHandoff (State.startPurge { s with
      startup := { s.startup with life := .running, listenTimer := none }
      view := { s.view with silenceTimer := some silenceMs } }) := startPurge ((refl s).frame (by rfl))
  exact .light (.placeTally (.placeStatus (hpurge.frame (by rfl))))

theorem tick (s : State) : s.NoNewHandoff s.tick := by
  unfold State.tick
  exact .ite (refl s) (((refl s).mapBays (f := Bay.tick) fun _ => .of_slot rfl).frame (by rfl))

end State.NoNewHandoff

end Sys2Proof.Machine
end

