-- ==== Sys2Proof/Proofs/HandoffBlocks.lean ====
section
/-! The commands of the blocks that begin no handoff (`State.NoNewHandoff`): conversions and timers of the bays, the chute
and the feed controller, atmosphere, fire and line link. -/

namespace Sys2Proof.Machine

open Sys2Proof Sys2Proof.Config

namespace State.NoNewHandoff

variable {s u : State}

/-! ### Conversions (R20) -/

theorem presenceStep (h : s.NoNewHandoff u) (b : BayNo) : s.NoNewHandoff (u.presenceStep b) := by
  have hclear : s.NoNewHandoff (u.setBay b { u.bay b with stuck := false }) := h.setBay (.of_slot rfl)
  unfold State.presenceStep
  refine .ite h ?_
  split
  · exact hclear
  · exact hclear
  · next st r hslot =>
    have hlose : s.NoNewHandoff ((u.setBay b { u.bay b with stuck := false }).losePack b r) :=
      hclear.setBay (.of_landed rfl)
    cases st with
    | admitted => exact hlose
    | discharging => exact hlose
    | held c => exact hlose
    | resting => exact hlose
    | safe => exact hlose
    | offered n => exact hlose.placeHandoff _
    | releasing n =>
      have hflying : ((u.setBay b { u.bay b with stuck := false }).bay b).slot.inFlight = true := by
        rw [State.setBay_bay_self]; exact congrArg Slot.inFlight hslot
      exact .ite (hclear.settle b) (hclear.setBay (.of_inFlight hflying rfl))
    | inTransit n => exact hclear
    | rejected => exact hclear
    | missing => exact hclear

theorem measureStep (h : s.NoNewHandoff u) (b : BayNo) (before : Bool) : s.NoNewHandoff (u.measureStep b before) := by
  have hmeasure : s.NoNewHandoff (u.setBay b ((u.bay b).measure u.profile)) := h.setBay (.of_onRecord rfl)
  unfold State.measureStep State.raiseHeat
  exact .ite (hmeasure.frame (by rfl)) hmeasure

theorem startCheck (h : s.NoNewHandoff u) (b : BayNo) (r : Record) : s.NoNewHandoff (u.startCheck b r) := by
  unfold State.startCheck
  exact .ite (h.setBay (.startOrHold _ _ _ _)) (h.holdFault b r _)

theorem rebound (h : s.NoNewHandoff u) (b : BayNo) (r : Record) (v : Nat) : s.NoNewHandoff (u.rebound b r v) := by
  unfold State.rebound
  exact .ite (.frame (h.setBay (b := b) (x := (u.bay b).enter .safe { r with reboundV := some v }) (.of_landed rfl)) (by rfl))
    (.ite (h.setBay (.startOrHold _ _ _ _)) (h.reject b _ _))

theorem restEnd (h : s.NoNewHandoff u) (b : BayNo) (r : Record) : s.NoNewHandoff (u.restEnd b r) := by
  unfold State.restEnd
  refine .ite ?_ h
  split
  · exact h.rebound b r _
  · exact h

theorem endOrCommand (h : s.NoNewHandoff u) (b : BayNo) (r : Record) (v : Nat) (t : Int) :
    s.NoNewHandoff (u.endOrCommand b r v t) := by
  unfold State.endOrCommand
  exact .ite (h.reject b r _) (.ite (h.reject b r _) (.ite (h.setBay (.of_landed rfl))
    (.ite (h.setBay (.of_landed rfl)) (h.setBay (.of_landed rfl)))))

theorem sample (h : s.NoNewHandoff u) (b : BayNo) (r : Record) : s.NoNewHandoff (u.sample b r) := by
  have hsampled (d p : Nat) : s.NoNewHandoff (u.setBay b { u.bay b with deviation := d, product := p }) :=
    h.setBay (.of_slot rfl)
  unfold State.sample
  dsimp only
  split
  · exact .ite ((hsampled 20 (u.bay b).product).holdFault b r _) ((hsampled _ _).endOrCommand b _ _ _)
  · exact h.holdFault b r _

theorem regulate (h : s.NoNewHandoff u) (b : BayNo) : s.NoNewHandoff (u.regulate b) := by
  unfold State.regulate
  split
  · exact h
  · exact h
  · next st r hslot =>
    cases st with
    | admitted => exact h.startCheck b r
    | held c => exact .ite h (h.startCheck b r)
    | resting => exact h.restEnd b r
    | discharging => exact h.sample b r
    | _ => exact h

theorem convert (s : State) (b : BayNo) (x : BayReading) : s.NoNewHandoff (s.convert b x) := by
  have hread : s.NoNewHandoff (s.setBay b
      { s.bay b with latest := judgeBay x, convTimer := some fastPeriod, product := 0 }) := (refl s).setBay (.of_slot rfl)
  exact (((hread.presenceStep b).measureStep b (s.condition .bayOverheat)).regulate b).light

theorem restExpires (s : State) (b : BayNo) : s.NoNewHandoff (s.restExpires b) := by
  have howed : s.NoNewHandoff (s.setBay b { s.bay b with restTimer := none, restOwed := true }) :=
    (refl s).setBay (.of_slot rfl)
  unfold State.restExpires
  dsimp only
  split
  · exact (howed.restEnd b _).light
  · exact (refl s).setBay (.of_slot rfl)

theorem computeHeadroom (s : State) : s.NoNewHandoff s.computeHeadroom :=
  of_bays (fun b => .of_slot (by rw [s.computeHeadroom_bay])) le_rfl (.inr rfl) le_rfl

/-! ### The bay side of a handoff (R66 to R73) -/

theorem answerExpires (s : State) (b : BayNo) : s.NoNewHandoff (s.answerExpires b) := by
  unfold State.answerExpires
  split
  · exact .light ((refl s).setBay (.of_landed rfl))
  · exact (refl s).setBay (.of_slot rfl)

theorem jam (h : s.NoNewHandoff u) (b : BayNo) (n : NodeNo) (r : Record) : s.NoNewHandoff (u.jam b n r) :=
  .frame (.placeHandoff (h.setBay (b := b) (x := { (u.bay b).backToSafe r with jammed := true }) (.of_landed rfl))
    (plainHandoff .withdraw n r.tag b)) (by rfl)

theorem stick (h : s.NoNewHandoff u) (b : BayNo) (r : Record) : s.NoNewHandoff (u.stick b r) :=
  .frame ((h.settle b).setBay (b := b) (x := { (u.settle b).bay b with stuck := true }) (.of_slot rfl)) (by rfl)

theorem releaseExpires (s : State) (b : BayNo) : s.NoNewHandoff (s.releaseExpires b) := by
  unfold State.releaseExpires
  split
  · exact .light (.ite ((refl s).stick b _) ((refl s).jam b _ _))
  · exact (refl s).setBay (.of_slot rfl)

/-- A pack that is not confirmed passes from the bay to the unaccounted list, and the count of L10 stays (R70, R81). -/
theorem loseTransit (s : State) (b : BayNo) (n : NodeNo) (r : Record) (hbay : (s.bay b).slot.inFlight = true) :
    s.NoNewHandoff (s.loseTransit b n r) := by
  have hcount := s.countBays_setBay b (s.bay b).vacate Slot.inFlight
  have hmoved : s.NoNewHandoff { s.setBay b (s.bay b).vacate with
      unaccounted := s.unaccounted ++ [{ tag := r.tag, bay := b, shred := n, time := s.startup.nodeTime }] } :=
    { (refl s).setBay (b := b) (x := (s.bay b).vacate) (.of_landed rfl) with
      transfers := by
        rw [hbay, show (s.bay b).vacate.slot.inFlight = false from rfl] at hcount
        change (s.setBay b (s.bay b).vacate).countBays Slot.inFlight + (s.unaccounted ++ [_]).length ≤ s.transfers
        simp only [Bool.toNat_true, Bool.toNat_false, List.length_append, List.length_singleton, State.transfers] at *
        omega }
  unfold State.loseTransit
  exact .ite (hmoved.frame (by rfl)) (hmoved.frame (by rfl))

theorem transitExpires (s : State) (b : BayNo) : s.NoNewHandoff (s.transitExpires b) := by
  unfold State.transitExpires
  split
  · next n r hslot => exact .light (loseTransit s b n r (by rw [hslot]; rfl))
  · exact (refl s).setBay (.of_slot rfl)

theorem takeTaken (h : s.NoNewHandoff u) (f : HandoffFrame) (n : NodeNo) (b : BayNo) :
    s.NoNewHandoff (u.takeTaken f n b) := by
  unfold State.takeTaken
  refine .ite (h.frame (by rfl)) ?_
  split
  · next m r hslot =>
    have hflying : (u.bay b).slot.inFlight = true := by rw [hslot]; rfl
    exact .ite (.ite (.light (h.setBay (.of_inFlight hflying rfl)))
      (.light (.placeHandoff (h.setBay (.of_landed rfl)) _))) (h.placeHandoff _)
  · exact h.placeHandoff _

theorem takeDecline (h : s.NoNewHandoff u) (f : HandoffFrame) (n : NodeNo) (b : BayNo) :
    s.NoNewHandoff (u.takeDecline f n b) := by
  unfold State.takeDecline
  refine .ite (h.frame (by rfl)) ?_
  split
  · next m r hslot =>
    exact .ite (.frame (h.setBay (b := b) (x := (u.bay b).backToSafe r) (.of_landed rfl)) (by rfl)) (h.frame (by rfl))
  · exact h.frame (by rfl)

theorem eraseUnaccounted (h : s.NoNewHandoff u) {k : Nat} :
    s.NoNewHandoff { u with unaccounted := u.unaccounted.eraseIdx k } :=
  h.trans (of_bays (fun _ => .of_slot rfl) (List.length_eraseIdx_le u.unaccounted k) (.inr rfl) le_rfl)

theorem settleLate (h : s.NoNewHandoff u) (k : Nat) : s.NoNewHandoff (u.settleLate k) := h.eraseUnaccounted.frame (by rfl)

theorem takeSettle (h : s.NoNewHandoff u) (f : HandoffFrame) (n : NodeNo) (b : BayNo) :
    s.NoNewHandoff (u.takeSettle f n b) := by
  unfold State.takeSettle
  refine .ite (h.frame (by rfl)) ?_
  split
  · exact (h.settle _).light
  · split
    · exact h.settleLate _
    · split
      · exact h.setBay (.settleEarly _)
      · exact h.frame (by rfl)

/-! ### The chute (R77 to R79) -/

theorem takeWithdraw (h : s.NoNewHandoff u) (f : HandoffFrame) (n : NodeNo) (b : BayNo) :
    s.NoNewHandoff (u.takeWithdraw f n b) := by
  unfold State.takeWithdraw
  exact .ite h.dropReservation (h.frame (by rfl))

/-- The reserved pack passes from the reservation to the queue, and the count of L4 stays (R83, R86). -/
theorem arrive (h : s.NoNewHandoff u) {e : Offered} (hres : u.chute.reservation = some e) :
    s.NoNewHandoff (u.arrive e) := by
  have hmoved : u.NoNewHandoff { u with
      chute := { u.chute with reservation := none, arrivalTimer := none, conveyor := false }
      feed := { u.feed with queue := u.feed.queue ++ [QueueEntry.mk e 0 false] } } :=
    { refl u with
      intake := by simp [State.intake, hres]
      reservation := .inl rfl }
  exact .frame (.placeHandoff (.refreshIdle (h.trans hmoved)) (plainHandoff .settle e.source e.tag e.bay)) (by rfl)

theorem arrival (s : State) : s.NoNewHandoff s.arrival := by
  unfold State.arrival
  split
  · next e hres => exact .arrive ((refl s).frame (by rfl)) hres
  · exact .addReason ((refl s).frame (by rfl))

/-! ### Feed controller (R83 to R98) -/

theorem checkStart (h : s.NoNewHandoff u) : s.NoNewHandoff u.checkStart := by
  unfold State.checkStart
  refine .ite h ?_
  split
  · exact h.frame (by rfl)
  · exact h

theorem checkFeed (h : s.NoNewHandoff u) : s.NoNewHandoff u.checkFeed := by
  unfold State.checkFeed
  refine .ite h ?_
  split
  · exact h
  · exact .ite (h.setFeed (length_feedHead _)) (h.addReason)

theorem feedPeriod (s : State) : s.NoNewHandoff (State.checkFeed (State.checkStart { s with
    feed := { s.feed with queue := advanceWaits s.feed.queue, periodTimer := some fastPeriod } })) :=
  .checkFeed (.checkStart ((refl s).setFeed (by simp [advanceWaits])))

theorem feedbackRises (s : State) : s.NoNewHandoff s.feedbackRises := by
  unfold State.feedbackRises
  split
  · exact .refreshIdle ((refl s).frame (by rfl))
  · exact .addReason ((refl s).frame (by rfl))
  · exact (refl s).frame (by rfl)
  · exact (refl s).frame (by rfl)

theorem feedbackFalls (s : State) : s.NoNewHandoff s.feedbackFalls := by
  have hstalled : s.NoNewHandoff { s with feed := ({ s.feed with feedback := false } : Feed).stall } :=
    (refl s).setFeed (congrArg List.length (Feed.stall_queue _))
  unfold State.feedbackFalls
  split
  · exact hstalled.addReason
  · exact (refl s).frame (by rfl)
  · exact (refl s).frame (by rfl)
  · exact (refl s).frame (by rfl)

theorem enterStopping (s : State) : s.NoNewHandoff { s with feed := s.feed.enterStopping } :=
  (refl s).setFeed (congrArg List.length s.feed.enterStopping_queue)

theorem confirmFeed (h : s.NoNewHandoff u) : s.NoNewHandoff u.confirmFeed := by
  unfold State.confirmFeed
  split
  · exact h.frame (by rfl)
  · exact .frame (.removeHead (u := { u with feed := { u.feed with feedTimer := none, gate := false, kind := .none } })
      (h.frame (by rfl))) rfl

theorem confirmRises (s : State) : s.NoNewHandoff s.confirmRises := by
  unfold State.confirmRises
  split
  · exact .addReason ((refl s).frame (by rfl))
  · exact .confirmFeed ((refl s).frame (by rfl))
  · exact .confirmFeed ((refl s).frame (by rfl))

theorem feedExpires (s : State) : s.NoNewHandoff s.feedExpires := by
  have hgiven : s.NoNewHandoff { s with feed := s.feed.giveUp } := (refl s).setFeed (length_requeueHead _)
  unfold State.feedExpires
  split
  · exact hgiven.addReason
  · exact hgiven
  · exact hgiven

/-! ### Atmosphere (R107 to R120) -/

theorem enterIfFaulted (h : s.NoNewHandoff u) (before now : Bool) (c : FaultCause) (place : Place) :
    s.NoNewHandoff (u.enterIfFaulted before now c place) := .ite (h.frame (by rfl)) h

theorem readAtmos (h : s.NoNewHandoff u) (x : AtmosReading) : s.NoNewHandoff (u.readAtmos x) := by
  unfold State.readAtmos
  have hfaults := ((h.enterIfFaulted u.atmos.o2ValidA (o2Reading x.o2a).isSome .o2SensorFault (.channel 0)).enterIfFaulted
    u.atmos.o2ValidB (o2Reading x.o2b).isSome .o2SensorFault (.channel 1)).enterIfFaulted u.atmos.pressureValid
    (pressureReading x.pressure).isSome .pressureFault .none
  exact .ite (hfaults.frame (by rfl)) (hfaults.frame (by rfl))

theorem qualify (h : s.NoNewHandoff u) : s.NoNewHandoff u.qualify := by
  unfold State.qualify
  exact .ite (h.frame (by rfl)) (h.frame (by rfl))

theorem holdInert (h : s.NoNewHandoff u) (low : Bool) : s.NoNewHandoff (u.holdInert low) := by
  unfold State.holdInert
  dsimp only
  split
  · exact .losePermissive (h.frame (by rfl))
  · exact h.frame (by rfl)

theorem sampleAtmos (s : State) (x : AtmosReading) : s.NoNewHandoff (s.sampleAtmos x) := by
  have hread := (refl s).readAtmos x
  unfold State.sampleAtmos
  dsimp only
  split
  · exact hread.qualify
  · exact hread.holdInert _
  · exact hread
  · exact hread
  · exact hread

/-! ### Fire (R127 to R140) -/

theorem channelOnset (h : s.NoNewHandoff u) {before now : Channel} {k : Nat} :
    s.NoNewHandoff (u.channelOnset before now k) := .ite (h.frame (by rfl)) h

theorem gradeSources (h : s.NoNewHandoff u) (x : FireReading) : s.NoNewHandoff (u.gradeSources x) := by
  unfold State.gradeSources
  exact .channelOnset (.channelOnset (.channelOnset (.channelOnset (h.frame (by rfl)))))

theorem checkImpaired (h : s.NoNewHandoff u) : s.NoNewHandoff u.checkImpaired := .ite (h.frame (by rfl)) (h.frame (by rfl))

theorem enterFlood (h : s.NoNewHandoff u) : s.NoNewHandoff u.enterFlood := .losePermissive (h.frame (by rfl))

theorem ownFire (h : s.NoNewHandoff u) : s.NoNewHandoff u.ownFire := by
  unfold State.ownFire State.markExposed
  exact .ite (h.mapBays fun _ => .of_onRecord rfl) (.ite h.enterFlood h)

theorem moveZone (h : s.NoNewHandoff u) : s.NoNewHandoff u.moveZone := by
  unfold State.moveZone
  split
  · exact h
  · exact .ite (.ownFire (h.frame (by rfl))) (.ite (h.frame (by rfl)) h)
  · exact .ite (.ownFire (h.frame (by rfl))) (h.frame (by rfl))

theorem sampleFire (s : State) (x : FireReading) : s.NoNewHandoff (s.sampleFire x) := by
  have hzone := (((refl s).gradeSources x).checkImpaired).moveZone
  exact .light (.reviewLine (hzone.frame (by rfl)))

theorem rejectExposed (h : s.NoNewHandoff u) (b : BayNo) : s.NoNewHandoff (u.rejectExposed b) := by
  unfold State.rejectExposed
  split
  · exact .ite (h.reject b _ _) h
  · exact h
  · exact h

theorem rejectAllExposed (h : s.NoNewHandoff u) : s.NoNewHandoff u.rejectAllExposed :=
  (((h.rejectExposed 0).rejectExposed 1).rejectExposed 2).rejectExposed 3

theorem endFlood (h : s.NoNewHandoff u) : s.NoNewHandoff u.endFlood := .ite (h.frame (by rfl)) h

theorem driveRelays (h : s.NoNewHandoff u) : s.NoNewHandoff u.driveRelays := h.frame (by rfl)

theorem resetAlarm (s : State) : s.NoNewHandoff s.resetAlarm := by
  have hclear : s.NoNewHandoff (State.onT6 { s with fire := s.fire.clear } (fun t =>
      { t with alarmResets := bump t.alarmResets })) := (refl s).frame (by rfl)
  unfold State.resetAlarm
  exact .light (.reviewLine (.driveRelays (.endFlood (.ite hclear.rejectAllExposed hclear))))

/-! ### Line link (R147 to R175) -/

theorem takeStatus (h : s.NoNewHandoff u) (src : Address) (f : StatusFrame) : s.NoNewHandoff (u.takeStatus src f) := by
  unfold State.takeStatus
  split
  · exact .ite (.reviewLine (h.frame (by rfl))) (h.frame (by rfl))
  · exact h.frame (by rfl)

theorem takeTally (h : s.NoNewHandoff u) (src : Address) (f : TallyFrame) : s.NoNewHandoff (u.takeTally src f) := by
  unfold State.takeTally
  refine .ite ?_ h
  split
  · exact .ite (h.frame (by rfl)) (h.frame (by rfl))
  · exact h

theorem losePeer (s : State) (n : NodeNo) : s.NoNewHandoff (s.losePeer n) := .reviewLine ((refl s).frame (by rfl))

theorem fallSilent (s : State) : s.NoNewHandoff s.fallSilent :=
  .light (.losePermissive (.mapBays ((refl s).frame (by rfl)) Bay.NoNewFlight.lineStop))

theorem answerHeld (h : s.NoNewHandoff u) {t : TerminalNo} : s.NoNewHandoff (u.answerHeld t) := by
  unfold State.answerHeld
  split
  · exact h.frame (by rfl)
  · exact h

theorem replySent (h : s.NoNewHandoff u) (t : TerminalNo) : s.NoNewHandoff (u.replySent t) := by
  unfold State.replySent
  exact .answerHeld (h.frame (by rfl))

theorem sent (h : s.NoNewHandoff u) (b : Buffer) : s.NoNewHandoff (u.sent b) := by
  cases b with
  | alarm c => exact h.frame (by rfl)
  | handoff => exact h.frame (by rfl)
  | reply t => exact h.replySent t
  | status => exact h.frame (by rfl)
  | tally => exact h.frame (by rfl)

theorem succeed (s : State) (b : Buffer) : s.NoNewHandoff (s.succeed b) := by
  unfold State.succeed
  exact .ite (lineReset s .request) (.endAttempt (.sent ((refl s).setErrors _ _) b))

end State.NoNewHandoff

end Sys2Proof.Machine
end

