-- ==== Sys2Proof/Proofs/HandoffRequests.lean ====
section
/-! Reception and requests: what is received begins no handoff, unless a frame is delivered to the handoff agent; and no
request begins one. -/

namespace Sys2Proof.Machine

open Sys2Proof Sys2Proof.Config

/-! ### Reception -/

theorem State.NoNewHandoff.eased (s : State) : s.NoNewHandoff s.eased := (refl s).setErrors _ _

theorem State.NoNewHandoff.heard (s : State) (a : Fin 15) (bytes : List Byte) : s.NoNewHandoff (s.heard a bytes) :=
  (eased s).frame (by rfl)

/-- A frame that is received is delivered, or it begins no handoff (R160). -/
theorem State.receive_noNewHandoff_or_delivers (s : State) (odd : Bool) (kind : BitVec 3) (src dst : Address)
    (length : Nat) (deliver : State → State) :
    s.NoNewHandoff (s.receive odd kind src dst length deliver) ∨
      s.receive odd kind src dst length deliver = deliver s.eased := by
  have heased := State.NoNewHandoff.eased s
  rcases s.receive_spec odd kind src dst length deliver with
    ⟨-, h⟩ | ⟨-, -, h⟩ | ⟨-, -, h⟩ | ⟨-, -, h⟩ | ⟨-, -, h⟩
  · exact .inl (by rw [h]; exact .refl s)
  · exact .inl (h ▸ heased.clash)
  · exact .inl (h ▸ heased.frame (by rfl))
  · exact .inl (h ▸ heased)
  · exact .inr h

theorem State.NoNewHandoff.receive {s : State} {deliver : State → State}
    (h : ∀ u : State, u.NoNewHandoff (deliver u)) (odd : Bool) (kind : BitVec 3) (src dst : Address) (length : Nat) :
    s.NoNewHandoff (s.receive odd kind src dst length deliver) := by
  rcases s.receive_noNewHandoff_or_delivers odd kind src dst length deliver with hnone | hdelivered
  · exact hnone
  · exact hdelivered ▸ (eased s).trans (h _)

/-- A frame that passes the repeat filter is delivered with its bytes held (R162). -/
theorem State.filtered_eased (s : State) (a : Fin 15) (bytes : List Byte) (deliver : State → State) :
    s.eased.filtered a bytes deliver = s.eased ∨
      s.eased.filtered a bytes deliver = deliver (s.heard a bytes) := by
  rw [State.filtered_spec]
  split
  · exact .inl rfl
  · right
    congr 1
    simp [State.heard, State.eased]

/-- A HANDOFF begins no handoff unless it reaches the handoff agent's own rule (R63). -/
theorem State.receiveHandoff_noNewHandoff_or_takes (s : State) (message : Byte) (f : HandoffFrame)
    (take : NodeNo → BayNo → State → State) :
    s.NoNewHandoff (s.receiveHandoff message f take) ∨ ∃ (a : Fin 15) (n : NodeNo) (b : BayNo),
      s.receiveHandoff message f take = take n b (s.heard a (f.bytes message)) := by
  have heased := State.NoNewHandoff.eased s
  unfold State.receiveHandoff
  rcases s.receive_noNewHandoff_or_delivers false kindHandoff f.src f.dst 16 _ with hnone | hdelivered
  · exact .inl hnone
  rw [hdelivered]
  split
  · next a n ha hn =>
    rcases s.filtered_eased a (f.bytes message) _ with hrepeat | hheard
    · exact .inl (by rw [hrepeat]; exact heased)
    · rw [hheard]
      split
      · next b hb => exact .inr ⟨a, n, b, rfl⟩
      · exact .inl ((State.NoNewHandoff.heard s a (f.bytes message)).frame (by rfl))
  · exact .inl (heased.frame (by rfl))

theorem State.NoNewHandoff.receiveHandoff {s : State} {take : NodeNo → BayNo → State → State}
    (h : ∀ (u : State) (n : NodeNo) (b : BayNo), u.NoNewHandoff (take n b u)) (message : Byte) (f : HandoffFrame) :
    s.NoNewHandoff (s.receiveHandoff message f take) := by
  rcases s.receiveHandoff_noNewHandoff_or_takes message f take with hnone | ⟨a, n, b, htaken⟩
  · exact hnone
  · exact htaken ▸ (State.NoNewHandoff.heard s a _).trans (h _ n b)

/-! ### The request unit -/

/-- An answer begins no handoff: a refusal, or a state in which none has begun. -/
def Answer.NoNewHandoff (s : State) : Answer → Prop
  | .refused _ => True
  | .done u _ => s.NoNewHandoff u

theorem State.NoNewHandoff.takeRequest {s : State} {eval : State → Answer} (h : (eval s).NoNewHandoff s) (code : Byte)
    (f : RequestFrame) (t : TerminalNo) : s.NoNewHandoff (s.takeRequest code f t eval) := by
  have hrefl := refl s
  rcases s.takeRequest_cases code f t eval with ⟨-, heq⟩ | ⟨-, -, heq⟩ | ⟨-, -, -, heq⟩ |
    ⟨-, -, -, ⟨r, -, heq⟩ | ⟨u, p, hdone, heq⟩⟩
  · exact heq ▸ hrefl.frame (by rfl)
  · exact heq ▸ hrefl.frame (by rfl)
  · exact heq ▸ hrefl.frame (by rfl)
  · exact heq ▸ hrefl.frame (by rfl)
  · rw [hdone] at h
    exact heq ▸ State.NoNewHandoff.frame (u := u) h (by rfl)

theorem State.NoNewHandoff.serve {eval : State → Answer} (h : ∀ u : State, (eval u).NoNewHandoff u) (s : State)
    (code : Byte) (f : RequestFrame) : s.NoNewHandoff (s.serve code f eval) := by
  have heased := eased s
  unfold State.serve
  rcases s.receive_noNewHandoff_or_delivers false kindRequest f.src f.dst 16 _ with hnone | hdelivered
  · exact hnone
  rw [hdelivered]
  split
  · next a t ha ht =>
    rcases s.filtered_eased a (f.bytes code) _ with hrepeat | hheard
    · rw [hrepeat]
      exact heased
    · exact hheard ▸ (heard s a _).trans (.takeRequest (h _) code f t)
  · exact heased.frame (by rfl)

/-! ### The requests -/

namespace Answer.NoNewHandoff

variable {s : State}

theorem refused (r : Reason) : (Answer.refused r).NoNewHandoff s := trivial

theorem done {u : State} (h : s.NoNewHandoff u) (p : List Byte) : (Answer.done u p).NoNewHandoff s := h

theorem ite {p : Prop} [Decidable p] {x y : Answer} (hx : x.NoNewHandoff s) (hy : y.NoNewHandoff s) :
    (if p then x else y).NoNewHandoff s := by
  split
  · exact hx
  · exact hy

theorem bayForm {f : RequestFrame} {k : BayNo → Answer} (h : ∀ b : BayNo, (k b).NoNewHandoff s) :
    (s.bayForm f k).NoNewHandoff s := by
  unfold State.bayForm
  refine .ite (refused _) (.ite (refused _) ?_)
  split
  · exact h _
  · exact refused _

theorem nodeForm {roleTakes : Bool} {f : RequestFrame} {k : Answer} (h : k.NoNewHandoff s) :
    (s.nodeForm roleTakes f k).NoNewHandoff s :=
  .ite (refused _) (.ite (refused _) (.ite (refused _) h))

theorem admitPack (f : RequestFrame) (s : State) : (evalAdmit f s).NoNewHandoff s := by
  refine bayForm fun b => .ite (refused _) (.ite (refused _) (.ite (refused _) (.ite (refused _) ?_)))
  split
  · exact refused _
  · next minutes _ =>
    split
    · exact refused _
    · next v _ =>
      refine .ite (refused _) (.ite (refused _) (.ite (refused _) (.ite (refused _) (.done ?_ _))))
      have hentered := (State.NoNewHandoff.refl s).setBay (b := b) (x := (s.bay b).enter .admitted
        (admittedRecord f b minutes v (s.bay b) s.startup.nodeTime)) (.of_landed rfl)
      exact .light (.ite (hentered.frame (by rfl)) (hentered.frame (by rfl)))

theorem abort (f : RequestFrame) (s : State) : (evalAbort f s).NoNewHandoff s := by
  refine bayForm fun b => ?_
  split
  · exact refused _
  · exact refused _
  · next st r _ =>
    have hrejected := (State.NoNewHandoff.refl s).reject b r .abort
    cases st with
    | offered n => exact .done (hrejected.placeHandoff _).light _
    | releasing n => exact refused _
    | inTransit n => exact refused _
    | rejected => exact refused _
    | missing => exact refused _
    | _ => exact .done hrejected.light _

theorem resume (f : RequestFrame) (s : State) : (evalResume f s).NoNewHandoff s := by
  refine bayForm fun b => ?_
  split
  · exact .ite (.done (.light ((State.NoNewHandoff.refl s).setBay (.startOrHold _ _ _ _))) _) (refused _)
  · exact refused _

theorem quarantineIn (f : RequestFrame) (s : State) : (evalQuarantineIn f s).NoNewHandoff s := by
  have hstored (b : BayNo) (tag : Option Tag) (reason : QuarantineReason) : s.NoNewHandoff (s.quarantine b tag reason) := by
    have hvacated := (State.NoNewHandoff.refl s).setBay (b := b) (x := (s.bay b).vacate) (.of_landed rfl)
    unfold State.quarantine
    exact .ite (hvacated.frame (by rfl)) (hvacated.frame (by rfl))
  refine bayForm fun b => ?_
  split
  · exact .ite (refused _) (.done (.light ((hstored b _ _).frame (by rfl))) _)
  · exact .ite (refused _) (.ite (refused _) (.done (.light ((hstored b _ _).frame (by rfl))) _))
  · exact refused _

theorem quarantineOut (f : RequestFrame) (s : State) : (evalQuarantineOut f s).NoNewHandoff s := by
  refine nodeForm ?_
  split
  · exact .done ((State.NoNewHandoff.refl s).frame (by rfl)) _
  · exact refused _

theorem accountClear (f : RequestFrame) (s : State) : (evalAccountClear f s).NoNewHandoff s := by
  refine .ite (nodeForm ?_) (bayForm fun b => ?_)
  · refine .ite (refused _) ?_
    split
    · exact .done ((State.NoNewHandoff.refl s).eraseUnaccounted.frame (by rfl)) _
    · exact refused _
  · unfold clearBay
    split
    · have hvacated := (State.NoNewHandoff.refl s).setBay (b := b) (x := (s.bay b).vacate) (.of_landed rfl)
      exact .done (hvacated.frame (by rfl)) _
    · exact refused _

theorem alarmReset (f : RequestFrame) (s : State) : (evalAlarmReset f s).NoNewHandoff s :=
  nodeForm (.ite (refused _) (.done (.resetAlarm s) _))

theorem purgeReset (f : RequestFrame) (s : State) : (evalPurgeReset f s).NoNewHandoff s :=
  nodeForm (.ite (.done ((State.NoNewHandoff.refl s).frame (by rfl)) _) (refused _))

theorem flush (f : RequestFrame) (s : State) : (evalFlush f s).NoNewHandoff s :=
  nodeForm (.ite (refused _) (.done ((State.NoNewHandoff.refl s).frame (by rfl)) _))

theorem shredReset (f : RequestFrame) (s : State) : (evalShredReset f s).NoNewHandoff s :=
  nodeForm (.ite (refused _) (.ite (refused _) (.ite (refused _) (.ite (refused _) (.ite (refused _)
    (.ite (.done ((State.NoNewHandoff.refl s).frame (by rfl)) _)
      (.ite (refused _) (.done ((State.NoNewHandoff.refl s).removeHead.frame (by rfl)) _))))))))

theorem peerForget (f : RequestFrame) (s : State) : (evalPeerForget f s).NoNewHandoff s := by
  refine nodeForm ?_
  split
  · exact refused _
  · exact .ite (refused _) (.ite (.done (.reviewLine ((State.NoNewHandoff.refl s).frame (by rfl))) _) (refused _))

theorem readRecord (f : RequestFrame) (s : State) : (evalReadRecord f s).NoNewHandoff s := by
  refine bayForm fun b => ?_
  split
  · exact .done (.refl s) _
  · exact refused _

theorem readTally (f : RequestFrame) (s : State) : (evalReadTally f s).NoNewHandoff s := by
  refine nodeForm (.ite (refused _) ?_)
  split
  · exact .done (.refl s) _
  · exact refused _

theorem readQuarantine (f : RequestFrame) (s : State) : (evalReadQuarantine f s).NoNewHandoff s := by
  refine nodeForm ?_
  split
  · exact .done (.refl s) _
  · exact refused _

theorem identify (f : RequestFrame) (s : State) : (evalIdentify f s).NoNewHandoff s := nodeForm (.done (.refl s) _)

theorem nodeReset (f : RequestFrame) (s : State) : (evalNodeReset f s).NoNewHandoff s :=
  nodeForm (.ite (refused _) (.done ((State.NoNewHandoff.refl s).frame (by rfl)) _))

/-- No request begins a handoff, whatever its code (R180). -/
theorem evaluate (code : Byte) (f : RequestFrame) (s : State) : (evaluate code f s).NoNewHandoff s := by
  fun_cases Machine.evaluate code f
  · exact admitPack f s
  · exact abort f s
  · exact resume f s
  · exact quarantineIn f s
  · exact quarantineOut f s
  · exact accountClear f s
  · exact alarmReset f s
  · exact purgeReset f s
  · exact flush f s
  · exact shredReset f s
  · exact peerForget f s
  · exact readRecord f s
  · exact readTally f s
  · exact readQuarantine f s
  · exact identify f s
  · exact nodeReset f s
  · exact refused _

end Answer.NoNewHandoff

end Sys2Proof.Machine
end

