-- ==== Sys2Proof/Proofs/IntakeAndTransfers.lean ====
section
/-! L4 and L10 (R81, R86): every step begins no handoff, or it takes an OFFER for the chute, or it is the offer check that
offers a bay. -/

namespace Sys2Proof.Machine

open Sys2Proof Sys2Proof.Config

/-! ### The two ways in which a handoff begins -/

/-- From `s` to `t` the free chute was reserved with room in the intake, and the bays stayed (R75, R76). -/
structure State.Reserves (s t : State) : Prop where
  free : s.chute.reservation = none
  room : s.intake < 8
  intake : t.intake = s.intake + 1
  bays : t.bays = s.bays
  unaccounted : t.unaccounted = s.unaccounted

/-- From `s` to `t` one bay entered OFFERED, alone and below 4 transfers, and the shred side stayed (R65, R66). -/
structure State.Offers (s t : State) : Prop where
  alone : s.countBays Slot.isOffered = 0
  room : s.transfers < 4
  offered : t.countBays Slot.isOffered = 1
  transfers : t.transfers = s.transfers + 1
  chute : t.chute = s.chute
  feed : t.feed = s.feed

/-- A HANDOFF frame with the message OFFER on the bus (R63, R159). -/
def IsOffer (c : Instr) : Prop :=
  ∃ w : WireFrame, encodeFrame c = some w ∧ w.kind = kindHandoff ∧ fieldAt w.data 0 1 = 0

/-- What a command can do to the intake and to the transfers in flight. -/
inductive State.HandoffStep (s : State) (c : Instr) (t : State) : Prop where
  | none (h : s.NoNewHandoff t)
  | reserves (hc : IsOffer c) (h : s.Reserves t)
  | offers (hc : c = .offerCheck) (h : s.Offers t)

/-! ### An OFFER received -/

/-- A node without a reason to decline has a free chute and room in its intake (R75). -/
theorem State.free_of_declineReason_eq_none {s : State} {f : HandoffFrame} {n : NodeNo}
    (h : s.declineReason f n = none) : s.chute.reservation = none ∧ s.intake < 8 := by
  unfold State.declineReason at h
  split_ifs at h with h1 h2 h3 h4 hbusy hfull
  exact ⟨by simpa using hbusy, Nat.lt_of_not_le hfull⟩

theorem State.reserve_reserves {s : State} (f : HandoffFrame) (n : NodeNo) (b : BayNo)
    (hfree : s.chute.reservation = none) (hroom : s.intake < 8) : s.Reserves (s.reserve f n b) where
  free := hfree
  room := hroom
  intake := by simp [State.reserve, State.intake, hfree]
  bays := by simp [State.reserve]
  unaccounted := by simp [State.reserve]

theorem State.takeOffer_cases (s : State) (f : HandoffFrame) (n : NodeNo) (b : BayNo) :
    s.NoNewHandoff (s.takeOffer f n b) ∨ s.Reserves (s.takeOffer f n b) := by
  have hforeign : s.NoNewHandoff s.countForeign := (State.NoNewHandoff.refl s).frame (by rfl)
  unfold State.takeOffer
  split
  · exact .inl hforeign
  split
  · exact .inl hforeign
  split
  · exact .inl ((State.NoNewHandoff.refl s).placeHandoff _)
  · next hdecline =>
    obtain ⟨hfree, hroom⟩ := State.free_of_declineReason_eq_none hdecline
    exact .inr (State.reserve_reserves f n b hfree hroom)

/-- A delivered frame reads the same chute, queue and bays as before its reception. -/
theorem State.Reserves.of_heard {s t : State} {a : Fin 15} {bytes : List Byte} (h : (s.heard a bytes).Reserves t) :
    s.Reserves t := by
  have hintake : (s.heard a bytes).intake = s.intake := by simp [State.intake]
  exact ⟨by simpa using h.free, hintake ▸ h.room, hintake ▸ h.intake, by simpa using h.bays, by simpa using h.unaccounted⟩

theorem State.receiveHandoff_offer_cases (s : State) (f : HandoffFrame) :
    s.NoNewHandoff (s.receiveHandoff 0 f (State.takeOffer f)) ∨
      s.Reserves (s.receiveHandoff 0 f (State.takeOffer f)) := by
  rcases s.receiveHandoff_noNewHandoff_or_takes 0 f (State.takeOffer f) with hnone | ⟨a, n, b, htaken⟩
  · exact .inl hnone
  · rw [htaken]
    exact ((s.heard a _).takeOffer_cases f n b).imp (State.NoNewHandoff.heard s a _).trans State.Reserves.of_heard

/-! ### Any HANDOFF, and any frame -/

/-- Of the five messages only an OFFER can begin a handoff (R63). -/
theorem State.receiveMessage_cases (s : State) (message : Byte) (f : HandoffFrame) :
    s.NoNewHandoff (s.receiveMessage message f) ∨ (message = 0 ∧ s.Reserves (s.receiveMessage message f)) := by
  by_cases hoffer : message = 0
  · subst hoffer
    exact (s.receiveHandoff_offer_cases f).imp_right fun h => ⟨rfl, h⟩
  · refine .inl (.receiveHandoff (fun u n b => ?_) message f)
    have hu := State.NoNewHandoff.refl u
    split
    · next hzero => exact absurd (BitVec.eq_of_toNat_eq hzero) hoffer
    · exact hu.takeTaken f n b
    · exact hu.takeDecline f n b
    · exact hu.takeWithdraw f n b
    · exact hu.takeSettle f n b
    · exact hu.frame (by rfl)

theorem fieldAt_one_lt (d : List Byte) (k : Nat) : fieldAt d k 1 < 2 ^ 8 := by
  unfold fieldAt
  cases d.drop k with
  | nil => simp [leNat]
  | cons x xs => simpa [leNat] using x.isLt

theorem State.receiveWire_cases (s : State) (w : WireFrame) :
    s.NoNewHandoff (s.receiveWire w) ∨
      (w.kind = kindHandoff ∧ fieldAt w.data 0 1 = 0 ∧ s.Reserves (s.receiveWire w)) := by
  have hforeign (u : State) : u.NoNewHandoff u.countForeign := (State.NoNewHandoff.refl u).frame (by rfl)
  unfold State.receiveWire
  split
  · exact .inl (.receive hforeign _ _ _ _ _)
  split
  · exact .inl (.receive hforeign _ _ _ _ _)
  split
  · next hkind =>
    refine (s.receiveMessage_cases _ _).imp_right fun ⟨hmessage, h⟩ => ⟨hkind, ?_, h⟩
    have hbyte := congrArg BitVec.toNat hmessage
    rw [BitVec.toNat_ofNat, Nat.mod_eq_of_lt (fieldAt_one_lt w.data 0)] at hbyte
    exact hbyte
  split
  · exact .inl (.serve (Answer.NoNewHandoff.evaluate _ _) _ _ _)
  split
  · exact .inl (.receive (fun u => (State.NoNewHandoff.refl u).takeStatus _ _) _ _ _ _ _)
  split
  · exact .inl (.receive (fun u => (State.NoNewHandoff.refl u).takeTally _ _) _ _ _ _ _)
  · exact .inl (.receive State.NoNewHandoff.refl _ _ _ _ _)

/-! ### The offer check -/

theorem State.offer_offers {s : State} {b : BayNo} {r : Record} (n : NodeNo) (hmay : s.mayOffer = true)
    (hslot : (s.bay b).slot = .pack .safe r) : s.Offers (s.offer b n r).light := by
  obtain ⟨-, halone, hroom⟩ := s.mayOffer_iff.1 hmay
  have hcount (p : Slot → Bool) (hsafe : p (.pack .safe r) = false) (hoffered : p ((s.bay b).offered n r).slot = true) :
      (s.offer b n r).countBays p = s.countBays p + 1 := by
    have h := s.countBays_setBay b ((s.bay b).offered n r) p
    rw [hslot, hsafe, hoffered] at h
    rw [s.offer_eq]
    exact h
  exact { alone := halone
          room := hroom
          offered := (hcount Slot.isOffered rfl rfl).trans (by rw [halone])
          transfers := by
            change (s.offer b n r).countBays Slot.inFlight + (s.offer b n r).unaccounted.length = s.transfers + 1
            rw [hcount Slot.inFlight rfl rfl, s.offer_eq, State.transfers]
            exact Nat.add_right_comm _ _ _
          chute := by rw [State.light_chute, s.offer_eq]; rfl
          feed := by rw [State.light_feed, s.offer_eq]; rfl }

theorem State.checkOffers_offers_or_noNewHandoff (s : State) :
    s.NoNewHandoff s.checkOffers ∨ s.Offers s.checkOffers := by
  rcases s.checkOffers_cases with h | ⟨b, n, r, hmay, hslot, h⟩
  · exact .inl (by rw [h]; exact .refl s)
  · exact .inr (by rw [h]; exact State.offer_offers n hmay hslot)

theorem exec_offerCheck_cases (s : State) : ∃ t : State, exec .offerCheck s = .next t ∧ s.HandoffStep .offerCheck t := by
  cases htimer : s.handoff.offerTimer with
  | none => exact ⟨s, by simp [exec, execOfferCheck, htimer], .none (.refl s)⟩
  | some k =>
    refine ⟨_, exec_offerCheck_of_timer htimer, ?_⟩
    rcases s.restartOfferPeriod.checkOffers_offers_or_noNewHandoff with h | h
    · exact .none (((State.NoNewHandoff.refl s).frame (by rfl)).trans h)
    · exact .offers rfl { h with }

/-! ### Every command -/

/-- A command whose outcome begins no handoff. -/
theorem State.NoNewHandoff.execNext {s t : State} {c : Instr} (hexec : exec c s = .next t) (h : s.NoNewHandoff t) :
    ∃ u : State, exec c s = .next u ∧ s.HandoffStep c u := ⟨t, hexec, .none h⟩

theorem exec_wire_cases (s : State) {c : Instr} {w : WireFrame} (hframe : encodeFrame c = some w)
    (hexec : exec c s = .next (s.receiveWire w)) : ∃ t : State, exec c s = .next t ∧ s.HandoffStep c t := by
  refine ⟨_, hexec, ?_⟩
  rcases s.receiveWire_cases w with h | ⟨hkind, hbyte, h⟩
  · exact .none h
  · exact .reserves ⟨w, hframe, hkind, hbyte⟩ h

theorem exec_offerReceived_cases (s : State) (f : HandoffFrame) :
    ∃ t : State, exec (.offerReceived f) s = .next t ∧ s.HandoffStep (.offerReceived f) t := by
  refine ⟨_, rfl, ?_⟩
  rcases s.receiveHandoff_offer_cases f with h | h
  · exact .none h
  · exact .reserves ⟨_, rfl, rfl, rfl⟩ h

open State.NoNewHandoff in
/-- Every command begins no handoff, takes an OFFER for the chute, or offers a bay. -/
theorem exec_handoffStep (c : Instr) (s : State) : ∃ t : State, exec c s = .next t ∧ s.HandoffStep c t := by
  have hs := refl s
  have hrequest (code : Byte) (f : RequestFrame) {eval : RequestFrame → State → Answer}
      (h : ∀ u : State, (eval f u).NoNewHandoff u) : s.NoNewHandoff (s.serve code f (eval f)) := serve h s code f
  cases c with
  | offerCheck => exact exec_offerCheck_cases s
  | offerReceived f => exact exec_offerReceived_cases s f
  | foreignFrameReceived w => exact exec_wire_cases s rfl rfl
  | framePassedBy w => exact exec_wire_cases s rfl rfl
  | powerOnReset => exact execNext rfl (powerOn s)
  | resetPinAsserted => exact execNext rfl (assertPin s)
  | endOfReset e => exact execNext rfl (ite (endReset s e) hs)
  | listenTimerExpiry => exact execNext rfl (ite (enterRunning s) hs)
  | bayConversion b x => exact execNext rfl (ite (convert s b x) hs)
  | restTimerExpiry b => exact execNext rfl (ite (restExpires s b) hs)
  | headroomComputation => exact execNext rfl (ite (computeHeadroom s) hs)
  | answerTimerExpiry b => exact execNext rfl (ite (answerExpires s b) hs)
  | offerBackoffExpiry b => exact execNext rfl (hs.setBay (.of_slot rfl))
  | releaseTimerExpiry b => exact execNext rfl (ite (releaseExpires s b) hs)
  | transitTimerExpiry b => exact execNext rfl (ite (transitExpires s b) hs)
  | takeReceived f => exact execNext rfl (receiveHandoff (fun u n b => (refl u).takeTaken f n b) 1 f)
  | declineReceived f => exact execNext rfl (receiveHandoff (fun u n b => (refl u).takeDecline f n b) 2 f)
  | withdrawReceived f => exact execNext rfl (receiveHandoff (fun u n b => (refl u).takeWithdraw f n b) 3 f)
  | settleReceived f => exact execNext rfl (receiveHandoff (fun u n b => (refl u).takeSettle f n b) 4 f)
  | chuteArrival => exact execNext rfl (ite (arrival s) hs)
  | chuteArrivalSensorClear => exact execNext rfl (ite (hs.frame (by rfl)) hs)
  | arrivalTimerExpiry => exact execNext rfl (ite (hs.dropReservation.frame (by rfl)) hs)
  | feedPeriodExpiry => exact execNext rfl (ite (feedPeriod s) hs)
  | rotorFeedbackOn => exact execNext rfl (ite (feedbackRises s) hs)
  | rotorFeedbackOff => exact execNext rfl (ite (feedbackFalls s) hs)
  | startTimerExpiry => exact execNext rfl (ite (addReason (hs.frame (by rfl))) hs)
  | stopTimerExpiry => exact execNext rfl (ite (addReason (hs.frame (by rfl))) hs)
  | idleTimerExpiry => exact execNext rfl (ite (enterStopping s) hs)
  | feedConfirmSet => exact execNext rfl (ite (confirmRises s) hs)
  | feedConfirmClear => exact execNext rfl (ite (hs.frame (by rfl)) hs)
  | feedTimerExpiry => exact execNext rfl (ite (feedExpires s) hs)
  | atmosSample x => exact execNext rfl (ite (sampleAtmos s x) hs)
  | purgeSlowDeadline => exact execNext rfl (ite (hs.frame (by rfl)) hs)
  | purgeLockoutDeadline => exact execNext rfl (ite (hs.frame (by rfl)) hs)
  | fireSample x => exact execNext rfl (ite (sampleFire s x) hs)
  | statusReceived src dst f => exact execNext rfl (receive (fun u => (refl u).takeStatus src f) _ _ _ _ _)
  | tallyReceived src dst f => exact execNext rfl (receive (fun u => (refl u).takeTally src f) _ _ _ _ _)
  | alarmReceived src dst f => exact execNext rfl (receive refl _ _ _ _ _)
  | receiveError => exact execNext rfl (ite (hs.setErrors _ _) hs)
  | peerAgeStale n => exact execNext rfl (ite (reviewLine (hs.frame (by rfl))) hs)
  | peerAgeLost n => exact execNext rfl (ite (losePeer s n) hs)
  | repeatWindowExpiry a => exact execNext rfl (hs.frame (by rfl))
  | silenceTimerExpiry => exact execNext rfl (ite (fallSilent s) hs)
  | statusPeriodExpiry => exact execNext rfl (ite (ite (hs.frame (by rfl)) (placeStatus (hs.frame (by rfl)))) hs)
  | tallyPeriodExpiry => exact execNext rfl (ite (ite (hs.frame (by rfl)) (placeTally (hs.frame (by rfl)))) hs)
  | transmitSelection => exact execNext rfl (ite (hs.frame (by rfl)) hs)
  | transmitSuccess =>
    refine execNext rfl ?_
    split
    · exact succeed s _
    · exact hs
  | arbitrationLost => exact execNext rfl (ite hs.endAttempt hs)
  | transmitError ackOnly => exact execNext rfl (ite (hs.setErrors _ _).endAttempt hs)
  | busIdleSighting => exact execNext rfl (ite (hs.frame (by rfl)) hs)
  | admitPack f => exact execNext rfl (hrequest 1 f (.admitPack f))
  | abort f => exact execNext rfl (hrequest 2 f (.abort f))
  | resume f => exact execNext rfl (hrequest 3 f (.resume f))
  | quarantineIn f => exact execNext rfl (hrequest 4 f (.quarantineIn f))
  | quarantineOut f => exact execNext rfl (hrequest 5 f (.quarantineOut f))
  | accountClear f => exact execNext rfl (hrequest 6 f (.accountClear f))
  | alarmReset f => exact execNext rfl (hrequest 7 f (.alarmReset f))
  | purgeReset f => exact execNext rfl (hrequest 8 f (.purgeReset f))
  | flush f => exact execNext rfl (hrequest 9 f (.flush f))
  | shredReset f => exact execNext rfl (hrequest 10 f (.shredReset f))
  | peerForget f => exact execNext rfl (hrequest 11 f (.peerForget f))
  | readRecord f => exact execNext rfl (hrequest 12 f (.readRecord f))
  | readTally f => exact execNext rfl (hrequest 13 f (.readTally f))
  | readQuarantine f => exact execNext rfl (hrequest 14 f (.readQuarantine f))
  | identify f => exact execNext rfl (hrequest 15 f (.identify f))
  | nodeReset f => exact execNext rfl (hrequest 16 f (.nodeReset f))
  | unknownRequest code f => exact execNext rfl (hrequest code f (.evaluate code f))

/-! ### Every step -/

/-- What a step can do to the intake and to the transfers in flight: nothing that begins a handoff, or what the command at
the front of the queue does. -/
theorem step_handoffStep {s t : State} (h : step s = .next t) : s.NoNewHandoff t ∨
    ∃ (c : Instr) (rest : List Instr), s.pending = c :: rest ∧ s.HandoffStep c t := by
  unfold step at h
  split at h
  · next c rest hpending =>
    obtain ⟨u, hexec, hu⟩ := exec_handoffStep c { s with pending := rest }
    obtain rfl : u = t := Host.Outcome.next.inj (hexec.symm.trans h)
    refine .inr ⟨c, rest, hpending, ?_⟩
    cases hu with
    | none h => exact .none (((State.NoNewHandoff.refl s).frame (by rfl)).trans h)
    | reserves hc h => exact .reserves hc { h with }
    | offers hc h => exact .offers hc { h with }
  · obtain rfl := Host.Outcome.next.inj h
    exact .inl (.tick s)

/-- The three kinds of step, with the front of the queue where a handoff begins. -/
theorem step_cases {s t : State} (h : step s = .next t) : s.NoNewHandoff t ∨
    (s.Reserves t ∧ ∃ (c : Instr) (rest : List Instr), s.pending = c :: rest ∧ IsOffer c) ∨
    (s.Offers t ∧ ∃ rest : List Instr, s.pending = .offerCheck :: rest) := by
  rcases step_handoffStep h with hnone | ⟨c, rest, hpending, hstep⟩
  · exact .inl hnone
  · cases hstep with
    | none h => exact .inl h
    | reserves hc h => exact .inr (.inl ⟨h, c, rest, hpending, hc⟩)
    | offers hc h => exact .inr (.inr ⟨h, rest, hc ▸ hpending⟩)

/-! ### What the three kinds of step keep -/

theorem State.Reserves.transfers {s t : State} (h : s.Reserves t) : t.transfers = s.transfers := by
  simp [State.transfers, State.countBays, h.bays, h.unaccounted]

theorem State.Reserves.countBays {s t : State} (h : s.Reserves t) (p : Slot → Bool) : t.countBays p = s.countBays p := by
  simp [State.countBays, h.bays]

theorem State.Reserves.bay {s t : State} (h : s.Reserves t) (b : BayNo) : t.bay b = s.bay b := by
  simp [State.bay, h.bays]

theorem State.Offers.intake {s t : State} (h : s.Offers t) : t.intake = s.intake := by
  simp [State.intake, h.chute, h.feed]

theorem intakeLaw_kept {s t : State} (hlaw : s.IntakeLaw) (h : step s = .next t) : t.IntakeLaw := by
  rcases step_cases h with hnone | ⟨hres, -⟩ | ⟨hoff, -⟩
  · exact hnone.intake.trans hlaw
  · rw [State.IntakeLaw, hres.intake]
    exact hres.room
  · rw [State.IntakeLaw, hoff.intake]
    exact hlaw

theorem transferLaw_kept {s t : State} (hlaw : s.TransferLaw) (h : step s = .next t) : t.TransferLaw := by
  obtain ⟨hcount, hoffered⟩ := hlaw
  rcases step_cases h with hnone | ⟨hres, -⟩ | ⟨hoff, -⟩
  · exact ⟨hnone.transfers.trans hcount, (State.countBays_le hnone.offered).trans hoffered⟩
  · exact ⟨hres.transfers ▸ hcount, hres.countBays _ ▸ hoffered⟩
  · exact ⟨hoff.transfers ▸ hoff.room, hoff.offered.le⟩

/-- A new reservation is made by a received OFFER (R76). -/
theorem reservation_made_by_offer {s t : State} (h : step s = .next t) (hmade : t.chute.reservation ≠ none)
    (hnew : t.chute.reservation ≠ s.chute.reservation) :
    s.Reserves t ∧ ∃ (c : Instr) (rest : List Instr), s.pending = c :: rest ∧ IsOffer c := by
  rcases step_cases h with hnone | hres | ⟨hoff, -⟩
  · exact (hnone.reservation.elim hmade hnew).elim
  · exact hres
  · exact absurd (congrArg Chute.reservation hoff.chute) hnew

/-- Without an entry to OFFERED the transfers do not grow (R81). -/
theorem transfers_le_of_no_offer {s t : State} (h : step s = .next t)
    (hno : ∀ b : BayNo, (t.bay b).slot.isOffered = true → (s.bay b).slot.isOffered = true) : t.transfers ≤ s.transfers := by
  rcases step_cases h with hnone | ⟨hres, -⟩ | ⟨hoff, -⟩
  · exact hnone.transfers
  · exact hres.transfers.le
  · have hle := State.countBays_le hno
    rw [hoff.offered, hoff.alone] at hle
    exact absurd hle (by decide)

/-- A bay enters OFFERED by the offer check (R66). -/
theorem offered_by_offerCheck {s t : State} {b : BayNo} (h : step s = .next t) (hin : (t.bay b).slot.isOffered = true)
    (hout : (s.bay b).slot.isOffered = false) : s.Offers t ∧ ∃ rest : List Instr, s.pending = .offerCheck :: rest := by
  rcases step_cases h with hnone | ⟨hres, -⟩ | hoff
  · exact absurd (hnone.offered b hin) (Bool.eq_false_iff.1 hout)
  · exact absurd (hres.bay b ▸ hin) (Bool.eq_false_iff.1 hout)
  · exact hoff

end Sys2Proof.Machine

namespace Sys2Proof.Proofs

open Sys2Proof Sys2Proof.Machine Sys2Proof.Config

/-- Settles O52, by the three kinds of step (`step_cases`): no handoff begins, the chute is reserved by an OFFER, or the
offer check offers a bay. -/
theorem intakeAndTransferLawsKept : Obligations.IntakeAndTransferLawsKept := by
  refine ⟨fun _ _ => intakeLaw_kept, ?reserved, fun _ _ => transferLaw_kept, fun _ _ => transfers_le_of_no_offer, ?offered⟩
  case reserved =>
    intro s t h hmade hnew
    obtain ⟨hres, c, rest, hpending, w, hframe, hkind, hbyte⟩ := reservation_made_by_offer h hmade hnew
    exact ⟨⟨c, rest, w, hpending, hframe, hkind, hbyte⟩, hres.free, hres.room, hres.intake⟩
  case offered =>
    intro s t b h hin hout
    obtain ⟨hoff, hcheck⟩ := offered_by_offerCheck h hin hout
    exact ⟨hcheck, hoff.alone, hoff.room, hoff.offered, hoff.transfers⟩

end Sys2Proof.Proofs
end

