-- ==== Sys2Proof/Proofs/FeedSide.lean ====
section
/-! The part of the state that L8 and L12 read (`State.feedSide`), and the operations that leave it as it is: one equation
each, in the order of the model's files. -/

namespace Sys2Proof.Machine

open Sys2Proof Sys2Proof.Config

/-- Atmosphere, feed controller and reservation. -/
def State.equipment (s : State) : Atmos × Feed × Option Offered := (s.atmos, s.feed, s.chute.reservation)

/-- What L8 (R105) and the accepting flag (R103) are about, and the STATUS slot. -/
def State.feedSide (s : State) : (Atmos × Feed × Option Offered) × Lifecycle × Bool × Option StatusFrame :=
  (s.equipment, s.startup.life, s.lineClear, s.link.status)

theorem State.feedSide_eq_iff (s t : State) : t.feedSide = s.feedSide ↔ t.equipment = s.equipment ∧
    t.startup.life = s.startup.life ∧ t.lineClear = s.lineClear ∧ t.link.status = s.link.status := by
  simp only [State.feedSide, Prod.mk.injEq]

theorem State.equipment_eq_iff (s t : State) : t.equipment = s.equipment ↔
    t.atmos = s.atmos ∧ t.feed = s.feed ∧ t.chute.reservation = s.chute.reservation := by
  simp only [State.equipment, Prod.mk.injEq]

/-! ### Shared operations -/

section
variable (s : State)

@[simp] theorem State.setBay_feedSide (b : BayNo) (x : Bay) : (s.setBay b x).feedSide = s.feedSide := rfl
@[simp] theorem State.mapBays_feedSide (f : Bay → Bay) : (s.mapBays f).feedSide = s.feedSide := rfl
@[simp] theorem State.onT1_feedSide (f : Tally1 → Tally1) : (s.onT1 f).feedSide = s.feedSide := rfl
@[simp] theorem State.onT2_feedSide (f : Tally2 → Tally2) : (s.onT2 f).feedSide = s.feedSide := rfl
@[simp] theorem State.onT3_feedSide (f : Tally3 → Tally3) : (s.onT3 f).feedSide = s.feedSide := rfl
@[simp] theorem State.onT4_feedSide (f : Tally4 → Tally4) : (s.onT4 f).feedSide = s.feedSide := rfl
@[simp] theorem State.onT5_feedSide (f : Tally5 → Tally5) : (s.onT5 f).feedSide = s.feedSide := rfl
@[simp] theorem State.onT6_feedSide (f : Tally6 → Tally6) : (s.onT6 f).feedSide = s.feedSide := rfl
@[simp] theorem State.countForeign_feedSide : s.countForeign.feedSide = s.feedSide := rfl
@[simp] theorem State.raise_feedSide (c : Cause) (place : Place) (tag : Option Tag) :
    (s.raise c place tag).feedSide = s.feedSide := rfl
@[simp] theorem State.enterFault_feedSide (c : FaultCause) (place : Place) (tag : Option Tag) :
    (s.enterFault c place tag).feedSide = s.feedSide := rfl
@[simp] theorem State.reject_feedSide (b : BayNo) (r : Record) (c : EndCause) :
    (s.reject b r c).feedSide = s.feedSide := rfl
@[simp] theorem State.settle_feedSide (b : BayNo) : (s.settle b).feedSide = s.feedSide := rfl
@[simp] theorem State.holdFault_feedSide (b : BayNo) (r : Record) (c : FaultCause) :
    (s.holdFault b r c).feedSide = s.feedSide := rfl
@[simp] theorem State.light_feedSide : s.light.feedSide = s.feedSide := rfl
@[simp] theorem State.driveRelays_feedSide : s.driveRelays.feedSide = s.feedSide := rfl
@[simp] theorem State.placeReply_feedSide (t : TerminalNo) (r : Reply) : (s.placeReply t r).feedSide = s.feedSide := rfl

@[simp] theorem State.placeHandoff_feedSide (f : HandoffOut) : (s.placeHandoff f).feedSide = s.feedSide := by
  simp [State.feedSide, State.equipment, State.lineClear, State.running, State.placeHandoff_link]

@[simp] theorem State.setErrors_feedSide (tx rx : Nat) : (s.setErrors tx rx).feedSide = s.feedSide := by
  rw [State.setErrors_eq, State.setErrors_link]
  rfl

@[simp] theorem State.eased_feedSide : s.eased.feedSide = s.feedSide := s.setErrors_feedSide _ _

@[simp] theorem State.heard_feedSide (a : Fin 15) (bytes : List Byte) : (s.heard a bytes).feedSide = s.feedSide :=
  s.eased_feedSide

@[simp] theorem State.recallRelease_feedSide (b : BayNo) : (s.recallRelease b).feedSide = s.feedSide := by
  unfold State.recallRelease
  repeat' split
  all_goals simp

/-! ### Conversions and pack records -/

@[simp] theorem State.losePack_feedSide (b : BayNo) (r : Record) : (s.losePack b r).feedSide = s.feedSide := rfl
@[simp] theorem State.depart_feedSide (b : BayNo) (n : NodeNo) (r : Record) :
    (s.depart b n r).feedSide = s.feedSide := rfl

@[simp] theorem State.presenceStep_feedSide (b : BayNo) : (s.presenceStep b).feedSide = s.feedSide := by
  unfold State.presenceStep
  repeat' split
  all_goals simp

@[simp] theorem State.raiseHeat_feedSide (before : Bool) (b : BayNo) : (s.raiseHeat before b).feedSide = s.feedSide := by
  unfold State.raiseHeat
  split <;> simp

@[simp] theorem State.measureStep_feedSide (b : BayNo) (before : Bool) :
    (s.measureStep b before).feedSide = s.feedSide := by simp [State.measureStep]

@[simp] theorem State.startCheck_feedSide (b : BayNo) (r : Record) : (s.startCheck b r).feedSide = s.feedSide := by
  unfold State.startCheck
  split <;> simp

@[simp] theorem State.restEnd_feedSide (b : BayNo) (r : Record) : (s.restEnd b r).feedSide = s.feedSide := by
  unfold State.restEnd State.rebound
  dsimp only
  repeat' split
  all_goals simp

@[simp] theorem State.endOrCommand_feedSide (b : BayNo) (r : Record) (v : Nat) (t : Int) :
    (s.endOrCommand b r v t).feedSide = s.feedSide := by
  unfold State.endOrCommand
  dsimp only
  repeat' split
  all_goals simp

@[simp] theorem State.sample_feedSide (b : BayNo) (r : Record) : (s.sample b r).feedSide = s.feedSide := by
  unfold State.sample
  dsimp only
  repeat' split
  all_goals simp

@[simp] theorem State.regulate_feedSide (b : BayNo) : (s.regulate b).feedSide = s.feedSide := by
  unfold State.regulate State.holdCheck
  repeat' split
  all_goals simp

theorem State.convert_feedSide (b : BayNo) (x : BayReading) : (s.convert b x).feedSide = s.feedSide := by
  simp [State.convert]

theorem State.restExpires_feedSide (b : BayNo) : (s.restExpires b).feedSide = s.feedSide := by
  unfold State.restExpires
  dsimp only
  split <;> simp

theorem State.computeHeadroom_feedSide : s.computeHeadroom.feedSide = s.feedSide := rfl

@[simp] theorem State.quarantine_feedSide (b : BayNo) (tag : Option Tag) (reason : QuarantineReason) :
    (s.quarantine b tag reason).feedSide = s.feedSide := by
  unfold State.quarantine
  dsimp only
  split <;> rfl

/-! ### The bay side of a handoff -/

theorem State.checkOffers_feedSide : s.checkOffers.feedSide = s.feedSide := by
  rcases s.checkOffers_cases with h | ⟨b, n, r, -, -, h⟩
  · rw [h]
  · rw [h, s.offer_eq]; rfl

theorem State.answerExpires_feedSide (b : BayNo) : (s.answerExpires b).feedSide = s.feedSide := by
  unfold State.answerExpires
  split <;> simp

theorem State.releaseExpires_feedSide (b : BayNo) : (s.releaseExpires b).feedSide = s.feedSide := by
  unfold State.releaseExpires State.stick State.jam
  repeat' split
  all_goals simp

theorem State.transitExpires_feedSide (b : BayNo) : (s.transitExpires b).feedSide = s.feedSide := by
  unfold State.transitExpires State.loseTransit
  dsimp only
  repeat' split
  all_goals rfl

@[simp] theorem State.takeTaken_feedSide (f : HandoffFrame) (n : NodeNo) (b : BayNo) :
    (s.takeTaken f n b).feedSide = s.feedSide := by
  unfold State.takeTaken State.release
  dsimp only
  repeat' split
  all_goals simp

@[simp] theorem State.takeDecline_feedSide (f : HandoffFrame) (n : NodeNo) (b : BayNo) :
    (s.takeDecline f n b).feedSide = s.feedSide := by
  unfold State.takeDecline
  repeat' split
  all_goals simp

@[simp] theorem State.takeSettle_feedSide (f : HandoffFrame) (n : NodeNo) (b : BayNo) :
    (s.takeSettle f n b).feedSide = s.feedSide := by
  unfold State.takeSettle
  repeat' split
  all_goals rfl

@[simp] theorem State.takeTally_feedSide (src : Address) (f : TallyFrame) : (s.takeTally src f).feedSide = s.feedSide := by
  unfold State.takeTally State.reconcile
  dsimp only
  repeat' split
  all_goals rfl

/-! ### Fire unit and line link -/

@[simp] theorem State.channelOnset_feedSide (before now : Channel) (k : Nat) :
    (s.channelOnset before now k).feedSide = s.feedSide := by
  unfold State.channelOnset
  split <;> rfl

@[simp] theorem State.gradeSources_feedSide (x : FireReading) : (s.gradeSources x).feedSide = s.feedSide := by
  simp only [State.gradeSources, State.channelOnset_feedSide]
  rfl

@[simp] theorem State.checkImpaired_feedSide : s.checkImpaired.feedSide = s.feedSide := by
  unfold State.checkImpaired
  dsimp only
  split <;> rfl

@[simp] theorem State.rejectExposed_feedSide (b : BayNo) : (s.rejectExposed b).feedSide = s.feedSide := by
  unfold State.rejectExposed
  repeat' split
  all_goals rfl

@[simp] theorem State.rejectAllExposed_feedSide : s.rejectAllExposed.feedSide = s.feedSide := by
  simp [State.rejectAllExposed]

@[simp] theorem State.replySent_feedSide (t : TerminalNo) : (s.replySent t).feedSide = s.feedSide := by
  unfold State.replySent State.answerHeld
  split <;> rfl

@[simp] theorem State.placeTally_feedSide : s.placeTally.feedSide = s.feedSide := by
  rw [State.placeTally_eq]
  rfl

theorem State.sight_feedSide : ({ s with link := s.link.sight } : State).feedSide = s.feedSide := by
  have hstatus : s.link.sight.status = s.link.status := by
    unfold Link.sight
    split <;> rfl
  simp [State.feedSide, State.equipment, State.lineClear, State.running, hstatus]

end

end Sys2Proof.Machine
end

