-- ==== Sys2Proof/Proofs/NoNewFeed.lean ====
section
/-! The relation `State.NoNewFeed`: L8 is kept, the feed gate is not opened, and no STATUS is formed. It is reflexive and
transitive. L8 does not hold between the loss of a condition of the permissive and what R89 makes of it, so the weaker
relation `State.FeedShaped` leaves the permissive out; `State.losePermissive` leads from it to the full one. -/

namespace Sys2Proof.Machine

open Sys2Proof Sys2Proof.Config

/-! ### The feed controller -/

/-- From `f` to `g` no feed begins, the gate stays closed, the rotor is not commanded to turn, and no hold is set. -/
structure Feed.NoStart (f g : Feed) : Prop where
  kind : f.kind = .none → g.kind = .none
  gate : g.gate = true → f.gate = true
  commanded : g.rotor.commanded = true → f.rotor.commanded = true
  hold : f.hold.isSet = false → g.hold.isSet = false

theorem Feed.NoStart.refl (f : Feed) : f.NoStart f := ⟨id, id, id, id⟩

theorem Feed.abandon_kind_ne (f : Feed) : f.abandon.kind ≠ .active := by
  unfold Feed.abandon
  split
  · exact nofun
  · assumption

theorem Feed.Consistent.abandon {f : Feed} {reserved : Bool} (h : f.Consistent reserved) :
    f.abandon.Consistent reserved := by
  unfold Feed.abandon
  split
  · next hactive =>
    exact { h with
      gate := rfl
      active := nofun
      feeding := fun _ => h.feeding (hactive ▸ nofun)
      timer := by simpa [hactive] using h.timer }
  · exact h

theorem Feed.Consistent.enterStopping {f : Feed} {reserved : Bool} (h : f.Consistent reserved) (hkind : f.kind ≠ .active) :
    f.enterStopping.Consistent reserved := by
  unfold Feed.enterStopping
  split <;> exact { h with
    run := rfl, active := fun hactive => absurd hactive hkind, start := rfl, stop := rfl, idle := nofun }

theorem Feed.Consistent.losePermissive {f : Feed} {reserved : Bool} (h : f.Consistent reserved) :
    f.losePermissive.Consistent reserved := by
  unfold Feed.losePermissive
  dsimp only
  split
  · exact h.abandon.enterStopping f.abandon_kind_ne
  · exact h.abandon

theorem Feed.abandon_noStart (f : Feed) : f.NoStart f.abandon := by
  unfold Feed.abandon
  split
  · next hactive => exact ⟨fun hnone => absurd (hactive.symm.trans hnone) nofun, nofun, id, id⟩
  · exact .refl f

theorem Feed.enterStopping_noStart (f : Feed) : f.NoStart f.enterStopping := by
  unfold Feed.enterStopping
  split <;> exact ⟨id, id, nofun, id⟩

theorem Feed.NoStart.trans {f g k : Feed} (h : f.NoStart g) (h' : g.NoStart k) : f.NoStart k :=
  ⟨h'.kind ∘ h.kind, h.gate ∘ h'.gate, h.commanded ∘ h'.commanded, h'.hold ∘ h.hold⟩

theorem Feed.losePermissive_noStart (f : Feed) : f.NoStart f.losePermissive := by
  unfold Feed.losePermissive
  dsimp only
  split
  · exact f.abandon_noStart.trans f.abandon.enterStopping_noStart
  · exact f.abandon_noStart

/-! ### The two relations -/

theorem State.permissive_iff (s : State) : s.permissive = true ↔
    s.atmos.state = .inert ∧ s.lineClear = true ∧ s.feed.hold.isSet = false := by
  simp [State.permissive, and_assoc]

/-- L8 without the permissive: valves, outputs and timers belong to their states. -/
structure State.FeedShape (s : State) : Prop where
  atmos : s.atmos.Consistent
  feed : s.feed.Consistent s.chute.reservation.isSome
  inReset : s.startup.life = .inReset → s.feed.kind = .none

theorem State.feedLaw_iff (s : State) : s.FeedLaw ↔
    s.FeedShape ∧ (s.feed.rotor.commanded = true → s.permissive = true) :=
  ⟨fun ⟨ha, hf, hp, hr⟩ => ⟨⟨ha, hf, hr⟩, hp⟩, fun ⟨⟨ha, hf, hr⟩, hp⟩ => ⟨ha, hf, hp, hr⟩⟩

/-- From `s` to `t` the STATUS slot keeps its frame or becomes empty. -/
def State.NoNewStatus (s t : State) : Prop := t.link.status = none ∨ t.link.status = s.link.status

theorem State.NoNewStatus.trans {s t u : State} (h : s.NoNewStatus t) (g : t.NoNewStatus u) : s.NoNewStatus u :=
  g.elim .inl fun e => h.imp e.trans e.trans

/-- From `s` to `t` the shape of L8 is kept, the gate is not opened, and no STATUS is formed. -/
structure State.FeedShaped (s t : State) : Prop where
  shape : s.FeedLaw → t.FeedShape
  gate : t.feed.gate = true → s.feed.gate = true
  status : s.NoNewStatus t

/-- From `s` to `t` L8 is kept, the gate is not opened, and no STATUS is formed. -/
structure State.NoNewFeed (s t : State) : Prop extends s.FeedShaped t where
  permits : s.FeedLaw → t.feed.rotor.commanded = true → t.permissive = true

/-- The shape of L8 reads atmosphere, feed controller and reservation, and whether a reset lasts. -/
theorem State.FeedShaped.of_equipment {s u t : State} (h : s.FeedShaped u) (heq : t.equipment = u.equipment)
    (hlife : t.startup.life = .inReset → u.startup.life = .inReset) (hstatus : u.NoNewStatus t) : s.FeedShaped t := by
  obtain ⟨hatmos, hfeed, hres⟩ := (State.equipment_eq_iff u t).1 heq
  refine ⟨fun hlaw => ?_, fun hgate => h.gate (hfeed ▸ hgate), h.status.trans hstatus⟩
  obtain ⟨ha, hf, hr⟩ := h.shape hlaw
  exact ⟨hatmos ▸ ha, by rw [hfeed, hres]; exact hf, fun hl => hfeed ▸ hr (hlife hl)⟩

theorem State.FeedShaped.frame {s u t : State} (h : s.FeedShaped u) (hside : t.feedSide = u.feedSide) :
    s.FeedShaped t := by
  obtain ⟨heq, hlife, -, hstatus⟩ := (State.feedSide_eq_iff u t).1 hside
  exact h.of_equipment heq hlife.symm.trans (.inr hstatus)

namespace State.NoNewFeed

variable {s u t : State}

theorem law (h : s.NoNewFeed t) (hlaw : s.FeedLaw) : t.FeedLaw :=
  (State.feedLaw_iff t).2 ⟨h.shape hlaw, h.permits hlaw⟩

theorem refl (s : State) : s.NoNewFeed s where
  shape hlaw := ((State.feedLaw_iff s).1 hlaw).1
  gate := id
  status := .inr rfl
  permits hlaw := ((State.feedLaw_iff s).1 hlaw).2

theorem trans (h : s.NoNewFeed u) (g : u.NoNewFeed t) : s.NoNewFeed t where
  shape hlaw := g.shape (h.law hlaw)
  gate := h.gate ∘ g.gate
  status := h.status.trans g.status
  permits hlaw := g.permits (h.law hlaw)

/-- The equipment stays, and the line does not stop being clear. -/
theorem of_equipment (h : s.NoNewFeed u) (heq : t.equipment = u.equipment)
    (hlife : t.startup.life = .inReset → u.startup.life = .inReset) (hstatus : u.NoNewStatus t)
    (hclear : u.lineClear = true → t.lineClear = true) : s.NoNewFeed t := by
  refine ⟨h.toFeedShaped.of_equipment heq hlife hstatus, fun hlaw hcommanded => ?_⟩
  obtain ⟨hatmos, hfeed, -⟩ := (State.equipment_eq_iff u t).1 heq
  rw [hfeed] at hcommanded
  obtain ⟨hinert, hline, hhold⟩ := u.permissive_iff.1 (h.permits hlaw hcommanded)
  exact t.permissive_iff.2 ⟨hatmos ▸ hinert, hclear hline, hfeed ▸ hhold⟩

/-- Where the feed side stays by definition, `by rfl` proves it, which Lean elaborates last, when both states are known. -/
theorem frame (h : s.NoNewFeed u) (hside : t.feedSide = u.feedSide) : s.NoNewFeed t := by
  obtain ⟨heq, hlife, hclear, hstatus⟩ := (State.feedSide_eq_iff u t).1 hside
  exact h.of_equipment heq hlife.symm.trans (.inr hstatus) hclear.trans

/-- A command that acts under a condition only. -/
theorem ite {p : Prop} [Decidable p] (hu : s.NoNewFeed u) (ht : s.NoNewFeed t) : s.NoNewFeed (if p then u else t) := by
  split
  · exact hu
  · exact ht

/-! ### One block changes -/

/-- Chute and feed controller change, and no feed begins. -/
theorem setShredder (h : s.NoNewFeed u) {c : Chute} {f : Feed} (hstart : u.feed.NoStart f)
    (hcons : u.feed.Consistent u.chute.reservation.isSome → f.Consistent c.reservation.isSome) :
    s.NoNewFeed { u with chute := c, feed := f } where
  shape hlaw :=
    have hshape := h.shape hlaw
    ⟨hshape.atmos, hcons hshape.feed, fun hlife => hstart.kind (hshape.inReset hlife)⟩
  gate := h.gate ∘ hstart.gate
  status := h.status
  permits hlaw hcommanded :=
    have ⟨hinert, hline, hhold⟩ := u.permissive_iff.1 (h.permits hlaw (hstart.commanded hcommanded))
    (State.permissive_iff _).2 ⟨hinert, hline, hstart.hold hhold⟩

theorem setFeed (h : s.NoNewFeed u) {f : Feed} (hstart : u.feed.NoStart f)
    (hcons : u.feed.Consistent u.chute.reservation.isSome → f.Consistent u.chute.reservation.isSome) :
    s.NoNewFeed { u with feed := f } := (h.setShredder (c := u.chute) hstart hcons).frame rfl

end State.NoNewFeed

theorem State.FeedShaped.setAtmos {s u : State} (h : s.FeedShaped u) {a : Atmos}
    (hcons : u.atmos.Consistent → a.Consistent) : s.FeedShaped { u with atmos := a } :=
  { h with shape := fun hlaw => { h.shape hlaw with atmos := hcons (h.shape hlaw).atmos } }

/-- The atmosphere changes, and INERT is not left. -/
theorem State.NoNewFeed.setAtmos {s u : State} (h : s.NoNewFeed u) {a : Atmos} (hcons : u.atmos.Consistent → a.Consistent)
    (hinert : u.atmos.Consistent → u.atmos.state = .inert → a.state = .inert) : s.NoNewFeed { u with atmos := a } where
  toFeedShaped := h.toFeedShaped.setAtmos hcons
  permits hlaw hcommanded :=
    have ⟨hi, hline, hhold⟩ := u.permissive_iff.1 (h.permits hlaw hcommanded)
    (State.permissive_iff _).2 ⟨hinert (h.shape hlaw).atmos hi, hline, hhold⟩

/-! ### The permissive -/

/-- Whatever took the permissive away, its loss restores L8 (R89). -/
theorem State.NoNewFeed.losePermissive {s u : State} (h : s.FeedShaped u) : s.NoNewFeed u.losePermissive where
  shape hlaw :=
    have hshape := h.shape hlaw
    ⟨hshape.atmos, hshape.feed.losePermissive, fun hlife => u.feed.losePermissive_noStart.kind (hshape.inReset hlife)⟩
  gate := h.gate ∘ u.feed.losePermissive_noStart.gate
  status := h.status
  permits _ hcommanded :=
    have ⟨_, hstopped, _⟩ := u.feed.losePermissive_spec
    absurd hcommanded (Bool.eq_false_iff.1 hstopped)

/-- A reason added to a hold that is set finds the rotor not commanded; the first reason loses the permissive (R88). -/
theorem State.NoNewFeed.addReason {s u : State} (h : s.NoNewFeed u) {r : HoldReason} {c : FaultCause} {place : Place}
    {tag : Option Tag} : s.NoNewFeed (u.addReason r c place tag) := by
  have hheld : s.FeedShaped { u with feed := { u.feed with hold := u.feed.hold.add r } } :=
    { h.toFeedShaped with
      shape := fun hlaw =>
        have hshape := h.shape hlaw
        { hshape with feed := { hshape.feed with } } }
  unfold State.addReason
  dsimp only
  split
  · next hset =>
    refine ⟨hheld.frame rfl, fun hlaw hcommanded => ?_⟩
    have ⟨_, _, hclear⟩ := u.permissive_iff.1 (h.permits hlaw hcommanded)
    exact absurd hset (Bool.eq_false_iff.1 hclear)
  · exact .losePermissive (hheld.frame rfl)

/-! ### Chute and idle timer -/

namespace State.NoNewFeed

variable {s u : State}

theorem refreshIdle (h : s.NoNewFeed u) : s.NoNewFeed u.refreshIdle := by
  unfold State.refreshIdle
  split
  · next hidle =>
    obtain ⟨hrunning, hqueue, hfree⟩ := hidle
    split
    · exact h
    · exact h.setFeed ⟨id, id, id, id⟩ fun hcons => { hcons with idle := fun _ => ⟨hrunning, hqueue, by simp [hfree]⟩ }
  · exact h.setFeed ⟨id, id, id, id⟩ fun hcons => { hcons with idle := nofun }

/-- The idle timer does not run beside a reservation, so nothing is missing when the reservation goes (R92). -/
theorem dropReservation (h : s.NoNewFeed u) : s.NoNewFeed u.dropReservation := by
  unfold State.dropReservation
  refine .refreshIdle (.frame (h.setShredder (c := { u.chute with
    reservation := none, arrivalTimer := none, conveyor := false }) ⟨id, id, id, id⟩ fun hcons => ?_) rfl)
  exact { hcons with idle := fun htimer =>
    have ⟨hrunning, hqueue, _⟩ := hcons.idle htimer
    ⟨hrunning, hqueue, rfl⟩ }

theorem placeHandoff (h : s.NoNewFeed u) (f : HandoffOut) : s.NoNewFeed (u.placeHandoff f) := h.frame (by simp)

theorem light (h : s.NoNewFeed u) : s.NoNewFeed u.light := h.frame rfl

/-! ### Line view and SAFE-STOP -/

/-- The view takes line_fire as its inputs give it; where it rises the permissive is lost (R89, R151). -/
theorem reviewLine (h : s.NoNewFeed u) : s.NoNewFeed u.reviewLine := by
  unfold State.reviewLine
  dsimp only
  split
  · refine .light (.losePermissive (.frame (u := { u with
      view := { u.view with lineFire := u.lineFireNow, linePre := u.linePreNow } }) ?_ (by simp)))
    exact h.toFeedShaped.of_equipment rfl id (.inr rfl)
  · next hrises =>
    refine h.of_equipment rfl id (.inr rfl) fun hclear => ?_
    obtain ⟨hrunning, hheard, hfire⟩ := u.lineClear_iff.1 hclear
    exact (State.lineClear_iff _).2 ⟨hrunning, hheard, by simpa [hfire] using hrises⟩

theorem enterSafeStop (h : s.NoNewFeed u) : s.NoNewFeed u.enterSafeStop := by
  unfold State.enterSafeStop
  exact .light (.dropReservation (.losePermissive (h.toFeedShaped.of_equipment rfl nofun (.inl rfl))))

theorem clash (h : s.NoNewFeed u) : s.NoNewFeed u.clash := by
  unfold State.clash
  exact .ite (h.frame rfl) (h.enterSafeStop.frame rfl)

end State.NoNewFeed

/-! ### Resets and the clock -/

theorem Atmos.reset_consistent : Atmos.reset.Consistent :=
  ⟨rfl, rfl, by decide, fun _ => rfl, by decide, by decide, nofun⟩

/-- After a reset the rotor stands, no feed is in progress and no timer of the feed controller runs (R85, R87). -/
theorem Feed.reset_consistent (queue : List QueueEntry) : ({ Feed.reset with queue := queue } : Feed).Consistent false :=
  ⟨rfl, rfl, nofun, rfl, rfl, nofun, fun h => absurd rfl h, rfl⟩

/-- A state with the equipment of after a reset, whatever came before it. -/
theorem State.NoNewFeed.of_reset {s t : State} (hatmos : t.atmos = Atmos.reset) {queue : List QueueEntry}
    (hfeed : t.feed = { Feed.reset with queue := queue }) (hres : t.chute.reservation = none)
    (hstatus : t.link.status = none) : s.NoNewFeed t where
  shape _ := ⟨hatmos ▸ Atmos.reset_consistent, by rw [hfeed, hres]; exact Feed.reset_consistent queue,
    fun _ => by rw [hfeed]; rfl⟩
  gate hgate := by rw [hfeed] at hgate; cases hgate
  status := .inl hstatus
  permits _ hcommanded := by rw [hfeed] at hcommanded; cases hcommanded

theorem countDown_isSome (t : Timer) : (countDown t).isSome = t.isSome := by cases t <;> rfl

theorem countUp_isSome (limit : Nat) (t : Timer) : (countUp limit t).isSome = t.isSome := by cases t <;> rfl

namespace State.NoNewFeed

theorem powerOn (s : State) : s.NoNewFeed s.powerOn := of_reset (queue := []) rfl rfl rfl rfl

theorem lineReset (s : State) (cause : ResetCause) : s.NoNewFeed (s.lineReset cause) := of_reset rfl rfl rfl rfl

theorem assertPin (s : State) : s.NoNewFeed s.assertPin := by
  unfold State.assertPin
  exact .ite (.ite (refl s) ((refl s).frame rfl)) (lineReset s .pin)

/-- In a reset the rotor is not commanded and no feed is in progress; its end gives the queue up outside SHRED (R85). -/
theorem endReset (s : State) (e : ResetSample) (hreset : s.startup.life = .inReset) : s.NoNewFeed (s.endReset e) := by
  unfold State.endReset
  refine .light ⟨⟨fun hlaw => ?_, id, .inr rfl⟩, fun hlaw hcommanded => ?_⟩
  · obtain ⟨⟨hatmos, hfeed, hkind⟩, -⟩ := (State.feedLaw_iff s).1 hlaw
    refine ⟨{ hatmos with }, { hfeed with idle := ?_, feeding := ?_ }, fun _ => hkind hreset⟩
    · intro htimer
      obtain ⟨hrunning, hqueue, hfree⟩ := hfeed.idle htimer
      exact ⟨hrunning, by simp [hqueue], hfree⟩
    · exact fun hfeeding => absurd (hkind hreset) hfeeding
  · obtain ⟨-, hpermits⟩ := (State.feedLaw_iff s).1 hlaw
    have ⟨_, hclear, _⟩ := s.permissive_iff.1 (hpermits hcommanded)
    obtain ⟨hrunning, -, -⟩ := s.lineClear_iff.1 hclear
    exact absurd (hrunning.symm.trans hreset) nofun

/-- Timers move without starting or stopping. -/
theorem tick (s : State) : s.NoNewFeed s.tick := by
  unfold State.tick
  refine .ite (refl s) (.frame ((refl s).setFeed (f := { s.feed with
    startTimer := countDown s.feed.startTimer, stopTimer := countDown s.feed.stopTimer
    idleTimer := countDown s.feed.idleTimer, feedTimer := countDown s.feed.feedTimer
    periodTimer := countDown s.feed.periodTimer }) ⟨id, id, id, id⟩ ?feed |>.setAtmos (a := { s.atmos with
      stageTimer := countUp purgeLockoutMs s.atmos.stageTimer, sampleTimer := countDown s.atmos.sampleTimer }) ?atmos
      fun _ => id) rfl)
  case feed =>
    intro hcons
    exact { hcons with
      start := (countDown_isSome _).trans hcons.start
      stop := (countDown_isSome _).trans hcons.stop
      idle := fun htimer => hcons.idle ((countDown_isSome _).symm.trans htimer)
      timer := (countDown_isSome _).trans hcons.timer }
  case atmos => exact fun hcons => { hcons with stage := (countUp_isSome _ _).trans hcons.stage }

end State.NoNewFeed

end Sys2Proof.Machine
end

