-- ==== Sys2Proof/Proofs/ShredderFrame.lean ====
section
/-! The operations that move the shredder's equipment without beginning a feed (`State.NoNewFeed`), block by block: chute,
rotor and feed, atmosphere, fire unit, line link. Each rule takes `s.NoNewFeed u` to the state that the operation makes of
`u`. -/

namespace Sys2Proof.Machine

open Sys2Proof Sys2Proof.Config

namespace State.NoNewFeed

variable {s u : State}

/-! ### The chute (R75 to R79, R83) -/

/-- A reservation stops the idle timer (R92). -/
theorem reserve (h : s.NoNewFeed u) (f : HandoffFrame) (n : NodeNo) (b : BayNo) : s.NoNewFeed (u.reserve f n b) := by
  have hstopped : s.NoNewFeed { u with
      chute := { u.chute with
        reservation := some { tag := f.tag, source := n, bay := b, s := f.s.toNat, energy := f.energy.toNat
                              restV := f.restV.toNat }
        arrivalTimer := some arrivalMs, conveyor := true }
      feed := { u.feed with idleTimer := none } } :=
    h.setShredder ⟨id, id, id, id⟩ fun hcons => { hcons with idle := nofun }
  unfold State.reserve State.refreshIdle
  exact (hstopped.frame (by simp)).placeHandoff _

theorem takeOffer (h : s.NoNewFeed u) (f : HandoffFrame) (n : NodeNo) (b : BayNo) :
    s.NoNewFeed (u.takeOffer f n b) := by
  unfold State.takeOffer
  refine .ite (h.frame rfl) (.ite (h.frame rfl) ?_)
  split
  · exact h.placeHandoff _
  · exact h.reserve f n b

theorem takeWithdraw (h : s.NoNewFeed u) (f : HandoffFrame) (n : NodeNo) (b : BayNo) :
    s.NoNewFeed (u.takeWithdraw f n b) := by
  unfold State.takeWithdraw
  exact .ite h.dropReservation (h.frame rfl)

/-- The idle timer does not run beside a reservation, so the queue may take the pack (R83, R92). -/
theorem arrive (h : s.NoNewFeed u) {e : Offered} (hres : u.chute.reservation = some e) : s.NoNewFeed (u.arrive e) := by
  have hjoined : s.NoNewFeed { u with
      chute := { u.chute with reservation := none, arrivalTimer := none, conveyor := false }
      feed := { u.feed with queue := u.feed.queue ++ [QueueEntry.mk e 0 false] } } := by
    refine h.setShredder ⟨id, id, id, id⟩ fun hcons => { hcons with idle := fun htimer => ?_, feeding := fun _ => by simp }
    obtain ⟨-, -, hfree⟩ := hcons.idle htimer
    rw [hres] at hfree
    cases hfree
  unfold State.arrive
  exact .frame (hjoined.refreshIdle.placeHandoff _) rfl

theorem stray (h : s.NoNewFeed u) : s.NoNewFeed u.stray := by
  unfold State.stray
  exact .addReason (h.frame (by rfl))

theorem arrival (s : State) : s.NoNewFeed s.arrival := by
  have hseen : s.NoNewFeed { s with chute := { s.chute with sensor := true } } := (refl s).frame rfl
  unfold State.arrival
  dsimp only
  split
  · next e hres => exact hseen.arrive hres
  · exact hseen.stray

/-! ### The rotor (R91 to R93) -/

/-- The idle timer runs over an empty queue, so no feed is in progress (R92). -/
theorem idleExpires (s : State) (htimer : s.feed.idleTimer.isSome = true) :
    s.NoNewFeed { s with feed := s.feed.enterStopping } := by
  refine (refl s).setFeed s.feed.enterStopping_noStart fun hcons => hcons.enterStopping fun hactive => ?_
  obtain ⟨-, hqueue, -⟩ := hcons.idle htimer
  exact hcons.feeding (hactive ▸ nofun) hqueue

theorem feedbackRises (s : State) : s.NoNewFeed s.feedbackRises := by
  have hseen : s.NoNewFeed { s with feed := { s.feed with feedback := true } } :=
    (refl s).setFeed ⟨id, id, id, id⟩ fun hcons => { hcons with }
  unfold State.feedbackRises
  dsimp only
  split
  · next hstarting =>
    refine .refreshIdle (hseen.setFeed ⟨id, id, fun _ => by rw [hstarting]; rfl, id⟩ fun hcons => { hcons with
      run := by rw [hcons.run, hstarting]; rfl, active := fun _ => rfl, start := rfl
      stop := by rw [hcons.stop, hstarting]; rfl
      idle := fun htimer => absurd (hcons.idle htimer).1 (hstarting ▸ nofun) })
  · exact hseen.addReason
  · exact hseen
  · exact hseen

/-- A rotor that is not RUNNING comes to a stand with its output off and its timers stopped (R91, R93). -/
theorem toStopped (h : s.NoNewFeed u) {run : Bool} {start stop : Timer}
    (hturning : u.feed.Consistent u.chute.reservation.isSome →
      u.feed.rotor ≠ .running ∧ run = false ∧ start = none ∧ stop = none) :
    s.NoNewFeed { u with feed := { u.feed with
      run := run, startTimer := start, stopTimer := stop, rotor := .stopped } } := by
  refine h.setFeed ⟨id, id, nofun, id⟩ fun hcons => ?_
  obtain ⟨hnot, rfl, rfl, rfl⟩ := hturning hcons
  exact { hcons with
    run := rfl
    active := fun hactive => absurd (hcons.active hactive) hnot
    start := rfl
    stop := rfl
    idle := fun htimer => absurd (hcons.idle htimer).1 hnot }

/-- The RUNNING rotor stalls: neither feed nor rotor timer is left that belongs to a turning one. -/
theorem stall (h : s.NoNewFeed u) (hrunning : u.feed.rotor = .running) : s.NoNewFeed { u with feed := u.feed.stall } := by
  have hrotor : u.feed.abandon.rotor = .running := by
    unfold Feed.abandon
    split
    · exact hrunning
    · exact hrunning
  have habandon := u.feed.abandon_noStart
  refine h.setFeed ⟨habandon.kind, habandon.gate, nofun, habandon.hold⟩ fun hcons => ?_
  have hcons' := hcons.abandon
  exact { hcons' with
    run := rfl
    active := fun hactive => absurd hactive u.feed.abandon_kind_ne
    start := by rw [Feed.stall, hcons'.start, hrotor]; rfl
    stop := by rw [Feed.stall, hcons'.stop, hrotor]; rfl
    idle := nofun }

theorem feedbackFalls (s : State) : s.NoNewFeed s.feedbackFalls := by
  have hseen : s.NoNewFeed { s with feed := { s.feed with feedback := false } } :=
    (refl s).setFeed ⟨id, id, id, id⟩ fun hcons => { hcons with }
  unfold State.feedbackFalls
  dsimp only
  split
  · next hrunning => exact (hseen.stall hrunning).addReason
  · next hstopping =>
    exact hseen.toStopped fun hcons => ⟨hstopping ▸ nofun, by rw [hcons.run, hstopping]; rfl,
      by simpa [hstopping] using hcons.start, rfl⟩
  · exact hseen
  · exact hseen

theorem startExpires (s : State) (htimer : s.feed.startTimer.isSome = true) :
    s.NoNewFeed { s with feed := { s.feed with run := false, startTimer := none, rotor := .stopped } } := by
  refine (refl s).toStopped fun hcons => ?_
  have hstarting : s.feed.rotor = .starting := by simpa using hcons.start.symm.trans htimer
  exact ⟨hstarting ▸ nofun, rfl, rfl, by simpa [hstarting] using hcons.stop⟩

theorem stopExpires (s : State) (htimer : s.feed.stopTimer.isSome = true) :
    s.NoNewFeed { s with feed := { s.feed with run := false, stopTimer := none, rotor := .stopped } } := by
  refine (refl s).toStopped fun hcons => ?_
  have hstopping : s.feed.rotor = .stopping := by simpa using hcons.stop.symm.trans htimer
  exact ⟨hstopping ▸ nofun, rfl, by simpa [hstopping] using hcons.start, rfl⟩

/-! ### The feed (R84, R95 to R102) -/

/-- The head leaves while no feed is in progress (R84). -/
theorem removeHead (h : s.NoNewFeed u) (hnone : u.feed.kind = .none) : s.NoNewFeed u.removeHead := by
  unfold State.removeHead
  refine .refreshIdle (h.setFeed ⟨id, id, id, id⟩ fun hcons => { hcons with
    idle := fun htimer => ?_, feeding := fun hfeeding => absurd hnone hfeeding })
  obtain ⟨hrunning, hqueue, hfree⟩ := hcons.idle htimer
  exact ⟨hrunning, by simp [hqueue], hfree⟩

theorem confirmFeed (h : s.NoNewFeed u) : s.NoNewFeed u.confirmFeed := by
  have hended : s.NoNewFeed { u with feed := { u.feed with feedTimer := none, gate := false, kind := .none } } :=
    h.setFeed ⟨fun _ => rfl, nofun, id, id⟩ fun hcons => { hcons with
      gate := rfl, active := nofun, feeding := fun hfeeding => absurd rfl hfeeding, timer := rfl }
  unfold State.confirmFeed
  dsimp only
  split
  · exact hended
  · exact (hended.removeHead rfl).frame rfl

theorem confirmRises (s : State) : s.NoNewFeed s.confirmRises := by
  have hseen : s.NoNewFeed { s with feed := { s.feed with confirm := true } } :=
    (refl s).setFeed ⟨id, id, id, id⟩ fun hcons => { hcons with }
  unfold State.confirmRises
  dsimp only
  split
  · exact hseen.addReason
  · exact hseen.confirmFeed
  · exact hseen.confirmFeed

theorem feedExpires (s : State) : s.NoNewFeed s.feedExpires := by
  have hgiven : s.NoNewFeed { s with feed := s.feed.giveUp } := by
    refine (refl s).setFeed ⟨fun _ => rfl, nofun, id, id⟩ fun hcons => { hcons with
      gate := rfl, active := nofun, idle := fun htimer => ?_
      feeding := fun hfeeding => absurd rfl hfeeding, timer := rfl }
    obtain ⟨hrunning, hqueue, hfree⟩ := hcons.idle htimer
    exact ⟨hrunning, by rw [Feed.giveUp, hqueue]; rfl, hfree⟩
  unfold State.feedExpires
  dsimp only
  split
  · exact hgiven.addReason
  · exact hgiven
  · exact hgiven

theorem clearHold (h : s.NoNewFeed u) : s.NoNewFeed u.clearHold :=
  h.setFeed ⟨id, id, id, fun _ => rfl⟩ fun hcons => { hcons with }

end State.NoNewFeed

/-! ### Atmosphere (R107 to R123) -/

theorem disagreeNext_le (a b : Option Nat) (count : Nat) : disagreeNext a b count ≤ 5 := by
  unfold disagreeNext
  split
  · split
    · exact min_le_right _ _
    · exact Nat.zero_le 5
  · exact Nat.zero_le 5

theorem Atmos.Consistent.enterPurging {s : State} (h : s.atmos.Consistent) (loss : Bool) :
    (s.enterPurging loss).atmos.Consistent where
  stage := rfl
  flood := rfl
  opened _ := rfl
  closed := by rintro (h | h) <;> cases h
  flags _ := rfl
  counts := ⟨Nat.zero_le 30, h.counts.2⟩
  qualifying _ := Nat.zero_le 29

/-- The count that ends PURGING stands at 30 for the first time here (R115). -/
theorem Atmos.Consistent.enterInert {s : State} (hqualify : s.atmos.qualify ≤ 30) (hdisagree : s.atmos.disagree ≤ 5) :
    s.enterInert.atmos.Consistent where
  stage := rfl
  flood := rfl
  opened := by rintro (h | h) <;> cases h
  closed := by rintro (h | h) <;> cases h
  flags := by rintro (h | h) <;> cases h
  counts := ⟨hqualify, hdisagree, Nat.zero_le 10⟩
  qualifying := nofun

theorem Atmos.Consistent.enterLockout {s : State} (h : s.atmos.Consistent) : s.enterLockout.atmos.Consistent where
  stage := rfl
  flood := rfl
  opened := by rintro (h | h) <;> cases h
  closed _ := rfl
  flags := by rintro (h | h) <;> cases h
  counts := h.counts
  qualifying := nofun

theorem Atmos.Consistent.enterFlood {s : State} (h : s.atmos.Consistent) : s.enterFlood.atmos.Consistent where
  stage := rfl
  flood := rfl
  opened _ := rfl
  closed := by rintro (h | h) <;> cases h
  flags := by rintro (h | h) <;> cases h
  counts := h.counts
  qualifying := nofun

/-- The stage timer runs in PURGING (R116). -/
theorem Atmos.Consistent.purging_of_stage {a : Atmos} (h : a.Consistent) (htimer : a.stageTimer.isSome = true) :
    a.state = .purging := by
  simpa using h.stage.symm.trans htimer

namespace State.NoNewFeed

variable {s u : State}

theorem enterPurging (h : s.NoNewFeed u) (hnot : u.atmos.state ≠ .inert) (loss : Bool) :
    s.NoNewFeed (u.enterPurging loss) :=
  (h.setAtmos (fun hcons => hcons.enterPurging loss) fun _ hinert => absurd hinert hnot).frame rfl

theorem startPurge (h : s.NoNewFeed u) : s.NoNewFeed u.startPurge := by
  unfold State.startPurge
  split
  · next hair =>
    obtain ⟨-, hstate⟩ : _ ∧ u.atmos.state = .air := by simpa using hair
    exact h.enterPurging (hstate ▸ nofun) false
  · exact h

theorem endFlood (h : s.NoNewFeed u) : s.NoNewFeed u.endFlood := by
  unfold State.endFlood
  split
  · next hflood =>
    obtain ⟨-, hstate⟩ : _ ∧ u.atmos.state = .flood := by simpa using hflood
    exact h.enterPurging (hstate ▸ nofun) false
  · exact h

theorem enterFlood (h : s.NoNewFeed u) : s.NoNewFeed u.enterFlood :=
  losePermissive ((h.toFeedShaped.setAtmos fun hcons => hcons.enterFlood).frame rfl)

theorem enterIfFaulted (h : s.NoNewFeed u) (before now : Bool) (c : FaultCause) (place : Place) :
    s.NoNewFeed (u.enterIfFaulted before now c place) := .ite (h.frame rfl) h

/-- Readings and validity of a sample stand beside the states (R108 to R111). -/
theorem setReadings (h : s.NoNewFeed u) {oxygen : Option Nat} {a b p : Bool} {d : Nat} {timer : Timer} (hd : d ≤ 5) :
    s.NoNewFeed { u with atmos := { u.atmos with
      oxygen := oxygen, o2ValidA := a, o2ValidB := b, pressureValid := p, disagree := d, sampleTimer := timer } } :=
  h.setAtmos (fun hcons => { hcons with counts := ⟨hcons.counts.1, hd, hcons.counts.2.2⟩ }) fun _ => id

theorem readAtmos (h : s.NoNewFeed u) (x : AtmosReading) : s.NoNewFeed (u.readAtmos x) := by
  unfold State.readAtmos
  have hfaults := ((h.enterIfFaulted u.atmos.o2ValidA (o2Reading x.o2a).isSome .o2SensorFault (.channel 0)).enterIfFaulted
    u.atmos.o2ValidB (o2Reading x.o2b).isSome .o2SensorFault (.channel 1)).enterIfFaulted u.atmos.pressureValid
    (pressureReading x.pressure).isSome .pressureFault .none
  have hread := hfaults.setReadings (oxygen := effectiveOxygen (o2Reading x.o2a) (o2Reading x.o2b))
    (a := (o2Reading x.o2a).isSome) (b := (o2Reading x.o2b).isSome) (p := (pressureReading x.pressure).isSome)
    (timer := some slowPeriod) (disagreeNext_le (o2Reading x.o2a) (o2Reading x.o2b) u.atmos.disagree)
  exact .ite (hread.frame rfl) hread

/-- The sample that brings the count to 30 ends PURGING, so the count of PURGING stays below (R115). -/
theorem qualify (h : s.NoNewFeed u) (hpurging : u.atmos.state = .purging) : s.NoNewFeed u.qualify := by
  have hnext (hcons : u.atmos.Consistent) : (if u.atmos.qualifies then u.atmos.qualify + 1 else 0) ≤ 30 := by
    have := hcons.qualifying hpurging
    split <;> omega
  unfold State.qualify
  generalize (if u.atmos.qualifies then u.atmos.qualify + 1 else 0) = q at hnext
  dsimp only
  split
  · exact .frame (h.setAtmos (a := (State.enterInert { u with atmos := { u.atmos with qualify := q } }).atmos)
      (fun hcons => .enterInert (hnext hcons) hcons.counts.2.1) fun _ _ => rfl) rfl
  · next hfew =>
    exact h.setAtmos (fun hcons => { hcons with
      counts := ⟨hnext hcons, hcons.counts.2⟩
      qualifying := fun _ => Nat.le_of_lt_succ (Nat.lt_of_not_le hfew) }) fun _ => id

/-- INERT is lost: PURGING under the loss flag, without the permissive (R120). -/
theorem loseInert (h : s.NoNewFeed u) (c : FaultCause) : s.NoNewFeed (u.loseInert c) :=
  losePermissive ((h.toFeedShaped.setAtmos fun hcons => hcons.enterPurging true).frame rfl)

theorem holdInert (h : s.NoNewFeed u) (hinert : u.atmos.state = .inert) (low : Bool) : s.NoNewFeed (u.holdInert low) := by
  have hcount : (if low then min (u.atmos.lowPressure + 1) 10 else 0) ≤ 10 := by
    split
    · exact min_le_right _ _
    · exact Nat.zero_le 10
  unfold State.holdInert
  generalize (if low then min (u.atmos.lowPressure + 1) 10 else 0) = n at hcount
  have hcounted : s.NoNewFeed { u with atmos := { u.atmos with lowPressure := n } } :=
    h.setAtmos (fun hcons => { hcons with counts := ⟨hcons.counts.1, hcons.counts.2.1, hcount⟩ }) fun _ => id
  dsimp only
  split
  · exact hcounted.loseInert _
  · refine hcounted.setAtmos (fun hcons => { hcons with opened := ?_, closed := ?_ }) fun _ => id
    · rintro (hstate | hstate) <;> exact absurd (hinert.symm.trans hstate) nofun
    · rintro (hstate | hstate) <;> exact absurd (hinert.symm.trans hstate) nofun

theorem sampleAtmos (s : State) (x : AtmosReading) : s.NoNewFeed (s.sampleAtmos x) := by
  have hread := (refl s).readAtmos x
  unfold State.sampleAtmos
  dsimp only
  split
  · next hpurging => exact hread.qualify hpurging
  · next hinert => exact hread.holdInert hinert _
  · exact hread
  · exact hread
  · exact hread

theorem slowDeadline (s : State) (htimer : s.atmos.stageTimer.isSome = true) :
    s.NoNewFeed (State.raise { s with atmos := { s.atmos with slow := true } } .purgeSlow .none none) :=
  .frame ((refl s).setAtmos (a := { s.atmos with slow := true })
    (fun hcons => { hcons with flags := fun _ => hcons.purging_of_stage htimer }) fun _ => id) rfl

theorem lockoutDeadline (s : State) (htimer : s.atmos.stageTimer.isSome = true) :
    s.NoNewFeed ((s.enterLockout.raise .purgeLockout .none none).enterFault .purgeLockout .none none) :=
  .frame ((refl s).setAtmos (a := s.enterLockout.atmos) (fun hcons => hcons.enterLockout) fun hcons hinert =>
    absurd (hinert.symm.trans (hcons.purging_of_stage htimer)) nofun) rfl

/-! ### Fire (R127 to R140) -/

theorem ownFire (h : s.NoNewFeed u) : s.NoNewFeed u.ownFire := by
  unfold State.ownFire
  exact .ite (h.frame rfl) (.ite h.enterFlood h)

theorem moveZone (h : s.NoNewFeed u) : s.NoNewFeed u.moveZone := by
  unfold State.moveZone
  split
  · exact h
  · exact .ite (.ownFire (h.frame rfl)) (.ite (h.frame rfl) h)
  · exact .ite (.ownFire (h.frame rfl)) (h.frame rfl)

theorem sampleFire (s : State) (x : FireReading) : s.NoNewFeed (s.sampleFire x) := by
  have hgraded : s.NoNewFeed (s.gradeSources x).checkImpaired := (refl s).frame (by simp)
  exact .light (.reviewLine (hgraded.moveZone.frame rfl))

theorem resetAlarm (s : State) : s.NoNewFeed s.resetAlarm := by
  have hclear : s.NoNewFeed (State.onT6 { s with fire := s.fire.clear } fun t =>
      { t with alarmResets := bump t.alarmResets }) := (refl s).frame rfl
  unfold State.resetAlarm
  exact .light (.reviewLine (.frame (.endFlood (.ite (hclear.frame (by simp)) hclear)) rfl))

/-! ### Line link (R147 to R175) -/

theorem takeStatus (h : s.NoNewFeed u) (src : Address) (f : StatusFrame) : s.NoNewFeed (u.takeStatus src f) := by
  unfold State.takeStatus
  split
  · exact .ite (.reviewLine (h.frame rfl)) (h.frame rfl)
  · exact h.frame rfl

theorem losePeer (s : State) (n : NodeNo) : s.NoNewFeed (s.losePeer n) := .reviewLine ((refl s).frame rfl)

theorem fallSilent (s : State) : s.NoNewFeed s.fallSilent :=
  .light (.losePermissive ((refl s).toFeedShaped.of_equipment rfl id (.inr rfl)))

/-- The own STATUS has gone out, and the node is not SILENT (R153). -/
theorem statusSent (h : s.NoNewFeed u) : s.NoNewFeed u.statusSent := by
  refine h.of_equipment rfl id (.inl rfl) fun hclear => ?_
  obtain ⟨hrunning, -, hfire⟩ := u.lineClear_iff.1 hclear
  exact (State.lineClear_iff _).2 ⟨hrunning, rfl, hfire⟩

theorem sent (h : s.NoNewFeed u) (b : Buffer) : s.NoNewFeed (u.sent b) := by
  cases b with
  | alarm c => exact h.frame rfl
  | handoff => exact h.frame rfl
  | reply t => exact h.frame (u.replySent_feedSide t)
  | status => exact h.statusSent
  | tally => exact h.frame rfl

end State.NoNewFeed

end Sys2Proof.Machine
end

