-- ==== Sys2Proof/Proofs/FeedRequests.lean ====
section
/-! Reception and requests: no frame that is received, whatever it is, begins a feed or forms a STATUS
(`State.NoNewFeed`). -/

namespace Sys2Proof.Machine

open Sys2Proof Sys2Proof.Config

/-! ### Reception -/

namespace State.NoNewFeed

/-- A received frame is judged, and may be delivered (R160). -/
theorem receive {deliver : State → State} (h : ∀ u : State, u.NoNewFeed (deliver u)) (s : State) (odd : Bool)
    (kind : BitVec 3) (src dst : Address) (length : Nat) : s.NoNewFeed (s.receive odd kind src dst length deliver) := by
  have heased : s.NoNewFeed s.eased := (refl s).frame (by simp)
  rcases s.receive_spec odd kind src dst length deliver with
    ⟨-, h'⟩ | ⟨-, -, h'⟩ | ⟨-, -, h'⟩ | ⟨-, -, h'⟩ | ⟨-, -, h'⟩
  · exact (refl s).frame (by rw [h'])
  · exact h' ▸ heased.clash
  · exact h' ▸ heased.frame rfl
  · exact h' ▸ heased
  · exact h' ▸ heased.trans (h _)

/-- The repeat filter discards the frame or holds its bytes and delivers it (R162). -/
theorem filtered {deliver : State → State} (h : ∀ u : State, u.NoNewFeed (deliver u)) (s : State) (a : Fin 15)
    (bytes : List Byte) : s.NoNewFeed (s.filtered a bytes deliver) :=
  .ite (refl s) (((refl s).frame (by rfl)).trans (h _))

theorem receiveHandoff {take : NodeNo → BayNo → State → State}
    (h : ∀ (u : State) (n : NodeNo) (b : BayNo), u.NoNewFeed (take n b u)) (s : State) (message : Byte) (f : HandoffFrame) :
    s.NoNewFeed (s.receiveHandoff message f take) := by
  refine receive (fun u => ?_) s _ _ _ _ _
  split
  · refine filtered (fun v => ?_) u _ _
    split
    · exact h v _ _
    · exact (refl v).frame rfl
  · exact (refl u).frame rfl

/-- A HANDOFF with any message byte (R63). -/
theorem receiveMessage (s : State) (message : Byte) (f : HandoffFrame) : s.NoNewFeed (s.receiveMessage message f) := by
  refine receiveHandoff (fun u n b => ?_) s message f
  have hu := refl u
  split
  · exact hu.takeOffer f n b
  · exact hu.frame (by simp)
  · exact hu.frame (by simp)
  · exact hu.takeWithdraw f n b
  · exact hu.frame (by simp)
  · exact hu.frame rfl

end State.NoNewFeed

/-! ### The request unit -/

/-- An answer begins no feed: a refusal, or a state in which none has begun. -/
def Answer.NoNewFeed (s : State) : Answer → Prop
  | .refused _ => True
  | .done u _ => s.NoNewFeed u

namespace State.NoNewFeed

theorem takeRequest {s : State} {eval : State → Answer} (h : (eval s).NoNewFeed s) (code : Byte) (f : RequestFrame)
    (t : TerminalNo) : s.NoNewFeed (s.takeRequest code f t eval) := by
  have hs := refl s
  rcases s.takeRequest_cases code f t eval with ⟨-, heq⟩ | ⟨-, -, heq⟩ | ⟨-, -, -, heq⟩ |
    ⟨-, -, -, ⟨r, -, heq⟩ | ⟨u, p, hdone, heq⟩⟩
  · exact heq ▸ hs.frame rfl
  · exact heq ▸ hs.frame rfl
  · exact heq ▸ hs.frame rfl
  · exact heq ▸ hs.frame rfl
  · rw [hdone] at h
    exact heq ▸ State.NoNewFeed.frame (u := u) h rfl

theorem serve {eval : State → Answer} (h : ∀ u : State, (eval u).NoNewFeed u) (s : State) (code : Byte)
    (f : RequestFrame) : s.NoNewFeed (s.serve code f eval) := by
  refine receive (fun u => ?_) s _ _ _ _ _
  split
  · exact filtered (fun v => takeRequest (h v) code f _) u _ _
  · exact (refl u).frame rfl

end State.NoNewFeed

/-! ### The requests -/

namespace Answer.NoNewFeed

variable {s : State}

theorem refused (r : Reason) : (Answer.refused r).NoNewFeed s := trivial

theorem done {u : State} (h : s.NoNewFeed u) (p : List Byte) : (Answer.done u p).NoNewFeed s := h

/-- The request changes nothing that feeding depends on. -/
theorem doneFrame {u : State} (hside : u.feedSide = s.feedSide) (p : List Byte) : (Answer.done u p).NoNewFeed s :=
  (State.NoNewFeed.refl s).frame hside

theorem ite {p : Prop} [Decidable p] {x y : Answer} (hx : x.NoNewFeed s) (hy : y.NoNewFeed s) :
    (if p then x else y).NoNewFeed s := by
  split
  · exact hx
  · exact hy

theorem bayForm {f : RequestFrame} {k : BayNo → Answer} (h : ∀ b : BayNo, (k b).NoNewFeed s) :
    (s.bayForm f k).NoNewFeed s := by
  unfold State.bayForm
  refine .ite (refused _) (.ite (refused _) ?_)
  split
  · exact h _
  · exact refused _

theorem nodeForm {roleTakes : Bool} {f : RequestFrame} {k : Answer} (h : k.NoNewFeed s) :
    (s.nodeForm roleTakes f k).NoNewFeed s :=
  .ite (refused _) (.ite (refused _) (.ite (refused _) h))

theorem admitPack (f : RequestFrame) (s : State) : (evalAdmit f s).NoNewFeed s := by
  refine bayForm fun b => .ite (refused _) (.ite (refused _) (.ite (refused _) (.ite (refused _) ?_)))
  split
  · exact refused _
  · split
    · exact refused _
    · exact .ite (refused _) (.ite (refused _) (.ite (refused _) (.ite (refused _)
        (.doneFrame (by simp [State.admitPack]) _))))

theorem abort (f : RequestFrame) (s : State) : (evalAbort f s).NoNewFeed s := by
  refine bayForm fun b => ?_
  split
  · exact refused _
  · exact refused _
  · split
    · exact doneFrame (by rfl) _
    · exact doneFrame (by rfl) _
    · exact doneFrame (by rfl) _
    · exact doneFrame (by rfl) _
    · exact doneFrame (by rfl) _
    · exact doneFrame (by simp) _
    · exact refused _
    · exact refused _
    · exact refused _
    · exact refused _

theorem resume (f : RequestFrame) (s : State) : (evalResume f s).NoNewFeed s := by
  refine bayForm fun b => ?_
  split
  · exact .ite (doneFrame (by rfl) _) (refused _)
  · exact refused _

theorem quarantineIn (f : RequestFrame) (s : State) : (evalQuarantineIn f s).NoNewFeed s := by
  refine bayForm fun b => ?_
  split
  · exact .ite (refused _) (doneFrame (by simp) _)
  · exact .ite (refused _) (.ite (refused _) (doneFrame (by simp) _))
  · exact refused _

theorem quarantineOut (f : RequestFrame) (s : State) : (evalQuarantineOut f s).NoNewFeed s := by
  refine nodeForm ?_
  split
  · exact doneFrame (by rfl) _
  · exact refused _

theorem accountClear (f : RequestFrame) (s : State) : (evalAccountClear f s).NoNewFeed s := by
  refine .ite (nodeForm (.ite (refused _) ?_)) (bayForm fun b => ?_)
  · split
    · exact doneFrame (by rfl) _
    · exact refused _
  · unfold clearBay
    split
    · exact doneFrame (by rfl) _
    · exact refused _

theorem alarmReset (f : RequestFrame) (s : State) : (evalAlarmReset f s).NoNewFeed s :=
  nodeForm (.ite (refused _) (.done (.resetAlarm s) _))

theorem purgeReset (f : RequestFrame) (s : State) : (evalPurgeReset f s).NoNewFeed s := by
  refine nodeForm ?_
  split
  · next hlockout => exact .done ((State.NoNewFeed.refl s).enterPurging (hlockout ▸ nofun) false) _
  · exact refused _

theorem flush (f : RequestFrame) (s : State) : (evalFlush f s).NoNewFeed s :=
  have hflagged : s.NoNewFeed { s with feed := { s.feed with flush := true } } :=
    (State.NoNewFeed.refl s).setFeed ⟨id, id, id, id⟩ fun hcons => { hcons with }
  nodeForm (.ite (refused _) (.done hflagged _))

theorem shredReset (f : RequestFrame) (s : State) : (evalShredReset f s).NoNewFeed s := by
  have hs := State.NoNewFeed.refl s
  refine nodeForm (.ite (refused _) (.ite (refused _) ?_))
  split
  · exact refused _
  · next hkind =>
    have hremoved := (hs.removeHead (not_not.1 hkind)).clearHold
    exact .ite (refused _) (.ite (refused _) (.ite (.done hs.clearHold _)
      (.ite (refused _) (.done (hremoved.frame (by rfl)) _))))

theorem peerForget (f : RequestFrame) (s : State) : (evalPeerForget f s).NoNewFeed s := by
  refine nodeForm ?_
  split
  · exact refused _
  · exact .ite (refused _) (.ite (.done (.reviewLine ((State.NoNewFeed.refl s).frame (by rfl))) _) (refused _))

theorem readRecord (f : RequestFrame) (s : State) : (evalReadRecord f s).NoNewFeed s := by
  refine bayForm fun b => ?_
  split
  · exact doneFrame (by rfl) _
  · exact refused _

theorem readTally (f : RequestFrame) (s : State) : (evalReadTally f s).NoNewFeed s := by
  refine nodeForm (.ite (refused _) ?_)
  split
  · exact doneFrame (by rfl) _
  · exact refused _

theorem readQuarantine (f : RequestFrame) (s : State) : (evalReadQuarantine f s).NoNewFeed s := by
  refine nodeForm ?_
  split
  · exact doneFrame (by rfl) _
  · exact refused _

theorem identify (f : RequestFrame) (s : State) : (evalIdentify f s).NoNewFeed s := nodeForm (doneFrame (by rfl) _)

theorem nodeReset (f : RequestFrame) (s : State) : (evalNodeReset f s).NoNewFeed s :=
  nodeForm (.ite (refused _) (doneFrame (by rfl) _))

/-- No request begins a feed, whatever its code (R180). -/
theorem evaluate (code : Byte) (f : RequestFrame) (s : State) : (evaluate code f s).NoNewFeed s := by
  fun_cases Machine.evaluate code f
  · exact admitPack f s
  · exact abort f s
  · exact resume f s
  · exact quarantineIn f s
  · exact quarantineOut f s
  · exact accountClear f s
  · exact alarmReset f s
  · exact purgeReset f s
  · exact flush f s
  · exact shredReset f s
  · exact peerForget f s
  · exact readRecord f s
  · exact readTally f s
  · exact readQuarantine f s
  · exact identify f s
  · exact nodeReset f s
  · exact refused _

end Answer.NoNewFeed

/-! ### Any frame -/

/-- A frame of any kind (R160, R161). -/
theorem State.NoNewFeed.receiveWire (s : State) (w : WireFrame) : s.NoNewFeed (s.receiveWire w) := by
  have hforeign (u : State) : u.NoNewFeed u.countForeign := (State.NoNewFeed.refl u).frame rfl
  unfold State.receiveWire
  refine .ite (.receive hforeign s _ _ _ _ _) (.ite (.receive hforeign s _ _ _ _ _) (.ite (.receiveMessage s _ _)
    (.ite (.serve (Answer.NoNewFeed.evaluate _ _) s _ _) (.ite ?status (.ite ?tally ?alarm)))))
  case status => exact .receive (fun u => (State.NoNewFeed.refl u).takeStatus _ _) s _ _ _ _ _
  case tally => exact .receive (fun u => (State.NoNewFeed.refl u).frame (u.takeTally_feedSide _ _)) s _ _ _ _ _
  case alarm => exact .receive State.NoNewFeed.refl s _ _ _ _ _

end Sys2Proof.Machine
end

