-- ==== Sys2Proof/Proofs/FeedLaws.lean ====
section
/-! L8 and L12 (R105, R106): every step keeps the feed gate's conditions, only a feed period opens the gate, and a STATUS
that a step forms shows the accepting flag of the state after it. -/

namespace Sys2Proof.Machine

open Sys2Proof Sys2Proof.Config

/-! ### The feed period (R83, R90, R94) -/

theorem State.mayStart_iff (s : State) : s.mayStart = true ↔ s.feed.rotor = .stopped ∧ s.permissive = true ∧
    s.fire.impaired = false ∧ s.feed.feedback = false ∧ s.feed.queue.isEmpty = false := by
  simp [State.mayStart, and_assoc]

theorem State.mayFeed_iff (s : State) : s.mayFeed = true ↔ s.feed.rotor = .running ∧ s.permissive = true ∧
    s.feed.kind = .none ∧ s.feed.confirm = false := by
  simp [State.mayFeed, and_assoc]

/-- The rotor starts from a stand, under the permissive (R90). -/
theorem State.FeedLaw.startRotor {s : State} (h : s.FeedLaw) (hmay : s.mayStart = true) (c : Flush) :
    (s.startRotor c).FeedLaw := by
  obtain ⟨hatmos, hfeed, -, hreset⟩ := h
  obtain ⟨hstopped, hpermissive, -⟩ := s.mayStart_iff.1 hmay
  refine ⟨hatmos, { hfeed with
    run := rfl
    active := fun hactive => absurd (hfeed.active hactive) (hstopped ▸ nofun)
    start := rfl
    stop := by rw [State.startRotor, State.onT4_feed, hfeed.stop, hstopped]; rfl
    idle := fun htimer => absurd (hfeed.idle htimer).1 (hstopped ▸ nofun) }, fun _ => hpermissive, hreset⟩

theorem State.FeedLaw.checkStart {s : State} (h : s.FeedLaw) : s.checkStart.FeedLaw := by
  unfold State.checkStart
  split
  · exact h
  · next hmay =>
    split
    · exact h.startRotor (by simpa using hmay) _
    · exact h

/-- The gate opens over a head in the queue, under the permissive and with the rotor RUNNING (R94). -/
theorem State.FeedLaw.openGate {s : State} (h : s.FeedLaw) (hmay : s.mayFeed = true) (hqueue : s.feed.queue ≠ []) :
    State.FeedLaw { s with feed := { s.feed with
      gate := true, queue := feedHead s.feed.queue, kind := .active, feedTimer := some feedMs } } := by
  obtain ⟨hatmos, hfeed, hpermits, -⟩ := h
  obtain ⟨hrunning, hpermissive, -, -⟩ := s.mayFeed_iff.1 hmay
  refine ⟨hatmos, { hfeed with
    gate := rfl
    active := fun _ => hrunning
    idle := fun htimer => absurd (hfeed.idle htimer).2.1 hqueue
    feeding := fun _ hfed => hqueue (List.length_eq_zero_iff.1 ?_)
    timer := rfl }, hpermits, fun hlife => ?_⟩
  · rw [← length_feedHead]
    exact congrArg List.length hfed
  · obtain ⟨-, hclear, -⟩ := s.permissive_iff.1 hpermissive
    obtain ⟨hlive, -, -⟩ := s.lineClear_iff.1 hclear
    exact absurd (hlive.symm.trans hlife) nofun

theorem State.FeedLaw.checkFeed {s : State} (h : s.FeedLaw) : s.checkFeed.FeedLaw := by
  unfold State.checkFeed
  split
  · exact h
  · next hmay =>
    split
    · exact h
    · next e es hqueue =>
      split
      · exact h.openGate (by simpa using hmay) (hqueue ▸ nofun)
      · exact (State.NoNewFeed.refl s).addReason.law h

/-- The waits advance, and the queue stays as long as it was (R83). -/
theorem State.NoNewFeed.advanceWaits (s : State) : s.NoNewFeed { s with
    feed := { s.feed with queue := advanceWaits s.feed.queue, periodTimer := some fastPeriod } } := by
  refine (refl s).setFeed ⟨id, id, id, id⟩ fun hcons => { hcons with
    idle := fun htimer => ?_, feeding := fun hfeeding => ?_ }
  · obtain ⟨hrunning, hqueue, hfree⟩ := hcons.idle htimer
    exact ⟨hrunning, by simp [Machine.advanceWaits, hqueue], hfree⟩
  · simpa [Machine.advanceWaits] using hcons.feeding hfeeding

theorem State.checkStart_link (s : State) : s.checkStart.link = s.link := by
  unfold State.checkStart
  split
  · rfl
  · split <;> rfl

theorem State.checkFeed_link (s : State) : s.checkFeed.link = s.link := by
  unfold State.checkFeed
  split
  · rfl
  · split
    · rfl
    · split
      · rfl
      · rw [State.addReason_eq]

/-! ### A STATUS formed (R165, R170) -/

/-- The STATUS slot of `t` holds a frame that shows the accepting flag of `t`. -/
def State.ShowsAccepting (t : State) : Prop :=
  ∃ f : StatusFrame, t.link.status = some f ∧ (t.isShred = true → (f.flags.getLsbD 4 = true ↔ t.accepting = true))

/-- The accepting flag reads the equipment and whether the line is clear (R103). -/
theorem State.accepting_congr {s t : State} (heq : t.equipment = s.equipment) (hclear : t.lineClear = s.lineClear) :
    t.accepting = s.accepting := by
  obtain ⟨hatmos, hfeed, hres⟩ := (State.equipment_eq_iff s t).1 heq
  unfold State.accepting State.permissive State.intake
  rw [hatmos, hfeed, hres, hclear]

theorem State.StatusOf.showsAccepting {s t : State} {f : StatusFrame} (h : s.StatusOf f)
    (hslot : t.link.status = some f) (hstraps : t.startup = s.startup) (heq : t.equipment = s.equipment)
    (hclear : t.lineClear = s.lineClear) : t.ShowsAccepting := by
  refine ⟨f, hslot, fun hshred => ?_⟩
  have hrole : s.role = some .shred := by simpa [State.isShred, State.role, hstraps] using hshred
  rw [State.accepting_congr heq hclear, s.accepting_conditions]
  exact h.accepting hrole

/-- What a step makes of L8, of the gate and of the STATUS slot, by the command at the front. -/
structure State.FeedStep (s : State) (c : Instr) (t : State) : Prop where
  law : s.FeedLaw → t.FeedLaw
  gate : s.feed.gate = false → t.feed.gate = true → c = .feedPeriodExpiry
  status : s.NoNewStatus t ∨ t.ShowsAccepting

namespace State.NoNewFeed

variable {s u t : State} {c : Instr}

theorem feedStep (h : s.NoNewFeed t) : s.FeedStep c t where
  law := h.law
  gate hclosed hopen := absurd (h.gate hopen) (Bool.eq_false_iff.1 hclosed)
  status := .inl h.status

/-- After a command that begins no feed a STATUS is formed. -/
theorem forms (h : s.NoNewFeed u) (heq : t.equipment = u.equipment) (hlife : t.startup.life = u.startup.life)
    (hclear : t.lineClear = u.lineClear) (hshows : t.ShowsAccepting) : s.FeedStep c t where
  law hlaw := by
    have hcleared : u.NoNewFeed { t with link := { t.link with status := none } } :=
      (refl u).of_equipment heq hlife.symm.trans (.inl rfl) hclear.trans
    exact hcleared.law (h.law hlaw)
  gate hclosed hopen := by
    obtain ⟨-, hfeed, -⟩ := (State.equipment_eq_iff u t).1 heq
    exact absurd (h.gate (hfeed ▸ hopen)) (Bool.eq_false_iff.1 hclosed)
  status := .inr hshows

theorem placeStatus (h : s.NoNewFeed u) : s.FeedStep c u.placeStatus := by
  rw [State.placeStatus_eq]
  exact h.forms rfl rfl rfl (u.formStatus_statusOf.showsAccepting rfl rfl rfl rfl)

/-- The end of an attempt may form the STATUS that waited for it (R165). -/
theorem endAttempt (h : s.NoNewFeed u) : s.FeedStep c u.endAttempt := by
  obtain ⟨hends, heq, -, -⟩ := u.endAttempt_ends
  have hequipment : u.endAttempt.equipment = u.equipment := by rw [heq]; rfl
  have hstartup : u.endAttempt.startup = u.startup := by rw [heq]
  have hclear : u.endAttempt.lineClear = u.lineClear := by rw [heq]; rfl
  cases hdue : u.link.statusDue with
  | false =>
    obtain ⟨hslot, -⟩ := hends.statusStays hdue
    exact (h.frame ((State.feedSide_eq_iff _ _).2 ⟨hequipment, congrArg _ hstartup, hclear, hslot⟩)).feedStep
  | true =>
    obtain ⟨-, f, hslot, -, hstatus⟩ := hends.statusFormed hdue
    exact h.forms hequipment (congrArg _ hstartup) hclear (hstatus.showsAccepting hslot rfl rfl rfl)

/-- At the entry to RUNNING the purge starts and the first STATUS is formed (R114, R165). -/
theorem enterRunning (s : State) : s.FeedStep c s.enterRunning := by
  have hlive : s.NoNewFeed { s with
      startup := { s.startup with life := .running, listenTimer := none }
      view := { s.view with silenceTimer := some silenceMs } } := by
    refine (refl s).of_equipment rfl nofun (.inr rfl) fun hclear => ?_
    obtain ⟨-, hheard, hfire⟩ := s.lineClear_iff.1 hclear
    exact (State.lineClear_iff _).2 ⟨rfl, hheard, hfire⟩
  have hpurging := hlive.startPurge
  unfold State.enterRunning
  dsimp only
  rw [State.placeTally_eq, State.placeStatus_eq]
  exact hpurging.forms rfl rfl rfl ((State.formStatus_statusOf _).showsAccepting rfl rfl rfl rfl)

end State.NoNewFeed

theorem State.FeedStep.ite {s u t : State} {c : Instr} {p : Prop} [Decidable p] (hu : s.FeedStep c u)
    (ht : s.FeedStep c t) : s.FeedStep c (if p then u else t) := by
  split
  · exact hu
  · exact ht

/-- The feed period is the one command that may open the gate (R94, R105). -/
theorem State.feedPeriod_feedStep (s : State) : s.FeedStep .feedPeriodExpiry (State.checkFeed (State.checkStart { s with
    feed := { s.feed with queue := advanceWaits s.feed.queue, periodTimer := some fastPeriod } })) where
  law hlaw := ((State.NoNewFeed.advanceWaits s).law hlaw).checkStart.checkFeed
  gate _ _ := rfl
  status := .inl (.inr (by rw [State.checkFeed_link, State.checkStart_link]))

/-- An attempt succeeds (R164), the reply to a NODE_RESET with the start of the line reset (R182). -/
theorem State.succeed_feedStep (s : State) (c : Instr) (b : Buffer) : s.FeedStep c (s.succeed b) := by
  have hcounted : s.NoNewFeed (s.setErrors (s.link.txErrors - 1) s.link.rxErrors) :=
    (State.NoNewFeed.refl s).frame (by simp)
  unfold State.succeed
  exact .ite (State.NoNewFeed.lineReset s .request).feedStep (hcounted.sent b).endAttempt

/-! ### Every command -/

/-- A command whose outcome begins no feed and forms no STATUS. -/
theorem State.NoNewFeed.execNext {s t : State} {c : Instr} (hexec : exec c s = .next t) (h : s.NoNewFeed t) :
    ∃ u : State, exec c s = .next u ∧ s.FeedStep c u := ⟨t, hexec, h.feedStep⟩

/-- A command that acts under a condition only, which the proof of its effect may use. -/
theorem State.NoNewFeed.when {s t : State} {p : Prop} [Decidable p] (h : p → s.NoNewFeed t) :
    s.NoNewFeed (if p then t else s) := by
  split
  · next hp => exact h hp
  · exact refl s

open State.NoNewFeed in
/-- Every command keeps L8; only the feed period opens the gate; a STATUS formed shows the accepting flag. -/
theorem exec_feedStep (c : Instr) (s : State) : ∃ t : State, exec c s = .next t ∧ s.FeedStep c t := by
  have hs := refl s
  have hrequest (code : Byte) (f : RequestFrame) {eval : RequestFrame → State → Answer}
      (h : ∀ u : State, (eval f u).NoNewFeed u) : s.NoNewFeed (s.serve code f (eval f)) := serve h s code f
  cases c with
  | feedPeriodExpiry => exact ⟨_, rfl, .ite s.feedPeriod_feedStep hs.feedStep⟩
  | listenTimerExpiry => exact ⟨_, rfl, .ite (enterRunning s) hs.feedStep⟩
  | statusPeriodExpiry =>
    have hrestarted : s.NoNewFeed { s with link := { s.link with statusTimer := some fastPeriod } } := hs.frame rfl
    exact ⟨_, rfl, .ite (.ite (hs.frame (by rfl)).feedStep hrestarted.placeStatus) hs.feedStep⟩
  | transmitSuccess =>
    refine ⟨_, rfl, ?_⟩
    split
    · exact s.succeed_feedStep _ _
    · exact hs.feedStep
  | arbitrationLost => exact ⟨_, rfl, .ite hs.endAttempt hs.feedStep⟩
  | transmitError ackOnly =>
    exact ⟨_, rfl, .ite (endAttempt (hs.frame (s.setErrors_feedSide _ _))) hs.feedStep⟩
  | powerOnReset => exact execNext rfl (powerOn s)
  | resetPinAsserted => exact execNext rfl (assertPin s)
  | endOfReset e => exact execNext rfl (when (endReset s e))
  | bayConversion b x => exact execNext rfl (ite (hs.frame (s.convert_feedSide b x)) hs)
  | restTimerExpiry b => exact execNext rfl (ite (hs.frame (s.restExpires_feedSide b)) hs)
  | headroomComputation => exact execNext rfl (ite (hs.frame s.computeHeadroom_feedSide) hs)
  | offerCheck => exact execNext rfl (ite (hs.frame (State.checkOffers_feedSide _)) hs)
  | answerTimerExpiry b => exact execNext rfl (ite (hs.frame (s.answerExpires_feedSide b)) hs)
  | offerBackoffExpiry b => exact execNext rfl (hs.frame (by rfl))
  | releaseTimerExpiry b => exact execNext rfl (ite (hs.frame (s.releaseExpires_feedSide b)) hs)
  | transitTimerExpiry b => exact execNext rfl (ite (hs.frame (s.transitExpires_feedSide b)) hs)
  | offerReceived f => exact execNext rfl (receiveHandoff (fun u n b => (refl u).takeOffer f n b) s 0 f)
  | takeReceived f => exact execNext rfl (receiveHandoff (fun u n b => (refl u).frame (u.takeTaken_feedSide f n b)) s 1 f)
  | declineReceived f =>
    exact execNext rfl (receiveHandoff (fun u n b => (refl u).frame (u.takeDecline_feedSide f n b)) s 2 f)
  | withdrawReceived f => exact execNext rfl (receiveHandoff (fun u n b => (refl u).takeWithdraw f n b) s 3 f)
  | settleReceived f =>
    exact execNext rfl (receiveHandoff (fun u n b => (refl u).frame (u.takeSettle_feedSide f n b)) s 4 f)
  | chuteArrival => exact execNext rfl (ite (arrival s) hs)
  | chuteArrivalSensorClear => exact execNext rfl (ite (hs.frame (by rfl)) hs)
  | arrivalTimerExpiry => exact execNext rfl (ite (hs.dropReservation.frame (by rfl)) hs)
  | rotorFeedbackOn => exact execNext rfl (ite (feedbackRises s) hs)
  | rotorFeedbackOff => exact execNext rfl (ite (feedbackFalls s) hs)
  | startTimerExpiry => exact execNext rfl (when fun htimer => (startExpires s htimer).addReason)
  | stopTimerExpiry => exact execNext rfl (when fun htimer => (stopExpires s htimer).addReason)
  | idleTimerExpiry => exact execNext rfl (when (idleExpires s))
  | feedConfirmSet => exact execNext rfl (ite (confirmRises s) hs)
  | feedConfirmClear => exact execNext rfl (ite (hs.setFeed ⟨id, id, id, id⟩ fun hcons => { hcons with }) hs)
  | feedTimerExpiry => exact execNext rfl (ite (feedExpires s) hs)
  | atmosSample x => exact execNext rfl (ite (sampleAtmos s x) hs)
  | purgeSlowDeadline =>
    exact execNext rfl (when fun hdue => slowDeadline s (Bool.and_eq_true_iff.1 hdue).1)
  | purgeLockoutDeadline => exact execNext rfl (when (lockoutDeadline s))
  | fireSample x => exact execNext rfl (ite (sampleFire s x) hs)
  | statusReceived src dst f => exact execNext rfl (receive (fun u => (refl u).takeStatus src f) s _ _ _ _ _)
  | tallyReceived src dst f =>
    exact execNext rfl (receive (fun u => (refl u).frame (u.takeTally_feedSide src f)) s _ _ _ _ _)
  | alarmReceived src dst f => exact execNext rfl (receive refl s _ _ _ _ _)
  | foreignFrameReceived w => exact execNext rfl (receiveWire s w)
  | framePassedBy w => exact execNext rfl (receiveWire s w)
  | receiveError => exact execNext rfl (ite (hs.frame (s.setErrors_feedSide _ _)) hs)
  | peerAgeStale n => exact execNext rfl (ite (reviewLine (hs.frame (by rfl))) hs)
  | peerAgeLost n => exact execNext rfl (ite (losePeer s n) hs)
  | repeatWindowExpiry a => exact execNext rfl (hs.frame (by rfl))
  | silenceTimerExpiry => exact execNext rfl (ite (fallSilent s) hs)
  | tallyPeriodExpiry => exact execNext rfl (ite (ite (hs.frame (by rfl)) (hs.frame (State.placeTally_feedSide _))) hs)
  | transmitSelection => exact execNext rfl (ite (hs.frame (by rfl)) hs)
  | busIdleSighting => exact execNext rfl (ite (hs.frame (s.sight_feedSide)) hs)
  | admitPack f => exact execNext rfl (hrequest 1 f (.admitPack f))
  | abort f => exact execNext rfl (hrequest 2 f (.abort f))
  | resume f => exact execNext rfl (hrequest 3 f (.resume f))
  | quarantineIn f => exact execNext rfl (hrequest 4 f (.quarantineIn f))
  | quarantineOut f => exact execNext rfl (hrequest 5 f (.quarantineOut f))
  | accountClear f => exact execNext rfl (hrequest 6 f (.accountClear f))
  | alarmReset f => exact execNext rfl (hrequest 7 f (.alarmReset f))
  | purgeReset f => exact execNext rfl (hrequest 8 f (.purgeReset f))
  | flush f => exact execNext rfl (hrequest 9 f (.flush f))
  | shredReset f => exact execNext rfl (hrequest 10 f (.shredReset f))
  | peerForget f => exact execNext rfl (hrequest 11 f (.peerForget f))
  | readRecord f => exact execNext rfl (hrequest 12 f (.readRecord f))
  | readTally f => exact execNext rfl (hrequest 13 f (.readTally f))
  | readQuarantine f => exact execNext rfl (hrequest 14 f (.readQuarantine f))
  | identify f => exact execNext rfl (hrequest 15 f (.identify f))
  | nodeReset f => exact execNext rfl (hrequest 16 f (.nodeReset f))
  | unknownRequest code f => exact execNext rfl (hrequest code f (.evaluate code f))

/-! ### Every step -/

/-- A step is the command at the front of the queue, or a millisecond in which nothing begins. -/
theorem step_feedStep {s t : State} (h : step s = .next t) : s.NoNewFeed t ∨
    ∃ (c : Instr) (rest : List Instr), s.pending = c :: rest ∧ s.FeedStep c t := by
  unfold step at h
  split at h
  · next c rest hpending =>
    obtain ⟨u, hexec, hu⟩ := exec_feedStep c { s with pending := rest }
    obtain rfl : u = t := Host.Outcome.next.inj (hexec.symm.trans h)
    exact .inr ⟨c, rest, hpending, { hu with }⟩
  · obtain rfl := Host.Outcome.next.inj h
    exact .inl (.tick s)

theorem feedLaw_kept {s t : State} (hlaw : s.FeedLaw) (h : step s = .next t) : t.FeedLaw := by
  rcases step_feedStep h with hnone | ⟨c, rest, -, hstep⟩
  · exact hnone.law hlaw
  · exact hstep.law hlaw

theorem gate_opened_by_feedPeriod {s t : State} (h : step s = .next t) (hclosed : s.feed.gate = false)
    (hopen : t.feed.gate = true) : ∃ rest : List Instr, s.pending = .feedPeriodExpiry :: rest := by
  rcases step_feedStep h with hnone | ⟨c, rest, hpending, hstep⟩
  · exact absurd (hnone.gate hopen) (Bool.eq_false_iff.1 hclosed)
  · exact ⟨rest, hstep.gate hclosed hopen ▸ hpending⟩

/-- The gate is open for an ACTIVE feed alone, whose rotor is RUNNING under the permissive (R89, R105). -/
theorem State.FeedLaw.of_gate {s : State} (h : s.FeedLaw) (hopen : s.feed.gate = true) :
    s.feed.rotor = .running ∧ s.permissive = true := by
  obtain ⟨-, hfeed, hpermits, -⟩ := h
  have hactive : s.feed.kind = .active := by simpa using hfeed.gate.symm.trans hopen
  have hrunning := hfeed.active hactive
  exact ⟨hrunning, hpermits (by rw [hrunning]; rfl)⟩

/-- A frame that enters the STATUS slot shows the accepting flag of the state after the step. -/
theorem status_showsAccepting {s t : State} {f : StatusFrame} (h : step s = .next t) (hslot : t.link.status = some f)
    (hnew : s.link.status ≠ some f) : t.ShowsAccepting := by
  have hformed : ¬ s.NoNewStatus t := by
    rintro (hnone | hsame)
    · exact absurd (hnone.symm.trans hslot) nofun
    · exact hnew (hsame ▸ hslot)
  rcases step_feedStep h with hnone | ⟨c, rest, -, hstep⟩
  · exact absurd hnone.status hformed
  · exact hstep.status.resolve_left hformed

end Sys2Proof.Machine

namespace Sys2Proof.Proofs

open Sys2Proof Sys2Proof.Machine Sys2Proof.Config

/-- Settles O51: every command keeps L8 (`exec_feedStep`), and an open gate stands for an ACTIVE feed under the
permissive. -/
theorem feedLawKept : Obligations.FeedLawKept := by
  refine ⟨fun _ _ => feedLaw_kept, fun _ _ => gate_opened_by_feedPeriod, fun s hlaw hopen => ?_⟩
  obtain ⟨hrunning, hpermissive⟩ := hlaw.of_gate hopen
  obtain ⟨hinert, hclear, hhold⟩ := s.permissive_iff.1 hpermissive
  obtain ⟨-, -, hfire⟩ := s.lineClear_iff.1 hclear
  exact ⟨hinert, hrunning, hfire, (HoldSet.isSet_false_iff _).1 hhold⟩

/-- Settles O58: a STATUS is formed from the state that the step ends in (`status_showsAccepting`), and its flag is the
accepting flag of R103. -/
theorem acceptingFlagLaw : Obligations.AcceptingFlagLaw := by
  intro s t f h hslot hnew hshred
  obtain ⟨g, hg, hflag⟩ := status_showsAccepting h hslot hnew
  obtain rfl : g = f := Option.some.inj (hg.symm.trans hslot)
  exact (hflag hshred).trans t.accepting_conditions

end Sys2Proof.Proofs
end

