-- ==== Sys2Proof/Proofs/LineSide.lean ====
section
/-! The part of the state that L9 reads (`State.lineSide`), and the operations that leave it as it is: one equation
each, in the order of the model's files. An update that does not write line view, zone or peers leaves it by
definition, so that the equations below are about the operations that branch. -/

namespace Sys2Proof.Machine

open Sys2Proof Sys2Proof.Config

/-- What the line view reads of a peer entry (R151, R152): neither its gap count nor its age. -/
def Peer.report (p : Peer) : PeerState × Option StatusFrame := (p.state, p.fields)

/-- The line view's two flags and their inputs: the own zone and what the peers report. -/
def State.lineSide (s : State) : (Bool × Bool) × Zone × (NodeNo → PeerState × Option StatusFrame) :=
  ((s.view.lineFire, s.view.linePre), s.fire.zone, fun n => (s.peers[n]).report)

/-! ### L9 reads the line side only -/

theorem State.any_peers_iff (s : State) (p : Peer → Bool) :
    s.peers.toList.any p = true ↔ ∃ n : NodeNo, p s.peers[n] = true := by
  rw [Vector.any_toList, Vector.any_eq_true]
  exact (Fin.exists_iff (p := fun n : NodeNo => p s.peers[n] = true)).symm

theorem Peer.showsFire_congr {p q : Peer} (h : p.report = q.report) : p.showsFire = q.showsFire := by
  obtain ⟨hstate, hfields⟩ := Prod.mk.inj h
  simp only [Peer.showsFire, hstate, hfields]

theorem Peer.showsPre_congr {p q : Peer} (h : p.report = q.report) : p.showsPre = q.showsPre := by
  obtain ⟨hstate, hfields⟩ := Prod.mk.inj h
  simp only [Peer.showsPre, hstate, hfields]

theorem State.lineSide_eq_iff (s t : State) : t.lineSide = s.lineSide ↔
    (t.view.lineFire = s.view.lineFire ∧ t.view.linePre = s.view.linePre) ∧ t.fire.zone = s.fire.zone ∧
      ∀ n : NodeNo, (t.peers[n]).report = (s.peers[n]).report := by
  simp only [State.lineSide, Prod.mk.injEq, funext_iff]

theorem State.lineViewLaw_congr {s t : State} (h : t.lineSide = s.lineSide) : t.LineViewLaw ↔ s.LineViewLaw := by
  obtain ⟨⟨hfire, hpre⟩, hzone, hpeers⟩ := (State.lineSide_eq_iff s t).1 h
  have hany (p : Peer → Bool) (hp : ∀ n : NodeNo, p t.peers[n] = p s.peers[n]) :
      t.peers.toList.any p = s.peers.toList.any p := by
    rw [Bool.eq_iff_iff, t.any_peers_iff, s.any_peers_iff]
    simp only [hp]
  have hfires := hany Peer.showsFire fun n => Peer.showsFire_congr (hpeers n)
  have hpres := hany Peer.showsPre fun n => Peer.showsPre_congr (hpeers n)
  simp only [State.LineViewLaw, State.lineFireNow, State.linePreNow, hfire, hpre, hzone, hfires, hpres]

section
variable (s : State)

/-! ### Shared operations -/

theorem State.placeHandoff_lineSide (f : HandoffOut) : (s.placeHandoff f).lineSide = s.lineSide := by
  simp [State.lineSide]

theorem State.refreshIdle_lineSide : s.refreshIdle.lineSide = s.lineSide := by simp [State.lineSide]

theorem State.removeHead_lineSide : s.removeHead.lineSide = s.lineSide := by simp [State.lineSide]

theorem State.dropReservation_lineSide : s.dropReservation.lineSide = s.lineSide := by simp [State.lineSide]

theorem State.setErrors_lineSide (tx rx : Nat) : (s.setErrors tx rx).lineSide = s.lineSide := by simp [State.lineSide]

theorem State.placeStatus_lineSide : s.placeStatus.lineSide = s.lineSide := by simp [State.lineSide]

theorem State.placeTally_lineSide : s.placeTally.lineSide = s.lineSide := by simp [State.lineSide]

theorem State.addReason_lineSide (h : HoldReason) (c : FaultCause) (place : Place) (tag : Option Tag) :
    (s.addReason h c place tag).lineSide = s.lineSide := by
  rw [State.addReason_eq]
  rfl

theorem State.endAttempt_lineSide : s.endAttempt.lineSide = s.lineSide := by
  obtain ⟨-, heq, -, -⟩ := s.endAttempt_ends
  rw [heq]
  rfl

theorem State.enterSafeStop_lineSide : s.enterSafeStop.lineSide = s.lineSide := State.dropReservation_lineSide _

theorem State.clash_lineSide : s.clash.lineSide = s.lineSide := by
  unfold State.clash
  split
  · rfl
  · exact s.enterSafeStop_lineSide

/-- The clock moves the peers' ages, which are not read (log entry 2). -/
theorem State.tick_lineSide : s.tick.lineSide = s.lineSide := by
  unfold State.tick
  split
  · rfl
  · simp [State.lineSide, Peer.report]

/-! ### Conversions and pack records -/

theorem State.presenceStep_lineSide (b : BayNo) : (s.presenceStep b).lineSide = s.lineSide := by
  unfold State.presenceStep
  split
  · rfl
  · split
    · rfl
    · rfl
    · next st r _ =>
      cases st with
      | offered n => exact State.placeHandoff_lineSide _ _
      | releasing n => dsimp only; split <;> rfl
      | _ => rfl

theorem State.raiseHeat_lineSide (before : Bool) (b : BayNo) : (s.raiseHeat before b).lineSide = s.lineSide := by
  unfold State.raiseHeat
  split <;> rfl

theorem State.startCheck_lineSide (b : BayNo) (r : Record) : (s.startCheck b r).lineSide = s.lineSide := by
  unfold State.startCheck
  split <;> rfl

theorem State.restEnd_lineSide (b : BayNo) (r : Record) : (s.restEnd b r).lineSide = s.lineSide := by
  unfold State.restEnd State.rebound
  dsimp only
  repeat' split
  all_goals rfl

theorem State.sample_lineSide (b : BayNo) (r : Record) : (s.sample b r).lineSide = s.lineSide := by
  unfold State.sample State.endOrCommand
  dsimp only
  repeat' split
  all_goals rfl

theorem State.regulate_lineSide (b : BayNo) : (s.regulate b).lineSide = s.lineSide := by
  unfold State.regulate State.holdCheck
  split
  · rfl
  · rfl
  · split
    · exact s.startCheck_lineSide b _
    · split
      · rfl
      · exact s.startCheck_lineSide b _
    · exact s.restEnd_lineSide b _
    · exact s.sample_lineSide b _
    all_goals rfl

theorem State.convert_lineSide (b : BayNo) (x : BayReading) : (s.convert b x).lineSide = s.lineSide :=
  (State.regulate_lineSide _ b).trans ((State.raiseHeat_lineSide _ _ b).trans (State.presenceStep_lineSide _ b))

theorem State.restExpires_lineSide (b : BayNo) : (s.restExpires b).lineSide = s.lineSide := by
  unfold State.restExpires
  split
  · exact State.restEnd_lineSide _ b _
  · rfl

theorem State.admitPack_lineSide (f : RequestFrame) (b : BayNo) (minutes v : Nat) :
    (s.admitPack f b minutes v).lineSide = s.lineSide := State.raiseHeat_lineSide _ _ b

theorem State.quarantine_lineSide (b : BayNo) (tag : Option Tag) (reason : QuarantineReason) :
    (s.quarantine b tag reason).lineSide = s.lineSide := by
  unfold State.quarantine
  dsimp only
  split <;> rfl

/-! ### Handoff agent -/

theorem State.checkOffers_lineSide : s.checkOffers.lineSide = s.lineSide := by
  rcases s.checkOffers_cases with h | ⟨b, n, r, -, -, h⟩
  · rw [h]
  · rw [h, s.offer_eq]; rfl

theorem State.answerExpires_lineSide (b : BayNo) : (s.answerExpires b).lineSide = s.lineSide := by
  unfold State.answerExpires
  split <;> rfl

theorem State.releaseExpires_lineSide (b : BayNo) : (s.releaseExpires b).lineSide = s.lineSide := by
  unfold State.releaseExpires
  split
  · split
    · rfl
    · exact State.placeHandoff_lineSide _ _
  · rfl

theorem State.transitExpires_lineSide (b : BayNo) : (s.transitExpires b).lineSide = s.lineSide := by
  unfold State.transitExpires State.loseTransit
  dsimp only
  repeat' split
  all_goals rfl

theorem State.takeTaken_lineSide (f : HandoffFrame) (n : NodeNo) (b : BayNo) :
    (s.takeTaken f n b).lineSide = s.lineSide := by
  unfold State.takeTaken
  dsimp only
  split
  · rfl
  · split
    · split
      · split
        · rfl
        · exact State.placeHandoff_lineSide _ _
      · exact s.placeHandoff_lineSide _
    · exact s.placeHandoff_lineSide _

theorem State.takeDecline_lineSide (f : HandoffFrame) (n : NodeNo) (b : BayNo) :
    (s.takeDecline f n b).lineSide = s.lineSide := by
  unfold State.takeDecline
  repeat' split
  all_goals rfl

theorem State.takeSettle_lineSide (f : HandoffFrame) (n : NodeNo) (b : BayNo) :
    (s.takeSettle f n b).lineSide = s.lineSide := by
  unfold State.takeSettle
  repeat' split
  all_goals rfl

theorem State.reserve_lineSide (f : HandoffFrame) (n : NodeNo) (b : BayNo) : (s.reserve f n b).lineSide = s.lineSide :=
  (State.placeHandoff_lineSide _ _).trans (State.refreshIdle_lineSide _)

theorem State.takeOffer_lineSide (f : HandoffFrame) (n : NodeNo) (b : BayNo) :
    (s.takeOffer f n b).lineSide = s.lineSide := by
  unfold State.takeOffer
  split
  · rfl
  · split
    · rfl
    · split
      · exact s.placeHandoff_lineSide _
      · exact s.reserve_lineSide f n b

theorem State.takeWithdraw_lineSide (f : HandoffFrame) (n : NodeNo) (b : BayNo) :
    (s.takeWithdraw f n b).lineSide = s.lineSide := by
  unfold State.takeWithdraw
  split
  · exact s.dropReservation_lineSide
  · rfl

theorem State.arrival_lineSide : s.arrival.lineSide = s.lineSide := by
  unfold State.arrival
  split
  · exact (State.placeHandoff_lineSide _ _).trans (State.refreshIdle_lineSide _)
  · exact State.addReason_lineSide _ _ _ _ _

theorem State.takeTally_lineSide (src : Address) (f : TallyFrame) : (s.takeTally src f).lineSide = s.lineSide := by
  unfold State.takeTally State.reconcile
  dsimp only
  repeat' split
  all_goals rfl

/-! ### Feed controller -/

theorem State.checkStart_lineSide : s.checkStart.lineSide = s.lineSide := by
  unfold State.checkStart
  repeat' split
  all_goals rfl

theorem State.checkFeed_lineSide : s.checkFeed.lineSide = s.lineSide := by
  unfold State.checkFeed
  split
  · rfl
  · split
    · rfl
    · split
      · rfl
      · exact s.addReason_lineSide _ _ _ _

theorem State.feedbackRises_lineSide : s.feedbackRises.lineSide = s.lineSide := by
  unfold State.feedbackRises
  dsimp only
  split
  · exact State.refreshIdle_lineSide _
  · exact State.addReason_lineSide _ _ _ _ _
  · rfl
  · rfl

theorem State.feedbackFalls_lineSide : s.feedbackFalls.lineSide = s.lineSide := by
  unfold State.feedbackFalls
  dsimp only
  split
  · exact State.addReason_lineSide _ _ _ _ _
  · rfl
  · rfl
  · rfl

theorem State.confirmFeed_lineSide : s.confirmFeed.lineSide = s.lineSide := by
  unfold State.confirmFeed
  dsimp only
  split
  · rfl
  · exact State.removeHead_lineSide _

theorem State.confirmRises_lineSide : s.confirmRises.lineSide = s.lineSide := by
  unfold State.confirmRises
  dsimp only
  split
  · exact State.addReason_lineSide _ _ _ _ _
  · exact State.confirmFeed_lineSide _
  · exact State.confirmFeed_lineSide _

theorem State.feedExpires_lineSide : s.feedExpires.lineSide = s.lineSide := by
  unfold State.feedExpires
  dsimp only
  split
  · exact State.addReason_lineSide _ _ _ _ _
  · rfl
  · rfl

/-! ### Atmosphere -/

theorem State.enterIfFaulted_lineSide (before now : Bool) (c : FaultCause) (place : Place) :
    (s.enterIfFaulted before now c place).lineSide = s.lineSide := by
  unfold State.enterIfFaulted
  split <;> rfl

theorem State.readAtmos_lineSide (x : AtmosReading) : (s.readAtmos x).lineSide = s.lineSide := by
  have hfaults := (State.enterIfFaulted_lineSide _ s.atmos.pressureValid (pressureReading x.pressure).isSome
    .pressureFault .none).trans ((State.enterIfFaulted_lineSide _ s.atmos.o2ValidB (o2Reading x.o2b).isSome
      .o2SensorFault (.channel 1)).trans (s.enterIfFaulted_lineSide s.atmos.o2ValidA (o2Reading x.o2a).isSome
        .o2SensorFault (.channel 0)))
  unfold State.readAtmos
  dsimp only
  split
  · exact hfaults
  · exact hfaults

theorem State.qualify_lineSide : s.qualify.lineSide = s.lineSide := by
  unfold State.qualify
  dsimp only
  repeat' split
  all_goals rfl

theorem State.holdInert_lineSide (low : Bool) : (s.holdInert low).lineSide = s.lineSide := by
  unfold State.holdInert
  dsimp only
  split <;> rfl

theorem State.sampleAtmos_lineSide (x : AtmosReading) : (s.sampleAtmos x).lineSide = s.lineSide := by
  have hread := s.readAtmos_lineSide x
  unfold State.sampleAtmos
  dsimp only
  split
  · exact (State.qualify_lineSide _).trans hread
  · exact (State.holdInert_lineSide _ _).trans hread
  · exact hread
  · exact hread
  · exact hread

/-! ### Line link and start-up -/

theorem State.replySent_lineSide (t : TerminalNo) : (s.replySent t).lineSide = s.lineSide := by
  unfold State.replySent State.answerHeld
  split <;> rfl

theorem State.sent_lineSide (b : Buffer) : (s.sent b).lineSide = s.lineSide := by
  cases b with
  | reply t => exact s.replySent_lineSide t
  | _ => rfl

theorem State.enterRunning_lineSide : s.enterRunning.lineSide = s.lineSide := by
  have hpurge (u : State) : u.startPurge.lineSide = u.lineSide := by
    unfold State.startPurge
    split <;> rfl
  exact (State.placeTally_lineSide _).trans ((State.placeStatus_lineSide _).trans (hpurge _))

end

end Sys2Proof.Machine
end

