-- ==== Sys2Proof/Proofs/LineViewKept.lean ====
section
/-! The relation `State.KeepsLineView`: L9 is kept. A state has L9 after a step because nothing that L9 reads has
changed (`of_side`), because the line view was reviewed last (`of_review`), or because a reset began (`of_reset`). -/

namespace Sys2Proof.Machine

open Sys2Proof Sys2Proof.Config

/-- From `s` to `t` L9 is kept (R158). -/
def State.KeepsLineView (s t : State) : Prop := s.LineViewLaw → t.LineViewLaw

/-! ### The review -/

theorem State.recallRelease_inputs (s : State) (b : BayNo) :
    (s.recallRelease b).fire = s.fire ∧ (s.recallRelease b).peers = s.peers := by
  unfold State.recallRelease
  repeat' split
  all_goals simp

/-- What line_fire becoming true does to the blocks does not come back to zone or peers (R154). -/
theorem State.reviewLine_inputs (s : State) : s.reviewLine.fire = s.fire ∧ s.reviewLine.peers = s.peers := by
  unfold State.reviewLine State.lineFireRises
  dsimp only
  split <;> simp [State.recallRelease_inputs]

/-- After a review the line view is what its inputs give, whatever it was before (R151, R152). -/
theorem State.reviewLine_lineViewLaw (s : State) : s.reviewLine.LineViewLaw := by
  obtain ⟨hfire, hpeers⟩ := s.reviewLine_inputs
  simp [State.LineViewLaw, State.lineFireNow, State.linePreNow, State.reviewLine_view, hfire, hpeers]

theorem State.reset_lineViewLaw : State.reset.LineViewLaw := ⟨by decide, by decide⟩

/-! ### Why L9 is kept -/

namespace State.KeepsLineView

variable {s u t : State}

theorem of_side (h : t.lineSide = s.lineSide) : s.KeepsLineView t := (State.lineViewLaw_congr h).2

theorem of_review (h : t.lineSide = u.reviewLine.lineSide) : s.KeepsLineView t :=
  fun _ => (State.lineViewLaw_congr h).2 u.reviewLine_lineViewLaw

theorem of_reset (h : t.lineSide = State.reset.lineSide) : s.KeepsLineView t :=
  fun _ => (State.lineViewLaw_congr h).2 State.reset_lineViewLaw

theorem refl (s : State) : s.KeepsLineView s := id

theorem trans (h : s.KeepsLineView u) (g : u.KeepsLineView t) : s.KeepsLineView t := g ∘ h

/-- A command that acts under a condition only. -/
theorem ite {p : Prop} [Decidable p] (hu : s.KeepsLineView u) (ht : s.KeepsLineView t) :
    s.KeepsLineView (if p then u else t) := by
  split
  · exact hu
  · exact ht

/-! ### Commands that change the inputs -/

theorem assertPin (s : State) : s.KeepsLineView s.assertPin := .ite (.ite (refl s) (of_side rfl)) (of_reset rfl)

theorem takeStatus (s : State) (src : Address) (f : StatusFrame) : s.KeepsLineView (s.takeStatus src f) := by
  unfold State.takeStatus
  split
  · exact .ite (of_review rfl) (of_side rfl)
  · exact of_side rfl

/-- The success of a NODE_RESET's reply begins a reset; any other leaves the line view (R164, R182). -/
theorem succeed (s : State) (b : Buffer) : s.KeepsLineView (s.succeed b) :=
  .ite (of_reset rfl) (of_side ((State.endAttempt_lineSide _).trans ((State.sent_lineSide _ b).trans
    (s.setErrors_lineSide _ _))))

/-! ### Reception -/

/-- A received frame is judged, and may be delivered (R160). -/
theorem receive {deliver : State → State} (h : ∀ u : State, u.KeepsLineView (deliver u)) (s : State) (odd : Bool)
    (kind : BitVec 3) (src dst : Address) (length : Nat) :
    s.KeepsLineView (s.receive odd kind src dst length deliver) := by
  have heased : s.eased.lineSide = s.lineSide := s.setErrors_lineSide _ _
  rcases s.receive_spec odd kind src dst length deliver with
    ⟨-, h'⟩ | ⟨-, -, h'⟩ | ⟨-, -, h'⟩ | ⟨-, -, h'⟩ | ⟨-, -, h'⟩ <;> rw [h']
  · exact refl s
  · exact of_side (s.eased.clash_lineSide.trans heased)
  · exact of_side heased
  · exact of_side heased
  · exact trans (of_side heased) (h _)

/-- The repeat filter discards the frame or holds its bytes and delivers it (R162). -/
theorem filtered {deliver : State → State} (h : ∀ u : State, u.KeepsLineView (deliver u)) (s : State) (a : Fin 15)
    (bytes : List Byte) : s.KeepsLineView (s.filtered a bytes deliver) :=
  .ite (refl s) (trans (of_side (by rfl)) (h _))

/-- A HANDOFF whose rule leaves the line side leaves L9 (R63). -/
theorem receiveHandoff {take : NodeNo → BayNo → State → State}
    (h : ∀ (u : State) (n : NodeNo) (b : BayNo), (take n b u).lineSide = u.lineSide) (s : State) (message : Byte)
    (f : HandoffFrame) : s.KeepsLineView (s.receiveHandoff message f take) := by
  refine receive (fun u => ?_) s _ _ _ _ _
  split
  · refine filtered (fun v => ?_) u _ _
    split
    · exact of_side (h v _ _)
    · exact of_side rfl
  · exact of_side rfl

theorem receiveMessage (s : State) (message : Byte) (f : HandoffFrame) :
    s.KeepsLineView (s.receiveMessage message f) := by
  refine receiveHandoff (fun u n b => ?_) s message f
  split
  · exact u.takeOffer_lineSide f n b
  · exact u.takeTaken_lineSide f n b
  · exact u.takeDecline_lineSide f n b
  · exact u.takeWithdraw_lineSide f n b
  · exact u.takeSettle_lineSide f n b
  · rfl

end State.KeepsLineView

/-! ### Requests -/

/-- An answer keeps L9: a refusal, or a state in which it is kept. -/
def Answer.KeepsLineView (s : State) : Answer → Prop
  | .refused _ => True
  | .done u _ => s.KeepsLineView u

namespace State.KeepsLineView

/-- The reply that carries an answer is not read (R180). -/
theorem takeRequest {s : State} {eval : State → Answer} (h : (eval s).KeepsLineView s) (code : Byte)
    (f : RequestFrame) (t : TerminalNo) : s.KeepsLineView (s.takeRequest code f t eval) := by
  rcases s.takeRequest_cases code f t eval with ⟨-, heq⟩ | ⟨-, -, heq⟩ | ⟨-, -, -, heq⟩ |
    ⟨-, -, -, ⟨r, -, heq⟩ | ⟨u, p, hdone, heq⟩⟩ <;> rw [heq]
  · exact of_side rfl
  · exact of_side rfl
  · exact of_side rfl
  · exact of_side rfl
  · rw [hdone] at h
    exact trans (u := u) h (of_side rfl)

theorem serve {eval : State → Answer} (h : ∀ u : State, (eval u).KeepsLineView u) (s : State) (code : Byte)
    (f : RequestFrame) : s.KeepsLineView (s.serve code f eval) := by
  refine receive (fun u => ?_) s _ _ _ _ _
  split
  · exact filtered (fun v => takeRequest (h v) code f _) u _ _
  · exact of_side rfl

end State.KeepsLineView

namespace Answer.KeepsLineView

variable {s : State}

theorem refused (r : Reason) : (Answer.refused r).KeepsLineView s := trivial

/-- The request changes nothing that L9 reads. -/
theorem done {u : State} (hside : u.lineSide = s.lineSide) (p : List Byte) : (Answer.done u p).KeepsLineView s :=
  State.KeepsLineView.of_side hside

/-- The request ends in a review of the line view. -/
theorem reviewed {u v : State} (hside : u.lineSide = v.reviewLine.lineSide) (p : List Byte) :
    (Answer.done u p).KeepsLineView s :=
  State.KeepsLineView.of_review hside

theorem ite {p : Prop} [Decidable p] {x y : Answer} (hx : x.KeepsLineView s) (hy : y.KeepsLineView s) :
    (if p then x else y).KeepsLineView s := by
  split
  · exact hx
  · exact hy

theorem bayForm {f : RequestFrame} {k : BayNo → Answer} (h : ∀ b : BayNo, (k b).KeepsLineView s) :
    (s.bayForm f k).KeepsLineView s := by
  unfold State.bayForm
  refine .ite (refused _) (.ite (refused _) ?_)
  split
  · exact h _
  · exact refused _

theorem nodeForm {roleTakes : Bool} {f : RequestFrame} {k : Answer} (h : k.KeepsLineView s) :
    (s.nodeForm roleTakes f k).KeepsLineView s :=
  .ite (refused _) (.ite (refused _) (.ite (refused _) h))

/-! #### Requests that review the line view -/

theorem alarmReset (f : RequestFrame) (s : State) : (evalAlarmReset f s).KeepsLineView s :=
  nodeForm (.ite (refused _) (.reviewed (by rfl) _))

theorem peerForget (f : RequestFrame) (s : State) : (evalPeerForget f s).KeepsLineView s := by
  refine nodeForm ?_
  split
  · exact refused _
  · exact .ite (refused _) (.ite (.reviewed (by rfl) _) (refused _))

/-! #### Requests that leave it -/

theorem admitPack (f : RequestFrame) (s : State) : (evalAdmit f s).KeepsLineView s := by
  refine bayForm fun b => .ite (refused _) (.ite (refused _) (.ite (refused _) (.ite (refused _) ?_)))
  split
  · exact refused _
  · split
    · exact refused _
    · exact .ite (refused _) (.ite (refused _) (.ite (refused _) (.ite (refused _)
        (done (s.admitPack_lineSide f b _ _) _))))

theorem abort (f : RequestFrame) (s : State) : (evalAbort f s).KeepsLineView s := by
  refine bayForm fun b => ?_
  split
  · exact refused _
  · exact refused _
  · next st r _ =>
    cases st with
    | offered n => exact done (by exact State.placeHandoff_lineSide _ _) _
    | releasing n => exact refused _
    | inTransit n => exact refused _
    | rejected => exact refused _
    | missing => exact refused _
    | _ => exact done (by rfl) _

theorem resume (f : RequestFrame) (s : State) : (evalResume f s).KeepsLineView s := by
  refine bayForm fun b => ?_
  split
  · exact .ite (done (by rfl) _) (refused _)
  · exact refused _

theorem quarantineIn (f : RequestFrame) (s : State) : (evalQuarantineIn f s).KeepsLineView s := by
  refine bayForm fun b => ?_
  split
  · exact .ite (refused _) (done (by exact s.quarantine_lineSide b _ _) _)
  · exact .ite (refused _) (.ite (refused _) (done (by exact s.quarantine_lineSide b _ _) _))
  · exact refused _

theorem quarantineOut (f : RequestFrame) (s : State) : (evalQuarantineOut f s).KeepsLineView s := by
  refine nodeForm ?_
  split
  · exact done (by rfl) _
  · exact refused _

theorem accountClear (f : RequestFrame) (s : State) : (evalAccountClear f s).KeepsLineView s := by
  refine .ite (nodeForm (.ite (refused _) ?_)) (bayForm fun b => ?_)
  · split
    · exact done (by rfl) _
    · exact refused _
  · unfold clearBay
    split
    · exact done (by rfl) _
    · exact refused _

theorem purgeReset (f : RequestFrame) (s : State) : (evalPurgeReset f s).KeepsLineView s :=
  nodeForm (.ite (done (by rfl) _) (refused _))

theorem flush (f : RequestFrame) (s : State) : (evalFlush f s).KeepsLineView s :=
  nodeForm (.ite (refused _) (done (by rfl) _))

theorem shredReset (f : RequestFrame) (s : State) : (evalShredReset f s).KeepsLineView s :=
  nodeForm (.ite (refused _) (.ite (refused _) (.ite (refused _) (.ite (refused _) (.ite (refused _)
    (.ite (done (by rfl) _) (.ite (refused _) (done (by exact s.removeHead_lineSide) _))))))))

theorem readRecord (f : RequestFrame) (s : State) : (evalReadRecord f s).KeepsLineView s := by
  refine bayForm fun b => ?_
  split
  · exact done (by rfl) _
  · exact refused _

theorem readTally (f : RequestFrame) (s : State) : (evalReadTally f s).KeepsLineView s := by
  refine nodeForm (.ite (refused _) ?_)
  split
  · exact done (by rfl) _
  · exact refused _

theorem readQuarantine (f : RequestFrame) (s : State) : (evalReadQuarantine f s).KeepsLineView s := by
  refine nodeForm ?_
  split
  · exact done (by rfl) _
  · exact refused _

theorem identify (f : RequestFrame) (s : State) : (evalIdentify f s).KeepsLineView s := nodeForm (done (by rfl) _)

theorem nodeReset (f : RequestFrame) (s : State) : (evalNodeReset f s).KeepsLineView s :=
  nodeForm (.ite (refused _) (done (by rfl) _))

/-- Every request keeps L9, whatever its code (R180). -/
theorem evaluate (code : Byte) (f : RequestFrame) (s : State) : (evaluate code f s).KeepsLineView s := by
  fun_cases Machine.evaluate code f
  · exact admitPack f s
  · exact abort f s
  · exact resume f s
  · exact quarantineIn f s
  · exact quarantineOut f s
  · exact accountClear f s
  · exact alarmReset f s
  · exact purgeReset f s
  · exact flush f s
  · exact shredReset f s
  · exact peerForget f s
  · exact readRecord f s
  · exact readTally f s
  · exact readQuarantine f s
  · exact identify f s
  · exact nodeReset f s
  · exact refused _

end Answer.KeepsLineView

/-! ### Any frame -/

/-- A frame of any kind (R160, R161). -/
theorem State.KeepsLineView.receiveWire (s : State) (w : WireFrame) : s.KeepsLineView (s.receiveWire w) := by
  have hforeign (u : State) : u.KeepsLineView u.countForeign := of_side rfl
  unfold State.receiveWire
  refine .ite (.receive hforeign s _ _ _ _ _) (.ite (.receive hforeign s _ _ _ _ _) (.ite (.receiveMessage s _ _)
    (.ite (.serve (Answer.KeepsLineView.evaluate _ _) s _ _) (.ite ?status (.ite ?tally ?alarm)))))
  case status => exact .receive (fun u => takeStatus u _ _) s _ _ _ _ _
  case tally => exact .receive (fun u => of_side (u.takeTally_lineSide _ _)) s _ _ _ _ _
  case alarm => exact .receive refl s _ _ _ _ _

end Sys2Proof.Machine
end

