-- ==== Sys2Proof/Proofs/LineViewLaw.lean ====
section
/-! L9 (R158): every command and every millisecond keeps the line view what its inputs give. -/

namespace Sys2Proof.Machine

open Sys2Proof Sys2Proof.Config

/-- A command whose outcome keeps L9. -/
theorem State.KeepsLineView.execNext {s t : State} {c : Instr} (hexec : exec c s = .next t) (h : s.KeepsLineView t) :
    ∃ u : State, exec c s = .next u ∧ s.KeepsLineView u := ⟨t, hexec, h⟩

/-- A command that acts under a condition only, and leaves what L9 reads. -/
theorem State.KeepsLineView.ofSideIf {s t : State} {p : Prop} [Decidable p] (h : t.lineSide = s.lineSide) :
    s.KeepsLineView (if p then t else s) := ite (of_side h) (refl s)

open State.KeepsLineView in
/-- Every command keeps L9 (R158). -/
theorem exec_keepsLineView (c : Instr) (s : State) : ∃ t : State, exec c s = .next t ∧ s.KeepsLineView t := by
  have hrequest (code : Byte) (f : RequestFrame) {eval : RequestFrame → State → Answer}
      (h : ∀ u : State, (eval f u).KeepsLineView u) : s.KeepsLineView (s.serve code f (eval f)) := serve h s code f
  cases c with
  | fireSample x => exact execNext rfl (ite (of_review rfl) (refl s))
  | statusReceived src dst f => exact execNext rfl (receive (fun u => takeStatus u src f) s _ _ _ _ _)
  | peerAgeStale n => exact execNext rfl (ite (of_review rfl) (refl s))
  | peerAgeLost n => exact execNext rfl (ite (of_review rfl) (refl s))
  | alarmReset f => exact execNext rfl (hrequest 7 f (.alarmReset f))
  | peerForget f => exact execNext rfl (hrequest 11 f (.peerForget f))
  | powerOnReset => exact execNext rfl (of_reset rfl)
  | resetPinAsserted => exact execNext rfl (assertPin s)
  | transmitSuccess =>
    refine execNext rfl ?_
    split
    · exact succeed s _
    · exact refl s
  | foreignFrameReceived w => exact execNext rfl (receiveWire s w)
  | framePassedBy w => exact execNext rfl (receiveWire s w)
  | endOfReset e => exact execNext rfl (ofSideIf rfl)
  | listenTimerExpiry => exact execNext rfl (ofSideIf s.enterRunning_lineSide)
  | bayConversion b x => exact execNext rfl (ofSideIf (s.convert_lineSide b x))
  | restTimerExpiry b => exact execNext rfl (ofSideIf (s.restExpires_lineSide b))
  | headroomComputation => exact execNext rfl (ofSideIf rfl)
  | offerCheck => exact execNext rfl (ofSideIf (State.checkOffers_lineSide _))
  | answerTimerExpiry b => exact execNext rfl (ofSideIf (s.answerExpires_lineSide b))
  | offerBackoffExpiry b => exact execNext rfl (of_side rfl)
  | releaseTimerExpiry b => exact execNext rfl (ofSideIf (s.releaseExpires_lineSide b))
  | transitTimerExpiry b => exact execNext rfl (ofSideIf (s.transitExpires_lineSide b))
  | offerReceived f => exact execNext rfl (receiveHandoff (fun u => u.takeOffer_lineSide f) s 0 f)
  | takeReceived f => exact execNext rfl (receiveHandoff (fun u => u.takeTaken_lineSide f) s 1 f)
  | declineReceived f => exact execNext rfl (receiveHandoff (fun u => u.takeDecline_lineSide f) s 2 f)
  | withdrawReceived f => exact execNext rfl (receiveHandoff (fun u => u.takeWithdraw_lineSide f) s 3 f)
  | settleReceived f => exact execNext rfl (receiveHandoff (fun u => u.takeSettle_lineSide f) s 4 f)
  | chuteArrival => exact execNext rfl (ofSideIf s.arrival_lineSide)
  | chuteArrivalSensorClear => exact execNext rfl (ofSideIf rfl)
  | arrivalTimerExpiry => exact execNext rfl (ofSideIf s.dropReservation_lineSide)
  | feedPeriodExpiry =>
    exact execNext rfl (ofSideIf ((State.checkFeed_lineSide _).trans (State.checkStart_lineSide _)))
  | rotorFeedbackOn => exact execNext rfl (ofSideIf s.feedbackRises_lineSide)
  | rotorFeedbackOff => exact execNext rfl (ofSideIf s.feedbackFalls_lineSide)
  | startTimerExpiry => exact execNext rfl (ofSideIf (State.addReason_lineSide _ _ _ _ _))
  | stopTimerExpiry => exact execNext rfl (ofSideIf (State.addReason_lineSide _ _ _ _ _))
  | idleTimerExpiry => exact execNext rfl (ofSideIf rfl)
  | feedConfirmSet => exact execNext rfl (ofSideIf s.confirmRises_lineSide)
  | feedConfirmClear => exact execNext rfl (ofSideIf rfl)
  | feedTimerExpiry => exact execNext rfl (ofSideIf s.feedExpires_lineSide)
  | atmosSample x => exact execNext rfl (ofSideIf (s.sampleAtmos_lineSide x))
  | purgeSlowDeadline => exact execNext rfl (ofSideIf rfl)
  | purgeLockoutDeadline => exact execNext rfl (ofSideIf rfl)
  | tallyReceived src dst f =>
    exact execNext rfl (receive (fun u => of_side (u.takeTally_lineSide src f)) s _ _ _ _ _)
  | alarmReceived src dst f => exact execNext rfl (receive refl s _ _ _ _ _)
  | receiveError => exact execNext rfl (ofSideIf (s.setErrors_lineSide _ _))
  | repeatWindowExpiry a => exact execNext rfl (of_side rfl)
  | silenceTimerExpiry => exact execNext rfl (ofSideIf rfl)
  | statusPeriodExpiry =>
    exact execNext rfl (ite (ite (of_side rfl) (of_side (State.placeStatus_lineSide _))) (refl s))
  | tallyPeriodExpiry =>
    exact execNext rfl (ite (ite (of_side rfl) (of_side (State.placeTally_lineSide _))) (refl s))
  | transmitSelection => exact execNext rfl (ofSideIf rfl)
  | arbitrationLost => exact execNext rfl (ofSideIf s.endAttempt_lineSide)
  | transmitError ackOnly =>
    exact execNext rfl (ofSideIf ((State.endAttempt_lineSide _).trans (s.setErrors_lineSide _ _)))
  | busIdleSighting => exact execNext rfl (ofSideIf rfl)
  | admitPack f => exact execNext rfl (hrequest 1 f (.admitPack f))
  | abort f => exact execNext rfl (hrequest 2 f (.abort f))
  | resume f => exact execNext rfl (hrequest 3 f (.resume f))
  | quarantineIn f => exact execNext rfl (hrequest 4 f (.quarantineIn f))
  | quarantineOut f => exact execNext rfl (hrequest 5 f (.quarantineOut f))
  | accountClear f => exact execNext rfl (hrequest 6 f (.accountClear f))
  | purgeReset f => exact execNext rfl (hrequest 8 f (.purgeReset f))
  | flush f => exact execNext rfl (hrequest 9 f (.flush f))
  | shredReset f => exact execNext rfl (hrequest 10 f (.shredReset f))
  | readRecord f => exact execNext rfl (hrequest 12 f (.readRecord f))
  | readTally f => exact execNext rfl (hrequest 13 f (.readTally f))
  | readQuarantine f => exact execNext rfl (hrequest 14 f (.readQuarantine f))
  | identify f => exact execNext rfl (hrequest 15 f (.identify f))
  | nodeReset f => exact execNext rfl (hrequest 16 f (.nodeReset f))
  | unknownRequest code f => exact execNext rfl (hrequest code f (.evaluate code f))

/-- A step is the command at the front of the queue, or a millisecond, which moves nothing that L9 reads. -/
theorem step_keepsLineView {s t : State} (h : step s = .next t) : s.KeepsLineView t := by
  unfold step at h
  split at h
  · next c rest hpending =>
    obtain ⟨u, hexec, hu⟩ := exec_keepsLineView c { s with pending := rest }
    obtain rfl : u = t := Host.Outcome.next.inj (hexec.symm.trans h)
    exact .trans (.of_side rfl) hu
  · obtain rfl := Host.Outcome.next.inj h
    exact .of_side s.tick_lineSide

/-- No input shows FIRE exactly when the own zone is not FIRE and no entry that is not ABSENT reports it (R151). -/
theorem State.lineFireNow_eq_false_iff (s : State) : s.lineFireNow = false ↔ s.fire.zone ≠ .fire ∧
    ∀ (n : NodeNo) (f : StatusFrame), (s.peers[n]).state ≠ .absent → (s.peers[n]).fields = some f →
      f.zone ≠ codeFire := by
  have hpeer (p : Peer) : p.showsFire = true ↔
      ∃ f : StatusFrame, p.state ≠ .absent ∧ p.fields = some f ∧ f.zone = codeFire := by
    unfold Peer.showsFire
    split
    · next f hfields => simp [hfields]
    · next hfields => simp [hfields]
  rw [State.lineFireNow, Bool.or_eq_false_iff, decide_eq_false_iff_not, ← Bool.not_eq_true (List.any _ _),
    s.any_peers_iff]
  simp only [hpeer, not_exists, not_and, ne_eq]

end Sys2Proof.Machine

namespace Sys2Proof.Proofs

open Sys2Proof Sys2Proof.Machine Sys2Proof.Config

/-- Settles O49: every step keeps L9 (`step_keepsLineView`), and under it a false line_fire says that no input shows
FIRE. -/
theorem lineViewLawKept : Obligations.LineViewLawKept := by
  refine ⟨fun s t hlaw h => step_keepsLineView h hlaw, fun s hlaw hfire => ?_⟩
  obtain ⟨hview, -⟩ := hlaw
  exact s.lineFireNow_eq_false_iff.1 (hview.symm.trans hfire)

end Sys2Proof.Proofs
end

