-- ==== Sys2Proof/Proofs/BayKeeps.lean ====
section
/-! The relation `State.BayKeeps`: from one state to another the straps stay, and the laws of the bay collections are kept:
outputs and timers of the bays (L6), room of the quarantine store (L1), tags (L2), balance of the admitted packs (L3), and
the headroom bounds. It is reflexive and transitive, and every law of it is a statement about counts over the bays. -/

namespace Sys2Proof.Machine

open Sys2Proof Sys2Proof.Config

/-! ### Tags and shares as counts over the bays -/

/-- The slot holds a record with this tag. -/
def Slot.carries (a : Tag) (x : Slot) : Bool := decide (x.record.map Record.tag = some a)

/-- How often a tag stands in the bay collections (R18). -/
def State.tagCount (s : State) (a : Tag) : Nat :=
  s.countBays (Slot.carries a) + (s.store.filterMap QuarantineEntry.tag).count a +
    (s.unaccounted.map UnaccountedEntry.tag).count a

theorem State.count_bayTags (s : State) (a : Tag) : s.bayTags.count a = s.tagCount a := by
  have hbays : (s.bays.toList.filterMap (fun b => b.slot.record.map Record.tag)).count a =
      s.countBays (Slot.carries a) := by
    rw [List.count_filterMap, State.countBays]
    exact List.countP_congr fun x _ => by simp [Slot.carries]
  simp only [State.bayTags, List.count_append, State.tagCount, hbays]

theorem State.bayTags_nodup_iff (s : State) : s.bayTags.Nodup ↔ ∀ a : Tag, s.tagCount a ≤ 1 := by
  simp only [List.nodup_iff_count_le_one, s.count_bayTags]

/-- A tag that stands nowhere in the bay collections. -/
theorem State.tagCount_eq_zero {s : State} {a : Tag} (h : a ∉ s.bayTags) : s.tagCount a = 0 := by
  rw [← s.count_bayTags, List.count_eq_zero]
  exact h

theorem State.shares_eq (s : State) : s.shares =
    (s.bay 0).share.getD 0 + ((s.bay 1).share.getD 0 + ((s.bay 2).share.getD 0 + (s.bay 3).share.getD 0)) := by
  simp [State.shares, s.bays_toList]

theorem State.shares_le {s t : State} (h : ∀ b : BayNo, (t.bay b).share.getD 0 ≤ (s.bay b).share.getD 0) :
    t.shares ≤ s.shares := by
  rw [s.shares_eq, t.shares_eq]
  exact Nat.add_le_add (h 0) (Nat.add_le_add (h 1) (Nat.add_le_add (h 2) (h 3)))

theorem State.countBays_congr {s t : State} {p : Slot → Bool} (h : ∀ b : BayNo, p (t.bay b).slot = p (s.bay b).slot) :
    t.countBays p = s.countBays p :=
  le_antisymm (State.countBays_le fun b hb => by rwa [← h b]) (State.countBays_le fun b hb => by rwa [h b])

/-! ### One bay -/

/-- What L6 asks of one bay at a node with this greatest current, where the line is clear or not. -/
structure Bay.Lawful (x : Bay) (iMax : Nat) (clear : Bool) : Prop where
  consistent : x.Consistent
  sink : x.sink ≤ iMax
  discharging : x.slot.isDischarging = true → clear = true

theorem State.bayLaw_iff (s : State) : s.BayLaw ↔ ∀ b : BayNo, (s.bay b).Lawful s.profile.iMax s.lineClear :=
  forall_congr' fun _ => ⟨fun ⟨hc, hs, hd⟩ => ⟨hc, hs, hd⟩, fun h => ⟨h.consistent, h.sink, h.discharging⟩⟩

/-- A bay without contactor, sink, share and timers, and not DISCHARGING, is lawful at every node. -/
theorem Bay.Lawful.of_idle {x : Bay} (hx : x.Consistent) (hidle : x.slot.isDischarging = false) (iMax : Nat)
    (clear : Bool) : x.Lawful iMax clear where
  consistent := hx
  sink := by rw [hx.sink, hx.setpoint hidle]; exact Nat.zero_le _
  discharging h := by rw [hidle] at h; cases h

/-- From `x` in `s` to `y` in `t` a bay keeps its record, enters no state counted under L1 and takes no share, and stays
lawful. -/
structure Bay.Carries (s t : State) (x y : Bay) : Prop where
  tag : y.slot.record.map Record.tag = x.slot.record.map Record.tag
  counted : y.slot.counted = true → x.slot.counted = true
  share : y.share.getD 0 ≤ x.share.getD 0
  lawful : x.Lawful s.profile.iMax s.lineClear → y.Lawful t.profile.iMax t.lineClear

theorem Bay.Carries.held {s t : State} {x y : Bay} (h : x.Carries s t y) :
    y.slot.record.isSome = x.slot.record.isSome := by
  rw [← Option.isSome_map (f := Record.tag), h.tag, Option.isSome_map]

theorem Bay.Carries.carries {s t : State} {x y : Bay} (h : x.Carries s t y) (a : Tag) :
    y.slot.carries a = x.slot.carries a := by simp only [Slot.carries, h.tag]

/-! ### The bay collections -/

/-- From `s` to `t` the straps stay, and the laws of the bay collections are kept. -/
structure State.BayKeeps (s t : State) : Prop where
  straps : t.startup.straps = s.startup.straps
  law : s.BayLaw → t.BayLaw
  count : t.l1Count ≤ max s.l1Count s.capacity
  tags : (∀ a : Tag, s.tagCount a ≤ 1) → ∀ a : Tag, t.tagCount a ≤ 1
  below : t.tally.t1.below → s.tally.t1.below
  balance : t.tally.t1.below → s.ConservationLaw → t.ConservationLaw
  headroom : s.HeadroomLaw → t.HeadroomLaw

/-- The tallies of L3. -/
def Tally1.balanced (x : Tally1) : Nat × Nat × Nat × Nat × Nat :=
  (x.admitted, x.settled, x.quarantined, x.orphaned, x.writtenOff)

/-- The parts of the state, apart from the bays, that the laws of the bay collections read. -/
def State.storePart (s : State) :
    Straps × List QuarantineEntry × List UnaccountedEntry × (Nat × Nat) × Nat × Nat × Nat × Nat × Nat :=
  (s.startup.straps, s.store, s.unaccounted, (s.headroom.limit, s.headroom.allowance), s.tally.t1.balanced)

namespace State.BayKeeps

theorem refl (s : State) : s.BayKeeps s :=
  ⟨rfl, id, le_max_left _ _, id, id, fun _ => id, id⟩

theorem capacity {s t : State} (h : s.BayKeeps t) : t.capacity = s.capacity := by
  simp only [State.capacity, State.profile, h.straps]

theorem trans {s t u : State} (h : s.BayKeeps t) (g : t.BayKeeps u) : s.BayKeeps u where
  straps := g.straps.trans h.straps
  law := g.law ∘ h.law
  count := g.count.trans (max_le h.count (h.capacity ▸ le_max_right _ _))
  tags := g.tags ∘ h.tags
  below := h.below ∘ g.below
  balance hbelow := g.balance hbelow ∘ h.balance (g.below hbelow)
  headroom := g.headroom ∘ h.headroom

/-- Every bay carries on, and the rest of the bay collections stays. -/
theorem of_bays {s t : State} (hbays : ∀ b : BayNo, (s.bay b).Carries s t (t.bay b))
    (hstraps : t.startup.straps = s.startup.straps)
    (hreset : t.startup.life = .inReset → s.startup.life = .inReset)
    (hlists : t.store = s.store ∧ t.unaccounted = s.unaccounted)
    (hroom : t.headroom.limit = s.headroom.limit ∧ t.headroom.allowance = s.headroom.allowance)
    (htally : t.tally.t1.balanced = s.tally.t1.balanced) : s.BayKeeps t := by
  obtain ⟨hstore, hlist⟩ := hlists
  obtain ⟨hlimit, hallowance⟩ := hroom
  simp only [Tally1.balanced, Prod.mk.injEq] at htally
  obtain ⟨h1, h2, h3, h4, h5⟩ := htally
  have hheld : t.held = s.held := State.countBays_congr fun b => (hbays b).held
  have hbelow : t.tally.t1.below ↔ s.tally.t1.below := by simp only [Tally1.below, h1, h2, h3, h4, h5]
  refine ⟨hstraps, ?law, ?count, ?tags, hbelow.1, fun _ => ?balance, ?headroom⟩
  case law =>
    rw [State.bayLaw_iff, State.bayLaw_iff]
    exact fun hlaw b => (hbays b).lawful (hlaw b)
  case count =>
    refine le_max_of_le_left ?_
    simp only [State.l1Count, hstore]
    exact Nat.add_le_add_right (State.countBays_le fun b => (hbays b).counted) _
  case tags =>
    intro htags a
    rw [State.tagCount, State.countBays_congr fun b => (hbays b).carries a, hstore, hlist]
    exact htags a
  case balance =>
    rintro ⟨hsum, hnone⟩
    exact ⟨by rw [h1, h2, h3, h4, h5, hlist, hheld]; exact hsum, fun hlife => hheld.trans (hnone (hreset hlife))⟩
  case headroom =>
    rintro ⟨hclass, hmax, hshares⟩
    refine ⟨?_, hallowance ▸ hmax, ?_⟩
    · rw [hlimit, State.ownClass, hstraps]; exact hclass
    · rw [hallowance]; exact (State.shares_le fun b => (hbays b).share).trans hshares

/-- Nothing that the laws of the bay collections read has changed. -/
theorem of_part {s t : State} (hbays : t.bays = s.bays) (hpart : t.storePart = s.storePart)
    (hreset : t.startup.life = .inReset → s.startup.life = .inReset)
    (hclear : s.lineClear = true → t.lineClear = true) : s.BayKeeps t := by
  simp only [State.storePart, Prod.mk.injEq] at hpart
  obtain ⟨hstraps, hstore, hlist, hroom, htally⟩ := hpart
  have hbay (b : BayNo) : t.bay b = s.bay b := by simp only [State.bay, hbays]
  refine of_bays (fun b => ?_) hstraps hreset ⟨hstore, hlist⟩ hroom
    (by simpa [Tally1.balanced] using htally)
  rw [hbay b]
  refine ⟨rfl, id, le_rfl, fun hx => ⟨hx.consistent, ?_, fun hd => hclear (hx.discharging hd)⟩⟩
  rw [State.profile, hstraps]
  exact hx.sink

end State.BayKeeps

end Sys2Proof.Machine
end

