-- ==== Sys2Proof/Proofs/BayMoves.lean ====
section
/-! The moves of packs through the bay collections, each keeping their laws (`State.BayKeeps`): a bay that takes another
state with its record, a record that leaves its bay, and the lists that take and give entries. -/

namespace Sys2Proof.Machine

open Sys2Proof Sys2Proof.Config

/-! ### Consistent bays -/

/-- The states that hold a record and have neither output nor a timer that must run. -/
def PackState.plain : PackState → Bool
  | .admitted | .held _ | .resting | .safe | .rejected | .missing => true
  | .discharging | .offered _ | .releasing _ | .inTransit _ => false

theorem Bay.Consistent.not_early {x : Bay} {st : PackState} {r : Record} (h : x.Consistent)
    (hslot : x.slot = .pack st r) (hst : ∀ n : NodeNo, st ≠ .releasing n) : r.settleEarly = false := by
  have hearly := h.early
  rw [hslot] at hearly
  cases he : r.settleEarly with
  | false => rfl
  | true =>
    have hreleasing := hearly he
    cases st with
    | releasing n => exact absurd rfl (hst n)
    | _ => cases hreleasing

theorem Bay.vacate_consistent (x : Bay) : x.vacate.Consistent := by
  constructor <;> simp [Bay.vacate, Bay.quiet, Slot.isDischarging, Slot.setpoint, Slot.isReleasing, Slot.settledEarly,
    Slot.isOffered, Slot.isInTransit]

theorem Bay.enter_consistent (x : Bay) {st : PackState} {r : Record} (hst : st.plain = true)
    (hearly : r.settleEarly = false) : (x.enter st r).Consistent := by
  cases st with
  | discharging => cases hst
  | offered n => cases hst
  | releasing n => cases hst
  | inTransit n => cases hst
  | _ =>
    constructor <;> simp [Bay.enter, Bay.quiet, Slot.isDischarging, Slot.setpoint, Slot.isReleasing, Slot.settledEarly,
      Slot.isOffered, Slot.isInTransit, hearly]

theorem PackState.plain_not_discharging {st : PackState} (h : st.plain = true) (r : Record) :
    (Slot.pack st r).isDischarging = false := by
  cases st with
  | discharging => cases h
  | _ => rfl

namespace Bay.Carries

variable {s t : State} {x y : Bay}

/-- A bay that is left as it is. -/
theorem rfl' (hprofile : t.startup.straps = s.startup.straps) (hclear : s.lineClear = true → t.lineClear = true) :
    x.Carries s t x where
  tag := rfl
  counted := id
  share := le_rfl
  lawful hx := ⟨hx.consistent, by rw [State.profile, hprofile]; exact hx.sink, fun hd => hclear (hx.discharging hd)⟩

/-- A bay enters a state without output, from a state that is counted if the new one is. -/
theorem of_plain {st st' : PackState} {r r' : Record} (hslot : x.slot = .pack st r) (hy : y.slot = .pack st' r')
    (htag : r'.tag = r.tag) (hst : st'.plain = true) (hcounted : st' = .missing ∨ x.slot.counted = true)
    (hshare : y.share = none) (hcons : x.Consistent → y.Consistent) : x.Carries s t y where
  tag := by rw [hslot, hy]; simp [Slot.record, htag]
  counted hc := by
    rcases hcounted with rfl | h
    · rw [hy] at hc; cases hc
    · exact h
  share := by rw [hshare]; exact Nat.zero_le _
  lawful hx := .of_idle (hcons hx.consistent) (by rw [hy]; exact PackState.plain_not_discharging hst _) _ _

/-- The common case: `Bay.enter` with a plain state, whatever else of the bay was changed before. -/
theorem enter {z : Bay} {st st' : PackState} {r r' : Record} (hslot : x.slot = .pack st r) (hst : st'.plain = true)
    (hcounted : st' = .missing ∨ x.slot.counted = true) (htag : r'.tag = r.tag) (hsame : r'.settleEarly = r.settleEarly)
    (hearly : (∀ n : NodeNo, st ≠ .releasing n) ∨ r.settleEarly = false) : x.Carries s t (z.enter st' r') := by
  refine of_plain hslot rfl htag hst hcounted rfl fun hx => z.enter_consistent hst ?_
  rw [hsame]
  exact hearly.elim (hx.not_early hslot) id

/-- The return to SAFE with a backoff (R67, R69, R73). -/
theorem backToSafe {z : Bay} {st : PackState} {r : Record} (hslot : x.slot = .pack st r)
    (hcounted : x.slot.counted = true) (hearly : (∀ n : NodeNo, st ≠ .releasing n) ∨ r.settleEarly = false)
    (jammed : Bool) : x.Carries s t { z.backToSafe r with jammed := jammed } := by
  refine of_plain (r' := { r with setpoint := 0 }) hslot rfl rfl rfl (.inr hcounted) rfl fun hx => ?_
  exact { z.enter_consistent (st := .safe) rfl (hearly.elim (hx.not_early hslot) id) with safe := fun _ => rfl }

/-- Entry to RESTING (R33). -/
theorem rest {z : Bay} {r r' : Record} {p : Profile} {v : Nat} (hslot : x.slot = .pack .discharging r)
    (htag : r'.tag = r.tag) (hsame : r'.settleEarly = r.settleEarly) : x.Carries s t (z.rest p r' v) := by
  refine of_plain (r' := { r' with endCause := some .safeVoltage, restStartV := some v, setpoint := 0 }) hslot rfl htag
    rfl (.inr (by rw [hslot]; rfl)) rfl fun hx => ?_
  have hearly : r'.settleEarly = false := by rw [hsame]; exact hx.not_early hslot (by simp)
  exact { z.enter_consistent (st := .resting) (r := { r' with endCause := some .safeVoltage, restStartV := some v })
    rfl hearly with rest := fun _ => rfl }

/-- The three outcomes of a start (R25, R41, R43, R45). -/
theorem startOrHold {z : Bay} {st : PackState} {r r' : Record} (hslot : x.slot = .pack st r)
    (hcounted : x.slot.counted = true) (htag : r'.tag = r.tag) (hsame : r'.settleEarly = r.settleEarly)
    (hearly : ∀ n : NodeNo, st ≠ .releasing n) : x.Carries s t (z.startOrHold t.lineClear r') := by
  rcases z.startOrHold_cases t.lineClear r' with ⟨-, h⟩ | ⟨-, -, h⟩ | ⟨hclear, -, h⟩
  · rw [h]; exact enter hslot rfl (.inr hcounted) htag hsame (.inl hearly)
  · rw [h]; exact enter hslot rfl (.inr hcounted) htag hsame (.inl hearly)
  · rw [h]
    refine ⟨by rw [hslot]; simp [Bay.discharge, Slot.record, htag], fun _ => hcounted, Nat.zero_le _, fun hx => ?_⟩
    have hr : r'.settleEarly = false := by rw [hsame]; exact hx.consistent.not_early hslot hearly
    refine ⟨?_, Nat.zero_le _, fun _ => hclear⟩
    constructor <;> simp [Bay.discharge, Bay.enter, Bay.quiet, Slot.isDischarging, Slot.setpoint, Slot.isReleasing,
      Slot.settledEarly, Slot.isOffered, Slot.isInTransit, hr]

/-- Entry to OFFERED, RELEASING or IN_TRANSIT with its timer (R66, R68, R69). -/
theorem of_transfer {st st' : PackState} {r r' : Record} (hslot : x.slot = .pack st r) (hy : y.slot = .pack st' r')
    (htag : r'.tag = r.tag) (hcounted : x.slot.counted = true) (hshare : y.share = none)
    (hidle : y.slot.isDischarging = false) (hcons : x.Consistent → y.Consistent) : x.Carries s t y where
  tag := by rw [hslot, hy]; simp [Slot.record, htag]
  counted _ := hcounted
  share := by rw [hshare]; exact Nat.zero_le _
  lawful hx := .of_idle (hcons hx.consistent) hidle _ _

theorem offered {n : NodeNo} {r : Record} (hslot : x.slot = .pack .safe r) : x.Carries s t (x.offered n r) := by
  refine of_transfer hslot rfl rfl (by rw [hslot]; rfl) rfl rfl fun hx => ?_
  have hearly := hx.not_early hslot (by simp)
  constructor <;> simp [Bay.offered, Bay.enter, Bay.quiet, Slot.isDischarging, Slot.setpoint, Slot.isReleasing,
    Slot.settledEarly, Slot.isOffered, Slot.isInTransit, hearly]

theorem release {m n : NodeNo} {r : Record} {k : Nat} (hslot : x.slot = .pack (.offered m) r) :
    x.Carries s t { x.enter (.releasing n) r with releaseTimer := some k, gate := true } := by
  refine of_transfer (r' := { r with setpoint := 0 }) hslot rfl rfl (by rw [hslot]; rfl) rfl rfl fun hx => ?_
  have hearly := hx.not_early hslot (by simp)
  constructor <;> simp [Bay.enter, Bay.quiet, Slot.isDischarging, Slot.setpoint, Slot.isReleasing,
    Slot.settledEarly, Slot.isOffered, Slot.isInTransit, hearly]

theorem depart {z : Bay} {n : NodeNo} {r : Record} {k : Nat} (hslot : x.slot = .pack (.releasing n) r)
    (hearly : r.settleEarly = false) :
    x.Carries s t { z.enter (.inTransit n) r with transitTimer := some k } := by
  refine of_transfer (r' := { r with setpoint := 0 }) hslot rfl rfl (by rw [hslot]; rfl) rfl rfl fun _ => ?_
  constructor <;> simp [Bay.enter, Bay.quiet, Slot.isDischarging, Slot.setpoint, Slot.isReleasing,
    Slot.settledEarly, Slot.isOffered, Slot.isInTransit, hearly]

/-- A change of measurements, marks and unrelated fields: outputs, timers and state stay (R22, R137). -/
theorem of_record {f : Record → Record} (hslot : y.slot = x.slot.onRecord f) (htag : ∀ r, (f r).tag = r.tag)
    (hset : ∀ r, (f r).setpoint = r.setpoint) (hearly : ∀ r, (f r).settleEarly = r.settleEarly)
    (hout : (y.contactor, y.sink, y.gate, y.share) = (x.contactor, x.sink, x.gate, x.share))
    (htimer : (y.restTimer, y.restOwed, y.answerTimer, y.releaseTimer, y.transitTimer, y.backoff, y.jammed) =
      (x.restTimer, x.restOwed, x.answerTimer, x.releaseTimer, x.transitTimer, x.backoff, x.jammed))
    (hprofile : t.startup.straps = s.startup.straps) (hclear : s.lineClear = true → t.lineClear = true) :
    x.Carries s t y := by
  simp only [Prod.mk.injEq] at hout htimer
  obtain ⟨hcontactor, hsink, hgate, hshare⟩ := hout
  obtain ⟨hrest, howed, hanswer, hrelease, htransit, hbackoff, hjam⟩ := htimer
  have hstate (p : Slot → Bool) (hp : ∀ st r, p (.pack st (f r)) = p (.pack st r)) : p y.slot = p x.slot := by
    rw [hslot]
    cases hx : x.slot with
    | pack st r => exact hp st r
    | _ => rfl
  have hdis := hstate Slot.isDischarging fun st r => by cases st <;> rfl
  have hsetpoint : y.slot.setpoint = x.slot.setpoint := by
    rw [hslot]
    cases x.slot with
    | pack st r => exact hset r
    | _ => rfl
  refine ⟨?_, ?_, by rw [hshare], fun hx => ⟨?_, ?_, fun hd => hclear (hx.discharging (hdis ▸ hd))⟩⟩
  · rw [hslot]
    cases x.slot with
    | pack st r => simp [Slot.onRecord, Slot.record, htag]
    | _ => rfl
  · rw [hstate Slot.counted fun st r => by cases st <;> rfl]; exact id
  · have hc := hx.consistent
    have hrel := hstate Slot.isReleasing fun st r => by cases st <;> rfl
    have hset' := hstate Slot.settledEarly fun st r => hearly r
    exact {
      contactor := by rw [hcontactor, hdis]; exact hc.contactor
      sink := by rw [hsink, hsetpoint]; exact hc.sink
      setpoint := by rw [hdis, hsetpoint]; exact hc.setpoint
      gate := by rw [hgate, hrel, hset']; exact hc.gate
      early := by rw [hset', hrel]; exact hc.early
      rest := by rw [hrest, howed, hstate Slot.isResting fun st r => by cases st <;> rfl]; exact hc.rest
      answer := by rw [hanswer, hstate Slot.isOffered fun st r => by cases st <;> rfl]; exact hc.answer
      release := by rw [hrelease, hrel]; exact hc.release
      transit := by rw [htransit, hstate Slot.isInTransit fun st r => by cases st <;> rfl]; exact hc.transit
      safe := by rw [hbackoff, hjam, hstate Slot.isSafe fun st r => by cases st <;> rfl]; exact hc.safe
      share := by rw [hshare, hdis]; exact hc.share }
  · rw [hsink, State.profile, hprofile]; exact hx.sink

/-- A change of fields apart from the state and the outputs. -/
theorem of_slot (hslot : y.slot = x.slot) (hsink : y.sink = x.sink) (hshare : y.share = x.share)
    (hcons : x.Consistent → y.Consistent) : x.Carries s s y where
  tag := by rw [hslot]
  counted := by rw [hslot]; exact id
  share := by rw [hshare]
  lawful hx := ⟨hcons hx.consistent, by rw [hsink]; exact hx.sink, by rw [hslot]; exact hx.discharging⟩

/-- The loss of a pack (R8). -/
theorem lose {st : PackState} {r : Record} {z : Bay} {d : Nat} (hslot : x.slot = .pack st r)
    (hst : ∀ n : NodeNo, st ≠ .releasing n) : x.Carries s t { z.enter .missing r with deviation := d } := by
  refine of_plain (r' := { r with setpoint := 0 }) hslot rfl rfl rfl (.inl rfl) rfl fun hx => ?_
  exact { z.enter_consistent (st := .missing) rfl (hx.not_early hslot hst) with }

/-- A new setpoint within the profile's greatest current (R36). -/
theorem command {z : Bay} {r r' : Record} {i : Nat} (hslot : x.slot = .pack .discharging r) (htag : r'.tag = r.tag)
    (hearly : r'.settleEarly = r.settleEarly) (hi : i ≤ s.profile.iMax)
    (hz : ∃ d p : Nat, z = { x with deviation := d, product := p }) : x.Carries s s (z.command r' i) := by
  obtain ⟨d, p, rfl⟩ := hz
  refine ⟨by rw [hslot]; simp [Bay.command, Slot.record, htag], fun _ => by rw [hslot]; rfl, le_rfl, fun hx => ?_⟩
  obtain ⟨hc, -, hclear⟩ := hx
  have hno := hc.not_early hslot (by simp)
  have hnot : r'.settleEarly = false := hearly.trans hno
  rw [hslot] at hclear
  refine ⟨?_, hi, fun _ => hclear rfl⟩
  obtain ⟨h1, -, -, h4, -, h6, h7, h8, h9, h10, -⟩ := hc
  rw [hslot] at h1 h4 h6 h7 h8 h9 h10
  exact {
    contactor := h1
    sink := rfl
    setpoint := fun h => by cases h
    gate := h4
    early := fun h => by change r'.settleEarly = true at h; rw [hnot] at h; cases h
    rest := h6
    answer := h7
    release := h8
    transit := h9
    safe := h10
    share := fun _ => rfl }

/-- A settle before the pack has left (R71, R72). -/
theorem settleEarly {n : NodeNo} {r : Record} (hslot : x.slot = .pack (.releasing n) r) :
    x.Carries s t x.settleEarly := by
  have heq : x.settleEarly = { x with slot := .pack (.releasing n) { r with settleEarly := true }, gate := false } := by
    unfold Bay.settleEarly
    rw [hslot]
  rw [heq]
  refine ⟨by rw [hslot]; rfl, fun _ => by rw [hslot]; rfl, le_rfl, fun hx => .of_idle ?_ rfl _ _⟩
  obtain ⟨h1, h2, h3, -, -, h6, h7, h8, h9, h10, h11⟩ := hx.consistent
  rw [hslot] at h1 h2 h3 h6 h7 h8 h9 h10 h11
  exact ⟨h1, h2, h3, rfl, fun _ => rfl, h6, h7, h8, h9, h10, h11⟩

end Bay.Carries

/-! ### One bay changes -/

theorem State.BayLaw.setBay {s : State} (h : s.BayLaw) {b : BayNo} {x : Bay}
    (hx : x.Lawful s.profile.iMax s.lineClear) : (s.setBay b x).BayLaw := by
  rw [State.bayLaw_iff] at h ⊢
  intro k
  by_cases hk : k = b
  · subst hk; rw [State.setBay_bay_self]; exact hx
  · rw [State.setBay_bay_ne _ _ _ _ hk]; exact h k

/-- A counter that stays below its ceiling has been increased (R188). -/
theorem bump_of_lt {n : Nat} (h : bump n < max32) : bump n = n + 1 := by
  unfold bump satAdd at *
  omega

theorem lt_of_bump_lt {n : Nat} (h : bump n < max32) : n < max32 := by
  unfold bump satAdd at h
  omega

namespace State.BayKeeps

theorem setBay {s : State} {b : BayNo} {x : Bay} (hx : (s.bay b).Carries s s x) : s.BayKeeps (s.setBay b x) := by
  refine of_bays (fun k => ?_) rfl id ⟨rfl, rfl⟩ ⟨rfl, rfl⟩ rfl
  by_cases hk : k = b
  · subst hk; rw [State.setBay_bay_self]; exact ⟨hx.tag, hx.counted, hx.share, hx.lawful⟩
  · rw [State.setBay_bay_ne _ _ _ _ hk]; exact .rfl' rfl id

/-- The record of bay `b` leaves it for good or for a list: what is left to show of the lists and the tallies. -/
theorem of_vacated {s t : State} {b : BayNo} (hbays : t.bays = (s.setBay b (s.bay b).vacate).bays)
    (hsame : t.startup = s.startup ∧ t.view = s.view ∧ t.headroom = s.headroom)
    (hcount : t.l1Count ≤ max s.l1Count s.capacity) (htags : ∀ a : Tag, t.tagCount a ≤ s.tagCount a)
    (hbelow : t.tally.t1.below → s.tally.t1.below)
    (hbalance : t.tally.t1.below → s.ConservationLaw → t.ConservationLaw) : s.BayKeeps t := by
  obtain ⟨hstartup, hview, hheadroom⟩ := hsame
  have hbay (k : BayNo) : t.bay k = (s.setBay b (s.bay b).vacate).bay k := by simp only [State.bay, hbays]
  have hprofile : t.profile = s.profile := by simp only [State.profile, hstartup]
  have hclear : t.lineClear = s.lineClear := by simp only [State.lineClear, State.running, hstartup, hview]
  refine ⟨by rw [hstartup], fun hlaw => ?_, hcount, fun h a => (htags a).trans (h a), hbelow, hbalance, ?_⟩
  · have h := (State.bayLaw_iff _).1 (hlaw.setBay (b := b) (x := (s.bay b).vacate)
      (.of_idle (Bay.vacate_consistent _) rfl _ _))
    rw [State.bayLaw_iff]
    intro k
    rw [hbay k, hprofile, hclear]
    exact h k
  · rintro ⟨hclass, hmax, hshares⟩
    refine ⟨by rw [hheadroom, State.ownClass, hstartup]; exact hclass, by rw [hheadroom]; exact hmax, ?_⟩
    rw [hheadroom]
    refine (State.shares_le fun k => ?_).trans hshares
    rw [hbay k]
    by_cases hk : k = b
    · subst hk; rw [State.setBay_bay_self]; exact Nat.zero_le _
    · rw [State.setBay_bay_ne _ _ _ _ hk]

section Leaving

variable {s : State} {b : BayNo} {st : PackState} {r : Record}

theorem vacate_counts (hslot : (s.bay b).slot = .pack st r) (p : Slot → Bool) (hp : p .empty = false) :
    (s.setBay b (s.bay b).vacate).countBays p + (p (.pack st r)).toNat = s.countBays p := by
  have h := s.countBays_setBay b (s.bay b).vacate p
  rw [hslot, Bay.vacate_slot, hp] at h
  exact h

theorem vacate_held (hslot : (s.bay b).slot = .pack st r) : (s.setBay b (s.bay b).vacate).held + 1 = s.held :=
  vacate_counts hslot _ rfl

theorem vacate_tagCount (hslot : (s.bay b).slot = .pack st r) (a : Tag) :
    (s.setBay b (s.bay b).vacate).countBays (Slot.carries a) + (decide (r.tag = a)).toNat =
      s.countBays (Slot.carries a) := by
  have h := vacate_counts hslot (Slot.carries a) rfl
  simpa [Slot.carries, Slot.record] using h

theorem vacate_counted (s : State) (b : BayNo) :
    (s.setBay b (s.bay b).vacate).countBays Slot.counted ≤ s.countBays Slot.counted := by
  have h := s.countBays_setBay b (s.bay b).vacate Slot.counted
  rw [Bay.vacate_slot] at h
  have h0 : (Slot.counted .empty).toNat = 0 := rfl
  omega

/-- A settled pack leaves its bay (R71, R72). -/
theorem settle (hslot : (s.bay b).slot = .pack st r) : s.BayKeeps (s.settle b) := by
  refine of_vacated (b := b) rfl ⟨rfl, rfl, rfl⟩ (le_max_of_le_left ?count) ?tags ?below ?balance
  case count => exact Nat.add_le_add_right (vacate_counted s b) _
  case tags =>
    intro a
    exact Nat.add_le_add_right (Nat.add_le_add_right (Nat.le_of_add_right_le (vacate_tagCount hslot a).le) _) _
  case below =>
    rintro ⟨h1, h2, h3⟩
    exact ⟨h1, lt_of_bump_lt h2, h3⟩
  case balance =>
    rintro ⟨-, h2, -⟩ ⟨hsum, hnone⟩
    have hheld := vacate_held hslot
    refine ⟨?_, fun hlife => ?_⟩
    · change s.tally.t1.admitted = bump s.tally.t1.settled + s.tally.t1.quarantined + s.tally.t1.orphaned +
        s.tally.t1.writtenOff + (s.setBay b (s.bay b).vacate).held + s.unaccounted.length
      rw [bump_of_lt (n := s.tally.t1.settled) h2]
      omega
    · have := hnone hlife
      omega

/-- A pack that is written off leaves its bay (R14). -/
theorem writeOffBay (hslot : (s.bay b).slot = .pack st r) : s.BayKeeps (s.setBay b (s.bay b).vacate).writeOff := by
  refine of_vacated (b := b) rfl ⟨rfl, rfl, rfl⟩ (le_max_of_le_left ?count) ?tags ?below ?balance
  case count => exact Nat.add_le_add_right (vacate_counted s b) _
  case tags =>
    intro a
    exact Nat.add_le_add_right (Nat.add_le_add_right (Nat.le_of_add_right_le (vacate_tagCount hslot a).le) _) _
  case below =>
    rintro ⟨h1, h2, h3, h4, h5⟩
    exact ⟨h1, h2, h3, h4, lt_of_bump_lt h5⟩
  case balance =>
    rintro ⟨-, -, -, -, h5⟩ ⟨hsum, hnone⟩
    have hheld := vacate_held hslot
    refine ⟨?_, fun hlife => ?_⟩
    · change s.tally.t1.admitted = s.tally.t1.settled + s.tally.t1.quarantined + s.tally.t1.orphaned +
        bump s.tally.t1.writtenOff + (s.setBay b (s.bay b).vacate).held + s.unaccounted.length
      rw [bump_of_lt (n := s.tally.t1.writtenOff) h5]
      omega
    · have := hnone hlife
      omega

/-- A pack that is not confirmed moves to the unaccounted list (R70). -/
theorem toUnaccounted (hslot : (s.bay b).slot = .pack st r) {e : UnaccountedEntry} (he : e.tag = r.tag) :
    s.BayKeeps { s.setBay b (s.bay b).vacate with unaccounted := s.unaccounted ++ [e] } := by
  refine of_vacated (b := b) rfl ⟨rfl, rfl, rfl⟩ (le_max_of_le_left ?count) ?tags id ?balance
  case count => exact Nat.add_le_add_right (vacate_counted s b) _
  case tags =>
    intro a
    have h := vacate_tagCount hslot a
    change (s.setBay b (s.bay b).vacate).countBays (Slot.carries a) + (s.store.filterMap QuarantineEntry.tag).count a +
      ((s.unaccounted ++ [e]).map UnaccountedEntry.tag).count a ≤ s.tagCount a
    simp only [List.map_append, List.map_cons, List.map_nil, List.count_append, List.count_singleton, he, State.tagCount]
    cases hd : decide (r.tag = a) <;> simp_all
    omega
  case balance =>
    rintro - ⟨hsum, hnone⟩
    have hheld := vacate_held hslot
    refine ⟨?_, fun hlife => ?_⟩
    · change s.tally.t1.admitted = s.tally.t1.settled + s.tally.t1.quarantined + s.tally.t1.orphaned +
        s.tally.t1.writtenOff + (s.setBay b (s.bay b).vacate).held + (s.unaccounted ++ [e]).length
      rw [List.length_append, List.length_singleton]
      omega
    · have := hnone hlife
      omega

/-- A REJECTED pack moves to the quarantine store (R10). -/
theorem toStore (hslot : (s.bay b).slot = .pack .rejected r) {e : QuarantineEntry} (he : e.tag = some r.tag) :
    s.BayKeeps (({ s.setBay b (s.bay b).vacate with store := s.store ++ [e] } : State).onT1
      (fun t => { t with quarantined := bump t.quarantined })) := by
  refine of_vacated (b := b) rfl ⟨rfl, rfl, rfl⟩ (le_max_of_le_left ?count) ?tags ?below ?balance
  case count =>
    have h := vacate_counts hslot Slot.counted rfl
    change (s.setBay b (s.bay b).vacate).countBays Slot.counted + (s.store ++ [e]).length ≤
      s.countBays Slot.counted + s.store.length
    rw [List.length_append, List.length_singleton, ← h]
    exact (Nat.add_assoc _ _ _).symm.trans (Nat.add_right_comm _ _ _) |>.le
  case tags =>
    intro a
    have h := vacate_tagCount hslot a
    change (s.setBay b (s.bay b).vacate).countBays (Slot.carries a) +
      ((s.store ++ [e]).filterMap QuarantineEntry.tag).count a + (s.unaccounted.map UnaccountedEntry.tag).count a ≤
        s.tagCount a
    simp only [List.filterMap_append, List.filterMap_cons, List.filterMap_nil, he, List.count_append,
      List.count_singleton, State.tagCount]
    cases hd : decide (r.tag = a) <;> simp_all
    omega
  case below =>
    rintro ⟨h1, h2, h3, h4⟩
    exact ⟨h1, h2, lt_of_bump_lt h3, h4⟩
  case balance =>
    rintro ⟨-, -, h3, -⟩ ⟨hsum, hnone⟩
    have hheld := vacate_held hslot
    refine ⟨?_, fun hlife => ?_⟩
    · change s.tally.t1.admitted = s.tally.t1.settled + bump s.tally.t1.quarantined + s.tally.t1.orphaned +
        s.tally.t1.writtenOff + (s.setBay b (s.bay b).vacate).held + s.unaccounted.length
      rw [bump_of_lt (n := s.tally.t1.quarantined) h3]
      omega
    · have := hnone hlife
      omega

end Leaving

/-- An orphan without a record moves to the quarantine store while it has room (R10). -/
theorem orphanToStore {s : State} {b : BayNo} (hslot : (s.bay b).slot = .orphan) (hroom : s.hasRoom = true)
    {e : QuarantineEntry} (he : e.tag = none) {f : Tally1 → Tally1}
    (hf : (f s.tally.t1).balanced = s.tally.t1.balanced) :
    s.BayKeeps (({ s.setBay b (s.bay b).vacate with store := s.store ++ [e] } : State).onT1 f) := by
  have hcounts (p : Slot → Bool) (h0 : p .empty = false) (h1 : p .orphan = false) :
      (s.setBay b (s.bay b).vacate).countBays p = s.countBays p := by
    have h := s.countBays_setBay b (s.bay b).vacate p
    rwa [hslot, Bay.vacate_slot, h0, h1] at h
  simp only [Tally1.balanced, Prod.mk.injEq] at hf
  obtain ⟨h1, h2, h3, h4, h5⟩ := hf
  refine of_vacated (b := b) rfl ⟨rfl, rfl, rfl⟩ (le_max_of_le_right ?count) ?tags ?below ?balance
  case count =>
    have h := of_decide_eq_true hroom
    change (s.setBay b (s.bay b).vacate).countBays Slot.counted + (s.store ++ [e]).length ≤ s.capacity
    rw [hcounts _ rfl rfl, List.length_append, List.length_singleton]
    exact h
  case tags =>
    intro a
    change (s.setBay b (s.bay b).vacate).countBays (Slot.carries a) +
      ((s.store ++ [e]).filterMap QuarantineEntry.tag).count a + (s.unaccounted.map UnaccountedEntry.tag).count a ≤
        s.tagCount a
    rw [hcounts _ rfl rfl]
    simp [he, State.tagCount]
  case below =>
    change (f s.tally.t1).below → _
    simp only [Tally1.below, h1, h2, h3, h4, h5, imp_self]
  case balance =>
    rintro - ⟨hsum, hnone⟩
    refine ⟨?_, fun hlife => (hcounts _ rfl rfl).trans (hnone hlife)⟩
    change (f s.tally.t1).admitted = (f s.tally.t1).settled + (f s.tally.t1).quarantined + (f s.tally.t1).orphaned +
      (f s.tally.t1).writtenOff + (s.setBay b (s.bay b).vacate).held + s.unaccounted.length
    rw [h1, h2, h3, h4, h5, State.held, hcounts _ rfl rfl]
    exact hsum

/-! ### Admission -/

/-- ADMIT makes a record with a tag that stood nowhere, while the quarantine store has room for it (R5, R6). -/
theorem admitRecord {s : State} {b : BayNo} {r : Record} {f : Tally1 → Tally1} (hfree : (s.bay b).slot.free = true)
    (htag : r.tag ∉ s.bayTags) (hroom : s.hasRoom = true) (hearly : r.settleEarly = false)
    (hlife : s.startup.life ≠ .inReset)
    (hf : (f s.tally.t1).balanced = ({ s.tally.t1 with admitted := bump s.tally.t1.admitted } : Tally1).balanced) :
    s.BayKeeps ((s.setBay b ((s.bay b).enter .admitted r)).onT1 f) := by
  have hslot : (s.bay b).slot = .empty ∨ (s.bay b).slot = .orphan := by
    cases h : (s.bay b).slot with
    | pack st r => rw [h] at hfree; cases hfree
    | empty => exact .inl rfl
    | orphan => exact .inr rfl
  have hcounts (p : Slot → Bool) (h0 : p .empty = false) (h1 : p .orphan = false) :
      (s.setBay b ((s.bay b).enter .admitted r)).countBays p =
        s.countBays p + (p (.pack .admitted { r with setpoint := 0 })).toNat := by
    have h := s.countBays_setBay b ((s.bay b).enter .admitted r) p
    rcases hslot with h' | h' <;> rw [h', Bay.enter_slot] at h <;> simpa only [h0, h1, Bool.toNat_false, add_zero] using h
  simp only [Tally1.balanced, Prod.mk.injEq] at hf
  obtain ⟨h1, h2, h3, h4, h5⟩ := hf
  refine ⟨rfl, fun hlaw => ?law, le_max_of_le_right ?count, fun htags a => ?tags, ?below, ?balance, ?headroom⟩
  case law => exact hlaw.setBay (.of_idle ((s.bay b).enter_consistent rfl hearly) rfl _ _)
  case count =>
    have h := of_decide_eq_true hroom
    change (s.setBay b ((s.bay b).enter .admitted r)).countBays Slot.counted + s.store.length ≤ s.capacity
    rw [hcounts _ rfl rfl]
    change s.countBays Slot.counted + 1 + s.store.length ≤ s.capacity
    unfold State.l1Count at h
    omega
  case tags =>
    change (s.setBay b ((s.bay b).enter .admitted r)).countBays (Slot.carries a) +
      (s.store.filterMap QuarantineEntry.tag).count a + (s.unaccounted.map UnaccountedEntry.tag).count a ≤ 1
    rw [hcounts _ rfl rfl]
    by_cases ha : r.tag = a
    · have h0 := State.tagCount_eq_zero htag
      rw [ha, State.tagCount] at h0
      have hle := Bool.toNat_le ((Slot.pack .admitted { r with setpoint := 0 }).carries a)
      omega
    · have h := htags a
      have h0 : ((Slot.pack .admitted { r with setpoint := 0 }).carries a).toNat = 0 := by
        simp [Slot.carries, Slot.record, ha]
      rw [State.tagCount] at h
      omega
  case below =>
    change (f s.tally.t1).below → _
    simp only [Tally1.below, h1, h2, h3, h4, h5]
    rintro ⟨g1, g2⟩
    exact ⟨lt_of_bump_lt g1, g2⟩
  case balance =>
    rintro ⟨g1, -⟩ ⟨hsum, -⟩
    change (f s.tally.t1).admitted < max32 at g1
    rw [h1] at g1
    refine ⟨?_, fun hreset => absurd hreset hlife⟩
    change (f s.tally.t1).admitted = (f s.tally.t1).settled + (f s.tally.t1).quarantined + (f s.tally.t1).orphaned +
      (f s.tally.t1).writtenOff + (s.setBay b ((s.bay b).enter .admitted r)).held + s.unaccounted.length
    have hheld : (s.setBay b ((s.bay b).enter .admitted r)).held = s.held + 1 := hcounts _ rfl rfl
    rw [h1, h2, h3, h4, h5, hheld]
    change bump s.tally.t1.admitted = _
    rw [bump_of_lt g1]
    omega
  case headroom =>
    rintro ⟨hclass, hmax, hshares⟩
    refine ⟨hclass, hmax, (State.shares_le fun k => ?_).trans hshares⟩
    change ((s.setBay b ((s.bay b).enter .admitted r)).bay k).share.getD 0 ≤ _
    by_cases hk : k = b
    · subst hk; rw [State.setBay_bay_self]; exact Nat.zero_le _
    · rw [State.setBay_bay_ne _ _ _ _ hk]

/-! ### Lists -/

/-- The bays stay, and a list loses an entry: what is left to show of the tallies. -/
theorem of_lists {s t : State} (hsame : t.bays = s.bays ∧ t.startup = s.startup ∧ t.view = s.view ∧
      t.headroom = s.headroom)
    (hstore : t.store.Sublist s.store) (hlist : t.unaccounted.Sublist s.unaccounted)
    (hbelow : t.tally.t1.below → s.tally.t1.below)
    (hsum : t.tally.t1.below → s.tally.t1.admitted = s.tally.t1.settled + s.tally.t1.quarantined +
      s.tally.t1.orphaned + s.tally.t1.writtenOff + s.held + s.unaccounted.length →
      t.tally.t1.admitted = t.tally.t1.settled + t.tally.t1.quarantined + t.tally.t1.orphaned +
        t.tally.t1.writtenOff + s.held + t.unaccounted.length) : s.BayKeeps t := by
  obtain ⟨hbays, hstartup, hview, hheadroom⟩ := hsame
  have hcounts (p : Slot → Bool) : t.countBays p = s.countBays p := by simp only [State.countBays, hbays]
  have hbay (k : BayNo) : t.bay k = s.bay k := by simp only [State.bay, hbays]
  refine ⟨by rw [hstartup], fun hlaw => ?law, le_max_of_le_left ?count, fun htags a => ?tags, hbelow, ?balance, ?headroom⟩
  case law =>
    have hclear : t.lineClear = s.lineClear := by simp only [State.lineClear, State.running, hstartup, hview]
    rw [State.bayLaw_iff] at hlaw ⊢
    intro k
    rw [hbay k, State.profile, hstartup, hclear]
    exact hlaw k
  case count =>
    rw [State.l1Count, hcounts]
    exact Nat.add_le_add_left hstore.length_le _
  case tags =>
    refine le_trans ?_ (htags a)
    rw [State.tagCount, hcounts]
    exact Nat.add_le_add (Nat.add_le_add_left ((hstore.filterMap _).count_le a) _) ((hlist.map _).count_le a)
  case balance =>
    rintro hb ⟨h, hnone⟩
    exact ⟨by rw [State.held, hcounts]; exact hsum hb h, fun hlife => by
      rw [State.held, hcounts]; exact hnone (by rw [← hstartup]; exact hlife)⟩
  case headroom =>
    rintro ⟨hclass, hmax, hshares⟩
    refine ⟨by rw [hheadroom, State.ownClass, hstartup]; exact hclass, by rw [hheadroom]; exact hmax, ?_⟩
    rw [hheadroom]
    exact (State.shares_le fun k => by rw [hbay k]).trans hshares

theorem length_eraseIdx_of_findIdx? {α : Type} {l : List α} {p : α → Bool} {k : Nat} (h : l.findIdx? p = some k) :
    (l.eraseIdx k).length + 1 = l.length := by
  obtain ⟨hk, -⟩ := List.findIdx?_eq_some_iff_getElem.1 h
  rw [List.length_eraseIdx_of_lt hk]
  omega

/-- A late settle takes an unaccounted entry (R71). -/
theorem settleLate {s : State} {p : UnaccountedEntry → Bool} {k : Nat} (h : s.unaccounted.findIdx? p = some k) :
    s.BayKeeps (s.settleLate k) := by
  have hlength := length_eraseIdx_of_findIdx? h
  refine of_lists ⟨rfl, rfl, rfl, rfl⟩ (List.Sublist.refl _) (List.eraseIdx_sublist _ k) ?_ ?_
  · rintro ⟨h1, h2, h3⟩
    exact ⟨h1, lt_of_bump_lt h2, h3⟩
  · rintro ⟨-, h2, -⟩ hsum
    change s.tally.t1.admitted = bump s.tally.t1.settled + s.tally.t1.quarantined + s.tally.t1.orphaned +
      s.tally.t1.writtenOff + s.held + (s.unaccounted.eraseIdx k).length
    rw [bump_of_lt (n := s.tally.t1.settled) h2]
    omega

/-- An unaccounted entry is written off (R14). -/
theorem writeOffTag {s : State} {p : UnaccountedEntry → Bool} {k : Nat} (h : s.unaccounted.findIdx? p = some k) :
    s.BayKeeps ({ s with unaccounted := s.unaccounted.eraseIdx k } : State).writeOff := by
  have hlength := length_eraseIdx_of_findIdx? h
  refine of_lists ⟨rfl, rfl, rfl, rfl⟩ (List.Sublist.refl _) (List.eraseIdx_sublist _ k) ?_ ?_
  · rintro ⟨h1, h2, h3, h4, h5⟩
    exact ⟨h1, h2, h3, h4, lt_of_bump_lt h5⟩
  · rintro ⟨-, -, -, -, h5⟩ hsum
    change s.tally.t1.admitted = s.tally.t1.settled + s.tally.t1.quarantined + s.tally.t1.orphaned +
      bump s.tally.t1.writtenOff + s.held + (s.unaccounted.eraseIdx k).length
    rw [bump_of_lt (n := s.tally.t1.writtenOff) h5]
    omega

/-- An entry leaves the quarantine store (R12). -/
theorem fromStore (s : State) (k : Nat) : s.BayKeeps { s with store := s.store.eraseIdx k } :=
  of_lists ⟨rfl, rfl, rfl, rfl⟩ (List.eraseIdx_sublist _ k) (List.Sublist.refl _) id fun _ => id

end State.BayKeeps

/-! ### A headroom computation -/

theorem sum_map_ite {α : Type} (p : α → Bool) (c : Nat) (l : List α) :
    (l.map (fun x => if p x = true then c else 0)).sum = l.countP p * c := by
  induction l with
  | nil => simp
  | cons x xs ih =>
    rw [List.map_cons, List.sum_cons, ih, List.countP_cons]
    cases p x <;> simp [Nat.add_mul, Nat.add_comm]

/-- The shares handed out are equal parts of the allowance, rounded down (R58). -/
theorem State.computeHeadroom_shares_le (s : State) : s.computeHeadroom.shares ≤ s.computeHeadroom.headroom.allowance := by
  set a := s.computeHeadroom.headroom.allowance
  have hshare (x : Bay) : (shareOf a (s.countBays Slot.isDischarging) x).getD 0 =
      if x.slot.isDischarging = true then a / s.countBays Slot.isDischarging else 0 := by
    unfold shareOf
    split <;> rfl
  have hbays : s.computeHeadroom.bays.toList =
      s.bays.toList.map (fun x => { x with share := shareOf a (s.countBays Slot.isDischarging) x }) := by
    rw [State.bays_toList, s.bays_toList]
    simp only [State.computeHeadroom_bay, List.map_cons, List.map_nil]
    rfl
  have hsum : s.computeHeadroom.shares = s.countBays Slot.isDischarging * (a / s.countBays Slot.isDischarging) := by
    rw [State.shares, hbays, List.map_map]
    simp only [Function.comp_def, hshare]
    exact sum_map_ite (fun x : Bay => x.slot.isDischarging) _ _
  rw [hsum]
  exact Nat.mul_div_le _ _

theorem State.BayKeeps.computeHeadroom (s : State) : s.BayKeeps s.computeHeadroom := by
  have hslot (b : BayNo) : (s.computeHeadroom.bay b).slot = (s.bay b).slot := by rw [s.computeHeadroom_bay]
  have hcounts (p : Slot → Bool) : s.computeHeadroom.countBays p = s.countBays p :=
    State.countBays_congr fun b => by rw [hslot b]
  refine ⟨rfl, fun hlaw => ?law, le_max_of_le_left ?count, fun htags a => ?tags, id, fun _ => ?balance, ?headroom⟩
  case law =>
    rw [State.bayLaw_iff] at hlaw ⊢
    intro b
    obtain ⟨hc, hsink, hdis⟩ := hlaw b
    rw [s.computeHeadroom_bay]
    refine ⟨{ hc with share := fun h => ?_ }, hsink, hdis⟩
    unfold shareOf at h
    split at h
    · assumption
    · cases h
  case count => exact (congrArg (· + s.store.length) (hcounts Slot.counted)).le
  case tags =>
    rw [State.tagCount, hcounts]
    exact htags a
  case balance =>
    rintro ⟨hsum, hnone⟩
    have hheld : s.computeHeadroom.held = s.held := hcounts _
    exact ⟨by rw [hheld]; exact hsum, fun hlife => hheld.trans (hnone hlife)⟩
  case headroom => exact fun _ => ⟨s.lineLimit_le_ownClass, min_le_left _ _, s.computeHeadroom_shares_le⟩

end Sys2Proof.Machine
end

