-- ==== Sys2Proof/Proofs/LinkKeeps.lean ====
section
/-! The relation `State.LinkKeeps`: from one state to another L11 and the laws of the line link are kept. -/

namespace Sys2Proof.Machine

open Sys2Proof Sys2Proof.Config

/-- From `s` to `t` the silence outside RUNNING, the link state with its counts, the depth of the FIFO and the length of
each REPLY are kept. -/
structure State.LinkKeeps (s t : State) : Prop where
  silence : s.SilenceLaw → t.SilenceLaw
  errors : s.LinkLaw → t.LinkLaw
  fifo : s.FifoLaw → t.FifoLaw
  replies : s.ReplyLaw → t.ReplyLaw

/-- The parts of the state that the laws of the line link read. -/
def State.linkPart (s : State) : Lifecycle × Link × Bool × Timer :=
  (s.startup.life, s.link, s.view.silent, s.view.silenceTimer)

/-- The error counts with the link state. -/
def Link.counts (l : Link) : Nat × Nat × LinkState := (l.txErrors, l.rxErrors, l.state)

theorem State.LinkLaw.congr {s t : State} (h : t.link.counts = s.link.counts) (hlaw : s.LinkLaw) : t.LinkLaw := by
  simp only [Link.counts, Prod.mk.injEq] at h
  obtain ⟨htx, hrx, hstate⟩ := h
  rw [State.LinkLaw, htx, hrx, hstate]
  exact hlaw

theorem State.Quiet.congr {s t : State} (h : t.linkPart = s.linkPart) (hquiet : s.Quiet) : t.Quiet := by
  simp only [State.linkPart, Prod.mk.injEq] at h
  obtain ⟨-, hlink, hsilent, htimer⟩ := h
  exact {
    attempt := by rw [hlink]; exact hquiet.attempt
    fifo := by rw [hlink]; exact hquiet.fifo
    replies := by rw [hlink]; exact hquiet.replies
    status := by rw [hlink]; exact hquiet.status
    tally := by rw [hlink]; exact hquiet.tally
    periods := by rw [hlink]; exact hquiet.periods
    silent := by rw [hsilent, htimer]; exact hquiet.silent }

/-- Under L11 something that only RUNNING has shows that the node is RUNNING. -/
theorem State.SilenceLaw.running {s : State} (h : s.SilenceLaw) (hnot : ¬ s.Quiet) : s.startup.life = .running :=
  not_not.1 fun hlife => hnot (h hlife)

namespace State.LinkKeeps

variable {s u t : State}

theorem refl (s : State) : s.LinkKeeps s := ⟨id, id, id, id⟩

theorem trans (h : s.LinkKeeps u) (g : u.LinkKeeps t) : s.LinkKeeps t :=
  ⟨g.silence ∘ h.silence, g.errors ∘ h.errors, g.fifo ∘ h.fifo, g.replies ∘ h.replies⟩

/-- Nothing that the laws of the line link read has changed. -/
theorem of_part (hpart : t.linkPart = s.linkPart) : s.LinkKeeps t := by
  have hparts := hpart
  simp only [State.linkPart, Prod.mk.injEq] at hparts
  obtain ⟨hlife, hlink, -, -⟩ := hparts
  refine ⟨fun hlaw hnot => (hlaw (by rwa [← hlife])).congr hpart, fun hlaw => hlaw.congr (by rw [hlink]), ?_, ?_⟩
  · rw [State.FifoLaw, State.FifoLaw, hlink]; exact id
  · rw [State.ReplyLaw, State.ReplyLaw, hlink]; exact id

/-- The buffers change, and the error counts stay. -/
theorem of_buffers (hquiet : s.SilenceLaw → t.startup.life ≠ .running → t.Quiet)
    (hcounts : t.link.counts = s.link.counts)
    (hfifo : t.link.fifo.length ≤ max s.link.fifo.length fifoDepth)
    (hreplies : ∀ (p : TerminalNo) (r : Reply), t.link.replies[p] = some r →
      s.link.replies[p] = some r ∨ r.payload.length ≤ 56) : s.LinkKeeps t where
  silence := hquiet
  errors hlaw := hlaw.congr hcounts
  fifo hlaw := hfifo.trans (max_le hlaw le_rfl)
  replies hlaw p r hr := (hreplies p r hr).elim (hlaw p r) id

theorem setErrors (s : State) {tx rx : Nat} (hrx : s.LinkLaw → rx ≤ 255) : s.LinkKeeps (s.setErrors tx rx) := by
  have heq := s.setErrors_link tx rx
  have hfifo : (s.setErrors tx rx).link.fifo = s.link.fifo := by rw [heq]
  have hreplies : (s.setErrors tx rx).link.replies = s.link.replies := by rw [heq]
  refine ⟨fun hlaw hnot => ?silence, fun hlaw => ?errors, ?fifo, ?replies⟩
  case silence =>
    have hstate := s.setErrors_eq tx rx
    have hlife : s.startup.life ≠ .running := by rw [hstate] at hnot; exact hnot
    have hview : (s.setErrors tx rx).view = s.view := by rw [hstate]
    have hquiet := hlaw hlife
    exact {
      attempt := by rw [heq]; exact hquiet.attempt
      fifo := hfifo ▸ hquiet.fifo
      replies := by rw [hreplies]; exact hquiet.replies
      status := by rw [heq]; exact hquiet.status
      tally := by rw [heq]; exact hquiet.tally
      periods := by rw [heq]; exact hquiet.periods
      silent := by rw [hview]; exact hquiet.silent }
  case errors =>
    have hle := hrx hlaw
    rcases s.setErrors_cases tx rx with ⟨-, h⟩ | ⟨-, -, h1, h2, h3, -⟩ | ⟨-, htx, hor, h1, h2, h3, -⟩ |
      ⟨-, htx, hrx', h1, h2, h3, -⟩
    · rw [h]; exact hlaw
    · rw [State.LinkLaw, h1, h2, h3]; exact ⟨rfl, hle⟩
    · rw [State.LinkLaw, h1, h2, h3]; exact ⟨htx, hle, hor⟩
    · rw [State.LinkLaw, h1, h2, h3]; exact ⟨htx, hrx'⟩
  case fifo => rw [State.FifoLaw, State.FifoLaw, hfifo]; exact id
  case replies => rw [State.ReplyLaw, State.ReplyLaw, hreplies]; exact id

theorem rxErrors_le {s : State} (h : s.LinkLaw) : s.link.rxErrors ≤ 255 := by
  unfold State.LinkLaw at h
  split at h <;> omega

theorem placeHandoff (s : State) (f : HandoffOut) : s.LinkKeeps (s.placeHandoff f) := by
  have heq := s.placeHandoff_link f
  have hrest : (s.placeHandoff f).startup = s.startup ∧ (s.placeHandoff f).view = s.view := by simp
  obtain ⟨hstartup, hview⟩ := hrest
  refine of_buffers (fun hlaw hnot => ?_) (by rw [heq]; rfl) ?_ (by rw [heq]; exact fun _ _ => .inl)
  · rw [hstartup] at hnot
    have hsame : (s.placeHandoff f).link = s.link := by
      rw [heq, State.fifoWith, if_neg (fun h => hnot ((s.running_iff).1 h.1))]
    exact (hlaw hnot).congr (by simp only [State.linkPart, hstartup, hview, hsame])
  · rw [heq, State.fifoWith]
    split
    · next h => simp only [List.length_append, List.length_singleton]; omega
    · exact le_max_left _ _

theorem placeReply (s : State) {p : TerminalNo} {r : Reply} (hrun : s.SilenceLaw → s.startup.life = .running)
    (hlength : r.payload.length ≤ 56) : s.LinkKeeps (s.placeReply p r) := by
  refine of_buffers (fun hlaw hnot => absurd (hrun hlaw) hnot) rfl (le_max_left _ _) fun k x hx => ?_
  change (s.link.replies.set p.val (some r) p.isLt)[k] = some x at hx
  by_cases hk : p.val = k.val
  · rw [Fin.getElem_fin, Vector.getElem_set, if_pos hk] at hx
    cases hx
    exact .inr hlength
  · rw [Fin.getElem_fin, Vector.getElem_set, if_neg hk] at hx
    exact .inl hx

/-- While the node is RUNNING, the buffers may take anything but too many frames or too long a REPLY. -/
theorem of_running (hrun : s.SilenceLaw → t.startup.life = .running) (hcounts : t.link.counts = s.link.counts)
    (hfifo : t.link.fifo.length ≤ max s.link.fifo.length fifoDepth)
    (hreplies : ∀ (p : TerminalNo) (r : Reply), t.link.replies[p] = some r →
      s.link.replies[p] = some r ∨ r.payload.length ≤ 56) : s.LinkKeeps t :=
  of_buffers (fun hlaw hnot => absurd (hrun hlaw) hnot) hcounts hfifo hreplies

theorem sight (s : State) : s.LinkKeeps { s with link := s.link.sight } := by
  unfold Link.sight
  split
  · refine ⟨fun hlaw hnot => ?_, fun _ => ⟨Nat.zero_lt_succ 127, Nat.zero_lt_succ 127⟩, id, id⟩
    obtain ⟨h1, h2, h3, h4, h5, h6, h7⟩ := hlaw hnot
    exact ⟨h1, h2, h3, h4, h5, h6, h7⟩
  · refine ⟨fun hlaw hnot => ?_, id, id, id⟩
    obtain ⟨h1, h2, h3, h4, h5, h6, h7⟩ := hlaw hnot
    exact ⟨h1, h2, h3, h4, h5, h6, h7⟩

end State.LinkKeeps

/-! ### The pending set -/

/-- A cause stands in the list of causes at the place that its priority names (R145). -/
theorem Cause.all_getElem?_priority (c : Cause) : Cause.all[c.priority - 1]? = some c := by cases c <;> rfl

theorem Cause.priority_inj {c d : Cause} (h : c.priority = d.priority) : c = d :=
  Option.some.inj (by rw [← c.all_getElem?_priority, h, d.all_getElem?_priority])

/-- The pending set stays in priority order when an entry is put in its place (R145). -/
theorem insertEntry_sorted (e : PendingEntry) {l : List PendingEntry}
    (h : l.Pairwise (fun a b => a.cause.priority < b.cause.priority)) :
    (insertEntry e l).Pairwise (fun a b => a.cause.priority < b.cause.priority) := by
  induction l with
  | nil => exact List.pairwise_singleton _ _
  | cons x xs ih =>
    obtain ⟨hx, hxs⟩ := List.pairwise_cons.1 h
    unfold insertEntry
    split
    · next he => exact List.pairwise_cons.2 ⟨fun y hy => by rw [he]; exact hx y hy, hxs⟩
    · next he =>
      split
      · next hlt =>
        refine List.pairwise_cons.2 ⟨fun y hy => ?_, h⟩
        rcases List.mem_cons.1 hy with rfl | hy
        · exact hlt
        · exact hlt.trans (hx y hy)
      · next hle =>
        refine List.pairwise_cons.2 ⟨fun y hy => ?_, ih hxs⟩
        have hlt : x.cause.priority < e.cause.priority :=
          lt_of_le_of_ne (not_lt.1 hle) fun heq => he (Cause.priority_inj heq.symm)
        by_cases hc : y.cause = e.cause
        · rw [hc]; exact hlt
        · exact hx y ((insertEntry_others e y xs hc).1 hy)

theorem Latch.sent_sorted (l : Latch) (c : Cause)
    (h : l.entries.Pairwise (fun a b => a.cause.priority < b.cause.priority)) :
    (l.sent c).Pairwise (fun a b => a.cause.priority < b.cause.priority) := by
  have hrest := h.filter (fun e => decide (e.cause ≠ c))
  unfold Latch.sent
  dsimp only
  split
  · exact insertEntry_sorted _ hrest
  · exact hrest

end Sys2Proof.Machine
end

