-- ==== Sys2Proof/Proofs/Keeps.lean ====
section
/-! The relation `State.Keeps`: within a command, before the lamps take the patterns of the state, every law is kept but
those of the lamps and relays, which hold by the stage of the outputs. `State.Serves` is what a whole command keeps. -/

namespace Sys2Proof.Machine

open Sys2Proof Sys2Proof.Config

/-! ### The outputs -/

/-- How far the outputs follow the state within a command: all of them, the relays but not the lamps, or neither. -/
inductive Stage where
  | clean | unlit | undriven
  deriving DecidableEq

/-- The lamps have the same patterns to show (R15, R136, R198). -/
structure State.ShowsSame (s t : State) : Prop where
  life : t.startup.life = s.startup.life
  zone : t.fire.zone = s.fire.zone
  impaired : t.fire.impaired = s.fire.impaired
  bays : ∀ b : BayNo, bayPattern s.startup.life (t.bay b).slot = bayPattern s.startup.life (s.bay b).slot

/-- A lamp starts a new pattern at the beginning of its on time, and a blink that stays runs on (R15, R136). -/
def Lamp.Follows (x y : Lamp) : Prop :=
  (y.pattern ≠ x.pattern → y.phase = 0) ∧
    ∀ a b : Nat, y.pattern = .blink a b → x.pattern = .blink a b → y.phase = x.phase

def State.LampsFollow (s t : State) : Prop :=
  (∀ b : BayNo, s.lamps.bays[b].Follows t.lamps.bays[b]) ∧ s.lamps.beacon.Follows t.lamps.beacon ∧
    s.lamps.node.Follows t.lamps.node

theorem Lamp.Follows.refl (x : Lamp) : x.Follows x := ⟨fun h => absurd rfl h, fun _ _ _ _ => rfl⟩

theorem Lamp.show_follows (x : Lamp) (p : Pattern) : x.Follows (x.show p) := by
  unfold Lamp.show
  split
  · exact .refl x
  · next h => exact ⟨fun _ => rfl, fun a b hy hx => absurd (hx.trans hy.symm) h⟩

/-- A lamp that is reset is off. -/
theorem Lamp.reset_follows (x : Lamp) : x.Follows Lamp.reset := ⟨fun _ => rfl, fun _ _ h => by cases h⟩

theorem Lamp.show_show (x : Lamp) (p : Pattern) : (x.show p).show p = x.show p := by
  rw [Lamp.show, if_pos (x.show_pattern p)]

theorem State.LampsFollow.of_eq {s t : State} (h : t.lamps = s.lamps) : s.LampsFollow t := by
  simp only [State.LampsFollow, h]
  exact ⟨fun _ => .refl _, .refl _, .refl _⟩

theorem State.light_lamps_bay (s : State) (b : BayNo) :
    s.light.lamps.bays[b] = (s.lamps.bays[b]).show (bayPattern s.startup.life (s.bay b).slot) := by
  simp only [State.light, Fin.getElem_fin, Vector.getElem_ofFn]
  rfl

theorem State.light_lampLaw (s : State) : s.light.LampLaw :=
  ⟨fun b => by rw [s.light_lamps_bay]; exact Lamp.show_pattern _ _, Lamp.show_pattern _ _, Lamp.show_pattern _ _⟩

theorem State.light_follows (s : State) : s.LampsFollow s.light :=
  ⟨fun b => by rw [s.light_lamps_bay]; exact Lamp.show_follows _ _, Lamp.show_follows _ _, Lamp.show_follows _ _⟩

theorem State.LampLaw.congr {s t : State} (h : s.ShowsSame t) (hlamps : t.lamps = s.lamps) (hlaw : s.LampLaw) :
    t.LampLaw := by
  obtain ⟨hbays, hbeacon, hnode⟩ := hlaw
  refine ⟨fun b => ?_, ?_, ?_⟩
  · rw [hlamps, h.life, h.bays b]; exact hbays b
  · rw [hlamps, h.life, h.zone, h.impaired]; exact hbeacon
  · rw [hlamps, h.life]; exact hnode

/-- Lamps that have taken their patterns take them again without a change. -/
theorem State.light_light (s : State) : s.light.light = s.light := by
  have hbays : s.light.light.lamps.bays = s.light.lamps.bays := by
    refine Vector.ext fun i hi => ?_
    have h := s.light.light_lamps_bay ⟨i, hi⟩
    rw [s.light_lamps_bay ⟨i, hi⟩] at h
    exact h.trans ((Lamp.show_show _ _).trans (s.light_lamps_bay ⟨i, hi⟩).symm)
  have hlamps : s.light.light.lamps = s.light.lamps := by
    have hbeacon : s.light.light.lamps.beacon = s.light.lamps.beacon := Lamp.show_show _ _
    have hnode : s.light.light.lamps.node = s.light.lamps.node := Lamp.show_show _ _
    calc s.light.light.lamps
        = ⟨s.light.light.lamps.bays, s.light.light.lamps.beacon, s.light.light.lamps.node⟩ := rfl
      _ = s.light.lamps := by rw [hbays, hbeacon, hnode]
  calc s.light.light = { s.light with lamps := s.light.light.lamps } := rfl
    _ = s.light := by rw [hlamps]

/-! ### Within a command -/

/-- From `s` to `t`, within a command, the laws are kept as far as the stage of the outputs says, and no lamp has changed
yet. -/
structure State.Keeps (g : Stage) (s t : State) : Prop extends s.BayKeeps t, s.LinkKeeps t where
  shred : s.shredTags.Nodup → t.shredTags.Nodup
  latch : s.LatchLaw → t.LatchLaw
  lamps : t.lamps = s.lamps
  relays : g ≠ .undriven → s.RelayLaw → t.RelayLaw
  shown : g = .clean → s.ShowsSame t
  queue : t.pending = s.pending

/-- From `s` to `t` every law is kept; the balance of the admitted packs where `p` holds. -/
structure State.KeepsLaws (p : Prop) (s t : State) : Prop extends s.LinkKeeps t where
  law : s.BayLaw → t.BayLaw
  count : t.l1Count ≤ max s.l1Count t.capacity
  tags : s.TagLaw → t.TagLaw
  balance : p → t.tally.t1.below → s.ConservationLaw → t.ConservationLaw
  headroom : s.HeadroomLaw → t.HeadroomLaw
  latch : s.LatchLaw → t.LatchLaw
  relays : s.RelayLaw → t.RelayLaw
  shown : s.LampLaw → t.LampLaw

/-- What a whole command keeps: every law, the rule for lamps that change their pattern, and the queue of commands. -/
structure State.Serves (p : Prop) (s t : State) : Prop extends s.KeepsLaws p t where
  follows : s.LampsFollow t
  queue : t.pending = s.pending

/-- The parts of the state that the laws read. -/
def State.lawPart (s : State) :=
  ((s.bays, s.storePart), s.linkPart, s.view.lineFire, s.latch.entries, s.shredTags, s.lamps,
    (s.fire.zone, s.fire.impaired, s.fire.fireRelay, s.fire.preRelay), s.pending)

namespace State.Keeps

variable {g : Stage} {s u t : State}

theorem refl (g : Stage) (s : State) : s.Keeps g s where
  toBayKeeps := .refl s
  toLinkKeeps := .refl s
  shred := id
  latch := id
  lamps := rfl
  relays _ := id
  shown _ := ⟨rfl, rfl, rfl, fun _ => rfl⟩
  queue := rfl

theorem trans (h : s.Keeps g u) (k : u.Keeps g t) : s.Keeps g t where
  toBayKeeps := h.toBayKeeps.trans k.toBayKeeps
  toLinkKeeps := h.toLinkKeeps.trans k.toLinkKeeps
  shred := k.shred ∘ h.shred
  latch := k.latch ∘ h.latch
  lamps := k.lamps.trans h.lamps
  relays hg := k.relays hg ∘ h.relays hg
  shown hg := by
    obtain ⟨h1, h2, h3, h4⟩ := h.shown hg
    obtain ⟨k1, k2, k3, k4⟩ := k.shown hg
    exact ⟨k1.trans h1, k2.trans h2, k3.trans h3, fun b => by
      have hb := k4 b
      rw [h1] at hb
      exact hb.trans (h4 b)⟩
  queue := k.queue.trans h.queue

/-- Lamps and relays that follow may be taken as ones that do not. -/
theorem weaken (h : s.Keeps .clean t) (g : Stage) : s.Keeps g t :=
  { h with relays := fun _ => h.relays (by decide), shown := fun _ => h.shown rfl }

/-- Nothing that the laws read has changed. -/
theorem frame (h : s.Keeps g u) (hpart : t.lawPart = u.lawPart) : s.Keeps g t := by
  simp only [State.lawPart, Prod.mk.injEq] at hpart
  obtain ⟨⟨hbays, hstore⟩, hlink, hfire, hentries, htags, hlamps, ⟨hzone, himpaired, hrelay, hpre⟩, hqueue⟩ := hpart
  have hparts := hlink
  simp only [State.linkPart, Prod.mk.injEq] at hparts
  obtain ⟨hlife, -, hsilent, -⟩ := hparts
  have hclear : t.lineClear = u.lineClear := by
    simp only [State.lineClear, State.running, hlife, hsilent, hfire]
  refine h.trans ⟨.of_part hbays hstore (by rw [hlife]; exact id) (by rw [hclear]; exact id), .of_part hlink,
    by rw [htags]; exact id, by rw [State.LatchLaw, State.LatchLaw, hentries]; exact id, hlamps, fun _ => ?_, fun _ => ?_, hqueue⟩
  · rw [State.RelayLaw, State.RelayLaw, hzone, hrelay, hpre]; exact id
  · exact ⟨hlife, hzone, himpaired, fun b => by simp only [State.bay, hbays]⟩

theorem ite {p : Prop} [Decidable p] (hu : s.Keeps g u) (ht : s.Keeps g t) : s.Keeps g (if p then u else t) := by
  split
  · exact hu
  · exact ht

/-! ### The end of a command -/

theorem capacity_eq (h : s.Keeps g t) : t.capacity = s.capacity := h.toBayKeeps.capacity

/-- A command that leaves nothing for the lamps to follow. -/
theorem serves (h : s.Keeps .clean t) : s.Serves True t where
  toLinkKeeps := h.toLinkKeeps
  law := h.law
  count := by rw [h.capacity_eq]; exact h.count
  tags := fun ⟨h1, h2⟩ => ⟨(State.bayTags_nodup_iff t).2 (h.tags ((State.bayTags_nodup_iff s).1 h1)), h.shred h2⟩
  balance _ := h.balance
  headroom := h.headroom
  latch := h.latch
  relays := h.relays (by decide)
  shown := State.LampLaw.congr (h.shown rfl) h.lamps
  follows := .of_eq h.lamps
  queue := h.queue

/-- A command that ends with its lamps lit by the state. -/
theorem light (h : s.Keeps .unlit t) : s.Serves True t.light where
  toLinkKeeps := h.toLinkKeeps.trans (.of_part rfl)
  law := h.law
  count := le_trans h.count (by rw [← h.capacity_eq]; exact le_rfl)
  tags := fun ⟨h1, h2⟩ => ⟨(State.bayTags_nodup_iff t).2 (h.tags ((State.bayTags_nodup_iff s).1 h1)), h.shred h2⟩
  balance _ := h.balance
  headroom := h.headroom
  latch := h.latch
  relays := h.relays (by decide)
  shown _ := t.light_lampLaw
  follows := by
    have hlamps := t.light_follows
    rw [State.LampsFollow, h.lamps] at hlamps
    exact hlamps
  queue := h.queue

end State.Keeps

namespace State.Serves

variable {p : Prop} {s u t : State}

theorem ite {q : Prop} [Decidable q] (hu : s.Serves p u) (ht : s.Serves p t) : s.Serves p (if q then u else t) := by
  split
  · exact hu
  · exact ht

theorem mono {q : Prop} (h : s.Serves p t) (hpq : q → p) : s.Serves q t := { h with balance := h.balance ∘ hpq }

/-- After a command nothing more changes that the laws read. -/
theorem keeps (h : s.Serves True u) (k : u.Keeps .clean t) : s.Serves True t where
  toLinkKeeps := h.toLinkKeeps.trans k.toLinkKeeps
  law := k.law ∘ h.law
  count := by
    rw [k.capacity_eq]
    exact k.count.trans (max_le h.count (le_max_right _ _))
  tags := k.serves.tags ∘ h.tags
  balance _ hbelow := k.balance hbelow ∘ h.balance trivial (k.below hbelow)
  headroom := k.headroom ∘ h.headroom
  latch := k.latch ∘ h.latch
  relays := k.relays (by decide) ∘ h.relays
  shown := k.serves.shown ∘ h.shown
  follows := by rw [State.LampsFollow, k.lamps]; exact h.follows
  queue := k.queue.trans h.queue

theorem frame (h : s.Serves True u) (hpart : t.lawPart = u.lawPart) : s.Serves True t :=
  h.keeps ((State.Keeps.refl .clean u).frame hpart)

end State.Serves

end Sys2Proof.Machine
end

