-- ==== Sys2Proof/Proofs/KeepsOps.lean ====
section
/-! The operations that the blocks share keep the laws (`State.Keeps`): each rule takes `s.Keeps g u` to the state that the
operation makes of `u`. -/

namespace Sys2Proof.Machine

open Sys2Proof Sys2Proof.Config

/-! ### One bay at an event of the line -/

namespace Bay.Carries

variable {s t : State} {x : Bay}

/-- What R38 does to a bay leaves it lawful, whatever has become of the line. -/
theorem lineStop (hstraps : t.startup.straps = s.startup.straps) : x.Carries s t x.lineStop := by
  unfold Bay.lineStop
  split
  · next r hslot => exact enter hslot rfl (.inr (by rw [hslot]; rfl)) rfl rfl (.inl (by simp))
  · next r hslot => exact enter hslot rfl (.inr (by rw [hslot]; rfl)) rfl rfl (.inl (by simp))
  · next r hslot => exact enter hslot rfl (.inr (by rw [hslot]; rfl)) rfl rfl (.inl (by simp))
  · next hnot _ _ =>
    have hidle : x.slot.isDischarging = false := by
      unfold Slot.isDischarging
      split
      · next r hslot => exact absurd hslot (hnot r)
      · rfl
    refine ⟨rfl, id, le_rfl, fun hx => ⟨hx.consistent, ?_, fun hd => ?_⟩⟩
    · rw [State.profile, hstraps]; exact hx.sink
    · rw [hidle] at hd; cases hd

/-- Closing the gate of a bay that is not RELEASING, or is settled early, leaves it lawful (R38, R72). -/
theorem closeGate {y : Bay} (h : x.Carries s t y) (hgate : y.slot.isReleasing = false ∨ y.slot.settledEarly = true) :
    x.Carries s t { y with gate := false } where
  tag := h.tag
  counted := h.counted
  share := h.share
  lawful hx := by
    obtain ⟨hc, hsink, hdis⟩ := h.lawful hx
    refine ⟨{ hc with gate := ?_ }, hsink, hdis⟩
    change false = (y.slot.isReleasing && !y.slot.settledEarly)
    rcases hgate with hg | hg <;> simp [hg]

theorem safeStop (hstraps : t.startup.straps = s.startup.straps) : x.Carries s t x.safeStop := by
  unfold Bay.safeStop
  split
  · next n r hslot => exact enter hslot rfl (.inr (by rw [hslot]; rfl)) rfl rfl (.inl (by simp))
  · next n r hslot =>
    split
    · next hearly =>
      have hsame : x.lineStop = x := by unfold Bay.lineStop; rw [hslot]
      have h := lineStop (x := x) hstraps
      rw [hsame] at h
      exact h.closeGate (.inr (by rw [hslot]; exact hearly))
    · next hearly => exact enter hslot rfl (.inr (by rw [hslot]; rfl)) rfl rfl (.inr (by simpa using hearly))
  · next hnot =>
    refine (lineStop hstraps).closeGate (.inl ?_)
    unfold Bay.lineStop
    split
    · rfl
    · rfl
    · rfl
    · unfold Slot.isReleasing
      split
      · next n r hslot => exact absurd hslot (hnot n r)
      · rfl

end Bay.Carries

/-! ### What a review of the line does before the lamps -/

/-- line_fire becomes true: the bays stop, releases are recalled, the permissive is lost (R38, R73, R89). -/
def State.stopForFire (s : State) : State :=
  (((((s.mapBays Bay.lineStop).recallRelease 0).recallRelease 1).recallRelease 2).recallRelease 3).losePermissive

theorem State.lineFireRises_eq (s : State) : s.lineFireRises = s.stopForFire.light := rfl

/-- The line view as its inputs give it (R151, R152). -/
def State.viewed (s : State) : State :=
  { s with view := { s.view with lineFire := s.lineFireNow, linePre := s.linePreNow } }

/-- The review of the line view without the lamps. -/
def State.reviewUnlit (s : State) : State :=
  if s.lineFireNow && !s.view.lineFire then s.viewed.stopForFire else s.viewed

theorem State.reviewLine_eq (s : State) :
    s.reviewLine = if s.lineFireNow && !s.view.lineFire then s.reviewUnlit.light else s.reviewUnlit := by
  unfold State.reviewUnlit
  by_cases h : (s.lineFireNow && !s.view.lineFire) = true
  · simp only [State.reviewLine, if_pos h]; rfl
  · simp only [State.reviewLine, if_neg h]; rfl

theorem State.reviewLine_light (s : State) : s.reviewLine.light = s.reviewUnlit.light := by
  rw [s.reviewLine_eq]
  split
  · exact State.light_light _
  · rfl

/-! ### Tags of the intake -/

@[simp] theorem State.losePermissive_shredTags (s : State) : s.losePermissive.shredTags = s.shredTags := by
  simp only [State.shredTags, State.losePermissive_queue, State.losePermissive_chute]

@[simp] theorem State.refreshIdle_shredTags (s : State) : s.refreshIdle.shredTags = s.shredTags := by
  simp only [State.shredTags, State.refreshIdle_queue, State.refreshIdle_chute]

/-- The parts of the state that stay when the bay collections move. -/
def State.linePart (s : State) :=
  (s.linkPart, s.latch.entries, s.shredTags, s.lamps,
    (s.fire.zone, s.fire.impaired, s.fire.fireRelay, s.fire.preRelay), s.pending)

/-- The parts of the state that stay when buffers and error counts change. -/
def State.stationPart (s : State) :=
  ((s.bays, s.storePart), (s.startup.life, s.view.silent, s.view.lineFire), s.latch.entries, s.shredTags, s.lamps,
    (s.fire.zone, s.fire.impaired, s.fire.fireRelay, s.fire.preRelay), s.pending)

namespace State.Keeps

variable {g : Stage} {s u t : State}

/-! ### Rules by the part that changes -/

theorem of_parts (h : s.Keeps g u) (kb : u.BayKeeps t) (kl : u.LinkKeeps t)
    (hshred : u.shredTags.Nodup → t.shredTags.Nodup) (hlatch : u.LatchLaw → t.LatchLaw) (hlamps : t.lamps = u.lamps)
    (hqueue : t.pending = u.pending) (hrelays : g ≠ .undriven → u.RelayLaw → t.RelayLaw)
    (hshown : g = .clean → u.ShowsSame t) : s.Keeps g t :=
  h.trans ⟨kb, kl, hshred, hlatch, hlamps, hrelays, hshown, hqueue⟩

/-- The bay collections move, and the bays show other patterns. -/
theorem bays (hg : g ≠ .clean) (h : s.Keeps g u) (k : u.BayKeeps t) (hpart : t.linePart = u.linePart) :
    s.Keeps g t := by
  simp only [State.linePart, Prod.mk.injEq] at hpart
  obtain ⟨hlink, hentries, htags, hlamps, ⟨hzone, -, hrelay, hpre⟩, hqueue⟩ := hpart
  refine h.of_parts k (.of_part hlink) (by rw [htags]; exact id)
    (by rw [State.LatchLaw, State.LatchLaw, hentries]; exact id) hlamps hqueue (fun _ => ?_) fun he => absurd he hg
  rw [State.RelayLaw, State.RelayLaw, hzone, hrelay, hpre]; exact id

/-- The bay collections move, and every bay shows its pattern on. -/
theorem lists (h : s.Keeps g u) (k : u.BayKeeps t) (hpart : t.linePart = u.linePart)
    (hbays : ∀ b : BayNo, bayPattern u.startup.life (t.bay b).slot = bayPattern u.startup.life (u.bay b).slot) :
    s.Keeps g t := by
  simp only [State.linePart, Prod.mk.injEq] at hpart
  obtain ⟨hlink, hentries, htags, hlamps, ⟨hzone, himpaired, hrelay, hpre⟩, hqueue⟩ := hpart
  refine h.of_parts k (.of_part hlink) (by rw [htags]; exact id)
    (by rw [State.LatchLaw, State.LatchLaw, hentries]; exact id) hlamps hqueue (fun _ => ?_) fun _ => ?_
  · rw [State.RelayLaw, State.RelayLaw, hzone, hrelay, hpre]; exact id
  · simp only [State.linkPart, Prod.mk.injEq] at hlink
    exact ⟨hlink.1, hzone, himpaired, hbays⟩

theorem setBay (hg : g ≠ .clean) (h : s.Keeps g u) {b : BayNo} {x : Bay} (hx : (u.bay b).Carries u u x) :
    s.Keeps g (u.setBay b x) := bays hg h (.setBay hx) rfl

/-- A bay changes that shows the same pattern. -/
theorem touchBay (h : s.Keeps g u) {b : BayNo} {x : Bay} (hx : (u.bay b).Carries u u x)
    (hshown : bayPattern u.startup.life x.slot = bayPattern u.startup.life (u.bay b).slot) : s.Keeps g (u.setBay b x) := by
  refine lists h (.setBay hx) rfl fun k => ?_
  by_cases hk : k = b
  · subst hk; rw [State.setBay_bay_self]; exact hshown
  · rw [State.setBay_bay_ne _ _ _ _ hk]

/-- Buffers and error counts change, as the laws of the line link allow. -/
theorem line_of (h : s.Keeps g u) (k : s.LinkKeeps t) (hpart : t.stationPart = u.stationPart) : s.Keeps g t := by
  simp only [State.stationPart, Prod.mk.injEq] at hpart
  obtain ⟨⟨hbays, hstore⟩, ⟨hlife, hsilent, hfire⟩, hentries, htags, hlamps, ⟨hzone, himpaired, hrelay, hpre⟩, hqueue⟩ :=
    hpart
  have hclear : t.lineClear = u.lineClear := by simp only [State.lineClear, State.running, hlife, hsilent, hfire]
  exact {
    toBayKeeps := h.toBayKeeps.trans (.of_part hbays hstore (by rw [hlife]; exact id) (by rw [hclear]; exact id))
    toLinkKeeps := k
    shred := by rw [htags]; exact h.shred
    latch := by rw [State.LatchLaw, State.LatchLaw, hentries]; exact h.latch
    lamps := hlamps.trans h.lamps
    relays := fun hg => by rw [State.RelayLaw, State.RelayLaw, hzone, hrelay, hpre]; exact h.relays hg
    shown := fun hg => by
      obtain ⟨h1, h2, h3, h4⟩ := h.shown hg
      exact ⟨hlife.trans h1, hzone.trans h2, himpaired.trans h3, fun b => by
        have hb := h4 b
        simp only [State.bay, hbays] at hb ⊢
        exact hb⟩
    queue := hqueue.trans h.queue }

theorem line (h : s.Keeps g u) (k : u.LinkKeeps t) (hpart : t.stationPart = u.stationPart) : s.Keeps g t :=
  h.line_of (h.toLinkKeeps.trans k) hpart

/-- The node is RUNNING, as L11 shows of the state before the command; its buffers change. -/
theorem buffers (h : s.Keeps g u) (hrun : s.SilenceLaw → u.startup.life = .running)
    (hpart : t.stationPart = u.stationPart) (hcounts : t.link.counts = u.link.counts)
    (hfifo : t.link.fifo.length ≤ u.link.fifo.length)
    (hreplies : ∀ (p : TerminalNo) (r : Reply), t.link.replies[p] = some r →
      u.link.replies[p] = some r ∨ r.payload.length ≤ 56) : s.Keeps g t := by
  have hlife : t.startup.life = u.startup.life := by
    simp only [State.stationPart, Prod.mk.injEq] at hpart
    exact hpart.2.1.1
  exact h.line_of ⟨fun hlaw hnot => absurd (hlife.trans (hrun hlaw)) hnot, fun hl => (h.errors hl).congr hcounts,
    fun hl => hfifo.trans (h.fifo hl), fun hl p r hr => (hreplies p r hr).elim (h.replies hl p r) id⟩ hpart

/-- Chute and feed controller change. -/
theorem shredder (h : s.Keeps g u) {c : Chute} {f : Feed}
    (htags : u.shredTags.Nodup → ({ u with chute := c, feed := f } : State).shredTags.Nodup) :
    s.Keeps g { u with chute := c, feed := f } :=
  h.of_parts (.of_part rfl rfl id id) (.of_part rfl) htags id rfl rfl (fun _ => id)
    fun _ => ⟨rfl, rfl, rfl, fun _ => rfl⟩

/-- The feed controller changes, with the same tags in its queue. -/
theorem setFeed (h : s.Keeps g u) {f : Feed}
    (hqueue : f.queue.map (fun e => e.pack.tag) = u.feed.queue.map (fun e => e.pack.tag)) :
    s.Keeps g { u with feed := f } := by
  refine h.shredder (c := u.chute) ?_
  simp only [State.shredTags, hqueue, imp_self]

/-- The pending set changes. -/
theorem pend (h : s.Keeps g u) {l : Latch} (hl : u.LatchLaw → ({ u with latch := l } : State).LatchLaw) :
    s.Keeps g { u with latch := l } :=
  h.of_parts (.of_part rfl rfl id id) (.of_part rfl) id hl rfl rfl (fun _ => id) fun _ => ⟨rfl, rfl, rfl, fun _ => rfl⟩

/-! ### Shared operations -/

theorem raise (h : s.Keeps g u) (c : Cause) (place : Place) (tag : Option Tag) : s.Keeps g (u.raise c place tag) :=
  h.pend (insertEntry_sorted _)

theorem losePermissive (h : s.Keeps g u) : s.Keeps g u.losePermissive :=
  h.setFeed (by rw [(Feed.losePermissive_spec u.feed).2.2.2.1])

theorem addReason (h : s.Keeps g u) {r : HoldReason} {c : FaultCause} {place : Place} {tag : Option Tag} :
    s.Keeps g (u.addReason r c place tag) := by
  have htags : (u.addReason r c place tag).shredTags = u.shredTags := by
    have hqueue := u.addReason_queue r c place tag
    have hchute : (u.addReason r c place tag).chute = u.chute := by rw [State.addReason_eq]
    simp only [State.shredTags, hqueue, hchute]
  have heq := u.addReason_eq r c place tag
  exact (h.raise r.cause place tag).frame (by rw [State.lawPart, htags, heq]; rfl)

theorem placeHandoff (h : s.Keeps g u) (f : HandoffOut) : s.Keeps g (u.placeHandoff f) :=
  h.line (.placeHandoff u f) (by rw [State.placeHandoff_eq u u f rfl rfl rfl]; rfl)

theorem setErrors (h : s.Keeps g u) {tx rx : Nat} (hrx : u.LinkLaw → rx ≤ 255) : s.Keeps g (u.setErrors tx rx) := by
  have heq := u.setErrors_eq tx rx
  exact h.line (.setErrors u hrx) (by rw [heq]; rfl)

theorem refreshIdle (h : s.Keeps g u) : s.Keeps g u.refreshIdle := by
  unfold State.refreshIdle
  refine ite ?_ (h.setFeed rfl)
  split
  · exact h
  · exact h.setFeed rfl

theorem dropReservation (h : s.Keeps g u) : s.Keeps g u.dropReservation := by
  refine refreshIdle (h.shredder (f := u.feed) fun htags => ?_)
  exact htags.sublist (by simp [State.shredTags])

theorem removeHead (h : s.Keeps g u) : s.Keeps g u.removeHead := by
  refine refreshIdle (h.shredder (c := u.chute) fun htags => ?_)
  exact htags.sublist ((List.tail_sublist _).map _ |>.append_right _)

theorem reject (hg : g ≠ .clean) (h : s.Keeps g u) {b : BayNo} {st : PackState} {r r' : Record}
    (hslot : (u.bay b).slot = .pack st r) (hcounted : (u.bay b).slot.counted = true)
    (hst : ∀ n : NodeNo, st ≠ .releasing n) (htag : r'.tag = r.tag) (hearly : r'.settleEarly = r.settleEarly)
    (c : EndCause) : s.Keeps g (u.reject b r' c) :=
  frame (h.setBay hg (b := b) (x := (u.bay b).enter .rejected { r' with endCause := some c })
    (.enter hslot rfl (.inr hcounted) htag hearly (.inl hst))) rfl

theorem holdFault (hg : g ≠ .clean) (h : s.Keeps g u) {b : BayNo} {st : PackState} {r r' : Record}
    (hslot : (u.bay b).slot = .pack st r) (hcounted : (u.bay b).slot.counted = true)
    (hst : ∀ n : NodeNo, st ≠ .releasing n) (htag : r'.tag = r.tag) (hearly : r'.settleEarly = r.settleEarly)
    (c : FaultCause) : s.Keeps g (u.holdFault b r' c) :=
  frame (h.setBay hg (b := b) (x := (u.bay b).enter (.held .fault) r')
    (.enter hslot rfl (.inr hcounted) htag hearly (.inl hst))) rfl

/-! ### Line view and SAFE-STOP -/

theorem recallRelease (hg : g ≠ .clean) (h : s.Keeps g u) (b : BayNo) : s.Keeps g (u.recallRelease b) := by
  unfold State.recallRelease
  split
  · next n r hslot =>
    split
    · exact h
    · next hearly =>
      exact (h.setBay hg (.backToSafe hslot (by rw [hslot]; rfl) (.inr (by simpa using hearly)) false)).placeHandoff _
  · exact h

/-- The line view changes, and every bay that was DISCHARGING stops (R38). -/
theorem mapLineStop (hg : g ≠ .clean) (h : s.Keeps g u) {v : LineView} {a : Headroom}
    (hsilence : (v.silent = u.view.silent ∧ v.silenceTimer = u.view.silenceTimer) ∨
      (u.SilenceLaw → u.startup.life = .running))
    (hroom : a.limit = u.headroom.limit ∧ a.allowance = u.headroom.allowance) :
    s.Keeps g (({ u with view := v, headroom := a } : State).mapBays Bay.lineStop) := by
  refine h.of_parts (.of_bays (fun b => ?_) rfl id ⟨rfl, rfl⟩ hroom rfl) ?_ id id rfl rfl (fun _ => id)
    fun he => absurd he hg
  · rw [State.mapBays_bay]; exact .lineStop rfl
  · rcases hsilence with ⟨hsilent, htimer⟩ | hrun
    · exact .of_part (by simp only [State.linkPart]; rw [← hsilent, ← htimer]; rfl)
    · exact .of_running hrun rfl (le_max_left _ _) fun _ _ => .inl

theorem viewed (h : s.Keeps g u) (hno : (u.lineFireNow && !u.view.lineFire) = false) : s.Keeps g u.viewed := by
  refine h.of_parts (.of_part rfl rfl id fun hclear => ?_) (.of_part rfl) id id rfl rfl (fun _ => id)
    fun _ => ⟨rfl, rfl, rfl, fun _ => rfl⟩
  obtain ⟨hlife, hsilent, hfire⟩ := u.lineClear_iff.1 hclear
  rw [hfire] at hno
  exact u.viewed.lineClear_iff.2 ⟨hlife, hsilent, by simpa [State.viewed] using hno⟩

theorem stopForFire (hg : g ≠ .clean) (h : s.Keeps g u) : s.Keeps g u.viewed.stopForFire :=
  losePermissive (recallRelease hg (recallRelease hg (recallRelease hg (recallRelease hg
    (h.mapLineStop hg (v := u.viewed.view) (a := u.headroom) (.inl ⟨rfl, rfl⟩) ⟨rfl, rfl⟩) 0) 1) 2) 3)

theorem reviewUnlit (hg : g ≠ .clean) (h : s.Keeps g u) : s.Keeps g u.reviewUnlit := by
  unfold State.reviewUnlit
  split
  · exact h.stopForFire hg
  · next hno => exact h.viewed (by simpa using hno)

/-- The review of the line view, lamps included (R151, R154). -/
theorem reviewLine (h : s.Keeps .clean u) : s.Serves True u.reviewLine := by
  rw [u.reviewLine_eq]
  split
  · exact ((h.weaken .unlit).reviewUnlit (by decide)).light
  · next hno =>
    rw [State.reviewUnlit, if_neg hno]
    exact (h.viewed (by simpa using hno)).serves

theorem enterSafeStop (h : s.Keeps .unlit u) : s.Serves True u.enterSafeStop := by
  unfold State.enterSafeStop
  refine light (dropReservation (losePermissive (h.of_parts (.of_bays (fun b => ?_) rfl (fun he => by cases he) ⟨rfl, rfl⟩
    ⟨rfl, rfl⟩ rfl) (.of_buffers (fun _ _ => ?_) rfl (Nat.zero_le _) fun p r hr => ?_) id id rfl rfl (fun _ => id) ?_)))
  · rw [State.mapBays_bay]; exact .safeStop rfl
  · exact ⟨rfl, rfl, fun p => by simp [State.mapBays], rfl, rfl, ⟨rfl, rfl⟩, ⟨rfl, rfl⟩⟩
  · simp [State.mapBays] at hr
  · exact fun he => by cases he

theorem clash (h : s.Keeps .clean u) : s.Serves True u.clash := by
  unfold State.clash
  exact .ite (serves (t := u.countForeign) (h.frame rfl)) ((h.weaken .unlit).enterSafeStop.frame rfl)

end State.Keeps

end Sys2Proof.Machine
end

