-- ==== Sys2Proof/Proofs/KeepsBlocks.lean ====
section
/-! The commands of the blocks keep the laws (`State.Keeps`, `State.Serves`): conversions and timers of the bays, both
sides of a handoff, feed controller, atmosphere, fire unit and line link. -/

namespace Sys2Proof.Machine

open Sys2Proof Sys2Proof.Config

/-! ### The setpoint -/

theorem derated_le (p : Profile) (t : Int) : derated p t ≤ p.iMax := by
  unfold derated
  split
  · exact le_rfl
  · exact Nat.div_le_of_le_mul (by rw [Nat.mul_comm]; exact Nat.mul_le_mul_right _ (by omega))

/-- A new setpoint never passes the profile's greatest current (R34 to R36). -/
theorem setpointNext_le (p : Profile) (n v prev : Nat) (t : Int) (share : Option Nat) (linePre : Bool) :
    setpointNext (targetCurrent p n v t share) prev linePre ≤ p.iMax := by
  have htarget : targetCurrent p n v t share ≤ p.iMax := by
    unfold targetCurrent
    dsimp only
    split
    · exact (min_le_left _ _).trans ((min_le_left _ _).trans (derated_le p t))
    · exact (min_le_left _ _).trans (derated_le p t)
  refine (min_le_left _ _).trans ?_
  split
  · exact (Nat.div_le_self _ _).trans htarget
  · exact htarget

/-- A record that ALARM_RESET may reject is counted under L1 (R17, R140). -/
theorem PackState.counted_of_rejectable {st : PackState} (r : Record) (h : st.rejectable = true) :
    (Slot.pack st r).counted = true := by
  revert h
  cases st <;> simp [PackState.rejectable, Slot.counted]

theorem Slot.onRecord_id (x : Slot) : x.onRecord id = x := by cases x <;> rfl

namespace State.Keeps

variable {g : Stage} {s u : State}

/-! ### Conversions (R20) -/

/-- A bay changes in fields that no law reads. -/
theorem tuneBay (h : s.Keeps g u) {b : BayNo} {x : Bay} (hslot : x.slot = (u.bay b).slot)
    (hout : (x.contactor, x.sink, x.gate, x.share) =
      ((u.bay b).contactor, (u.bay b).sink, (u.bay b).gate, (u.bay b).share))
    (htimer : (x.restTimer, x.restOwed, x.answerTimer, x.releaseTimer, x.transitTimer, x.backoff, x.jammed) =
      ((u.bay b).restTimer, (u.bay b).restOwed, (u.bay b).answerTimer, (u.bay b).releaseTimer, (u.bay b).transitTimer,
        (u.bay b).backoff, (u.bay b).jammed)) : s.Keeps g (u.setBay b x) :=
  h.touchBay (.of_record (f := id) (by rw [Slot.onRecord_id]; exact hslot) (fun _ => rfl) (fun _ => rfl) (fun _ => rfl)
    hout htimer rfl id) (by rw [hslot])

theorem settle (hg : g ≠ .clean) (h : s.Keeps g u) {b : BayNo} {st : PackState} {r : Record}
    (hslot : (u.bay b).slot = .pack st r) : s.Keeps g (u.settle b) := bays hg h (.settle hslot) rfl

theorem presenceStep (h : s.Keeps .unlit u) (b : BayNo) : s.Keeps .unlit (u.presenceStep b) := by
  have hclear : s.Keeps .unlit (u.setBay b { u.bay b with stuck := false }) := h.tuneBay rfl rfl rfl
  unfold State.presenceStep
  refine ite h ?_
  split
  · exact hclear
  · exact hclear
  · next st r hslot =>
    have hself : ((u.setBay b { u.bay b with stuck := false }).bay b).slot = .pack st r := by
      rw [State.setBay_bay_self]; exact hslot
    have hlose (hst : ∀ n : NodeNo, st ≠ .releasing n) :
        s.Keeps .unlit ((u.setBay b { u.bay b with stuck := false }).losePack b r) :=
      hclear.setBay (by decide) (.lose hself hst)
    cases st with
    | admitted => exact hlose (by simp)
    | discharging => exact hlose (by simp)
    | held c => exact hlose (by simp)
    | resting => exact hlose (by simp)
    | safe => exact hlose (by simp)
    | offered n => exact (hlose (by simp)).placeHandoff _
    | releasing n =>
      dsimp only
      split
      · exact hclear.settle (by decide) hself
      · next hearly => exact hclear.setBay (by decide) (.depart hself (by simpa using hearly))
    | inTransit n => exact hclear
    | rejected => exact hclear
    | missing => exact hclear

theorem raiseHeat (h : s.Keeps g u) (before : Bool) (b : BayNo) : s.Keeps g (u.raiseHeat before b) :=
  ite (h.raise _ _ _) h

theorem measureStep (h : s.Keeps .unlit u) (b : BayNo) (before : Bool) : s.Keeps .unlit (u.measureStep b before) :=
  raiseHeat (h.setBay (by decide) (b := b) (x := (u.bay b).measure u.profile)
    (.of_record (f := fun r => r.measure (u.bay b).latest) rfl (fun _ => rfl) (fun _ => rfl) (fun _ => rfl) rfl rfl rfl
      id)) before b

/-- The four outcomes of the start check and the hold evaluation (R25, R41). -/
theorem startCheck (h : s.Keeps .unlit u) {b : BayNo} {st : PackState} {r : Record}
    (hslot : (u.bay b).slot = .pack st r) (hcounted : (u.bay b).slot.counted = true)
    (hst : ∀ n : NodeNo, st ≠ .releasing n) : s.Keeps .unlit (u.startCheck b r) :=
  ite (h.setBay (by decide) (.startOrHold hslot hcounted rfl rfl hst)) (h.holdFault (by decide) hslot hcounted hst rfl rfl _)

theorem rebound (h : s.Keeps .unlit u) {b : BayNo} {r : Record} (hslot : (u.bay b).slot = .pack .resting r) (v : Nat) :
    s.Keeps .unlit (u.rebound b r v) := by
  have hcounted : (u.bay b).slot.counted = true := by rw [hslot]; rfl
  have hst (n : NodeNo) : PackState.resting ≠ .releasing n := by simp
  unfold State.rebound
  refine ite (frame (h.setBay (by decide) (b := b) (x := (u.bay b).enter .safe { r with reboundV := some v })
    (.enter hslot rfl (.inr hcounted) rfl rfl (.inl hst))) rfl) (ite ?_ ?_)
  · exact h.setBay (by decide) (.startOrHold hslot hcounted rfl rfl hst)
  · exact h.reject (by decide) hslot hcounted hst (by rfl) (by rfl) _

theorem restEnd (h : s.Keeps .unlit u) {b : BayNo} {r : Record} (hslot : (u.bay b).slot = .pack .resting r) :
    s.Keeps .unlit (u.restEnd b r) := by
  unfold State.restEnd
  refine ite ?_ h
  split
  · exact h.rebound hslot _
  · exact h

/-- Stages 3 and 4 of a sample, after the deviation count and the product of the bay were set (R31 to R37). -/
theorem endOrCommand (h : s.Keeps .unlit u) {b : BayNo} {r r' : Record} (hslot : (u.bay b).slot = .pack .discharging r)
    (htag : r'.tag = r.tag) (hearly : r'.settleEarly = r.settleEarly) (v : Nat) (t : Int) :
    s.Keeps .unlit (u.endOrCommand b r' v t) := by
  have hcounted : (u.bay b).slot.counted = true := by rw [hslot]; rfl
  have hst (n : NodeNo) : PackState.discharging ≠ .releasing n := by simp
  unfold State.endOrCommand
  refine ite (h.reject (by decide) hslot hcounted hst htag hearly _) (ite
    (h.reject (by decide) hslot hcounted hst htag hearly _) (ite (h.setBay (by decide) (.rest hslot htag hearly)) (ite
      (h.setBay (by decide) (.enter hslot rfl (.inr hcounted) htag hearly (.inl hst))) ?_)))
  exact h.setBay (by decide) (.command hslot htag hearly (setpointNext_le _ _ _ _ _ _ _)
    ⟨(u.bay b).deviation, (u.bay b).product, rfl⟩)

theorem sample (h : s.Keeps .unlit u) {b : BayNo} {r : Record} (hslot : (u.bay b).slot = .pack .discharging r) :
    s.Keeps .unlit (u.sample b r) := by
  have hcounted : (u.bay b).slot.counted = true := by rw [hslot]; rfl
  have hst (n : NodeNo) : PackState.discharging ≠ .releasing n := by simp
  have hself (d p : Nat) : ((u.setBay b { u.bay b with deviation := d, product := p }).bay b).slot =
      .pack .discharging r := by rw [State.setBay_bay_self]; exact hslot
  have hsampled (d p : Nat) : s.Keeps .unlit (u.setBay b { u.bay b with deviation := d, product := p }) :=
    h.tuneBay rfl rfl rfl
  unfold State.sample
  dsimp only
  split
  · refine ite ?_ ((hsampled _ _).endOrCommand (hself _ _) (by rfl) (by rfl) _ _)
    exact (hsampled 20 (u.bay b).product).holdFault (by decide) (hself _ _) (by rw [hself]; rfl) hst rfl rfl _
  · exact h.holdFault (by decide) hslot hcounted hst rfl rfl _

theorem regulate (h : s.Keeps .unlit u) (b : BayNo) : s.Keeps .unlit (u.regulate b) := by
  unfold State.regulate
  split
  · exact h
  · exact h
  · next st r hslot =>
    cases st with
    | admitted => exact h.startCheck hslot (by rw [hslot]; rfl) (by simp)
    | held c => exact ite h (h.startCheck hslot (by rw [hslot]; rfl) (by simp))
    | resting => exact h.restEnd hslot
    | discharging => exact h.sample hslot
    | _ => exact h

theorem convert (s : State) (b : BayNo) (x : BayReading) : s.Serves True (s.convert b x) := by
  have hread : s.Keeps .unlit (s.setBay b
      { s.bay b with latest := judgeBay x, convTimer := some fastPeriod, product := 0 }) :=
    (refl .unlit s).tuneBay rfl rfl rfl
  exact (((hread.presenceStep b).measureStep b (s.condition .bayOverheat)).regulate b).light

/-- A timer of a bay is stopped whose state does not need it. -/
theorem stopTimer (s : State) {b : BayNo} {x : Bay} (hslot : x.slot = (s.bay b).slot) (hsink : x.sink = (s.bay b).sink)
    (hshare : x.share = (s.bay b).share) (hcons : (s.bay b).Consistent → x.Consistent) :
    s.Serves True (s.setBay b x) :=
  ((refl .clean s).touchBay (.of_slot hslot hsink hshare hcons) (by rw [hslot])).serves

theorem restExpires (s : State) (b : BayNo) : s.Serves True (s.restExpires b) := by
  unfold State.restExpires
  dsimp only
  split
  · next r hslot =>
    have howed : s.Keeps .unlit (s.setBay b { s.bay b with restTimer := none, restOwed := true }) :=
      (refl .unlit s).setBay (by decide) (.of_slot rfl rfl rfl fun hc =>
        { hc with rest := fun _ => by rw [hslot]; rfl })
    exact light (howed.restEnd (by rw [State.setBay_bay_self]; exact hslot))
  · exact stopTimer s rfl rfl rfl fun hc => { hc with rest := fun h => hc.rest (.inr (by simpa using h)) }

theorem computeHeadroom (s : State) : s.Serves True s.computeHeadroom :=
  ((refl .clean s).lists (.computeHeadroom s) rfl fun b => by rw [s.computeHeadroom_bay]).serves

/-! ### The bay side of a handoff (R66 to R73) -/

theorem checkOffers (h : s.Keeps .clean u) : s.Serves True u.checkOffers := by
  rcases u.checkOffers_cases with heq | ⟨b, n, r, -, hslot, heq⟩
  · rw [heq]; exact h.serves
  · rw [heq]
    have hoffered := (h.weaken .unlit).setBay (by decide) (b := b) (x := (u.bay b).offered n r) (.offered hslot)
    exact light ((hoffered.placeHandoff _).frame (by rfl))

theorem answerExpires (s : State) (b : BayNo) : s.Serves True (s.answerExpires b) := by
  unfold State.answerExpires
  split
  · next n r hslot =>
    exact light ((refl .unlit s).setBay (by decide) (.backToSafe hslot (by rw [hslot]; rfl) (.inl (by simp)) false))
  · next hnot =>
    refine stopTimer s rfl rfl rfl fun hc => { hc with answer := ?_ }
    unfold Slot.isOffered
    split
    · next n r hslot => exact absurd hslot (hnot n r)
    · rfl

theorem backoffExpires (s : State) (b : BayNo) : s.Serves True (s.setBay b { s.bay b with backoff := none }) :=
  stopTimer s rfl rfl rfl fun hc => { hc with safe := fun h => hc.safe (.inr (by simpa using h)) }

theorem jam (h : s.Keeps .unlit u) {b : BayNo} {n : NodeNo} {r : Record} (hslot : (u.bay b).slot = .pack (.releasing n) r)
    (hearly : r.settleEarly = false) : s.Keeps .unlit (u.jam b n r) :=
  frame (raise (placeHandoff (h.setBay (by decide) (.backToSafe (z := u.bay b) hslot (by rw [hslot]; rfl) (.inr hearly) true))
    (plainHandoff .withdraw n r.tag b)) .jam (.bay b.val) (some r.tag)) rfl

theorem stick (h : s.Keeps .unlit u) {b : BayNo} {st : PackState} {r : Record} (hslot : (u.bay b).slot = .pack st r) :
    s.Keeps .unlit (u.stick b r) :=
  raise (tuneBay (h.settle (by decide) hslot) (b := b) (x := { (u.settle b).bay b with stuck := true }) rfl rfl rfl) _ _ _

theorem releaseExpires (s : State) (b : BayNo) : s.Serves True (s.releaseExpires b) := by
  unfold State.releaseExpires
  split
  · next n r hslot =>
    refine light ?_
    split
    · exact (refl .unlit s).stick hslot
    · next hearly => exact (refl .unlit s).jam hslot (by simpa using hearly)
  · next hnot =>
    refine stopTimer s rfl rfl rfl fun hc => { hc with release := ?_ }
    unfold Slot.isReleasing
    split
    · next n r hslot => exact absurd hslot (hnot n r)
    · rfl

theorem transitExpires (s : State) (b : BayNo) : s.Serves True (s.transitExpires b) := by
  unfold State.transitExpires
  split
  · next n r hslot =>
    unfold State.loseTransit
    have hmoved := bays (by decide) (refl .unlit s) (.toUnaccounted (e :=
      { tag := r.tag, bay := b, shred := n, time := s.startup.nodeTime }) hslot rfl) rfl
    exact light (ite (raise (hmoved.frame (by rfl)) _ _ _) (hmoved.frame (by rfl)))
  · next hnot =>
    refine stopTimer s rfl rfl rfl fun hc => { hc with transit := ?_ }
    unfold Slot.isInTransit
    split
    · next n r hslot => exact absurd hslot (hnot n r)
    · rfl

theorem countForeign (h : s.Keeps .clean u) : s.Serves True u.countForeign := serves (t := u.countForeign) (h.frame (by rfl))

theorem takeTaken (h : s.Keeps .clean u) (f : HandoffFrame) (n : NodeNo) (b : BayNo) :
    s.Serves True (u.takeTaken f n b) := by
  unfold State.takeTaken
  refine .ite h.countForeign ?_
  dsimp only
  split
  · next m r hslot =>
    refine .ite (.ite (light ((h.weaken .unlit).setBay (by decide) (.release hslot))) (light (placeHandoff
      ((h.weaken .unlit).setBay (by decide) (.backToSafe hslot (by rw [hslot]; rfl) (.inl (by simp)) false)) _)))
      (h.placeHandoff _).serves
  · exact (h.placeHandoff _).serves

theorem takeDecline (h : s.Keeps .clean u) (f : HandoffFrame) (n : NodeNo) (b : BayNo) :
    s.Serves True (u.takeDecline f n b) := by
  unfold State.takeDecline
  refine .ite h.countForeign ?_
  split
  · next m r hslot =>
    refine .ite (light (frame ((h.weaken .unlit).setBay (by decide) (b := b) (x := (u.bay b).backToSafe r)
      (.backToSafe hslot (by rw [hslot]; rfl) (.inl (by simp)) false)) rfl)) h.countForeign
  · exact h.countForeign

theorem takeSettle (h : s.Keeps .clean u) (f : HandoffFrame) (n : NodeNo) (b : BayNo) :
    s.Serves True (u.takeSettle f n b) := by
  unfold State.takeSettle
  refine .ite h.countForeign ?_
  split
  · next k hk =>
    have hsettles := ((u.lowestBay_eq_some_iff _ k).1 hk).1
    unfold Bay.settles at hsettles
    split at hsettles
    · next m r hslot => exact light ((h.weaken .unlit).settle (by decide) hslot)
    · cases hsettles
  · split
    · next k hk => exact (h.lists (.settleLate hk) rfl fun _ => rfl).serves
    · split
      · next k hk =>
        have hsettles := ((u.lowestBay_eq_some_iff _ k).1 hk).1
        unfold Bay.settlesEarly at hsettles
        split at hsettles
        · next m r hslot =>
          refine (h.touchBay (.settleEarly hslot) ?_).serves
          unfold Bay.settleEarly
          rw [hslot]
          rfl
        · cases hsettles
      · exact h.countForeign

/-! ### The chute (R75 to R79) -/

theorem reserve (h : s.Keeps .clean u) (f : HandoffFrame) (n : NodeNo) (b : BayNo) (hfree : u.chute.reservation = none)
    (hnew : f.tag ∉ u.shredTags) : s.Keeps .clean (u.reserve f n b) := by
  unfold State.reserve
  refine placeHandoff (refreshIdle (h.shredder (f := u.feed) fun htags => ?_)) _
  have hempty : u.shredTags = u.feed.queue.map (fun e => e.pack.tag) := by simp [State.shredTags, hfree]
  rw [hempty] at hnew htags
  simpa [State.shredTags, List.nodup_append, htags] using fun e he heq => hnew (List.mem_map.2 ⟨e, he, heq⟩)

theorem takeOffer (h : s.Keeps .clean u) (f : HandoffFrame) (n : NodeNo) (b : BayNo) :
    s.Serves True (u.takeOffer f n b) := by
  unfold State.takeOffer
  refine .ite h.countForeign (.ite h.countForeign ?_)
  split
  · exact (h.placeHandoff _).serves
  · next hnone =>
    refine (h.reserve f n b (State.free_of_declineReason_eq_none hnone).1 ?_).serves
    intro hmem
    unfold State.declineReason State.queued at hnone
    split_ifs at hnone with h1 h2 h3 h4 h5 h6 h7
    exact h7 (decide_eq_true hmem)

theorem takeWithdraw (h : s.Keeps .clean u) (f : HandoffFrame) (n : NodeNo) (b : BayNo) :
    s.Serves True (u.takeWithdraw f n b) := .ite h.dropReservation.serves h.countForeign

theorem arrive (h : s.Keeps .clean u) {e : Offered} (hres : u.chute.reservation = some e) :
    s.Keeps .clean (u.arrive e) := by
  unfold State.arrive
  refine frame (placeHandoff (refreshIdle (h.shredder ?_)) _) rfl
  simp [State.shredTags, hres]

theorem stray (h : s.Keeps .clean u) : s.Keeps .clean u.stray :=
  addReason (u := u.onT4 (fun t => { t with strays := bump t.strays })) (h.frame (by rfl))

theorem arrival (s : State) : s.Serves True s.arrival := by
  have hseen : s.Keeps .clean { s with chute := { s.chute with sensor := true } } := (refl .clean s).frame (by rfl)
  unfold State.arrival
  dsimp only
  split
  · next e hres => exact (hseen.arrive hres).serves
  · exact hseen.stray.serves

/-! ### Feed controller (R83 to R98) -/

theorem checkStart (h : s.Keeps .clean u) : s.Keeps .clean u.checkStart := by
  unfold State.checkStart
  refine ite h ?_
  split
  · exact h.frame (by rfl)
  · exact h

theorem checkFeed (h : s.Keeps .clean u) : s.Keeps .clean u.checkFeed := by
  unfold State.checkFeed
  refine ite h ?_
  split
  · exact h
  · next e es hqueue => exact ite (h.setFeed (by rw [hqueue]; rfl)) h.addReason

theorem feedPeriod (s : State) : s.Serves True (State.checkFeed (State.checkStart { s with
    feed := { s.feed with queue := advanceWaits s.feed.queue, periodTimer := some fastPeriod } })) :=
  (checkFeed (checkStart ((refl .clean s).setFeed (by simp [advanceWaits])))).serves

theorem feedbackRises (s : State) : s.Serves True s.feedbackRises := by
  have hseen : s.Keeps .clean { s with feed := { s.feed with feedback := true } } := (refl .clean s).frame (by rfl)
  unfold State.feedbackRises
  dsimp only
  split
  · exact (refreshIdle (hseen.frame (by rfl))).serves
  · exact hseen.addReason.serves
  · exact hseen.serves
  · exact hseen.serves

theorem enterStopping (s : State) : s.Serves True { s with feed := s.feed.enterStopping } :=
  ((refl .clean s).setFeed (by rw [Feed.enterStopping_queue])).serves

theorem feedbackFalls (s : State) : s.Serves True s.feedbackFalls := by
  have hseen : s.Keeps .clean { s with feed := { s.feed with feedback := false } } := (refl .clean s).frame (by rfl)
  unfold State.feedbackFalls
  dsimp only
  split
  · exact (addReason (hseen.setFeed (by rw [Feed.stall_queue]))).serves
  · exact (hseen.setFeed (by rfl)).serves
  · exact hseen.serves
  · exact hseen.serves

theorem confirmFeed (h : s.Keeps .clean u) : s.Keeps .clean u.confirmFeed := by
  have hended : s.Keeps .clean { u with feed := { u.feed with feedTimer := none, gate := false, kind := .none } } :=
    h.setFeed (by rfl)
  unfold State.confirmFeed
  dsimp only
  split
  · exact hended
  · exact frame hended.removeHead rfl

theorem confirmRises (s : State) : s.Serves True s.confirmRises := by
  have hseen : s.Keeps .clean { s with feed := { s.feed with confirm := true } } := (refl .clean s).frame (by rfl)
  unfold State.confirmRises
  dsimp only
  split
  · exact hseen.addReason.serves
  · exact hseen.confirmFeed.serves
  · exact hseen.confirmFeed.serves

theorem map_requeueHead (q : List QueueEntry) :
    (requeueHead q).map (fun e => e.pack.tag) = q.map (fun e => e.pack.tag) := by cases q <;> rfl

theorem feedExpires (s : State) : s.Serves True s.feedExpires := by
  have hended : s.Keeps .clean { s with feed := s.feed.giveUp } := (refl .clean s).setFeed (map_requeueHead _)
  unfold State.feedExpires
  dsimp only
  split
  · exact hended.addReason.serves
  · exact hended.serves
  · exact hended.serves

/-! ### Atmosphere (R107 to R120) -/

theorem enterIfFaulted (h : s.Keeps g u) (before now : Bool) (c : FaultCause) (place : Place) :
    s.Keeps g (u.enterIfFaulted before now c place) := ite (h.frame (by rfl)) h

theorem readAtmos (h : s.Keeps g u) (x : AtmosReading) : s.Keeps g (u.readAtmos x) := by
  unfold State.readAtmos
  dsimp only
  have hread := ((h.enterIfFaulted u.atmos.o2ValidA (o2Reading x.o2a).isSome .o2SensorFault (.channel 0)).enterIfFaulted
    u.atmos.o2ValidB (o2Reading x.o2b).isSome .o2SensorFault (.channel 1)).enterIfFaulted u.atmos.pressureValid
      (pressureReading x.pressure).isSome .pressureFault .none
  exact ite ((hread.frame (by rfl)).raise _ _ _) (hread.frame (by rfl))

theorem loseInert (h : s.Keeps g u) (c : FaultCause) : s.Keeps g (u.loseInert c) :=
  losePermissive (frame (raise (u := u.enterPurging true) (h.frame (by rfl)) .atmosLost .none none) (by rfl))

theorem sampleAtmos (s : State) (x : AtmosReading) : s.Serves True (s.sampleAtmos x) := by
  have hread := (refl .clean s).readAtmos x
  unfold State.sampleAtmos
  dsimp only
  split
  · exact (ite (hread.frame (by rfl)) (hread.frame (by rfl))).serves
  · unfold State.holdInert
    dsimp only
    split
    · exact (loseInert (hread.frame (by rfl)) _).serves
    · exact (hread.frame (by rfl)).serves
  · exact hread.serves
  · exact hread.serves
  · exact hread.serves

/-! ### Fire (R127 to R140) -/

/-- The fire unit changes; its relays follow later. -/
theorem setFire (h : s.Keeps .undriven u) (f : Fire) : s.Keeps .undriven { u with fire := f } :=
  h.of_parts (.of_part rfl rfl id id) (.of_part rfl) id id rfl rfl (fun he => absurd rfl he) fun he => by cases he

/-- Relays that are driven follow the zone (R136). -/
theorem driveRelays (h : s.Keeps .undriven u) : s.Keeps .unlit u.driveRelays where
  toBayKeeps := h.toBayKeeps.trans (.of_part rfl rfl id id)
  toLinkKeeps := h.toLinkKeeps.trans (.of_part rfl)
  shred := h.shred
  latch := h.latch
  lamps := h.lamps
  relays _ _ := ⟨rfl, rfl⟩
  shown he := by cases he
  queue := h.queue

theorem channelOnset (h : s.Keeps g u) {before now : Channel} {k : Nat} : s.Keeps g (u.channelOnset before now k) :=
  ite (frame (h.raise .channelFault (.channel k) none) rfl) h

theorem enterFlood (h : s.Keeps g u) : s.Keeps g u.enterFlood :=
  losePermissive (u := (({ u with atmos := { u.atmos with
    state := .flood, purge := true, flood := true, stageTimer := none, slow := false, loss := false } } : State).onT5
      (fun t => { t with floods := bump t.floods }))) (h.frame (by rfl))

theorem markExposed (h : s.Keeps .undriven u) : s.Keeps .undriven u.markExposed := by
  refine bays (by decide) h (.of_bays (fun b => ?_) rfl id ⟨rfl, rfl⟩ ⟨rfl, rfl⟩ rfl) rfl
  unfold State.markExposed
  rw [State.mapBays_bay]
  exact .of_record (f := fun r => { r with fireExposed := true }) rfl (fun _ => rfl) (fun _ => rfl) (fun _ => rfl) rfl rfl
    rfl id

theorem enterFire (h : s.Keeps .undriven u) : s.Keeps .undriven u.enterFire := by
  have hfire := frame (t := ((({ u with fire := { u.fire with zone := .fire, clearCount := 0 } } : State).raise .zoneFire
    .none none).onT6 (fun t => { t with fireCount := bump t.fireCount })).enterFault .zoneFire .none none)
    ((h.setFire { u.fire with zone := .fire, clearCount := 0 }).raise .zoneFire .none none) rfl
  exact ite hfire.markExposed (ite hfire.enterFlood hfire)

theorem moveZone (h : s.Keeps .undriven u) : s.Keeps .undriven u.moveZone := by
  unfold State.moveZone
  split
  · exact h
  · exact ite h.enterFire (ite (frame ((h.setFire _).raise .zonePre .none none) rfl) h)
  · exact ite h.enterFire (h.setFire _)

theorem gradeSources (h : s.Keeps .undriven u) (x : FireReading) : s.Keeps .undriven (u.gradeSources x) :=
  channelOnset (channelOnset (channelOnset (channelOnset (h.setFire _))))

theorem checkImpaired (h : s.Keeps .undriven u) : s.Keeps .undriven u.checkImpaired :=
  ite ((h.setFire _).raise _ _ _) (h.setFire _)

theorem sampleFire (s : State) (x : FireReading) : s.Serves True (s.sampleFire x) := by
  unfold State.sampleFire
  rw [State.reviewLine_light]
  exact light (reviewUnlit (by decide) (moveZone (checkImpaired (gradeSources (refl .undriven s) x))).driveRelays)

theorem rejectExposed (h : s.Keeps .undriven u) (b : BayNo) : s.Keeps .undriven (u.rejectExposed b) := by
  unfold State.rejectExposed
  split
  · next st r hslot =>
    split
    · next hreject =>
      have hst : st.rejectable = true := (Bool.and_eq_true_iff.1 hreject).1
      refine h.reject (by decide) hslot ?_ ?_ rfl rfl _
      · rw [hslot]
        exact PackState.counted_of_rejectable r hst
      · rintro n rfl
        cases hst
    · exact h
  · exact h
  · exact h

theorem resetAlarm (h : s.Keeps .clean u) : s.Serves True u.resetAlarm := by
  unfold State.resetAlarm
  rw [State.reviewLine_light]
  have hclear := frame (t := ({ u with fire := u.fire.clear } : State).onT6
    (fun t => { t with alarmResets := bump t.alarmResets })) ((h.weaken .undriven).setFire u.fire.clear) rfl
  have hrejected := ite (p := (u.isBay && decide (u.fire.zone = .fire)) = true)
    (rejectExposed (rejectExposed (rejectExposed (hclear.rejectExposed 0) 1) 2) 3) hclear
  exact light (reviewUnlit (by decide) (driveRelays (ite (hrejected.frame (by rfl)) hrejected)))

/-! ### Line link (R147 to R175) -/

theorem takeStatus (h : s.Keeps .clean u) (src : Address) (f : StatusFrame) : s.Serves True (u.takeStatus src f) := by
  unfold State.takeStatus
  split
  · exact .ite (reviewLine (h.frame (by rfl))) h.countForeign
  · exact h.countForeign

theorem takeTally (h : s.Keeps .clean u) (src : Address) (f : TallyFrame) : s.Serves True (u.takeTally src f) := by
  unfold State.takeTally
  refine .ite ?_ h.serves
  split
  · exact (ite ((h.frame (by rfl)).raise _ _ _) (h.frame (by rfl))).serves
  · exact h.serves

theorem losePeer (s : State) (n : NodeNo) : s.Serves True (s.losePeer n) :=
  reviewLine (frame (raise (u := s.setPeer n { s.peers[n] with state := .lost, age := none })
    ((refl .clean s).frame (by rfl)) .peerLost (.node n.val) none) rfl)

theorem fallSilent (s : State) (htimer : s.view.silenceTimer.isSome = true) : s.Serves True s.fallSilent := by
  have hrun (hlaw : s.SilenceLaw) : s.startup.life = .running := hlaw.running fun hquiet => by
    rw [hquiet.silent.2] at htimer; cases htimer
  exact light (losePermissive (mapLineStop (by decide) (refl .unlit s)
    (v := { s.view with silent := true, silenceTimer := none }) (a := { s.headroom with basis := 0 }) (.inr hrun)
    ⟨rfl, rfl⟩))

end State.Keeps

end Sys2Proof.Machine
end

