-- ==== Sys2Proof/Proofs/KeepsLink.lean ====
section
/-! Every command of the line link's own events keeps the laws: formations, periods, attempts and their outcomes. -/

namespace Sys2Proof.Machine

open Sys2Proof Sys2Proof.Config

/-- Under L11 an attempt stands in RUNNING only. -/
theorem State.SilenceLaw.of_attempt {s : State} (h : s.SilenceLaw) (hattempt : s.link.attempt.isSome = true) :
    s.startup.life = .running :=
  h.running fun hquiet => by rw [hquiet.attempt] at hattempt; cases hattempt

/-- Under L11 a period runs in RUNNING only. -/
theorem State.SilenceLaw.of_period {s : State} (h : s.SilenceLaw)
    (htimer : s.link.statusTimer.isSome = true ∨ s.link.tallyTimer.isSome = true) : s.startup.life = .running :=
  h.running fun hquiet => by
    rcases htimer with ht | ht
    · rw [hquiet.periods.1] at ht; cases ht
    · rw [hquiet.periods.2] at ht; cases ht

/-! ### The end of an attempt in its steps -/

/-- No attempt is in progress. -/
def State.attemptOver (s : State) : State :=
  { s with link := { s.link with attempt := none }, latch := { s.latch with after := none } }

/-- A STATUS whose formation waited is formed. -/
def State.formDueStatus (s : State) : State :=
  if s.link.statusDue then ({ s with link := { s.link with statusDue := false } } : State).placeStatus else s

/-- A TALLY whose formation waited is formed. -/
def State.formDueTally (s : State) : State :=
  if s.link.tallyDue then ({ s with link := { s.link with tallyDue := false } } : State).placeTally else s

theorem State.endAttempt_eq (s : State) : s.endAttempt = s.attemptOver.formDueStatus.formDueTally := rfl

theorem State.formDueStatus_startup (s : State) : s.formDueStatus.startup = s.startup := by
  unfold State.formDueStatus
  split
  · rw [State.placeStatus_eq]
  · rfl

namespace State.Keeps

variable {g : Stage} {s u t : State}

/-- The node is RUNNING, and a STATUS, a TALLY, a timer or the attempt of its link changes. -/
theorem relink (h : s.Keeps g u) (hrun : s.SilenceLaw → u.startup.life = .running) {l : Link}
    (hcounts : l.counts = u.link.counts) (hfifo : l.fifo = u.link.fifo) (hreplies : l.replies = u.link.replies) :
    s.Keeps g { u with link := l } :=
  h.buffers hrun rfl hcounts (by rw [← hfifo]) fun _ _ hr => .inl (by rw [← hreplies]; exact hr)

theorem countOverrun (h : s.Keeps g u) : s.Keeps g u.countOverrun := h.frame (by rfl)

theorem placeStatus (h : s.Keeps g u) (hrun : s.SilenceLaw → u.startup.life = .running) : s.Keeps g u.placeStatus := by
  unfold State.placeStatus
  dsimp only
  split
  · exact h.countOverrun.relink hrun rfl rfl rfl
  · exact h.relink hrun rfl rfl rfl

theorem placeTally (h : s.Keeps g u) (hrun : s.SilenceLaw → u.startup.life = .running) : s.Keeps g u.placeTally := by
  unfold State.placeTally
  dsimp only
  split
  · exact h.countOverrun.relink hrun rfl rfl rfl
  · exact h.relink hrun rfl rfl rfl

/-- The node is RUNNING and no longer SILENT. -/
theorem speak (h : s.Keeps g u) (hrun : s.SilenceLaw → u.startup.life = .running) {v : LineView}
    (hfire : v.lineFire = u.view.lineFire) (hsilent : v.silent = false) : s.Keeps g { u with view := v } :=
  { h with
    toBayKeeps := h.toBayKeeps.trans (.of_part rfl rfl id fun hclear => by
      obtain ⟨hlife, -, hno⟩ := u.lineClear_iff.1 hclear
      exact (State.lineClear_iff _).2 ⟨hlife, hsilent, hfire.trans hno⟩)
    toLinkKeeps := ⟨fun hlaw hnot => absurd (hrun hlaw) hnot, h.errors, h.fifo, h.replies⟩
    shown := fun hg => ⟨(h.shown hg).life, (h.shown hg).zone, (h.shown hg).impaired, (h.shown hg).bays⟩ }

theorem endAttempt (h : s.Keeps g u) (hrun : s.SilenceLaw → u.startup.life = .running) : s.Keeps g u.endAttempt := by
  have hended : s.Keeps g u.attemptOver := frame (h.relink hrun (l := { u.link with attempt := none }) rfl rfl rfl) rfl
  have hstatus : s.Keeps g u.attemptOver.formDueStatus :=
    ite ((hended.relink hrun (l := { u.attemptOver.link with statusDue := false }) rfl rfl rfl).placeStatus hrun) hended
  have hrun' (hlaw : s.SilenceLaw) : u.attemptOver.formDueStatus.startup.life = .running := by
    rw [State.formDueStatus_startup]; exact hrun hlaw
  rw [State.endAttempt_eq]
  exact ite ((hstatus.relink hrun' (l := { u.attemptOver.formDueStatus.link with tallyDue := false }) rfl rfl
    rfl).placeTally hrun') hstatus

theorem placeReply (h : s.Keeps g u) (hrun : s.SilenceLaw → u.startup.life = .running) {p : TerminalNo} {r : Reply}
    (hlength : r.payload.length ≤ 56) : s.Keeps g (u.placeReply p r) := by
  refine h.buffers hrun rfl rfl le_rfl fun k x hx => ?_
  change (u.link.replies.set p.val (some r) p.isLt)[k] = some x at hx
  rw [Fin.getElem_fin, Vector.getElem_set] at hx
  split at hx
  · cases hx; exact .inr hlength
  · exact .inl hx

theorem statusPeriod (s : State) : s.Serves True (if s.link.statusTimer.isSome then
    let t : State := { s with link := { s.link with statusTimer := some fastPeriod } }
    if s.underAttempt .status then { t with link := { t.link with statusDue := true } } else t.placeStatus
    else s) := by
  split
  · next htimer =>
    have hrun (hlaw : s.SilenceLaw) : s.startup.life = .running := hlaw.of_period (.inl htimer)
    have hrestart := (refl .clean s).relink hrun (l := { s.link with statusTimer := some fastPeriod }) rfl rfl rfl
    exact serves (ite (hrestart.relink hrun rfl rfl rfl) (hrestart.placeStatus hrun))
  · exact (refl .clean s).serves

theorem tallyPeriod (s : State) : s.Serves True (if s.link.tallyTimer.isSome then
    let t : State := { s with link := { s.link with tallyTimer := some slowPeriod } }
    if s.underAttempt .tally then { t with link := { t.link with tallyDue := true } } else t.placeTally
    else s) := by
  split
  · next htimer =>
    have hrun (hlaw : s.SilenceLaw) : s.startup.life = .running := hlaw.of_period (.inr htimer)
    have hrestart := (refl .clean s).relink hrun (l := { s.link with tallyTimer := some slowPeriod }) rfl rfl rfl
    exact serves (ite (hrestart.relink hrun rfl rfl rfl) (hrestart.placeTally hrun))
  · exact (refl .clean s).serves

theorem selection (s : State) : s.Serves True (if s.maySelect then
    { s with link := { s.link with attempt := s.select }, latch := { s.latch with after := none } } else s) := by
  split
  · next hmay =>
    have hrun (_ : s.SilenceLaw) : s.startup.life = .running := by
      simp only [State.maySelect, Bool.and_eq_true, s.running_iff] at hmay
      exact hmay.1.1
    exact (frame ((refl .clean s).relink hrun (l := { s.link with attempt := s.select }) rfl rfl rfl) (by rfl)).serves
  · exact (refl .clean s).serves

/-! ### What a success tells the owner of the frame -/

theorem statusSent (h : s.Keeps .clean u) (hrun : s.SilenceLaw → u.startup.life = .running) :
    s.Keeps .clean u.statusSent :=
  frame ((h.relink hrun (l := { u.link with status := none }) rfl rfl rfl).speak hrun
    (v := { u.view with silent := false, silenceTimer := some silenceMs }) rfl rfl) (by rfl)

theorem answerHeld (h : s.Keeps g u) (hrun : s.SilenceLaw → u.startup.life = .running) (p : TerminalNo) :
    s.Keeps g (u.answerHeld p) := by
  unfold State.answerHeld
  split
  · exact placeReply (u := { u with requests := { u.requests with held := u.requests.held.set p.val none p.isLt } })
      (h.frame (by rfl)) hrun (Nat.zero_le _)
  · exact h

theorem replySent (h : s.Keeps g u) (hrun : s.SilenceLaw → u.startup.life = .running) (p : TerminalNo) :
    s.Keeps g (u.replySent p) := by
  refine answerHeld (h.buffers hrun (t := { u with
    link := { u.link with replies := u.link.replies.set p.val none p.isLt } }) rfl rfl le_rfl fun k x hx => ?_) hrun p
  change (u.link.replies.set p.val none p.isLt)[k] = some x at hx
  rw [Fin.getElem_fin, Vector.getElem_set] at hx
  split at hx
  · cases hx
  · exact .inl hx

theorem sent (h : s.Keeps .clean u) (hrun : s.SilenceLaw → u.startup.life = .running) (b : Buffer) :
    s.Keeps .clean (u.sent b) := by
  cases b with
  | alarm c =>
    exact relink (u := { u with latch := { u.latch with entries := u.latch.sent c } }) (h.pend (u.latch.sent_sorted c)) hrun
      rfl rfl rfl
  | handoff =>
    exact h.buffers hrun (t := { u with link := { u.link with fifo := u.link.fifo.tail } }) rfl rfl
      (by simp) fun _ _ => .inl
  | reply p => exact h.replySent hrun p
  | status => exact h.statusSent hrun
  | tally => exact h.relink hrun rfl rfl rfl

end State.Keeps

end Sys2Proof.Machine
end

