-- ==== Sys2Proof/Proofs/KeepsReception.lean ====
section
/-! Reception keeps the laws: the tests of a frame, the repeat filter, the handoff agent, and the request unit with a
REPLY of at most 56 bytes. -/

namespace Sys2Proof.Machine

open Sys2Proof Sys2Proof.Config

/-- From `s`, an answer given in `u` keeps the laws: a refusal, or a state that keeps them, with a payload of at most 56
bytes. -/
def Answer.Serves (s u : State) : Answer → Prop
  | .refused _ => True
  | .done v p => s.Serves True v ∧ v.startup = u.startup ∧ p.length ≤ 56

namespace State.Keeps

variable {s u : State}

theorem eased (s : State) : s.Keeps .clean s.eased :=
  (refl .clean s).setErrors fun hlaw => (Nat.sub_le _ 1).trans (LinkKeeps.rxErrors_le hlaw)

theorem heard (s : State) (a : Fin 15) (bytes : List Byte) : s.Keeps .clean (s.heard a bytes) :=
  (eased s).frame (by rfl)

theorem receive {deliver : State → State} (hdeliver : s.Serves True (deliver s.eased)) (odd : Bool) (kind : BitVec 3)
    (src dst : Address) (length : Nat) : s.Serves True (s.receive odd kind src dst length deliver) := by
  rcases s.receive_spec odd kind src dst length deliver with
    ⟨-, h⟩ | ⟨-, -, h⟩ | ⟨-, -, h⟩ | ⟨-, -, h⟩ | ⟨-, -, h⟩
  · rw [h]; exact (refl .clean s).serves
  · exact h ▸ (eased s).clash
  · exact h ▸ (eased s).countForeign
  · exact h ▸ (eased s).serves
  · exact h ▸ hdeliver

theorem filtered {a : Fin 15} {bytes : List Byte} {deliver : State → State}
    (hdeliver : s.Serves True (deliver (s.heard a bytes))) : s.Serves True (s.eased.filtered a bytes deliver) := by
  rcases s.filtered_eased a bytes deliver with hrepeat | hheard
  · rw [hrepeat]; exact (eased s).serves
  · exact hheard ▸ hdeliver

theorem receiveHandoff {take : NodeNo → BayNo → State → State}
    (h : ∀ (u : State), s.Keeps .clean u → ∀ (n : NodeNo) (b : BayNo), s.Serves True (take n b u)) (message : Byte)
    (f : HandoffFrame) : s.Serves True (s.receiveHandoff message f take) := by
  refine receive ?_ false kindHandoff f.src f.dst 16
  split
  · refine filtered ?_
    split
    · exact h _ (heard s _ _) _ _
    · exact (heard s _ _).countForeign
  · exact (eased s).countForeign

/-! ### The request unit -/

theorem takeRequest (h : s.Keeps .clean u) {eval : State → Answer} (heval : (eval u).Serves s u) (code : Byte)
    (f : RequestFrame) (p : TerminalNo) : s.Serves True (u.takeRequest code f p eval) := by
  rcases u.takeRequest_cases code f p eval with ⟨-, heq⟩ | ⟨-, -, heq⟩ | ⟨hrun, -, -, heq⟩ |
    ⟨hrun, -, -, ⟨r, -, heq⟩ | ⟨v, payload, hdone, heq⟩⟩
  · exact heq ▸ h.countForeign
  · exact heq ▸ (h.frame (by rfl)).serves
  · exact heq ▸ (h.placeReply (fun _ => u.running_iff.1 hrun) (Nat.zero_le _)).serves
  · exact heq ▸ (h.placeReply (fun _ => u.running_iff.1 hrun) (Nat.zero_le _)).serves
  · rw [hdone] at heval
    obtain ⟨hserves, hstartup, hlength⟩ := heval
    have hlife : v.startup.life = .running := by rw [hstartup]; exact u.running_iff.1 hrun
    exact heq ▸ hserves.keeps ((refl .clean v).placeReply (fun _ => hlife) hlength)

theorem serve {eval : State → Answer} (heval : ∀ u : State, s.Keeps .clean u → (eval u).Serves s u) (code : Byte)
    (f : RequestFrame) : s.Serves True (s.serve code f eval) := by
  refine receive ?_ false kindRequest f.src f.dst 16
  split
  · exact filtered ((heard s _ _).takeRequest (heval _ (heard s _ _)) code f _)
  · exact (eased s).countForeign

end State.Keeps

/-! ### Payloads -/

theorem recordPayload_length (x : Slot) (r : Record) : (recordPayload x r).length = 50 := by
  simp [recordPayload, leBytes_length]

theorem faultBytes_length (x : Option FaultEntry) : (faultBytes x).length = 12 := by
  cases x <;> simp [faultBytes, leBytes_length]

theorem State.quarantineRead_length {s : State} {i : Nat} {p : List Byte} (h : s.quarantineRead i = some p) :
    p.length = 12 := by
  unfold State.quarantineRead at h
  split at h
  · obtain ⟨e, -, rfl⟩ := Option.map_eq_some_iff.1 h
    simp [quarantinePayload, leBytes_length]
  · split at h
    · obtain ⟨e, -, rfl⟩ := Option.map_eq_some_iff.1 h
      simp [unaccountedPayload, leBytes_length]
    · cases h

theorem State.tallyPayload_length {s : State} {k i : Nat} {p : List Byte} (h : s.tallyPayload k i = some p) :
    p.length ≤ 56 := by
  unfold State.tallyPayload at h
  split_ifs at h
  all_goals
    obtain rfl := Option.some.inj h
    simp [words32_length, leBytes_length, faultBytes_length, Tally1.counters, Tally6.counters]

theorem State.identityPayload_length (s : State) : s.identityPayload.length = 14 := by
  simp [State.identityPayload, leBytes_length]

theorem Peer.forgetPayload_length (p : Peer) : p.forgetPayload.length = 5 := by
  unfold Peer.forgetPayload
  split
  · rfl
  · rfl

/-! ### What the requests leave of the start-up controller -/

theorem State.raiseHeat_startup (s : State) (before : Bool) (b : BayNo) : (s.raiseHeat before b).startup = s.startup := by
  unfold State.raiseHeat
  split
  · rfl
  · rfl

theorem State.quarantine_startup (s : State) (b : BayNo) (tag : Option Tag) (reason : QuarantineReason) :
    (s.quarantine b tag reason).startup = s.startup := by
  unfold State.quarantine
  dsimp only
  split
  · rfl
  · rfl

theorem State.recallRelease_startup (s : State) (b : BayNo) : (s.recallRelease b).startup = s.startup := by
  unfold State.recallRelease
  split
  · split
    · rfl
    · simp
  · rfl

theorem State.reviewLine_startup (s : State) : s.reviewLine.startup = s.startup := by
  have hunlit : s.reviewUnlit.startup = s.startup := by
    unfold State.reviewUnlit
    split
    · simp only [State.stopForFire, State.losePermissive_startup, State.recallRelease_startup, State.mapBays_startup]
      rfl
    · rfl
  rw [s.reviewLine_eq]
  split
  · exact hunlit
  · exact hunlit

theorem State.rejectExposed_startup (s : State) (b : BayNo) : (s.rejectExposed b).startup = s.startup := by
  unfold State.rejectExposed
  split
  · split
    · rfl
    · rfl
  · rfl
  · rfl

theorem State.endFlood_startup (s : State) : s.endFlood.startup = s.startup := by
  unfold State.endFlood
  split
  · rfl
  · rfl

theorem State.resetAlarm_startup (s : State) : s.resetAlarm.startup = s.startup := by
  unfold State.resetAlarm
  dsimp only
  rw [State.light_startup, State.reviewLine_startup, State.driveRelays_startup, State.endFlood_startup]
  split
  · simp only [State.rejectAllExposed, State.rejectExposed_startup, State.onT6_startup]
  · rfl

theorem State.removeHead_clearHold_startup (s : State) : s.removeHead.clearHold.startup = s.startup := by
  simp [State.clearHold]

/-- The place of the entry in the store and its tally, before the store is found full (R10, R11). -/
theorem State.quarantine_onT1 (s : State) (b : BayNo) (tag : Option Tag) (reason : QuarantineReason)
    (f : Tally1 → Tally1) : (s.quarantine b tag reason).onT1 f =
      let e : QuarantineEntry := { tag := tag, bay := b, reason := reason, time := s.startup.nodeTime }
      let t : State := ({ s.setBay b (s.bay b).vacate with store := s.store ++ [e] } : State).onT1 f
      if t.store.length = t.capacity then t.raise .quarantineFull .none none else t := by
  unfold State.quarantine
  dsimp only
  split
  · rw [if_pos (by assumption)]; rfl
  · rw [if_neg (by assumption)]

/-! ### The requests -/

namespace Answer.Serves

variable {s u : State}

theorem refused (r : Reason) : (Answer.refused r).Serves s u := trivial

theorem done {v : State} {p : List Byte} (h : s.Serves True v) (hstartup : v.startup = u.startup) (hp : p.length ≤ 56) :
    (Answer.done v p).Serves s u := ⟨h, hstartup, hp⟩

theorem ite {p : Prop} [Decidable p] {x y : Answer} (hx : x.Serves s u) (hy : y.Serves s u) :
    (if p then x else y).Serves s u := by
  split
  · exact hx
  · exact hy

theorem dite {p : Prop} [Decidable p] {x y : Answer} (hx : p → x.Serves s u) (hy : ¬p → y.Serves s u) :
    (if p then x else y).Serves s u := by
  split
  · next h => exact hx h
  · next h => exact hy h

theorem bayForm {f : RequestFrame} {k : BayNo → Answer} (h : u.running = true → ∀ b : BayNo, (k b).Serves s u) :
    (u.bayForm f k).Serves s u := by
  unfold State.bayForm
  refine ite (refused _) (dite (fun _ => refused _) fun hrun => ?_)
  have hserves := h (by simpa using hrun)
  split
  · exact hserves _
  · exact refused _

theorem nodeForm {roleTakes : Bool} {f : RequestFrame} {k : Answer} (h : k.Serves s u) :
    (u.nodeForm roleTakes f k).Serves s u :=
  ite (refused _) (ite (refused _) (ite (refused _) h))

theorem admitPack (h : s.Keeps .clean u) (f : RequestFrame) : (evalAdmit f u).Serves s u := by
  refine bayForm fun hrun b => dite (fun _ => refused _) fun hfree => ite (refused _) (dite (fun _ => refused _)
    fun htag => ite (refused _) ?_)
  split
  · exact refused _
  · next minutes _ =>
    split
    · exact refused _
    · next v _ =>
      refine ite (refused _) (ite (refused _) (ite (refused _) (dite (fun _ => refused _) fun hroom => .done ?_ ?_ ?_)))
      · have hlife : u.startup.life ≠ .inReset := by rw [u.running_iff.1 hrun]; decide
        have hadmit := State.BayKeeps.admitRecord (s := u) (b := b)
          (r := admittedRecord f b minutes v (u.bay b) u.startup.nodeTime)
          (f := fun t => { t with
            admitted := bump t.admitted
            readmitted := if (u.bay b).slot = .orphan then bump t.readmitted else t.readmitted })
          (by simpa using hfree) (fun hmem => htag (.inr hmem)) (by simpa using hroom) rfl hlife rfl
        exact State.Keeps.light (State.Keeps.raiseHeat (State.Keeps.bays (by decide) (h.weaken .unlit) hadmit rfl) _ _)
      · simp [State.admitPack, State.raiseHeat_startup]
      · simp [leBytes_length]

theorem abort (h : s.Keeps .clean u) (f : RequestFrame) : (evalAbort f u).Serves s u := by
  refine bayForm fun _ b => ?_
  split
  · exact refused _
  · exact refused _
  · next st r hslot =>
    have hrejected (hcounted : (Slot.pack st r).counted = true) (hst : ∀ n : NodeNo, st ≠ .releasing n) :
        s.Keeps .unlit (u.reject b r .abort) :=
      (h.weaken .unlit).reject (by decide) hslot (by rw [hslot]; exact hcounted) hst rfl rfl _
    cases st with
    | offered n => exact .done ((hrejected rfl (by simp)).placeHandoff _).light (by simp) (Nat.zero_le _)
    | releasing n => exact refused _
    | inTransit n => exact refused _
    | rejected => exact refused _
    | missing => exact refused _
    | admitted => exact .done (hrejected rfl (by simp)).light rfl (Nat.zero_le _)
    | discharging => exact .done (hrejected rfl (by simp)).light rfl (Nat.zero_le _)
    | held c => exact .done (hrejected rfl (by simp)).light rfl (Nat.zero_le _)
    | resting => exact .done (hrejected rfl (by simp)).light rfl (Nat.zero_le _)
    | safe => exact .done (hrejected rfl (by simp)).light rfl (Nat.zero_le _)

theorem resume (h : s.Keeps .clean u) (f : RequestFrame) : (evalResume f u).Serves s u := by
  refine bayForm fun _ b => ?_
  split
  · next r hslot =>
    refine ite (.done (State.Keeps.light ((h.weaken .unlit).setBay (by decide) ?_)) rfl (by simp [resumePayload]))
      (refused _)
    exact .startOrHold hslot (by rw [hslot]; rfl) rfl rfl (by simp)
  · exact refused _

theorem quarantineIn (h : s.Keeps .clean u) (f : RequestFrame) : (evalQuarantineIn f u).Serves s u := by
  have hstartup (b : BayNo) (tag : Option Tag) (reason : QuarantineReason) (g : Tally1 → Tally1) :
      (((u.quarantine b tag reason).onT1 g).light).startup = u.startup := u.quarantine_startup b tag reason
  refine bayForm fun _ b => ?_
  split
  · next r hslot =>
    refine ite (refused _) (.done (State.Keeps.light ?_) (hstartup _ _ _ _) (Nat.zero_le _))
    rw [State.quarantine_onT1]
    have hstored := State.Keeps.bays (by decide) (h.weaken .unlit) (.toStore hslot
      (e := ⟨some r.tag, b, .ended (r.endCause.getD .abort), u.startup.nodeTime⟩) rfl) rfl
    exact State.Keeps.ite (hstored.raise _ _ _) hstored
  · next hslot =>
    refine ite (refused _) (dite (fun _ => refused _) fun hroom =>
      .done (State.Keeps.light ?_) (hstartup _ _ _ _) (Nat.zero_le _))
    rw [State.quarantine_onT1]
    have hstored := State.Keeps.bays (by decide) (h.weaken .unlit)
      (.orphanToStore hslot (by simpa using hroom) (e := ⟨none, b, .orphan, u.startup.nodeTime⟩) rfl
        (f := fun t => { t with quarantinedOrphans := bump t.quarantinedOrphans }) rfl) rfl
    exact State.Keeps.ite (hstored.raise _ _ _) hstored
  · exact refused _

theorem quarantineOut (h : s.Keeps .clean u) (f : RequestFrame) : (evalQuarantineOut f u).Serves s u := by
  refine nodeForm ?_
  split
  · exact .done (h.lists (.fromStore u _) rfl fun _ => rfl).serves rfl (Nat.zero_le _)
  · exact refused _

theorem accountClear (h : s.Keeps .clean u) (f : RequestFrame) : (evalAccountClear f u).Serves s u := by
  refine ite (nodeForm ?_) (bayForm fun _ b => ?_)
  · refine ite (refused _) ?_
    split
    · next k hk => exact .done (h.lists (.writeOffTag hk) rfl fun _ => rfl).serves rfl (Nat.zero_le _)
    · exact refused _
  · unfold clearBay
    split
    · next r hslot =>
      exact .done (State.Keeps.bays (by decide) (h.weaken .unlit) (.writeOffBay hslot) rfl).light rfl (Nat.zero_le _)
    · exact refused _

theorem alarmReset (h : s.Keeps .clean u) (f : RequestFrame) : (evalAlarmReset f u).Serves s u :=
  nodeForm (ite (refused _) (.done h.resetAlarm u.resetAlarm_startup (by simp)))

theorem purgeReset (h : s.Keeps .clean u) (f : RequestFrame) : (evalPurgeReset f u).Serves s u :=
  nodeForm (ite (.done (State.Keeps.serves (h.frame (by rfl))) rfl (by simp [leBytes_length])) (refused _))

theorem flush (h : s.Keeps .clean u) (f : RequestFrame) : (evalFlush f u).Serves s u :=
  nodeForm (ite (refused _) (.done (State.Keeps.serves (h.frame (by rfl))) rfl (by simp)))

theorem shredReset (h : s.Keeps .clean u) (f : RequestFrame) : (evalShredReset f u).Serves s u :=
  nodeForm (ite (refused _) (ite (refused _) (ite (refused _) (ite (refused _) (ite (refused _)
    (ite (.done (State.Keeps.serves (h.frame (by rfl))) rfl (by simp))
      (ite (refused _) (.done (h.removeHead.frame (by rfl)).serves (by simp [State.clearHold]) (by simp)))))))))

theorem peerForget (h : s.Keeps .clean u) (f : RequestFrame) : (evalPeerForget f u).Serves s u := by
  refine nodeForm ?_
  split
  · exact refused _
  · exact ite (refused _) (ite (.done (State.Keeps.reviewLine (h.frame (by rfl))) (State.reviewLine_startup _)
      (by rw [Peer.forgetPayload_length]; omega)) (refused _))

theorem readRecord (h : s.Keeps .clean u) (f : RequestFrame) : (evalReadRecord f u).Serves s u := by
  refine bayForm fun _ b => ?_
  split
  · exact .done h.serves rfl (by rw [recordPayload_length]; omega)
  · exact refused _

theorem readTally (h : s.Keeps .clean u) (f : RequestFrame) : (evalReadTally f u).Serves s u := by
  refine nodeForm (ite (refused _) ?_)
  split
  · next p hp => exact .done h.serves rfl (State.tallyPayload_length hp)
  · exact refused _

theorem readQuarantine (h : s.Keeps .clean u) (f : RequestFrame) : (evalReadQuarantine f u).Serves s u := by
  refine nodeForm ?_
  split
  · next p hp => exact .done h.serves rfl (by rw [State.quarantineRead_length hp]; omega)
  · exact refused _

theorem identify (h : s.Keeps .clean u) (f : RequestFrame) : (evalIdentify f u).Serves s u :=
  nodeForm (.done h.serves rfl (by rw [State.identityPayload_length]; omega))

theorem nodeReset (h : s.Keeps .clean u) (f : RequestFrame) : (evalNodeReset f u).Serves s u :=
  nodeForm (ite (refused _) (.done (State.Keeps.serves (h.frame (by rfl))) rfl (Nat.zero_le _)))

/-- No request breaks a law, whatever its code (R180). -/
theorem evaluate (h : s.Keeps .clean u) (code : Byte) (f : RequestFrame) : (evaluate code f u).Serves s u := by
  fun_cases Machine.evaluate code f
  · exact admitPack h f
  · exact abort h f
  · exact resume h f
  · exact quarantineIn h f
  · exact quarantineOut h f
  · exact accountClear h f
  · exact alarmReset h f
  · exact purgeReset h f
  · exact flush h f
  · exact shredReset h f
  · exact peerForget h f
  · exact readRecord h f
  · exact readTally h f
  · exact readQuarantine h f
  · exact identify h f
  · exact nodeReset h f
  · exact refused _

end Answer.Serves

end Sys2Proof.Machine
end

