-- ==== Sys2Proof/Proofs/KeepsResets.lean ====
section
/-! The values of the reset tables, and that resets, their end, the entry to RUNNING and the clock keep the laws. -/

namespace Sys2Proof.Machine

open Sys2Proof Sys2Proof.Config

/-! ### The values after a reset -/

theorem State.reset_resetValues : State.reset.ResetValues where
  startup := ⟨rfl, rfl, rfl⟩
  bays b := by simp only [State.bay, State.reset, Fin.getElem_fin, Vector.getElem_replicate]; rfl
  headroom := ⟨rfl, rfl, rfl, rfl⟩
  handoff := rfl
  chute := rfl
  feed := rfl
  atmos := rfl
  channels c := by simp only [State.reset, Fire.reset, Fin.getElem_fin, Vector.getElem_replicate]; rfl
  fire := rfl
  latch := rfl
  view := rfl
  replies p := by simp only [State.reset, Link.reset, Fin.getElem_fin, Vector.getElem_replicate]
  link := rfl
  peers n := by simp only [State.reset, Fin.getElem_fin, Vector.getElem_replicate]; rfl
  filter a := by simp only [State.reset, Fin.getElem_fin, Vector.getElem_replicate]; rfl
  requests := ⟨fun p => by simp only [State.reset, Requests.reset, Fin.getElem_fin, Vector.getElem_replicate], rfl⟩
  lamps := ⟨fun b => by simp only [State.reset, Lamps.reset, Fin.getElem_fin, Vector.getElem_replicate]; rfl, rfl, rfl⟩

/-- The values do not depend on what the kept state is (R196). -/
theorem State.lineReset_resetValues (s : State) (cause : ResetCause) : (s.lineReset cause).ResetValues :=
  have h := State.reset_resetValues
  { startup := h.startup, bays := h.bays, headroom := h.headroom, handoff := h.handoff, chute := h.chute, feed := rfl
    atmos := h.atmos, channels := h.channels, fire := h.fire, latch := h.latch, view := h.view, replies := h.replies
    link := h.link, peers := h.peers, filter := h.filter, requests := h.requests, lamps := h.lamps }

theorem State.powerOn_resetValues (s : State) : s.powerOn.ResetValues :=
  have h := State.reset_resetValues
  { startup := h.startup, bays := h.bays, headroom := h.headroom, handoff := h.handoff, chute := h.chute, feed := h.feed
    atmos := h.atmos, channels := h.channels, fire := h.fire, latch := h.latch, view := h.view, replies := h.replies
    link := h.link, peers := h.peers, filter := h.filter, requests := h.requests, lamps := h.lamps }

/-- A line reset begins (R16, R85, R188, R196). -/
theorem State.lineReset_begins (s : State) (cause : ResetCause) : s.LineResetBegins (s.lineReset cause) cause where
  values := s.lineReset_resetValues cause
  startup := rfl
  limit := rfl
  store := rfl
  unaccounted := rfl
  queue := rfl
  faults := rfl
  tally := rfl
  pending := rfl

/-! ### Bays without a record -/

/-- A bay that holds no record, has no share, and drives nothing. -/
structure Bay.Cleared (x : Bay) : Prop where
  record : x.slot.record = none
  share : x.share = none
  consistent : x.Consistent

theorem Slot.unheld {x : Slot} (h : x.record = none) :
    x.counted = false ∧ x.isDischarging = false ∧ ∀ a : Tag, x.carries a = false := by
  cases x with
  | empty => exact ⟨rfl, rfl, fun _ => rfl⟩
  | orphan => exact ⟨rfl, rfl, fun _ => rfl⟩
  | pack st r => cases h

theorem Bay.Cleared.of_reset {x : Bay} {slot : Slot} {latest : Readings} {conv : Timer}
    (hslot : slot = .empty ∨ slot = .orphan) (hx : x = { Bay.reset with slot := slot, latest := latest, convTimer := conv }) : x.Cleared := by
  subst hx
  rcases hslot with rfl | rfl
  · exact ⟨rfl, rfl, by constructor <;> simp [Bay.reset, Slot.isDischarging, Slot.setpoint, Slot.isReleasing,
      Slot.settledEarly, Slot.isOffered, Slot.isInTransit]⟩
  · exact ⟨rfl, rfl, by constructor <;> simp [Bay.reset, Slot.isDischarging, Slot.setpoint, Slot.isReleasing,
      Slot.settledEarly, Slot.isOffered, Slot.isInTransit]⟩

/-- No bay holds a record. -/
def State.Cleared (s : State) : Prop := ∀ b : BayNo, (s.bay b).Cleared

namespace State.Cleared

variable {s t : State}

theorem countBays (h : t.Cleared) {p : Slot → Bool} (hp : ∀ x : Slot, x.record = none → p x = false) :
    t.countBays p = 0 := by
  refine Nat.eq_zero_of_not_pos fun hpos => ?_
  obtain ⟨b, hb⟩ := (t.countBays_pos p).1 hpos
  rw [hp _ (h b).record] at hb
  cases hb

theorem held (h : t.Cleared) : t.held = 0 := h.countBays fun x hx => by rw [hx]; rfl

theorem bayLaw (h : t.Cleared) : t.BayLaw :=
  t.bayLaw_iff.2 fun b => .of_idle (h b).consistent (Slot.unheld (h b).record).2.1 _ _

/-- The store grows no entry, so the count of L1 does not rise. -/
theorem count (h : t.Cleared) (hstore : t.store.Sublist s.store) : t.l1Count ≤ s.l1Count := by
  rw [State.l1Count, h.countBays fun x hx => (Slot.unheld hx).1, Nat.zero_add]
  exact hstore.length_le.trans (Nat.le_add_left _ _)

theorem tags (h : t.Cleared) (hstore : t.store.Sublist s.store) (hlist : t.unaccounted.Sublist s.unaccounted)
    (htags : s.bayTags.Nodup) : t.bayTags.Nodup := by
  rw [State.bayTags_nodup_iff] at htags ⊢
  intro a
  refine le_trans ?_ (htags a)
  rw [State.tagCount, h.countBays fun x hx => (Slot.unheld hx).2.2 a, Nat.zero_add, State.tagCount, Nat.add_assoc]
  exact (Nat.add_le_add ((hstore.filterMap _).count_le a) ((hlist.map _).count_le a)).trans (Nat.le_add_left _ _)

theorem headroomLaw (h : t.Cleared) (hlimit : t.headroom.limit ≤ t.ownClass)
    (hallowance : t.headroom.allowance ≤ nodeMaxPower) : t.HeadroomLaw := by
  refine ⟨hlimit, hallowance, ?_⟩
  rw [t.shares_eq, (h 0).share, (h 1).share, (h 2).share, (h 3).share]
  exact Nat.zero_le _

end State.Cleared

/-! ### Resets -/

theorem State.ResetValues.cleared {t : State} (h : t.ResetValues) : t.Cleared :=
  fun b => .of_reset (.inl rfl) (h.bays b)

theorem State.ResetValues.quiet {t : State} (h : t.ResetValues) : t.Quiet where
  attempt := by rw [h.link]
  fifo := by rw [h.link]
  replies := h.replies
  status := by rw [h.link]
  tally := by rw [h.link]
  periods := by rw [h.link]; exact ⟨rfl, rfl⟩
  silent := by rw [h.view]; exact ⟨rfl, rfl⟩

/-- A reset keeps every law: it discards the records, and the kept lists and the kept queue take no entry. -/
theorem State.ResetValues.serves {s t : State} (h : t.ResetValues) (hstore : t.store.Sublist s.store)
    (hlist : t.unaccounted.Sublist s.unaccounted)
    (htags : (t.feed.queue.map (fun e => e.pack.tag)).Sublist (s.feed.queue.map (fun e => e.pack.tag)))
    (hlimit : t.headroom.limit ≤ t.ownClass) (hqueue : t.pending = s.pending)
    (hbalance : t.tally.t1.below → s.ConservationLaw → t.tally.t1.admitted = t.tally.t1.settled +
      t.tally.t1.quarantined + t.tally.t1.orphaned + t.tally.t1.writtenOff + t.unaccounted.length) :
    s.Serves True t where
  silence _ _ := h.quiet
  errors _ := by rw [State.LinkLaw, h.link]; exact ⟨Nat.zero_lt_succ 127, Nat.zero_lt_succ 127⟩
  fifo _ := by rw [State.FifoLaw, h.link]; exact Nat.zero_le _
  replies _ p r hr := by rw [h.replies p] at hr; cases hr
  law _ := h.cleared.bayLaw
  count := (h.cleared.count hstore).trans (le_max_left _ _)
  tags := fun ⟨hbay, hshred⟩ => ⟨h.cleared.tags hstore hlist hbay, by
    have hnone : t.chute.reservation = none := by rw [h.chute]
    rw [State.shredTags, hnone]
    exact hshred.sublist ((htags.append (List.nil_sublist _)).trans (List.Sublist.refl _))⟩
  balance _ hbelow hlaw := ⟨by rw [h.cleared.held, Nat.add_zero]; exact hbalance hbelow hlaw, fun _ => h.cleared.held⟩
  headroom _ := h.cleared.headroomLaw hlimit (by rw [h.headroom.2.2.1]; exact Nat.zero_le _)
  latch _ := by rw [State.LatchLaw, h.latch]; exact .nil
  relays _ := by rw [State.RelayLaw, h.fire]; exact ⟨rfl, rfl⟩
  shown _ := by
    obtain ⟨hbays, hbeacon, hnode⟩ := h.lamps
    rw [State.LampLaw, h.startup.1, hbeacon, hnode]
    exact ⟨fun b => by rw [hbays b]; rfl, rfl, rfl⟩
  follows := by
    obtain ⟨hbays, hbeacon, hnode⟩ := h.lamps
    refine ⟨fun b => ?_, ?_, ?_⟩
    · rw [hbays b]; exact Lamp.reset_follows _
    · rw [hbeacon]; exact Lamp.reset_follows _
    · rw [hnode]; exact Lamp.reset_follows _
  queue := hqueue

theorem Lamp.tick_pattern (l : Lamp) : l.tick.pattern = l.pattern := by
  unfold Lamp.tick
  split
  · rfl
  · rfl
  · rfl

/-- Lamps that blink show the same pattern a millisecond later. -/
theorem State.LampLaw.tick {s : State} (h : s.LampLaw) : s.tick.LampLaw := by
  by_cases hreset : s.startup.life = .inReset
  · rw [State.tick, if_pos hreset]; exact h
  · obtain ⟨hbays, hbeacon, hnode⟩ := h
    rw [State.tick, if_neg hreset]
    refine ⟨fun b => ?_, (Lamp.tick_pattern _).trans hbeacon, (Lamp.tick_pattern _).trans hnode⟩
    have hslot : ((s.mapBays Bay.tick).bay b).slot = (s.bay b).slot := by rw [s.mapBays_bay]; rfl
    calc _ = (s.lamps.bays[b]).tick.pattern := by simp
      _ = (s.lamps.bays[b]).pattern := Lamp.tick_pattern _
      _ = bayPattern s.startup.life (s.bay b).slot := hbays b
      _ = _ := by rw [← hslot]; rfl

theorem Bay.Consistent.tick {x : Bay} (h : x.Consistent) : x.tick.Consistent where
  contactor := h.contactor
  sink := h.sink
  setpoint := h.setpoint
  gate := h.gate
  early := h.early
  rest := by
    rw [show x.tick.restTimer.isSome = x.restTimer.isSome from countDown_isSome _]
    exact h.rest
  answer := (countDown_isSome _).trans h.answer
  release := (countDown_isSome _).trans h.release
  transit := (countDown_isSome _).trans h.transit
  safe := by
    rw [show x.tick.backoff.isSome = x.backoff.isSome from countDown_isSome _]
    exact h.safe
  share := h.share

namespace State.Keeps

theorem powerOn (s : State) : s.Serves True s.powerOn :=
  s.powerOn_resetValues.serves (List.nil_sublist _) (List.nil_sublist _) (List.nil_sublist _) (le_refl 6000) rfl
    fun _ _ => rfl

theorem lineReset (s : State) (cause : ResetCause) : s.Serves True (s.lineReset cause) := by
  refine (s.lineReset_resetValues cause).serves (List.Sublist.refl _) (List.Sublist.refl _) ?tags le_rfl rfl ?balance
  case tags =>
    change ((keepQueue s.feed.queue).map (fun e => e.pack.tag)).Sublist _
    rw [keepQueue, List.map_map]
    exact List.Sublist.refl _
  case balance =>
    rintro ⟨-, -, -, horphaned, -⟩ ⟨hsum, -⟩
    change min (s.tally.t1.orphaned + s.held) max32 < max32 at horphaned
    change s.tally.t1.admitted = s.tally.t1.settled + s.tally.t1.quarantined +
      min (s.tally.t1.orphaned + s.held) max32 + s.tally.t1.writtenOff + s.unaccounted.length
    omega

theorem assertPin (s : State) : s.Serves True s.assertPin := by
  unfold State.assertPin
  refine .ite ?_ (lineReset s .pin)
  exact (ite (refl .clean s) ((refl .clean s).frame (by rfl))).serves

/-! ### The end of a reset -/

theorem endReset_cleared (s : State) (e : ResetSample) : (s.endReset e).Cleared := by
  intro b
  have hbay : (s.endReset e).bay b =
      bayAfterReset (decide (roleOf e.straps = some .bay)) (decide (s.startup.resetting ≠ .powerOn)) e.presence[b] := by
    simp only [State.endReset, State.light_bay]
    simp [State.bay]
  rw [hbay]
  refine .of_reset ?_ rfl
  split
  · exact .inr rfl
  · exact .inl rfl

/-- The collections of a node that is not BAY are discarded (R194). -/
theorem ite_sublist {α : Type} (p : Bool) (l : List α) : (if p = true then l else []).Sublist l := by
  split
  · exact List.Sublist.refl _
  · exact List.nil_sublist _

/-- The end of a reset keeps every law; the balance where the node is BAY, which alone keeps its collections (R194). -/
theorem endReset (s : State) (e : ResetSample) (hreset : s.startup.life = .inReset) :
    s.Serves (e.straps.role = 0) (s.endReset e) := by
  have hcleared := endReset_cleared s e
  have hstore : (s.endReset e).store.Sublist s.store := ite_sublist _ _
  have hlist : (s.endReset e).unaccounted.Sublist s.unaccounted := ite_sublist _ _
  exact {
    silence := fun hlaw _ => by
      obtain ⟨h1, h2, h3, h4, h5, h6, h7⟩ := hlaw (by rw [hreset]; decide)
      exact ⟨h1, h2, h3, h4, h5, h6, h7⟩
    errors := id
    fifo := id
    replies := id
    law := fun _ => hcleared.bayLaw
    count := (hcleared.count hstore).trans (le_max_left _ _)
    tags := fun ⟨hbay, hshred⟩ => ⟨hcleared.tags hstore hlist hbay,
      hshred.sublist (((ite_sublist _ _).map _).append_right _)⟩
    balance := fun hrole _ ⟨hsum, hnone⟩ => ⟨by
      have hkept : (s.endReset e).unaccounted = s.unaccounted := by
        change (if decide (roleOf e.straps = some .bay) = true then s.unaccounted else []) = _
        rw [if_pos (by rw [roleOf, if_pos hrole]; rfl)]
      rw [hcleared.held, hkept, ← hnone hreset]
      exact hsum, fun _ => hcleared.held⟩
    headroom := fun ⟨_, hmax, _⟩ => hcleared.headroomLaw le_rfl hmax
    latch := id
    relays := id
    shown := fun _ => State.light_lampLaw _
    follows := State.light_follows _
    queue := rfl }

/-! ### The entry to RUNNING -/

theorem startPurge {s u : State} {g : Stage} (h : s.Keeps g u) : s.Keeps g u.startPurge := ite (h.frame (by rfl)) h

theorem startPurge_startup (s : State) : s.startPurge.startup = s.startup := by
  unfold State.startPurge
  split
  · rfl
  · rfl

theorem enterRunning (s : State) : s.Serves True s.enterRunning := by
  let t : State := { s with startup := { s.startup with life := .running, listenTimer := none }
                            view := { s.view with silenceTimer := some silenceMs } }
  have hclear (h : s.lineClear = true) : t.lineClear = true := by
    obtain ⟨-, hsilent, hfire⟩ := s.lineClear_iff.1 h
    exact t.lineClear_iff.2 ⟨rfl, hsilent, hfire⟩
  have hrun : s.Keeps .unlit t :=
    (refl .unlit s).of_parts (.of_part rfl rfl (fun h => by cases h) hclear)
      ⟨fun _ hnot => absurd rfl hnot, id, id, id⟩ id id rfl rfl (fun _ => id) fun he => by cases he
  have hlife (_ : s.SilenceLaw) : t.startPurge.startup.life = .running := by rw [startPurge_startup]
  have hstarted := hrun.startPurge.relink hlife
    (l := { t.startPurge.link with statusTimer := some fastPeriod, tallyTimer := some slowPeriod }) rfl rfl rfl
  exact ((hstarted.placeStatus hlife).placeTally (fun hlaw => by rw [State.placeStatus_startup]; exact hlife hlaw)).light

/-! ### The clock -/

/-- A millisecond without its effect on the lamps. -/
def tickUnlit (s : State) : State := { s.tick with lamps := s.lamps }

theorem tickUnlit_keeps (s : State) : s.Keeps .clean (tickUnlit s) := by
  unfold tickUnlit
  by_cases hreset : s.startup.life = .inReset
  · rw [State.tick, if_pos hreset]; exact refl .clean s
  · rw [State.tick, if_neg hreset]
    have hbay (b : BayNo) : (s.mapBays Bay.tick).bay b = (s.bay b).tick := s.mapBays_bay Bay.tick b
    refine (refl .clean s).of_parts (.of_bays (fun b => ?carries) rfl id ⟨rfl, rfl⟩ ⟨rfl, rfl⟩ rfl)
      (.of_buffers (fun hlaw hnot => ?quiet) rfl (le_max_left _ _) fun _ _ => .inl) id id rfl rfl (fun _ => id)
      fun _ => ⟨rfl, rfl, rfl, fun b => ?shown⟩
    case carries =>
      have hcarries : (s.bay b).Carries s s (s.bay b).tick := .of_slot rfl rfl rfl Bay.Consistent.tick
      rw [← hbay b] at hcarries
      exact ⟨hcarries.tag, hcarries.counted, hcarries.share, hcarries.lawful⟩
    case quiet =>
      obtain ⟨h1, h2, h3, h4, h5, ⟨hstatus, htally⟩, hsilent, htimer⟩ := hlaw hnot
      exact ⟨h1, h2, h3, h4, h5, ⟨by rw [hstatus]; rfl, by rw [htally]; rfl⟩, hsilent, by rw [htimer]; rfl⟩
    case shown =>
      change bayPattern s.startup.life ((s.mapBays Bay.tick).bay b).slot = bayPattern s.startup.life (s.bay b).slot
      rw [hbay b]
      rfl

/-- A millisecond keeps every law. -/
theorem tick (s : State) : s.KeepsLaws True s.tick :=
  have h := (tickUnlit_keeps s).serves
  { silence := fun hlaw hnot => by
      obtain ⟨h1, h2, h3, h4, h5, h6, h7⟩ := h.silence hlaw hnot
      exact ⟨h1, h2, h3, h4, h5, h6, h7⟩
    errors := h.errors
    fifo := h.fifo
    replies := h.replies
    law := h.law
    count := h.count
    tags := h.tags
    balance := h.balance
    headroom := h.headroom
    latch := h.latch
    relays := h.relays
    shown := State.LampLaw.tick }

end State.Keeps

end Sys2Proof.Machine
end

