-- ==== Sys2Proof/Proofs/KeepsExec.lean ====
section
/-! Every command keeps every law, and every step does: the statements about L1, L2, L3, L6, L11, the headroom bounds, the
outputs and the buffers, and that every command completes. -/

namespace Sys2Proof.Machine

open Sys2Proof Sys2Proof.Config

theorem State.answerHeld_startup (s : State) (p : TerminalNo) : (s.answerHeld p).startup = s.startup := by
  unfold State.answerHeld
  split
  · rfl
  · rfl

theorem State.sent_startup (s : State) (b : Buffer) : (s.sent b).startup = s.startup := by
  cases b with
  | reply p => exact State.answerHeld_startup _ p
  | alarm c => rfl
  | handoff => rfl
  | status => rfl
  | tally => rfl

namespace State.Keeps

variable {s u : State}

/-- A command that answers `t`, which keeps every law. -/
theorem execNext {c : Instr} {p : Prop} {t : State} (hexec : exec c s = .next t) (h : s.Serves True t) :
    ∃ t : State, exec c s = .next t ∧ s.Serves p t := ⟨t, hexec, h.mono fun _ => trivial⟩

theorem serves_self (s : State) : s.Serves True s := (refl .clean s).serves

/-- A command that leaves the state as it is unless its condition holds. -/
theorem servesIf {p : Prop} [Decidable p] {t : State} (h : s.Serves True t) : s.Serves True (if p then t else s) :=
  .ite h (serves_self s)

/-- The same where the condition is part of the reason. -/
theorem servesWhen {p : Prop} [Decidable p] {t : State} (h : p → s.Serves True t) :
    s.Serves True (if p then t else s) := by
  split
  · next hp => exact h hp
  · exact serves_self s

theorem succeed {a : Attempt} (ha : s.link.attempt = some a) : s.Serves True (s.succeed a.buffer) := by
  have hrun (hlaw : s.SilenceLaw) : s.startup.life = .running := hlaw.of_attempt (by rw [ha]; rfl)
  have herrors : s.Keeps .clean (s.setErrors (s.link.txErrors - 1) s.link.rxErrors) :=
    (refl .clean s).setErrors LinkKeeps.rxErrors_le
  have hsent := herrors.sent (fun hlaw => by rw [State.setErrors_startup]; exact hrun hlaw) a.buffer
  refine .ite (lineReset s .request) (hsent.endAttempt fun hlaw => ?_).serves
  rw [State.sent_startup, State.setErrors_startup]
  exact hrun hlaw

theorem transmitError (ackOnly : Bool) (hattempt : s.link.attempt.isSome = true) : s.Serves True
    (s.setErrors (txErrorsNext s.link.txErrors ackOnly (decide (s.link.state = .passive))) s.link.rxErrors).endAttempt := by
  refine (endAttempt ((refl .clean s).setErrors LinkKeeps.rxErrors_le) fun hlaw => ?_).serves
  rw [State.setErrors_startup]
  exact hlaw.of_attempt hattempt

theorem arbitrationLost (hattempt : s.link.attempt.isSome = true) : s.Serves True s.endAttempt :=
  ((refl .clean s).endAttempt fun hlaw => hlaw.of_attempt hattempt).serves

theorem receiveMessage (s : State) (message : Byte) (f : HandoffFrame) : s.Serves True (s.receiveMessage message f) := by
  refine receiveHandoff (fun u hu n b => ?_) message f
  split
  · exact hu.takeOffer f n b
  · exact hu.takeTaken f n b
  · exact hu.takeDecline f n b
  · exact hu.takeWithdraw f n b
  · exact hu.takeSettle f n b
  · exact hu.countForeign

theorem receiveWire (s : State) (w : WireFrame) : s.Serves True (s.receiveWire w) := by
  have hforeign (odd : Bool) (n : Nat) : s.Serves True (s.receive odd w.kind w.src w.dst n State.countForeign) :=
    receive (eased s).countForeign odd _ _ _ _
  unfold State.receiveWire
  refine .ite (hforeign _ _) (.ite (hforeign _ _) (.ite (receiveMessage s _ _) (.ite ?_ (.ite ?_ (.ite ?_ ?_)))))
  · exact serve (fun u hu => .evaluate hu _ _) _ _
  · exact receive ((eased s).takeStatus _ _) _ _ _ _ _
  · exact receive ((eased s).takeTally _ _) _ _ _ _ _
  · exact receive (eased s).serves _ _ _ _ _

/-- Every command answers a next state that keeps every law; the end of a reset keeps the balance at a BAY node. -/
theorem exec_serves (c : Instr) (s : State) :
    ∃ t : State, exec c s = .next t ∧ s.Serves (∀ e : ResetSample, c = .endOfReset e → e.straps.role = 0) t := by
  have hrequest (code : Byte) (f : RequestFrame) {eval : RequestFrame → State → Answer}
      (h : ∀ u : State, s.Keeps .clean u → (eval f u).Serves s u) : s.Serves True (s.serve code f (eval f)) :=
    serve h code f
  have hfeed {f : Feed} (hqueue : f.queue = s.feed.queue) : s.Keeps .clean { s with feed := f } :=
    (refl .clean s).setFeed (by rw [hqueue])
  cases c with
  | powerOnReset => exact execNext rfl (powerOn s)
  | resetPinAsserted => exact execNext rfl (assertPin s)
  | endOfReset e =>
    refine ⟨_, rfl, ?_⟩
    split
    · next hreset => exact (endReset s e hreset).mono fun h => h e rfl
    · exact (serves_self s).mono fun _ => trivial
  | listenTimerExpiry => exact execNext rfl (servesIf (enterRunning s))
  | bayConversion b x => exact execNext rfl (servesIf (convert s b x))
  | restTimerExpiry b => exact execNext rfl (servesIf (restExpires s b))
  | headroomComputation => exact execNext rfl (servesIf (computeHeadroom s))
  | offerCheck => exact execNext rfl (servesIf (checkOffers ((refl .clean s).frame (by rfl))))
  | answerTimerExpiry b => exact execNext rfl (servesIf (answerExpires s b))
  | offerBackoffExpiry b => exact execNext rfl (backoffExpires s b)
  | releaseTimerExpiry b => exact execNext rfl (servesIf (releaseExpires s b))
  | transitTimerExpiry b => exact execNext rfl (servesIf (transitExpires s b))
  | offerReceived f => exact execNext rfl (receiveHandoff (fun _ hu n b => hu.takeOffer f n b) 0 f)
  | takeReceived f => exact execNext rfl (receiveHandoff (fun _ hu n b => hu.takeTaken f n b) 1 f)
  | declineReceived f => exact execNext rfl (receiveHandoff (fun _ hu n b => hu.takeDecline f n b) 2 f)
  | withdrawReceived f => exact execNext rfl (receiveHandoff (fun _ hu n b => hu.takeWithdraw f n b) 3 f)
  | settleReceived f => exact execNext rfl (receiveHandoff (fun _ hu n b => hu.takeSettle f n b) 4 f)
  | chuteArrival => exact execNext rfl (servesIf (arrival s))
  | chuteArrivalSensorClear => exact execNext rfl (servesIf (serves ((refl .clean s).frame (by rfl))))
  | arrivalTimerExpiry => exact execNext rfl (servesIf (serves ((refl .clean s).dropReservation.frame (by rfl))))
  | feedPeriodExpiry => exact execNext rfl (servesIf (feedPeriod s))
  | rotorFeedbackOn => exact execNext rfl (servesIf (feedbackRises s))
  | rotorFeedbackOff => exact execNext rfl (servesIf (feedbackFalls s))
  | startTimerExpiry => exact execNext rfl (servesIf (serves (addReason (hfeed (by rfl)))))
  | stopTimerExpiry => exact execNext rfl (servesIf (serves (addReason (hfeed (by rfl)))))
  | idleTimerExpiry => exact execNext rfl (servesIf (enterStopping s))
  | feedConfirmSet => exact execNext rfl (servesIf (confirmRises s))
  | feedConfirmClear => exact execNext rfl (servesIf (serves (hfeed (by rfl))))
  | feedTimerExpiry => exact execNext rfl (servesIf (feedExpires s))
  | atmosSample x => exact execNext rfl (servesIf (sampleAtmos s x))
  | purgeSlowDeadline =>
    exact execNext rfl (servesIf (raise (u := { s with atmos := { s.atmos with slow := true } })
      ((refl .clean s).frame (by rfl)) .purgeSlow .none none).serves)
  | purgeLockoutDeadline =>
    exact execNext rfl (servesIf (serves (frame (raise (u := s.enterLockout) ((refl .clean s).frame (by rfl))
      .purgeLockout .none none) (by rfl))))
  | fireSample x => exact execNext rfl (servesIf (sampleFire s x))
  | statusReceived src dst f => exact execNext rfl (receive ((eased s).takeStatus src f) _ _ _ _ _)
  | tallyReceived src dst f => exact execNext rfl (receive ((eased s).takeTally src f) _ _ _ _ _)
  | alarmReceived src dst f => exact execNext rfl (receive (eased s).serves _ _ _ _ _)
  | foreignFrameReceived w => exact execNext rfl (receiveWire s w)
  | framePassedBy w => exact execNext rfl (receiveWire s w)
  | receiveError =>
    exact execNext rfl (servesIf ((refl .clean s).setErrors fun _ => min_le_right _ _).serves)
  | peerAgeStale n => exact execNext rfl (servesIf (reviewLine ((refl .clean s).frame (by rfl))))
  | peerAgeLost n => exact execNext rfl (servesIf (losePeer s n))
  | repeatWindowExpiry a => exact execNext rfl (serves ((refl .clean s).frame (by rfl)))
  | silenceTimerExpiry => exact execNext rfl (servesWhen (fallSilent s))
  | statusPeriodExpiry => exact execNext rfl (statusPeriod s)
  | tallyPeriodExpiry => exact execNext rfl (tallyPeriod s)
  | transmitSelection => exact execNext rfl (selection s)
  | transmitSuccess =>
    refine execNext rfl ?_
    split
    · next a ha => exact succeed ha
    · exact serves_self s
  | arbitrationLost => exact execNext rfl (servesWhen arbitrationLost)
  | transmitError ackOnly => exact execNext rfl (servesWhen (transmitError ackOnly))
  | busIdleSighting => exact execNext rfl (servesIf ((refl .clean s).line (.sight s) (by rfl)).serves)
  | admitPack f => exact execNext rfl (hrequest 1 f fun _ hu => .admitPack hu f)
  | abort f => exact execNext rfl (hrequest 2 f fun _ hu => .abort hu f)
  | resume f => exact execNext rfl (hrequest 3 f fun _ hu => .resume hu f)
  | quarantineIn f => exact execNext rfl (hrequest 4 f fun _ hu => .quarantineIn hu f)
  | quarantineOut f => exact execNext rfl (hrequest 5 f fun _ hu => .quarantineOut hu f)
  | accountClear f => exact execNext rfl (hrequest 6 f fun _ hu => .accountClear hu f)
  | alarmReset f => exact execNext rfl (hrequest 7 f fun _ hu => .alarmReset hu f)
  | purgeReset f => exact execNext rfl (hrequest 8 f fun _ hu => .purgeReset hu f)
  | flush f => exact execNext rfl (hrequest 9 f fun _ hu => .flush hu f)
  | shredReset f => exact execNext rfl (hrequest 10 f fun _ hu => .shredReset hu f)
  | peerForget f => exact execNext rfl (hrequest 11 f fun _ hu => .peerForget hu f)
  | readRecord f => exact execNext rfl (hrequest 12 f fun _ hu => .readRecord hu f)
  | readTally f => exact execNext rfl (hrequest 13 f fun _ hu => .readTally hu f)
  | readQuarantine f => exact execNext rfl (hrequest 14 f fun _ hu => .readQuarantine hu f)
  | identify f => exact execNext rfl (hrequest 15 f fun _ hu => .identify hu f)
  | nodeReset f => exact execNext rfl (hrequest 16 f fun _ hu => .nodeReset hu f)
  | unknownRequest code f => exact execNext rfl (hrequest code f fun _ hu => .evaluate hu code f)

end State.Keeps

/-! ### Steps -/

/-- A step keeps every law. -/
theorem step_keepsLaws {s t : State} (h : step s = .next t) :
    s.KeepsLaws (∀ (e : ResetSample) (rest : List Instr), s.pending = .endOfReset e :: rest → e.straps.role = 0) t := by
  unfold step at h
  split at h
  · next c rest hpending =>
    obtain ⟨u, hexec, hu⟩ := State.Keeps.exec_serves c { s with pending := rest }
    obtain rfl : u = t := Host.Outcome.next.inj (hexec.symm.trans h)
    exact { hu with
      silence := fun hlaw => hu.silence fun hnot => State.Quiet.congr (s := s) rfl (hlaw hnot)
      balance := fun hrole => hu.balance fun e hc => hrole e rest (by rw [hpending, hc]) }
  · obtain rfl := Host.Outcome.next.inj h
    exact { State.Keeps.tick s with balance := fun _ => (State.Keeps.tick s).balance trivial }

/-- At a command every lamp follows the rule for its pattern. -/
theorem step_lampsFollow {s t : State} (hpending : s.pending ≠ []) (h : step s = .next t) : s.LampsFollow t := by
  unfold step at h
  split at h
  · next c rest _ =>
    obtain ⟨u, hexec, hu⟩ := State.Keeps.exec_serves c { s with pending := rest }
    obtain rfl : u = t := Host.Outcome.next.inj (hexec.symm.trans h)
    exact hu.follows
  · next hnone => exact absurd hnone hpending

end Sys2Proof.Machine

namespace Sys2Proof.Proofs

open Sys2Proof Sys2Proof.Machine Sys2Proof.Config

/-- Settles O3: every command answers a next state and leaves the queue (`exec_serves`). -/
theorem everyCommandCompletes : Obligations.EveryCommandCompletes := fun c s => by
  obtain ⟨t, hexec, ht⟩ := State.Keeps.exec_serves c s
  exact ⟨t, hexec, ht.queue⟩

/-- Settles O50: L6 and the outputs of the bays are kept by every step, and a closed contactor is that of a bay in
DISCHARGING, which the law has under a clear line only. -/
theorem bayLawKept : Obligations.BayLawKept := by
  refine ⟨fun s t hlaw h => (step_keepsLaws h).law hlaw, fun s b hlaw hclosed => ?_⟩
  obtain ⟨hconsistent, -, hclear⟩ := hlaw b
  have hdischarging : (s.bay b).slot.isDischarging = true := hconsistent.contactor ▸ hclosed
  exact ⟨hdischarging, s.lineClear_iff.1 (hclear hdischarging)⟩

/-- Settles O53: the count of L1 rises to the capacity at most, and the tags stay single (`step_keepsLaws`). -/
theorem capacityAndTagLawsKept : Obligations.CapacityAndTagLawsKept := by
  refine ⟨fun s t h => (step_keepsLaws h).count, fun s t hlaw h hcapacity => ?_, fun s t hlaw h => (step_keepsLaws h).tags hlaw⟩
  have hcount := (step_keepsLaws h).count
  rw [State.QuarantineLaw, hcapacity] at *
  exact hcount.trans (max_le hlaw le_rfl)

/-- Settles O54: each arm that moves a tally of L3 moves the records with it (`step_keepsLaws`). -/
theorem conservationLawKept : Obligations.ConservationLawKept :=
  fun _ _ hlaw h hbelow hrole => (step_keepsLaws h).balance hrole hbelow hlaw

/-- Settles O55: shares are handed out by a computation alone, which keeps their sum within the allowance. -/
theorem headroomLawKept : Obligations.HeadroomLawKept := fun _ _ hlaw h => (step_keepsLaws h).headroom hlaw

/-- Settles O56: the laws of outputs and buffers are kept by every step, the tables of the patterns are read off, and a
lamp that changes its pattern starts it at the beginning (`step_lampsFollow`). -/
theorem outputsAndBuffersKept : Obligations.OutputsAndBuffersKept := by
  refine ⟨fun s t hlaw h => (step_keepsLaws h).relays hlaw, fun s t hlaw h => (step_keepsLaws h).shown hlaw,
    fun s t hlaw h => (step_keepsLaws h).errors hlaw, fun s t hlaw h => (step_keepsLaws h).latch hlaw,
    fun s t hlaw h => (step_keepsLaws h).fifo hlaw, fun s t hlaw h => (step_keepsLaws h).replies hlaw,
    fun life r n c hhalted hreset => ?bays, fun x => ⟨?halted, ?reset⟩, fun life impaired hreset => ?beacon,
    fun zone impaired => ?dark, rfl, fun x => ⟨fun hoff => ?off, fun hsteady => ?steady, fun a b hblink => ?blink⟩,
    fun s t hpending h => step_lampsFollow hpending h⟩
  case bays => simp [bayPattern, hhalted, hreset]
  case halted => simp [bayPattern]
  case reset => simp [bayPattern]
  case beacon => simp [beaconPattern, hreset]
  case dark => simp [beaconPattern]
  case off => rw [Lamp.lit, hoff]
  case steady => rw [Lamp.lit, hsteady]
  case blink => rw [Lamp.lit, hblink]; exact decide_eq_true_iff

/-- Settles O57: outside RUNNING nothing is formed, placed or timed for sending. -/
theorem silenceLawKept : Obligations.SilenceLawKept := fun _ _ hlaw h => (step_keepsLaws h).silence hlaw

end Sys2Proof.Proofs
end

