-- ==== Sys2Proof/Proofs/Startup.lean ====
section
/-! The clock, the resets and their end, and the entry to RUNNING. -/

namespace Sys2Proof.Machine

open Sys2Proof Sys2Proof.Config

/-! ### The clock -/

theorem countDown_eq_map (x : Timer) : countDown x = x.map (fun n => n - 1) := by cases x <;> rfl

theorem countUp_eq_map (limit : Nat) (x : Timer) : countUp limit x = x.map (fun n => min (n + 1) limit) := by
  cases x <;> rfl

/-- A millisecond moves the phase of a lamp that blinks, and nothing else of a lamp. -/
theorem Lamp.tick_moves (x : Lamp) : x.tick.pattern = x.pattern ∧
    (x.pattern = .off ∨ x.pattern = .steady → x.tick.phase = x.phase) ∧
    ∀ a b : Nat, x.pattern = .blink a b → x.tick.phase = (x.phase + 1) % (a + b) := by
  refine ⟨Lamp.tick_pattern x, ?_, ?_⟩
  · rintro (h | h)
    · rw [Lamp.tick, h]
    · rw [Lamp.tick, h]
  · intro a b h
    rw [Lamp.tick, h]

/-- A millisecond outside a reset. -/
theorem State.tick_of_awake {s : State} (h : s.startup.life ≠ .inReset) : s.tick =
    { s.mapBays Bay.tick with
      startup := { s.startup with nodeTime := s.startup.nodeTime + 1, listenTimer := countDown s.startup.listenTimer }
      headroom := { s.headroom with timer := countDown s.headroom.timer }
      handoff := { s.handoff with offerTimer := countDown s.handoff.offerTimer }
      chute := { s.chute with arrivalTimer := countDown s.chute.arrivalTimer }
      feed := { s.feed with startTimer := countDown s.feed.startTimer, stopTimer := countDown s.feed.stopTimer
                            idleTimer := countDown s.feed.idleTimer, feedTimer := countDown s.feed.feedTimer
                            periodTimer := countDown s.feed.periodTimer }
      atmos := { s.atmos with stageTimer := countUp purgeLockoutMs s.atmos.stageTimer
                              sampleTimer := countDown s.atmos.sampleTimer }
      fire := { s.fire with sampleTimer := countDown s.fire.sampleTimer }
      view := { s.view with silenceTimer := countDown s.view.silenceTimer }
      link := { s.link with statusTimer := countDown s.link.statusTimer, tallyTimer := countDown s.link.tallyTimer }
      peers := s.tick.peers, filter := s.tick.filter, lamps := s.tick.lamps } := by
  rw [State.tick, if_neg h]

theorem State.tick_bay {s : State} (h : s.startup.life ≠ .inReset) (b : BayNo) : s.tick.bay b = (s.bay b).tick := by
  rw [State.tick_of_awake h]
  exact s.mapBays_bay Bay.tick b

theorem State.tick_peers {s : State} (h : s.startup.life ≠ .inReset) (n : NodeNo) :
    s.tick.peers[n] = { s.peers[n] with age := countUp lostMs (s.peers[n]).age } := by
  rw [State.tick, if_neg h]
  simp

theorem State.tick_filter {s : State} (h : s.startup.life ≠ .inReset) (a : Fin 15) :
    s.tick.filter[a] = { s.filter[a] with window := countDown (s.filter[a]).window } := by
  rw [State.tick, if_neg h]
  simp

theorem State.tick_lamps {s : State} (h : s.startup.life ≠ .inReset) :
    (∀ b : BayNo, s.tick.lamps.bays[b] = (s.lamps.bays[b]).tick) ∧ s.tick.lamps.beacon = s.lamps.beacon.tick ∧
      s.tick.lamps.node = s.lamps.node.tick := by
  rw [State.tick, if_neg h]
  exact ⟨fun b => by simp, rfl, rfl⟩

/-! ### The end of a reset -/

theorem roleOf_bay (x : Straps) : roleOf x = some .bay ↔ x.role = 0 := by
  unfold roleOf
  split_ifs <;> simp_all

theorem roleOf_shred (x : Straps) : roleOf x = some .shred ↔ x.role = 1 := by
  unfold roleOf
  split_ifs <;> simp_all

theorem strapsValid_iff (x : Straps) : strapsValid x = true ↔ x.node.toNat ≤ 11 ∧ x.role.toNat ≤ 2 := by
  have hrole : (roleOf x).isSome = true ↔ x.role.toNat ≤ 2 := by
    unfold roleOf
    split_ifs with h0 h1 h2
    · simp [h0]
    · simp [h1]
    · simp [h2]
    · simp only [Option.isSome_none, Bool.false_eq_true, false_iff]
      bv_omega
  simp only [strapsValid, Bool.and_eq_true, decide_eq_true_eq, hrole]

theorem State.endReset_bay (s : State) (e : ResetSample) (b : BayNo) : (s.endReset e).bay b =
    bayAfterReset (decide (e.straps.role = 0)) (decide (s.startup.resetting ≠ .powerOn)) e.presence[b] := by
  simp only [State.endReset, State.light_bay, roleOf_bay]
  simp [State.bay]

/-! ### The entry to RUNNING -/

theorem State.StatusOf.light {s : State} {f : StatusFrame} (h : s.StatusOf f) : s.light.StatusOf f := by
  obtain ⟨h1, h2, h3, h4, h5, h6, h7, h8, h9, h10, h11, h12, h13, h14, h15⟩ := h
  exact ⟨h1, h2, h3, h4, h5, h6, h7, h8, h9, h10, h11, h12, h13, h14, h15⟩

theorem State.startPurge_eq (s : State) : s.startPurge =
    { s with atmos := s.startPurge.atmos, tally := { s.tally with t5 := s.startPurge.tally.t5 } } := by
  unfold State.startPurge
  split
  · rfl
  · rfl

/-- A SHRED node in AIR starts its purge (R114). -/
theorem State.startPurge_purges {s : State} (h : s.isShred = true ∧ s.atmos.state = .air) : s.startPurge.atmos =
      { s.atmos with state := .purging, purge := true, flood := false, qualify := 0, stageTimer := some 0
                     slow := false, loss := false } ∧
    s.startPurge.tally.t5 = { s.tally.t5 with purgeEntries := min (s.tally.t5.purgeEntries + 1) max32 } := by
  rw [State.startPurge, if_pos (by simpa using h)]
  exact ⟨rfl, rfl⟩

theorem State.startPurge_stays {s : State} (h : ¬ (s.isShred = true ∧ s.atmos.state = .air)) : s.startPurge = s := by
  rw [State.startPurge, if_neg (by simpa using h)]

/-- The first STATUS and the first TALLY are formed one after the other (R165). -/
theorem State.placeBoth_eq (u : State) : u.placeStatus.placeTally = { u with
    link := { u.link with status := some u.formStatus, statusSeq := u.link.statusSeq + 1
                          tally := some u.placeStatus.formTally, tallySeq := u.link.tallySeq + 1 }
    tally := { u.tally with
      t6 := (u.tally.t6.afterFormation u.link.status.isSome).afterFormation u.link.tally.isSome } } := by
  rw [State.placeTally_eq, State.placeStatus_eq]

theorem State.placeBoth_statusOf (u : State) : u.placeStatus.placeTally.light.StatusOf u.formStatus :=
  .light (.congr (by rw [u.placeBoth_eq]) u.formStatus_statusOf)

/-- The node in RUNNING with its timers started, before the first frames are formed. -/
def State.started (s : State) : State :=
  let t : State := { s with startup := { s.startup with life := .running, listenTimer := none }
                            view := { s.view with silenceTimer := some silenceMs } }
  { t.startPurge with link := { t.startPurge.link with statusTimer := some fastPeriod, tallyTimer := some slowPeriod } }

theorem State.enterRunning_eq (s : State) : s.enterRunning = s.started.placeStatus.placeTally.light := rfl

end Sys2Proof.Machine

namespace Sys2Proof.Proofs

open Sys2Proof Sys2Proof.Machine Sys2Proof.Config

/-- Settles O1: a step is the command at the front. -/
theorem stepRunsFrontCommand : Obligations.StepRunsFrontCommand := fun c rest s h => by rw [step, h]

/-- Settles O2: an empty queue leaves the step to the clock, which moves each timer, age and phase by one. -/
theorem idleStepMovesTheClock : Obligations.IdleStepMovesTheClock := by
  refine fun s h => ⟨s.tick, by rw [step, h], fun hreset => by rw [State.tick, if_pos hreset], fun hawake => ?_⟩
  obtain ⟨hbays, hbeacon, hnode⟩ := s.tick_lamps hawake
  have heq := State.tick_of_awake hawake
  simp only [countDown_eq_map, countUp_eq_map] at heq
  refine ⟨congrArg State.startup heq, fun b => ?_, congrArg State.headroom heq, congrArg State.handoff heq,
    congrArg State.chute heq, congrArg State.feed heq, congrArg State.atmos heq, congrArg State.fire heq,
    congrArg State.view heq, congrArg State.link heq, fun n => ?_, fun a => ?_, fun b => ?_, ?_, ?_, ?_⟩
  · rw [State.tick_bay hawake, Bay.tick]
    simp only [countDown_eq_map]
  · rw [State.tick_peers hawake, countUp_eq_map]; rfl
  · rw [State.tick_filter hawake, countDown_eq_map]
  · rw [hbays b]; exact Lamp.tick_moves _
  · rw [hbeacon]; exact Lamp.tick_moves _
  · rw [hnode]; exact Lamp.tick_moves _
  · rw [State.tick_of_awake hawake]; rfl

/-- Settles O59: after a power-on reset nothing is held, driven, counted or placed. -/
theorem resetMeetsTheLaws : Obligations.ResetMeetsTheLaws := by
  have hvalues := State.reset_resetValues
  have hcleared := hvalues.cleared
  refine ⟨?view, hcleared.bayLaw, ?feed, ?intake, ?transfer, ?room, ?tags, ?balance, hcleared.headroomLaw le_rfl
    (Nat.zero_le _), ⟨rfl, rfl⟩, ⟨fun b => ?lamps, rfl, rfl⟩, ⟨by decide, by decide⟩, .nil, Nat.zero_le _,
    fun p r hr => ?reply, fun _ => hvalues.quiet⟩
  case view => exact ⟨rfl, rfl⟩
  case feed =>
    refine ⟨?_, ?_, fun h => (by cases h), fun _ => rfl⟩
    · constructor <;> simp [State.reset, Atmos.reset]
    · constructor <;> simp [State.reset, Feed.reset, Chute.reset, Rotor.commanded]
  case intake => exact Nat.zero_le _
  case transfer =>
    have hflight := hcleared.countBays (p := Slot.inFlight) fun x hx => by
      cases x with
      | pack st r => cases hx
      | _ => rfl
    have hoffered := hcleared.countBays (p := Slot.isOffered) fun x hx => by
      cases x with
      | pack st r => cases hx
      | _ => rfl
    exact ⟨by rw [State.transfers, hflight]; exact Nat.zero_le _, by rw [hoffered]; exact Nat.zero_le _⟩
  case room => exact show State.reset.l1Count ≤ State.reset.capacity by decide
  case tags =>
    refine ⟨(State.bayTags_nodup_iff _).2 fun a => ?_, List.nodup_nil⟩
    rw [State.tagCount, hcleared.countBays fun x hx => (Slot.unheld hx).2.2 a]
    exact Nat.zero_le _
  case balance => exact ⟨by rw [hcleared.held]; rfl, fun _ => hcleared.held⟩
  case lamps => rw [hvalues.lamps.1 b]; rfl
  case reply => rw [hvalues.replies p] at hr; cases hr

/-- Settles O4: the values are those of the reset tables, whatever a line reset keeps (`lineReset_begins`). -/
theorem resetsBegin : Obligations.ResetsBegin := by
  refine ⟨fun _ => rfl, State.reset_resetValues, rfl, rfl, rfl, rfl, rfl, rfl, rfl, rfl, rfl, fun n => ?_, rfl, rfl, rfl,
    fun s hawake => ⟨_, rfl, ?_⟩, fun s hreset hpower => ?_, fun s hreset hline => ?_⟩
  · simp [State.reset, Tally.reset]
  · rw [State.assertPin, if_neg hawake]; exact s.lineReset_begins .pin
  · exact congrArg Host.Outcome.next (by rw [State.assertPin, if_pos hreset, if_pos hpower])
  · exact congrArg Host.Outcome.next (by rw [State.assertPin, if_pos hreset, if_neg hline])

/-- Settles O5: what the end of a reset samples and rebuilds is read off `State.endReset`. -/
theorem endOfResetRebuilds : Obligations.EndOfResetRebuilds := by
  intro s e hreset
  have hexec : exec (.endOfReset e) s = .next (s.endReset e) :=
    congrArg Host.Outcome.next (if_pos hreset)
  refine ⟨_, hexec, ?_⟩
  dsimp only
  simp only [← strapsValid_iff]
  refine ⟨rfl, rfl, rfl, rfl, ?lineResets, fun hvalid => ?listen, fun hinvalid => ?halted, fun b => ?bay, ?store, ?list,
    ?headroom, ?handoff, ?chute, ?feed, ?atmos, rfl, rfl⟩
  case listen => exact ⟨if_pos hvalid, if_pos hvalid⟩
  case halted => exact ⟨if_neg hinvalid, if_neg hinvalid⟩
  case bay => rw [s.endReset_bay e b]; simp [bayAfterReset, and_assoc, Bay.reset, Readings.reset]
  case lineResets => simp [State.endReset, resetsNext, satAdd]
  all_goals simp [State.endReset, roleOf_bay, roleOf_shred, fastPeriod, slowPeriod, classWatts]
/-- Settles O6: the node starts its timers and at a SHRED node its purge, and forms the first STATUS and TALLY of the
state that results. -/
theorem listenExpiryEntersRunning : Obligations.ListenExpiryEntersRunning := by
  intro s n htimer
  have hexec : exec .listenTimerExpiry s = .next s.enterRunning := congrArg Host.Outcome.next (if_pos (by rw [htimer]; rfl))
  have hstarted : s.started = { s with
      startup := { s.startup with life := .running, listenTimer := none }
      view := { s.view with silenceTimer := some silenceMs }
      link := { s.link with statusTimer := some fastPeriod, tallyTimer := some slowPeriod }
      atmos := s.started.atmos, tally := { s.tally with t5 := s.started.tally.t5 } } := by
    rw [State.started, State.startPurge_eq]
  have hlink : s.started.link = { s.link with statusTimer := some fastPeriod, tallyTimer := some slowPeriod } :=
    congrArg State.link hstarted
  have heq : s.enterRunning = { s.started with
      link := { s.started.link with
        status := some s.started.formStatus, statusSeq := s.started.link.statusSeq + 1
        tally := some s.started.placeStatus.formTally, tallySeq := s.started.link.tallySeq + 1 }
      tally := { s.started.tally with
        t6 := (s.started.tally.t6.afterFormation s.started.link.status.isSome).afterFormation
          s.started.link.tally.isSome }
      lamps := s.enterRunning.lamps } := by
    rw [s.enterRunning_eq, State.placeBoth_eq]
    rfl
  have htally : s.enterRunning.tally = { s.started.tally with
      t6 := (s.started.tally.t6.afterFormation s.link.status.isSome).afterFormation s.link.tally.isSome } := by
    rw [heq, hlink]
  have hstartup : s.enterRunning.startup = s.started.startup := by rw [heq]
  refine ⟨_, hexec, hstartup.trans (congrArg State.startup hstarted),
    (show s.enterRunning.view = s.started.view by rw [heq]).trans (congrArg State.view hstarted),
    ⟨s.started.formStatus, s.started.placeStatus.formTally, ?link, ?seq, ?status, ?tallySeq, fun hstatus hnone => ?tally⟩,
    fun hpurge => ?purges, fun hpurge => ?stays, ?frame⟩
  case link => rw [heq, hlink]; rfl
  case seq => exact show s.started.link.statusSeq = s.link.statusSeq by rw [hlink]
  case status => exact s.started.placeBoth_statusOf
  case tallySeq =>
    change s.started.placeStatus.link.tallySeq = s.link.tallySeq
    rw [State.placeStatus_eq, hlink]
  case tally =>
    have hsame : s.enterRunning.tally = s.started.tally := by rw [htally, hstatus, hnone]; rfl
    have hplaced : s.started.placeStatus.tally = s.started.tally := by
      rw [State.placeStatus_eq, show s.started.link.status = none by rw [hlink]; exact hstatus]; rfl
    refine ⟨.congr (s := s.started.placeStatus) (by rw [hstartup, State.placeStatus_startup]) ?_, ?_⟩
    · rw [hsame, ← hplaced]; exact s.started.placeStatus.formTally_tallyOf
    · rw [hsame, hstarted]
  case purges =>
    let u : State := { s with startup := { s.startup with life := .running, listenTimer := none }
                              view := { s.view with silenceTimer := some silenceMs } }
    obtain ⟨hatmos, ht5⟩ := State.startPurge_purges (s := u) hpurge
    refine ⟨?_, ?_⟩
    · rw [heq]; exact hatmos
    · rw [htally]; exact ht5
  case stays =>
    let u : State := { s with startup := { s.startup with life := .running, listenTimer := none }
                              view := { s.view with silenceTimer := some silenceMs } }
    have hstay : u.startPurge = u := State.startPurge_stays hpurge
    have hatmos : s.started.atmos = s.atmos := by
      change u.startPurge.atmos = s.atmos
      rw [hstay]
    have ht5 : s.started.tally.t5 = s.tally.t5 := by
      change u.startPurge.tally.t5 = s.tally.t5
      rw [hstay]
    refine ⟨?_, ?_⟩
    · rw [heq]; exact hatmos
    · rw [htally]; exact ht5
  case frame =>
    have hview : s.enterRunning.view = s.started.view := by rw [heq]
    have hatmos : s.enterRunning.atmos = s.started.atmos := by rw [heq]
    have ht5 : s.enterRunning.tally.t5 = s.started.tally.t5 := by rw [htally]
    have hrest : s.enterRunning = { s.started with
        link := s.enterRunning.link
        tally := { s.started.tally with t6 := s.enterRunning.tally.t6 }
        lamps := s.enterRunning.lamps } := by rw [heq]
    rw [hstartup, hview, hatmos, ht5]
    conv_lhs => rw [hrest, hstarted]
    rw [hstarted]

end Sys2Proof.Proofs
end

