-- ==== Sys2Proof/Proofs/RequestPaths.lean ====
section
/-! The way of a request to the block that owns it, and the common checks of the two forms. -/

namespace Sys2Proof.Machine

open Sys2Proof Sys2Proof.Config

/-! ### The way to the request unit -/

/-- Every request row serves its code by the table of owners (R180). -/
theorem exec_of_requestRow {c : Instr} {code : Byte} {f : RequestFrame} (h : requestRow c = some (code, f)) (s : State) :
    exec c s = .next (s.serve code f (evaluate code f)) := by
  cases c <;> simp only [requestRow, Option.some.injEq, Prod.mk.injEq, reduceCtorEq] at h <;>
    obtain ⟨rfl, rfl⟩ := h <;> rfl

/-- A REQUEST that is heard goes to the request unit, whatever the lifecycle (R160, R161, R179). -/
theorem State.serve_of_hearsTerminal {s : State} {code : Byte} {f : RequestFrame} {p : TerminalNo}
    (h : s.HearsTerminal code f p) (eval : State → Answer) :
    s.serve code f eval = (s.asked code f p).takeRequest code f p eval := by
  have hother : f.src ≠ s.startup.straps.node := by
    intro heq
    have hown := h.own
    rw [← heq, h.source] at hown
    exact absurd hown (terminalAddress_gt p)
  have hjudge : s.judge false kindRequest f.src f.dst 16 = .delivered := by
    refine State.judge_delivered hother ?_ ?_ ?_ (by decide) (by decide) (.inl h.addressed)
    · rw [h.source]; exact sourceAllowed_request p
    · rw [h.source]; exact terminalAddress_ne_15 p
    · rw [h.addressed]; simpa [destinationAllowed] using h.own
  have hfilter : filterOf f.src = some (terminalPlace p) := by rw [h.source]; exact filterOf_terminalAddress p
  have hterminal : terminalOf f.src = some p := by rw [h.source]; exact terminalOf_terminalAddress p
  have hfresh : s.eased.repeated (terminalPlace p) (f.bytes code) = false := by
    rw [State.repeated, show s.eased.filter = s.filter by simp [State.eased]]
    exact h.fresh
  rw [State.serve, State.receive_delivered h.receiving hjudge]
  simp only [hfilter, hterminal, State.filtered_spec, hfresh, Bool.false_eq_true, if_false]
  congr 1
  simp [State.asked, State.heard, State.eased]

section Evaluated

variable {s u : State} {c : Instr} {code : Byte} {f : RequestFrame} {p : TerminalNo}

/-- An evaluated request that its owner refuses (R180). -/
theorem exec_refused (hrow : requestRow c = some (code, f)) (he : s.Evaluates code f p) {why : Reason}
    (heval : evaluate code f (s.asked code f p) = .refused why) : exec c s = .next (s.refusing code f p why) := by
  rw [exec_of_requestRow hrow, State.serve_refused he heval]

/-- An evaluated request that its owner accepts without a change of the start-up controller (R180). -/
theorem exec_done (hrow : requestRow c = some (code, f)) (he : s.Evaluates code f p) {payload : List Byte}
    (heval : evaluate code f (s.asked code f p) = .done u payload) (hstartup : u.startup = s.startup) :
    exec c s = .next (u.placeReply p (s.replyDone code f payload)) := by
  rw [exec_of_requestRow hrow, State.serve_done he heval]
  simp only [State.replyDone, State.roleCode, State.role, hstartup]

theorem State.Evaluates.asked_running (he : s.Evaluates code f p) : (s.asked code f p).running = true := by
  rw [State.asked_running]
  exact s.running_iff.2 he.running

/-! ### The two forms -/

theorem State.bayForm_of_bay (hbay : u.isBay = true) (hrun : u.running = true) {b : BayNo} (hb : f.bay.toNat = b.val)
    (k : BayNo → Answer) : u.bayForm f k = k b := by
  have hlt : f.bay.toNat < 4 := by rw [hb]; exact b.isLt
  have hof : bayOf f.bay = some b := by rw [bayOf, dif_pos hlt]; exact congrArg some (Fin.ext hb)
  simp only [State.bayForm, hbay, hrun, hof]
  rfl

theorem State.bayForm_wrongRole (hbay : u.isBay = false) (k : BayNo → Answer) : u.bayForm f k = .refused .wrongRole := by
  rw [State.bayForm, hbay]; rfl

theorem State.bayForm_badBay (hbay : u.isBay = true) (hrun : u.running = true) (hb : 3 < f.bay.toNat)
    (k : BayNo → Answer) : u.bayForm f k = .refused .badBay := by
  have hof : bayOf f.bay = none := by rw [bayOf, dif_neg (by omega)]
  simp only [State.bayForm, hbay, hrun, hof]
  rfl

theorem State.nodeForm_of_node {takes : Bool} (htakes : takes = true) (hrun : u.running = true) (h15 : f.bay = 15)
    (k : Answer) : u.nodeForm takes f k = k := by
  simp [State.nodeForm, htakes, hrun, h15]

theorem State.nodeForm_wrongRole (k : Answer) : u.nodeForm false f k = .refused .wrongRole := rfl

theorem State.nodeForm_badBay {takes : Bool} (htakes : takes = true) (hrun : u.running = true) (h15 : f.bay ≠ 15)
    (k : Answer) : u.nodeForm takes f k = .refused .badBay := by
  rw [State.nodeForm, htakes, hrun, if_pos h15]
  rfl

/-- A code outside the table is refused without further checks (R180). -/
theorem evaluate_unknown (h : code.toNat = 0 ∨ 16 < code.toNat) : evaluate code f u = .refused .badField := by
  fun_cases Machine.evaluate code f
  case case17 => rfl
  all_goals omega

/-- The codes in bay form (R2, R7, R43, R10, R14, R185). -/
theorem evaluate_bayForm (h : code.toNat = 1 ∨ code.toNat = 2 ∨ code.toNat = 3 ∨ code.toNat = 4 ∨ code.toNat = 12 ∨
    (code.toNat = 6 ∧ f.bay ≠ 15)) : ∃ k : BayNo → Answer, evaluate code f u = u.bayForm f k := by
  unfold evaluate
  rcases h with h | h | h | h | h | ⟨h, hbay⟩
  · rw [h]; exact ⟨_, rfl⟩
  · rw [h]; exact ⟨_, rfl⟩
  · rw [h]; exact ⟨_, rfl⟩
  · rw [h]; exact ⟨_, rfl⟩
  · rw [h]; exact ⟨_, rfl⟩
  · rw [h]; exact ⟨_, if_neg hbay⟩

/-- Whether the node's role takes a request in node form, by its code. -/
def State.roleTakes (s : State) (code : Byte) : Bool :=
  if code.toNat = 5 ∨ code.toNat = 6 ∨ code.toNat = 14 then s.isBay
  else if code.toNat = 8 ∨ code.toNat = 9 ∨ code.toNat = 10 then s.isShred
  else true

/-- The codes in node form (R2, R99, R123, R138, R175, R182, R187). -/
theorem evaluate_nodeForm (hlow : 1 ≤ code.toNat) (hhigh : code.toNat ≤ 16)
    (hform : ¬ (code.toNat = 1 ∨ code.toNat = 2 ∨ code.toNat = 3 ∨ code.toNat = 4 ∨ code.toNat = 12 ∨
      (code.toNat = 6 ∧ f.bay ≠ 15))) : ∃ k : Answer, evaluate code f u = u.nodeForm (u.roleTakes code) f k := by
  have htakes (n : Nat) (hn : code.toNat = n) : u.roleTakes code = if n = 5 ∨ n = 6 ∨ n = 14 then u.isBay
      else if n = 8 ∨ n = 9 ∨ n = 10 then u.isShred else true := by rw [State.roleTakes, hn]
  fun_cases Machine.evaluate code f
  case case5 h => exact ⟨_, by rw [htakes 5 h]; rfl⟩
  case case6 h =>
    have h15 : f.bay = 15 := by
      by_contra hne
      exact hform (.inr (.inr (.inr (.inr (.inr ⟨h, hne⟩)))))
    exact ⟨clearTag f.tag u, by rw [htakes 6 h]; exact if_pos h15⟩
  case case7 h => exact ⟨_, by rw [htakes 7 h]; rfl⟩
  case case8 h => exact ⟨_, by rw [htakes 8 h]; rfl⟩
  case case9 h => exact ⟨_, by rw [htakes 9 h]; rfl⟩
  case case10 h => exact ⟨_, by rw [htakes 10 h]; rfl⟩
  case case11 h => exact ⟨_, by rw [htakes 11 h]; rfl⟩
  case case13 h => exact ⟨_, by rw [htakes 13 h]; rfl⟩
  case case14 h => exact ⟨_, by rw [htakes 14 h]; rfl⟩
  case case15 h => exact ⟨_, by rw [htakes 15 h]; rfl⟩
  case case16 h => exact ⟨_, by rw [htakes 16 h]; rfl⟩
  case case17 => simp only [imp_false] at *; omega
  all_goals omega

/-- A request that only BAY nodes take, at another node. -/
theorem evaluate_atBay (h : code.toNat = 1 ∨ code.toNat = 2 ∨ code.toNat = 3 ∨ code.toNat = 4 ∨ code.toNat = 5 ∨
    code.toNat = 6 ∨ code.toNat = 12 ∨ code.toNat = 14) (hbay : u.isBay = false) :
    evaluate code f u = .refused .wrongRole := by
  by_cases hform : code.toNat = 1 ∨ code.toNat = 2 ∨ code.toNat = 3 ∨ code.toNat = 4 ∨ code.toNat = 12 ∨
      (code.toNat = 6 ∧ f.bay ≠ 15)
  · obtain ⟨k, hk⟩ := evaluate_bayForm (u := u) hform
    rw [hk, State.bayForm_wrongRole hbay]
  · obtain ⟨k, hk⟩ := evaluate_nodeForm (u := u) (by omega) (by omega) hform
    have htakes : u.roleTakes code = false := (if_pos (by omega)).trans hbay
    rw [hk, htakes, State.nodeForm_wrongRole]

/-- A request that only SHRED nodes take, at another node. -/
theorem evaluate_atShred (h : code.toNat = 8 ∨ code.toNat = 9 ∨ code.toNat = 10) (hshred : u.isShred = false) :
    evaluate code f u = .refused .wrongRole := by
  obtain ⟨k, hk⟩ := evaluate_nodeForm (f := f) (u := u) (code := code) (by omega) (by omega) (by omega)
  have htakes : u.roleTakes code = false := (if_neg (by omega)).trans ((if_pos h).trans hshred)
  rw [hk, htakes, State.nodeForm_wrongRole]

end Evaluated

end Sys2Proof.Machine

namespace Sys2Proof.Proofs

open Sys2Proof Sys2Proof.Machine Sys2Proof.Config

/-- Settles O40: the way of a request by lifecycle, slot and pending reset is that of `State.takeRequest_cases`, and its
form is that of its code (`evaluate_bayForm`, `evaluate_nodeForm`). -/
theorem requestPathsAndForms : Obligations.RequestPathsAndForms := by
  intro c code f p s hrow
  have hserve := exec_of_requestRow hrow s
  refine ⟨fun hhears hlife => ?foreign, fun hhears => ⟨fun hfull => ?held, fun hfree hpending => ?busy⟩, fun he => ?_⟩
  case foreign =>
    have hrun : (s.asked code f p).running = false := by simpa [State.running] using hlife
    rw [hserve, State.serve_of_hearsTerminal hhears, State.takeRequest, hrun]
    rfl
  case held =>
    have hrun : (s.asked code f p).running = true := by rw [State.asked_running]; exact s.running_iff.2 hhears.running
    rw [hserve, State.serve_of_hears hhears, State.takeRequest, hrun, State.asked_replies,
      Option.isSome_iff_ne_none.2 hfull, State.asked_requests]
    rfl
  case busy =>
    have hrun : (s.asked code f p).running = true := by rw [State.asked_running]; exact s.running_iff.2 hhears.running
    rw [hserve, State.serve_of_hears hhears, State.takeRequest, hrun, State.asked_replies, hfree, State.asked_requests,
      hpending]
    simp [State.refusing, State.replyOf, State.replyRefused]
  have hrun := he.asked_running
  have hbay := s.asked_isBay code f p
  have hshred := s.asked_isShred code f p
  refine ⟨fun hcode => exec_refused hrow he (evaluate_unknown hcode),
    fun hat hno => exec_refused hrow he (evaluate_atBay hat (hbay.trans hno)),
    fun hat hno => exec_refused hrow he (evaluate_atShred hat (hshred.trans hno)), fun hform hyes hhigh => ?badBay,
    fun hlow hhigh hform hatBay hatShred h15 => ?badNode⟩
  case badBay =>
    obtain ⟨k, hk⟩ := evaluate_bayForm (u := s.asked code f p) hform
    exact exec_refused hrow he (hk.trans (State.bayForm_badBay (hbay.trans hyes) hrun hhigh k))
  case badNode =>
    obtain ⟨k, hk⟩ := evaluate_nodeForm (u := s.asked code f p) hlow hhigh hform
    refine exec_refused hrow he (hk.trans (State.nodeForm_badBay ?_ hrun h15 k))
    unfold State.roleTakes
    split_ifs with h1 h2
    · exact hbay.trans (hatBay (by omega))
    · exact hshred.trans (hatShred h2)
    · rfl

end Sys2Proof.Proofs
end

