-- ==== Sys2Proof/Proofs/ShredRequests.lean ====
section
/-! The requests of the shredder, and NODE_RESET. -/

namespace Sys2Proof.Machine

open Sys2Proof Sys2Proof.Config

variable {s : State} {code : Byte} {f : RequestFrame} {p : TerminalNo}

/-- A delivered request leaves every tally but those of the link (R162, R167). -/
theorem State.asked_tally (s : State) (code : Byte) (f : RequestFrame) (p : TerminalNo) :
    (s.asked code f p).tally = { s.tally with t6 := (s.asked code f p).tally.t6 } := by
  rw [State.asked, s.heard_eq]

theorem State.asked_t4 (s : State) (code : Byte) (f : RequestFrame) (p : TerminalNo) :
    (s.asked code f p).tally.t4 = s.tally.t4 := by rw [State.asked_tally]

theorem State.asked_t5 (s : State) (code : Byte) (f : RequestFrame) (p : TerminalNo) :
    (s.asked code f p).tally.t5 = s.tally.t5 := by rw [State.asked_tally]

theorem evalPurgeReset_of_node (he : s.Evaluates 8 f p) (hshred : s.isShred = true) (h15 : f.bay = 15) :
    evaluate 8 f (s.asked 8 f p) = if s.atmos.state = .lockout then
      .done ((s.asked 8 f p).enterPurging false) (1 :: leBytes 2 (s.atmos.oxygen.getD 65535)) else .refused .notClear := by
  refine (State.nodeForm_of_node ((s.asked_isShred 8 f p).trans hshred) he.asked_running h15 _).trans ?_
  rw [State.asked_atmos]
  rfl

theorem evalFlush_of_node (he : s.Evaluates 9 f p) (hshred : s.isShred = true) (h15 : f.bay = 15) :
    evaluate 9 f (s.asked 9 f p) = if s.feed.queue = [] then .refused .notClear else
      .done { s.asked 9 f p with feed := { s.feed with flush := true } }
        [s.feed.rotor.code, byteOf s.feed.queue.length] := by
  refine (State.nodeForm_of_node ((s.asked_isShred 9 f p).trans hshred) he.asked_running h15 _).trans ?_
  rw [State.asked_feed]

/-- The station of the shredder is at rest, so that SHRED_RESET may clear the hold (R101). -/
def State.resettable (s : State) : Prop :=
  s.feed.rotor = .stopped ∧ s.feed.feedback = false ∧ s.feed.kind = .none ∧ s.feed.confirm = false ∧
    s.chute.sensor = false

theorem evalShredReset_of_node (he : s.Evaluates 10 f p) (hshred : s.isShred = true) (h15 : f.bay = 15) :
    (1 < f.headAction.toNat → evaluate 10 f (s.asked 10 f p) = .refused .badField) ∧
    (f.headAction.toNat ≤ 1 → ¬ s.resettable → evaluate 10 f (s.asked 10 f p) = .refused .notClear) ∧
    (f.headAction.toNat ≤ 1 → s.resettable → evaluate 10 f (s.asked 10 f p) =
      if f.headAction = 0 then .done (s.asked 10 f p).clearHold [byteOf s.feed.queue.length]
      else if s.feed.queue = [] then .refused .notFound
      else .done ((s.asked 10 f p).removeHead.clearHold.onT4 (fun t => { t with headsRemoved := bump t.headsRemoved }))
        [byteOf (s.feed.queue.length - 1)]) := by
  have heq := State.nodeForm_of_node ((s.asked_isShred 10 f p).trans hshred) he.asked_running h15
    (k := if 1 < f.headAction.toNat then .refused .badField
     else if s.feed.rotor ≠ .stopped ∨ s.feed.feedback then .refused .notClear
     else if s.feed.kind ≠ .none then .refused .notClear
     else if s.feed.confirm then .refused .notClear
     else if s.chute.sensor then .refused .notClear
     else if f.headAction = 0 then .done (s.asked 10 f p).clearHold [byteOf s.feed.queue.length]
     else if s.feed.queue = [] then .refused .notFound
     else .done ((s.asked 10 f p).removeHead.clearHold.onT4 (fun t => { t with headsRemoved := bump t.headsRemoved }))
       [byteOf (s.feed.queue.length - 1)])
  have heval : evaluate 10 f (s.asked 10 f p) = evalShredReset f (s.asked 10 f p) := rfl
  rw [evalShredReset, State.asked_feed, State.asked_chute, heq] at heval
  rw [heval]
  refine ⟨fun hbad => if_pos hbad, fun hgood hnot => ?_, fun hgood ⟨h1, h2, h3, h4, h5⟩ => ?_⟩
  · rw [if_neg (by omega)]
    split_ifs with h1 h2 h3 h4
    · rfl
    · rfl
    · rfl
    · rfl
    all_goals
      exact absurd ⟨by simpa using (not_or.1 h1).1, by simpa using (not_or.1 h1).2, by simpa using h2, by simpa using h3,
        by simpa using h4⟩ hnot
  · rw [if_neg (by omega), h1, h2, h3, h4, h5]
    simp

theorem evalNodeReset_of_node (he : s.Evaluates 16 f p) (h15 : f.bay = 15) :
    evaluate 16 f (s.asked 16 f p) = if s.resetBarred then .refused .busy else
      .done { s.asked 16 f p with requests := { s.requests with resetPending := true } } [] := by
  have hbarred : (s.asked 16 f p).resetBarred = s.resetBarred := by
    have hcount : (s.asked 16 f p).countBays Slot.busy = s.countBays Slot.busy :=
      State.countBays_congr fun b => by rw [State.asked_bay]
    rw [State.resetBarred, hcount, State.asked_chute, State.resetBarred]
  refine (State.nodeForm_of_node rfl he.asked_running h15 _).trans ?_
  rw [hbarred, State.asked_requests]

/-- What bars a NODE_RESET (R182). -/
theorem State.resetBarred_iff (s : State) : s.resetBarred = true ↔
    (∃ (b : BayNo) (r : Record), (s.bay b).slot = .pack .discharging r ∨
      ∃ n : NodeNo, (s.bay b).slot = .pack (.releasing n) r ∨ (s.bay b).slot = .pack (.inTransit n) r) ∨
      s.chute.reservation ≠ none := by
  have hbusy (x : Slot) : x.busy = true ↔ ∃ r : Record, x = .pack .discharging r ∨
      ∃ n : NodeNo, x = .pack (.releasing n) r ∨ x = .pack (.inTransit n) r := by
    unfold Slot.busy
    split <;> simp_all
  rw [State.resetBarred, Bool.or_eq_true, decide_eq_true_eq, s.countBays_pos, Option.isSome_iff_ne_none]
  simp only [hbusy]

/-- The head leaves the queue of a rotor that does not run (R84, R92). -/
theorem State.removeHead_of_stopped (h : s.feed.rotor ≠ .running) : s.removeHead = { s with feed := { s.feed with
    queue := s.feed.queue.tail, flush := s.feed.flush && !s.feed.queue.tail.isEmpty, idleTimer := none } } := by
  unfold State.removeHead State.refreshIdle
  exact if_neg fun hrun => h hrun.1

end Sys2Proof.Machine

namespace Sys2Proof.Proofs

open Sys2Proof Sys2Proof.Machine Sys2Proof.Config

/-- Settles O46: each request at a SHRED node, by its conditions in their order. -/
theorem shredderRequests : Obligations.ShredderRequests := by
  refine ⟨fun s f p he hshred h15 => ⟨fun hno => ?purgeNo, fun hlockout => ?purge⟩,
    fun s f p he hshred h15 => ⟨fun hempty => ?flushNo, fun hsome => ?flush⟩, fun s f p he hshred h15 => ?reset⟩
  case purgeNo => exact exec_refused rfl he (by rw [evalPurgeReset_of_node he hshred h15, if_neg hno])
  case purge =>
    have heval := evalPurgeReset_of_node he hshred h15
    rw [if_pos hlockout] at heval
    refine ⟨_, exec_done rfl he heval (by simp), ?_, ?_, ?_, rfl⟩
    · simp [State.enterPurging]
    · simp only [State.placeReply_tally, State.enterPurging, State.onT5, State.asked_t5]
      rfl
    · simp [State.placeReply]
  case flushNo => exact exec_refused rfl he (by rw [evalFlush_of_node he hshred h15, if_pos hempty])
  case flush =>
    have heval := evalFlush_of_node he hshred h15
    rw [if_neg hsome] at heval
    exact exec_done rfl he heval (by simp)
  case reset =>
    obtain ⟨hbad, hbarred, hreset⟩ := evalShredReset_of_node he hshred h15
    refine ⟨fun h => exec_refused rfl he (hbad h), fun h hnot => exec_refused rfl he (hbarred h hnot),
      fun hzero hclear => ?_, fun hone hclear hempty => ?_, fun e l hone hclear hqueue => ?_⟩
    · have heval := hreset (by rw [hzero]; decide) hclear
      rw [if_pos hzero] at heval
      refine (exec_done rfl he heval (by simp [State.clearHold])).trans ?_
      rw [State.clearHold, State.asked_feed]
      rfl
    · have heval := hreset (by rw [hone]; decide) hclear
      rw [if_neg (by rw [hone]; decide), if_pos hempty] at heval
      exact exec_refused rfl he heval
    · have heval := hreset (by rw [hone]; decide) hclear
      rw [if_neg (by rw [hone]; decide), if_neg (by rw [hqueue]; exact List.cons_ne_nil _ _)] at heval
      refine (exec_done rfl he heval (by simp [State.clearHold])).trans ?_
      have hrotor : (s.asked 10 f p).feed.rotor ≠ .running := by rw [State.asked_feed, hclear.1]; decide
      rw [State.removeHead_of_stopped hrotor]
      simp only [State.clearHold, State.onT4, State.asked_feed, State.asked_t4, hqueue, List.tail_cons, List.length_cons,
        Nat.add_sub_cancel]
      rfl

/-- Settles O48: NODE_RESET by what bars it, and the line reset at the success of its reply (`lineReset_begins`). -/
theorem nodeResetTakesALineReset : Obligations.NodeResetTakesALineReset := by
  refine ⟨fun s f p he h15 => ?_, fun s a p r hattempt hbuffer hreply hcode hreason hpending => ?_⟩
  · have heval := evalNodeReset_of_node he h15
    refine ⟨fun hbusy => ?_, fun hfree => ?_⟩
    · rw [if_pos (s.resetBarred_iff.2 hbusy)] at heval
      exact exec_refused rfl he heval
    · rw [if_neg (fun h => hfree (s.resetBarred_iff.1 h))] at heval
      exact exec_done rfl he heval (by simp)
  · have hreset : s.resetAttempt a.buffer = true := by
      rw [hbuffer]
      simp only [State.resetAttempt, State.isResetReply, hpending, hreply, hcode, hreason]
      rfl
    refine ⟨s.lineReset .request, ?_, s.lineReset_begins .request⟩
    have hsucceed : s.succeed a.buffer = s.lineReset .request := if_pos hreset
    change Host.Outcome.next _ = _
    rw [hattempt]
    exact congrArg Host.Outcome.next hsucceed

end Sys2Proof.Proofs
end

