-- ==== Sys2Proof/Proofs/PackRequests.lean ====
section
/-! The requests of the pack table: ADMIT, ABORT, RESUME, QUARANTINE_IN and QUARANTINE_OUT, ACCOUNT_CLEAR. -/

namespace Sys2Proof.Machine

open Sys2Proof Sys2Proof.Config

/-! ### BAY_OVERHEAT -/

theorem State.any_bays_iff (s : State) (p : Bay → Bool) : s.bays.toList.any p = true ↔ ∃ b : BayNo, p (s.bay b) = true := by
  rw [show s.bays.toList = (List.finRange 4).map s.bay from s.bays_toList]
  simp

/-- The condition of BAY_OVERHEAT: a record whose last T is 80 °C or more (R47). -/
theorem State.overheat_iff (s : State) : s.condition .bayOverheat = true ↔
    ∃ (k : BayNo) (r : Record), (s.bay k).slot.record = some r ∧ 80 ≤ r.lastT := by
  refine (s.any_bays_iff Bay.overheated).trans (exists_congr fun k => ?_)
  unfold Bay.overheated
  cases (s.bay k).slot with
  | pack st r => exact decide_eq_true_iff.trans ⟨fun h => ⟨r, rfl, h⟩, fun ⟨_, hr, h⟩ => by cases hr; exact h⟩
  | empty => simp [Slot.record]
  | orphan => simp [Slot.record]

theorem State.overheat_congr {s t : State} (h : ∀ k : BayNo, (t.bay k).slot = (s.bay k).slot) :
    t.condition .bayOverheat = s.condition .bayOverheat := by
  rw [Bool.eq_iff_iff, s.overheat_iff, t.overheat_iff]
  simp only [h]

/-- BAY_OVERHEAT is raised at its onset. -/
theorem State.raiseHeat_of_onset {s : State} {b : BayNo} {r : Record} (hr : (s.bay b).slot.record = some r)
    (hnow : s.condition .bayOverheat = true) : s.raiseHeat false b = s.raise .bayOverheat (.bay b.val) (some r.tag) := by
  rw [State.raiseHeat, hnow, hr]
  rfl

/-- Without an onset nothing is raised. -/
theorem State.raiseHeat_of_none {s : State} {before : Bool} (b : BayNo)
    (h : before = true ∨ s.condition .bayOverheat = false) : s.raiseHeat before b = s := by
  rw [State.raiseHeat, if_neg]
  rcases h with h | h
  · simp [h]
  · simp [h]

theorem State.raiseHeat_eq (s : State) (before : Bool) (b : BayNo) :
    s.raiseHeat before b = { s with latch := (s.raiseHeat before b).latch } := by
  unfold State.raiseHeat
  split
  · rfl
  · rfl

/-! ### Admission -/

section

variable {s : State} {f : RequestFrame} {p : TerminalNo} {b : BayNo}

theorem Slot.free_iff (x : Slot) : x.free = true ↔ x.record = none := by cases x <;> simp [Slot.free, Slot.record]

theorem Slot.free_iff_empty_or_orphan (x : Slot) : x.free = true ↔ x = .empty ∨ x = .orphan := by
  cases x <;> simp [Slot.free]

theorem timeLimitOf_eq_none {q : Profile} {code : Nat} : timeLimitOf q code = none ↔ 250 < code := by
  unfold timeLimitOf
  split_ifs
  · simp; omega
  · simp; omega
  · simp; omega
  · simp; omega

theorem State.asked_bayTags (s : State) (code : Byte) (f : RequestFrame) (p : TerminalNo) :
    (s.asked code f p).bayTags = s.bayTags := by
  simp only [State.bayTags, State.asked_bays, State.asked_store, State.asked_unaccounted]

theorem State.asked_l1Count (s : State) (code : Byte) (f : RequestFrame) (p : TerminalNo) :
    (s.asked code f p).l1Count = s.l1Count := by
  simp only [State.l1Count, State.countBays, State.asked_bays, State.asked_store]

theorem State.asked_hasRoom (s : State) (code : Byte) (f : RequestFrame) (p : TerminalNo) :
    (s.asked code f p).hasRoom = s.hasRoom := by
  simp only [State.hasRoom, State.asked_l1Count, State.asked_capacity]

/-- ADMIT whose bay, tag, fields and readings meet the conditions 1 to 4 of R5. -/
theorem evalAdmit_of_fields (he : s.Evaluates 1 f p) (hbay : s.isBay = true) (hb : f.bay.toNat = b.val)
    (hfree : (s.bay b).slot.free = true) (hpresent : (s.bay b).latest.presence = true)
    (htag : ¬ (f.tag = 0 ∨ f.tag ∈ s.bayTags))
    (hfields : ¬ (f.s.toNat < 1 ∨ 32 < f.s.toNat ∨ 2000 < f.capacity.toNat)) {minutes v : Nat}
    (hminutes : timeLimitOf s.profile f.timeCode.toNat = some minutes) (hv : (s.bay b).latest.v = some v) :
    evaluate 1 f (s.asked 1 f p) =
      if f.s.toNat * s.profile.nominalCell * 5 / 4 < v then .refused .cellsMismatch
      else if s.fire.zone = .fire ∨ s.fire.impaired then .refused .zoneImpaired
      else if s.view.lineFire then .refused .lineStop
      else if !s.hasRoom then .refused .quarantineFull
      else .done ((s.asked 1 f p).admitPack f b minutes v) (leBytes 2 minutes) := by
  have heval : evaluate 1 f (s.asked 1 f p) = _ :=
    State.bayForm_of_bay ((s.asked_isBay 1 f p).trans hbay) he.asked_running hb _
  simp only [State.asked_bay, State.asked_bayTags, State.asked_profile, State.asked_fire, State.asked_view,
    State.asked_hasRoom] at heval
  rw [if_neg (by simp [hfree]), if_neg (by simp [hpresent]), if_neg htag, if_neg hfields, hminutes, hv] at heval
  exact heval

/-- The bay table with the new record, before BAY_OVERHEAT is looked at (R6). -/
def State.entered (s : State) (f : RequestFrame) (b : BayNo) (minutes v : Nat) : State :=
  (s.setBay b ((s.bay b).enter .admitted (admittedRecord f b minutes v (s.bay b) s.startup.nodeTime))).onT1 (fun t =>
    { t with admitted := bump t.admitted
             readmitted := if (s.bay b).slot = .orphan then bump t.readmitted else t.readmitted })

theorem State.admitPack_eq (s : State) (f : RequestFrame) (b : BayNo) (minutes v : Nat) : s.admitPack f b minutes v =
    ((s.entered f b minutes v).raiseHeat (s.condition .bayOverheat) b).light := rfl

theorem State.entered_bay_self (s : State) (f : RequestFrame) (b : BayNo) (minutes v : Nat) :
    (s.entered f b minutes v).bay b =
      (s.bay b).enter .admitted (admittedRecord f b minutes v (s.bay b) s.startup.nodeTime) := by
  rw [State.entered, State.onT1_bay, State.setBay_bay_self]

theorem State.entered_bay_ne {k : BayNo} (s : State) (f : RequestFrame) (b : BayNo) (minutes v : Nat) (hk : k ≠ b) :
    (s.entered f b minutes v).bay k = s.bay k := by
  rw [State.entered, State.onT1_bay, State.setBay_bay_ne _ _ _ _ hk]

theorem State.entered_rest (s : State) (f : RequestFrame) (b : BayNo) (minutes v : Nat) : s.entered f b minutes v =
    { s with bays := (s.entered f b minutes v).bays, tally := (s.entered f b minutes v).tally } := rfl

theorem State.entered_latch (s : State) (f : RequestFrame) (b : BayNo) (minutes v : Nat) :
    (s.entered f b minutes v).latch = s.latch := rfl

/-- An accepted ADMIT changes the bay table, the tallies of packs, the latch and the lamps. -/
theorem State.admitPack_rest (s : State) (f : RequestFrame) (b : BayNo) (minutes v : Nat) : s.admitPack f b minutes v =
    { s with
      bays := (s.entered f b minutes v).bays, tally := (s.entered f b minutes v).tally
      latch := ((s.entered f b minutes v).raiseHeat (s.condition .bayOverheat) b).latch
      lamps := (s.admitPack f b minutes v).lamps } := by
  rw [State.admitPack_eq, State.raiseHeat_eq]
  rfl

theorem State.admitPack_bay (s : State) (f : RequestFrame) (b : BayNo) (minutes v : Nat) (k : BayNo) :
    (s.admitPack f b minutes v).bay k = (s.entered f b minutes v).bay k := by
  rw [State.admitPack_rest]
  rfl

/-- The new record is counted under L1 (R17). -/
theorem State.admitPack_l1Count {s : State} {f : RequestFrame} {b : BayNo} {minutes v : Nat}
    (hfree : (s.bay b).slot.record = none) : (s.admitPack f b minutes v).l1Count = s.l1Count + 1 := by
  have hset := s.countBays_setBay b ((s.bay b).enter .admitted (admittedRecord f b minutes v (s.bay b) s.startup.nodeTime))
    Slot.counted
  rw [(Slot.unheld hfree).1] at hset
  rw [State.admitPack_rest]
  change (s.setBay b _).countBays Slot.counted + s.store.length = s.countBays Slot.counted + s.store.length + 1
  rw [show (s.setBay b ((s.bay b).enter .admitted (admittedRecord f b minutes v (s.bay b) s.startup.nodeTime))).countBays
    Slot.counted = s.countBays Slot.counted + 1 from hset]
  omega

/-- The condition of BAY_OVERHEAT with the new record: it stood, or the record makes it (R47). -/
theorem State.entered_overheat_iff {s : State} {f : RequestFrame} {b : BayNo} {minutes v : Nat}
    (hfree : (s.bay b).slot.record = none) : (s.entered f b minutes v).condition .bayOverheat = true ↔
      s.condition .bayOverheat = true ∨ 80 ≤ (s.bay b).latest.t.getD (-40) := by
  rw [State.overheat_iff, State.overheat_iff]
  constructor
  · rintro ⟨k, r, hr, hot⟩
    by_cases hk : k = b
    · subst hk
      rw [State.entered_bay_self] at hr
      cases hr
      exact .inr hot
    · rw [State.entered_bay_ne _ _ _ _ _ hk] at hr
      exact .inl ⟨k, r, hr, hot⟩
  · rintro (⟨k, r, hr, hot⟩ | hot)
    · have hk : k ≠ b := by rintro rfl; rw [hfree] at hr; cases hr
      exact ⟨k, r, by rw [State.entered_bay_ne _ _ _ _ _ hk]; exact hr, hot⟩
    · exact ⟨b, _, by rw [State.entered_bay_self]; rfl, hot⟩

end

end Sys2Proof.Machine

namespace Sys2Proof.Proofs

open Sys2Proof Sys2Proof.Machine Sys2Proof.Config

/-- Settles O42: the conditions of R5 are asked in their order of the state before the request. -/
theorem admitRefused : Obligations.AdmitRefused := by
  intro s f p b he hbay hb
  have heval : evaluate 1 f (s.asked 1 f p) = _ :=
    State.bayForm_of_bay ((s.asked_isBay 1 f p).trans hbay) he.asked_running hb _
  simp only [State.asked_bay, State.asked_bayTags, State.asked_profile, State.asked_fire, State.asked_view,
    State.asked_hasRoom] at heval
  refine ⟨fun hheld => exec_refused rfl he ?occupied, fun hfree => ?_⟩
  case occupied =>
    rw [heval, if_pos]
    rw [Bool.not_eq_true', ← Bool.not_eq_true, Slot.free_iff]
    exact hheld
  rw [← Slot.free_iff] at hfree
  rw [if_neg (by simp [hfree])] at heval
  refine ⟨fun hgone => exec_refused rfl he ?absent, fun hpresent => ⟨fun htag => exec_refused rfl he ?tag, fun htag hnew =>
    ⟨fun hbad => exec_refused rfl he ?bad, fun hgood => ⟨fun hnone => exec_refused rfl he ?noReading, fun v hv => ?_⟩⟩⟩⟩
  case absent => rw [heval, hgone]; rfl
  all_goals rw [hpresent] at heval
  case tag => rw [heval, if_neg (by decide), if_pos htag]
  case bad =>
    rw [heval, if_neg (by decide), if_neg (not_or.2 ⟨htag, hnew⟩)]
    split
    · rfl
    · next hfields => rw [timeLimitOf_eq_none.2 (by omega)]
  all_goals
    obtain ⟨minutes, hminutes⟩ := Option.ne_none_iff_exists'.1 fun h =>
      hgood (.inr (.inr (.inr (timeLimitOf_eq_none.1 h))))
  case noReading =>
    rw [heval, if_neg (by decide), if_neg (not_or.2 ⟨htag, hnew⟩), if_neg (by omega), hminutes, hnone]
  have htail := evalAdmit_of_fields he hbay hb hfree hpresent (not_or.2 ⟨htag, hnew⟩) (by omega) hminutes hv
  refine ⟨fun hhigh => exec_refused rfl he (htail.trans (if_pos hhigh)), fun hlow => ?_⟩
  rw [if_neg (Nat.not_lt.2 hlow)] at htail
  refine ⟨fun hzone => exec_refused rfl he (htail.trans (if_pos hzone)), fun hzone himpaired => ?_⟩
  rw [if_neg (not_or.2 ⟨hzone, by simp [himpaired]⟩)] at htail
  refine ⟨fun hfire => exec_refused rfl he (htail.trans (if_pos hfire)), fun hclear hfull => exec_refused rfl he ?_⟩
  rw [if_neg (by simp [hclear])] at htail
  exact htail.trans (if_pos (by simpa [State.hasRoom] using hfull))

/-- Settles O41: the record of `admittedRecord` enters the bay, and BAY_OVERHEAT is raised at its onset
(`State.raiseHeat_of_onset`). -/
theorem admitAccepted : Obligations.AdmitAccepted := by
  refine ⟨fun q code => ?codes, fun s f p b minutes v he hbay hb hslot hpresent htag hnew hlow hhigh hcapacity hminutes hv
    hbound hzone himpaired hclear hroom => ?_⟩
  case codes =>
    unfold timeLimitOf
    refine ⟨fun h => if_pos h, fun hlow hhigh => ?_, fun hlow hhigh => ?_, fun hlow => ?_⟩
    · rw [if_neg (by omega), if_pos hhigh]
    · rw [if_neg (by omega), if_neg (by omega), if_pos hhigh, Nat.mul_comm, Nat.add_comm]
    · rw [if_neg (by omega), if_neg (by omega), if_neg (by omega)]
  have hfree := (Slot.free_iff_empty_or_orphan _).2 hslot
  have hnone := (Slot.free_iff _).1 hfree
  have htail := evalAdmit_of_fields he hbay hb hfree hpresent (not_or.2 ⟨htag, hnew⟩) (by omega) hminutes hv
  rw [if_neg (Nat.not_lt.2 hbound), if_neg (not_or.2 ⟨hzone, by simp [himpaired]⟩), if_neg (by simp [hclear]),
    if_neg (by simpa [State.hasRoom] using hroom)] at htail
  have hcondition : (s.asked 1 f p).condition .bayOverheat = s.condition .bayOverheat :=
    State.overheat_congr fun k => by rw [State.asked_bay]
  have hheat := State.entered_overheat_iff (s := s.asked 1 f p) (f := f) (b := b) (minutes := minutes) (v := v)
    (by rw [State.asked_bay]; exact hnone)
  rw [hcondition, State.asked_bay] at hheat
  have hself (k : BayNo) := (s.asked 1 f p).admitPack_bay f b minutes v k
  have hbayb := (hself b).trans (State.entered_bay_self _ f b minutes v)
  have hstartup : ((s.asked 1 f p).admitPack f b minutes v).startup = s.startup := by
    rw [State.admitPack_rest]; exact s.asked_startup 1 f p
  refine ⟨_, exec_done rfl he htail hstartup, ?slot, ?contactor, ?sink, ?others,
    ?count, ?tally, fun hbefore hot => ?onset, fun hno => ?quiet, ?replies, ?frame⟩
  case slot =>
    rw [State.placeReply_bay, hbayb, State.asked_bay, State.asked_startup]
    rfl
  case contactor => rw [State.placeReply_bay, hbayb]; rfl
  case sink => rw [State.placeReply_bay, hbayb]; rfl
  case others =>
    intro k hk
    rw [State.placeReply_bay, hself k, State.entered_bay_ne _ _ _ _ _ hk, State.asked_bay]
  case count =>
    have hcount := State.admitPack_l1Count (s := s.asked 1 f p) (f := f) (b := b) (minutes := minutes) (v := v)
      (by rw [State.asked_bay]; exact hnone)
    rw [State.asked_l1Count] at hcount
    exact hcount
  case tally =>
    rw [State.placeReply_tally, State.admitPack_rest]
    change ((s.asked 1 f p).entered f b minutes v).tally = _
    rw [State.entered, State.asked_bay, State.onT1, State.setBay_tally, State.asked_tally]
    rfl
  case onset =>
    have hnow := hheat.2 (.inr hot)
    have hraise := State.raiseHeat_of_onset (by rw [State.entered_bay_self]; rfl) hnow
    refine .congr (t := ((s.asked 1 f p).entered f b minutes v).raise .bayOverheat (.bay b.val) (some f.tag)) ?_
      (State.raise_raised s ((s.asked 1 f p).entered f b minutes v) (s.asked_latch 1 f p) (s.asked_attempt 1 f p)
        (congrArg Startup.nodeTime (s.asked_startup 1 f p)) _ _ _)
    rw [State.placeReply_latch, State.admitPack_rest, hcondition, hbefore]
    change (State.raiseHeat _ false b).latch = _
    rw [hraise]
    rfl
  case quiet =>
    have hquiet : (s.condition .bayOverheat) = true ∨
        ((s.asked 1 f p).entered f b minutes v).condition .bayOverheat = false := by
      rw [← Bool.not_eq_true (State.condition _ _), hheat]
      rcases hno with h | h
      · exact .inl h
      · by_cases hstood : s.condition .bayOverheat = true
        · exact .inl hstood
        · exact .inr (not_or.2 ⟨hstood, not_le.2 h⟩)
    rw [State.placeReply_latch, State.admitPack_rest, hcondition, State.raiseHeat_of_none b hquiet]
    exact s.asked_latch 1 f p
  case replies =>
    rw [State.placeReply, State.admitPack_rest]
    change ((s.asked 1 f p).link.replies.set p.val _ p.isLt) = _
    rw [State.asked_replies]
  case frame =>
    generalize s.asked 1 f p = u
    rw [State.admitPack_rest]
    rfl

end Sys2Proof.Proofs
end

