-- ==== Sys2Proof/Proofs/RecordRequests.lean ====
section
/-! ABORT, RESUME, QUARANTINE_IN and QUARANTINE_OUT, ACCOUNT_CLEAR. -/

namespace Sys2Proof.Machine

open Sys2Proof Sys2Proof.Config

/-- The place of the first element that meets a test. -/
theorem findIdx?_append_cons {α : Type} {q : α → Bool} {l : List α} (m : List α) {e : α} (hl : ∀ i ∈ l, q i = false)
    (he : q e = true) : (l ++ e :: m).findIdx? q = some l.length := by
  rw [List.findIdx?_append, List.findIdx?_eq_none_iff.2 hl, List.findIdx?_cons, he]
  simp

theorem eraseIdx_append_cons {α : Type} (l m : List α) (e : α) : (l ++ e :: m).eraseIdx l.length = l ++ m := by
  rw [List.eraseIdx_append_of_length_le le_rfl, Nat.sub_self, List.eraseIdx_cons_zero]

/-- A REPLY takes its slot beside those of the other terminals (R178). -/
theorem State.placeReply_replies {s u : State} (h : u.link.replies = s.link.replies) (p : TerminalNo) (r : Reply) :
    (u.placeReply p r).link.replies = s.link.replies.set p.val (some r) p.isLt := by
  rw [State.placeReply, h]

/-- What `State.reject` leaves in the bay table and in T1 of a state with the bays of `s`, whatever follows that moves
neither. -/
theorem State.reject_leaves {s u t : State} {p : TerminalNo} {b : BayNo} {r : Record} {c : EndCause} {x : Reply}
    (hbay : ∀ k : BayNo, u.bay k = s.bay k) (htally : u.tally.t1 = s.tally.t1)
    (hreplies : u.link.replies = s.link.replies) (hbays : t.bays = (u.reject b r c).bays)
    (ht1 : t.tally.t1 = (u.reject b r c).tally.t1)
    (hlink : t.link.replies = u.link.replies.set p.val (some x) p.isLt) :
    (t.bay b).slot = .pack .rejected { r with setpoint := 0, endCause := some c } ∧ (t.bay b).contactor = false ∧
      (t.bay b).sink = 0 ∧ (t.bay b).restTimer = none ∧ (t.bay b).backoff = none ∧ (t.bay b).answerTimer = none ∧
      s.OthersStay t b ∧ t.tally.t1 = { s.tally.t1 with rejected := min (s.tally.t1.rejected + 1) max32 } ∧
      t.link.replies = s.link.replies.set p.val (some x) p.isLt := by
  have hrejected (k : BayNo) : t.bay k = (u.reject b r c).bay k := by simp only [State.bay, hbays]
  refine ⟨?_, ?_, ?_, ?_, ?_, ?_, fun k hk => ?others, ?tally, by rw [hlink, hreplies]⟩
  case others => rw [hrejected, State.reject_bay_ne _ _ _ _ _ hk, hbay]
  case tally =>
    rw [ht1]
    change { u.tally.t1 with rejected := bump u.tally.t1.rejected } = _
    rw [htally]
    rfl
  all_goals rw [hrejected, State.reject_bay_self]; rfl

theorem State.writeOff_asked_t1 (s : State) (code : Byte) (f : RequestFrame) (p : TerminalNo) :
    (s.asked code f p).writeOff.tally.t1 =
      { s.tally.t1 with writtenOff := min (s.tally.t1.writtenOff + 1) max32 } := by
  change { (s.asked code f p).tally.t1 with writtenOff := bump (s.asked code f p).tally.t1.writtenOff } = _
  rw [State.asked_t1]
  rfl

/-- The store with an entry more, before it is looked at whether it is full (R10). -/
def State.stored (s : State) (b : BayNo) (e : QuarantineEntry) (g : Tally1 → Tally1) : State :=
  ({ s.setBay b (s.bay b).vacate with store := s.store ++ [e] } : State).onT1 g

theorem State.quarantine_eq (s : State) (b : BayNo) (tag : Option Tag) (reason : QuarantineReason)
    (g : Tally1 → Tally1) : (s.quarantine b tag reason).onT1 g =
      if s.store.length + 1 = s.capacity then
        (s.stored b ⟨tag, b, reason, s.startup.nodeTime⟩ g).raise .quarantineFull .none none
      else s.stored b ⟨tag, b, reason, s.startup.nodeTime⟩ g := by
  have hlength : (s.stored b ⟨tag, b, reason, s.startup.nodeTime⟩ g).store.length = s.store.length + 1 :=
    List.length_append.trans rfl
  rw [State.quarantine_onT1, ← hlength]
  rfl

/-- What QUARANTINE_IN leaves: the entry at the tail, the bay EMPTY, and QUARANTINE_FULL where the store is full
(R10, R11). -/
theorem exec_quarantineIn {s : State} {f : RequestFrame} {p : TerminalNo} {b : BayNo} (he : s.Evaluates 4 f p)
    {tag : Option Tag} {reason : QuarantineReason} {g : Tally1 → Tally1}
    (heval : evaluate 4 f (s.asked 4 f p) =
      .done (((s.asked 4 f p).quarantine b tag reason).onT1 g).light []) : ∃ t : State,
      exec (.quarantineIn f) s = .next t ∧ (t.bay b).slot = .empty ∧ s.OthersStay t b ∧
        t.store = s.store ++ [{ tag := tag, bay := b, reason := reason, time := s.startup.nodeTime }] ∧
        t.tally.t1 = g s.tally.t1 ∧
        (s.store.length + 1 = s.capacity → s.Raised t .quarantineFull .none none) ∧
        (s.store.length + 1 ≠ s.capacity → t.latch = s.latch) ∧
        t.link.replies = s.link.replies.set p.val (some (s.replyDone 4 f [])) p.isLt ∧
        t = { s.asked 4 f p with
                     bays := t.bays, store := t.store, latch := t.latch, lamps := t.lamps
                     tally := { (s.asked 4 f p).tally with t1 := t.tally.t1 }
                     link := { (s.asked 4 f p).link with replies := t.link.replies } } := by
  have hexec {u : State} := exec_done (u := u) (c := .quarantineIn f) rfl he (payload := [])
  have hbays := s.asked_bay 4 f p
  have hstartup := s.asked_startup 4 f p
  have hstore := s.asked_store 4 f p
  have ht1 := s.asked_t1 4 f p
  have hlatch := s.asked_latch 4 f p
  have hattempt := s.asked_attempt 4 f p
  have hreplies := s.asked_replies 4 f p
  have hcapacity := s.asked_capacity 4 f p
  generalize s.asked 4 f p = u at *
  have hslot : (u.setBay b (u.bay b).vacate).bay b = _ := State.setBay_bay_self _ _ _
  have hothers (k : BayNo) (hk : k ≠ b) : (u.setBay b (u.bay b).vacate).bay k = s.bay k :=
    (State.setBay_bay_ne _ _ _ _ hk).trans (hbays k)
  rw [State.quarantine_eq, hstore, hcapacity] at heval
  have hentry : u.store ++ [⟨tag, b, reason, u.startup.nodeTime⟩] = s.store ++ [⟨tag, b, reason, s.startup.nodeTime⟩] := by
    rw [hstore, hstartup]
  split at heval
  · next hfull =>
    refine ⟨_, hexec heval hstartup, congrArg Bay.slot hslot, hothers, hentry,
      congrArg g ht1, fun _ => ?_, fun hno => absurd hfull hno, State.placeReply_replies hreplies p _, rfl⟩
    let v := u.stored b ⟨tag, b, reason, u.startup.nodeTime⟩ g
    exact .congr (t := v.raise .quarantineFull .none none) rfl
      (State.raise_raised s v hlatch hattempt (congrArg Startup.nodeTime hstartup) _ _ _)
  · next hroom =>
    exact ⟨_, hexec heval hstartup, congrArg Bay.slot hslot, hothers, hentry,
      congrArg g ht1, fun hfull => absurd hfull hroom, fun _ => hlatch, State.placeReply_replies hreplies p _, rfl⟩

end Sys2Proof.Machine

namespace Sys2Proof.Proofs

open Sys2Proof Sys2Proof.Machine Sys2Proof.Config

/-- Settles O43: ABORT by the state of the bay, ACCOUNT_CLEAR by its form. -/
theorem abortAndAccountClear : Obligations.AbortAndAccountClear := by
  refine ⟨fun s f p b he hbay hb => ?abort, fun s f p b he hbay hb => ?bay, fun s f p he hbay h15 => ?node⟩
  case abort =>
    have heval : evaluate 2 f (s.asked 2 f p) = _ :=
      State.bayForm_of_bay ((s.asked_isBay 2 f p).trans hbay) he.asked_running hb _
    have hexec {u : State} := exec_done (u := u) (c := .abort f) rfl he (payload := [])
    have hrefused {why : Reason} := exec_refused (c := .abort f) rfl he (why := why)
    have hbays := s.asked_bay 2 f p
    have hstartup := s.asked_startup 2 f p
    have ht1 := s.asked_t1 2 f p
    have hreplies := s.asked_replies 2 f p
    have hfifo : (s.asked 2 f p).fifoWith = s.fifoWith :=
      funext fun _ => by simp only [State.fifoWith, State.asked_running, State.asked_fifo]
    dsimp only
    generalize s.asked 2 f p = u at *
    rw [hbays] at heval
    refine ⟨fun st r hslot => ?_, fun hnone => hrefused ?_⟩
    · rw [hslot] at heval
      refine ⟨fun hst => ?rejects, fun n hst => ?withdraws, fun hst => hrefused ?refuses⟩
      case rejects =>
        have hdone : evaluate 2 f u = .done (u.reject b r .abort).light [] := by
          rcases hst with rfl | rfl | ⟨c, rfl⟩ | rfl | rfl <;> exact heval
        exact ⟨_, hexec hdone hstartup, State.reject_leaves hbays ht1 hreplies rfl rfl rfl, rfl⟩
      case withdraws =>
        subst hst
        have hplaced := State.placeHandoff_eq u (u.reject b r .abort) (plainHandoff .withdraw n r.tag b) rfl rfl rfl
        dsimp only at heval
        rw [hplaced] at heval
        exact ⟨_, hexec heval hstartup, State.reject_leaves hbays ht1 hreplies rfl rfl rfl,
          congrFun hfifo _, rfl⟩
      case refuses =>
        rcases hst with ⟨n, rfl | rfl⟩ | rfl | rfl <;> exact heval
    · rw [heval]
      cases hslot : (s.bay b).slot with
      | pack st r => rw [hslot] at hnone; cases hnone
      | empty => rfl
      | orphan => rfl
  case bay =>
    have hne : f.bay ≠ 15 := by rintro h; rw [h] at hb; have := b.isLt; simp at hb; omega
    have heval : evaluate 6 f (s.asked 6 f p) = clearBay b (s.asked 6 f p) :=
      (if_neg hne).trans (State.bayForm_of_bay ((s.asked_isBay 6 f p).trans hbay) he.asked_running hb _)
    rw [clearBay, State.asked_bay] at heval
    refine ⟨fun r hslot => ?_, fun hother => exec_refused rfl he ?_⟩
    · rw [hslot] at heval
      refine ⟨_, exec_done rfl he heval (s.asked_startup 6 f p), ?_, fun k hk => ?_, ?_,
        State.placeReply_replies (s.asked_replies 6 f p) p _, rfl⟩
      · rw [State.placeReply_bay, State.light_bay]
        exact congrArg Bay.slot (State.setBay_bay_self _ _ _)
      · rw [State.placeReply_bay, State.light_bay]
        exact (State.setBay_bay_ne _ _ _ _ hk).trans (s.asked_bay 6 f p k)
      · exact s.writeOff_asked_t1 6 f p
    · rw [heval]
      split
      · next r hslot => exact absurd hslot (hother r)
      · rfl
  case node =>
    have heval : evaluate 6 f (s.asked 6 f p) = clearTag f.tag (s.asked 6 f p) :=
      (if_pos h15).trans (State.nodeForm_of_node ((s.asked_isBay 6 f p).trans hbay) he.asked_running h15 _)
    rw [clearTag, State.asked_unaccounted] at heval
    refine ⟨fun hzero => exec_refused rfl he (heval.trans (if_pos hzero)), fun l m e htag hlist he' hl => ?_,
      fun htag hnone => exec_refused rfl he ?_⟩
    · rw [if_neg htag, hlist, findIdx?_append_cons m (by simpa using hl) (by simpa using he')] at heval
      refine ⟨_, exec_done rfl he heval (s.asked_startup 6 f p), eraseIdx_append_cons l m e, ?_,
        State.placeReply_replies (s.asked_replies 6 f p) p _, ?_⟩
      · exact s.writeOff_asked_t1 6 f p
      · rfl
    · rw [heval, if_neg htag, List.findIdx?_eq_none_iff.2 (by simpa using hnone)]

/-- Settles O44: QUARANTINE_IN by the state of the bay (`exec_quarantineIn`), QUARANTINE_OUT by the place of the entry. -/
theorem quarantineRequests : Obligations.QuarantineRequests := by
  refine ⟨fun s f p b he hbay hb => ?enter, fun s f p he hbay h15 => ?leave⟩
  case enter =>
    have heval : evaluate 4 f (s.asked 4 f p) = _ :=
      State.bayForm_of_bay ((s.asked_isBay 4 f p).trans hbay) he.asked_running hb _
    simp only [State.asked_bay, State.asked_hasRoom] at heval
    refine ⟨fun r why hslot hwhy hgone => ?_, fun hslot hgone => ⟨fun hroom => ?_, fun hfull => exec_refused rfl he ?_⟩,
      fun hslot hpresent => exec_refused rfl he ?_, fun horphan hrejected => exec_refused rfl he ?_⟩
    · rw [hslot] at heval
      dsimp only at heval
      rw [hwhy, if_neg (by simp [hgone])] at heval
      exact exec_quarantineIn he heval
    · rw [hslot] at heval
      dsimp only at heval
      rw [if_neg (by simp [hgone]), if_neg (by simpa [State.hasRoom] using hroom)] at heval
      exact exec_quarantineIn he heval
    · rw [hslot] at heval
      dsimp only at heval
      rw [if_neg (by simp [hgone]), if_pos (by simpa [State.hasRoom] using hfull)] at heval
      exact heval
    · rcases hslot with hslot | ⟨r, hslot⟩
      · rw [hslot] at heval
        exact heval.trans (if_pos hpresent)
      · rw [hslot] at heval
        exact heval.trans (if_pos hpresent)
    · rw [heval]
      split
      · next r hslot => exact absurd hslot (hrejected r)
      · next hslot => exact absurd hslot horphan
      · rfl
  case leave =>
    have heval : evaluate 5 f (s.asked 5 f p) = _ :=
      State.nodeForm_of_node ((s.asked_isBay 5 f p).trans hbay) he.asked_running h15 _
    rw [State.asked_store] at heval
    have hleaves {k : Nat} (hk : outIndex s.store f.tag f.index.toNat = some k) :
        exec (.quarantineOut f) s = .next (({ s.asked 5 f p with store := s.store.eraseIdx k } : State).placeReply p
          (s.replyDone 5 f [])) := by
      rw [hk] at heval
      exact exec_done rfl he heval (s.asked_startup 5 f p)
    have hrefused (hnone : outIndex s.store f.tag f.index.toNat = none) :
        exec (.quarantineOut f) s = .next (s.refusing 5 f p .notFound) := by
      rw [hnone] at heval
      exact exec_refused rfl he heval
    refine ⟨fun htag => ⟨fun l m e hstore he' hl => ?_, fun hnone => hrefused ?_⟩,
      fun htag => ⟨fun l m e hstore hlength => ⟨fun horphan => ?_, fun htagged => hrefused ?_⟩,
        fun hpast => hrefused ?_⟩⟩
    · have hk : outIndex s.store f.tag f.index.toNat = some l.length := by
        rw [outIndex, if_pos htag, hstore]
        exact findIdx?_append_cons m (by simpa using hl) (by simpa using he')
      refine ⟨_, hleaves hk, ?_, State.placeReply_replies (s.asked_replies 5 f p) p _, rfl⟩
      change s.store.eraseIdx l.length = l ++ m
      rw [hstore, eraseIdx_append_cons]
    · rw [outIndex, if_pos htag]
      exact List.findIdx?_eq_none_iff.2 (by simpa using hnone)
    all_goals rw [← not_ne_iff] at htag
    · have hk : outIndex s.store f.tag f.index.toNat = some l.length := by
        rw [outIndex, if_neg htag, hstore, ← hlength, List.getElem?_append_right le_rfl, Nat.sub_self]
        exact if_pos horphan
      refine ⟨_, hleaves hk, ?_, State.placeReply_replies (s.asked_replies 5 f p) p _, rfl⟩
      change s.store.eraseIdx l.length = l ++ m
      rw [hstore, eraseIdx_append_cons]
    · rw [outIndex, if_neg htag, hstore, ← hlength, List.getElem?_append_right le_rfl, Nat.sub_self]
      exact if_neg htagged
    · rw [outIndex, if_neg htag, List.getElem?_eq_none hpast]

/-- Settles O14: RESUME is the hold evaluation of a FAULT hold with its readings valid (`Bay.startOrHold`). -/
theorem resumeLeavesAFaultHold : Obligations.ResumeLeavesAFaultHold := by
  intro s f p b he hbay hb
  have heval : evaluate 3 f (s.asked 3 f p) = _ :=
    State.bayForm_of_bay ((s.asked_isBay 3 f p).trans hbay) he.asked_running hb _
  simp only [State.asked_bay] at heval
  refine ⟨fun hother => exec_refused rfl he ?_, fun r hslot hinvalid => exec_refused rfl he ?_, fun r hslot hvalid => ?_⟩
  · rw [heval]
    split
    · next r hslot => exact absurd hslot (hother r)
    · rfl
  · rw [hslot] at heval
    exact heval.trans (if_neg (by simp [hinvalid]))
  · rw [hslot] at heval
    dsimp only at heval
    rw [if_pos hvalid] at heval
    have hexec {u : State} {payload : List Byte} := exec_done (u := u) (c := .resume f) rfl he (payload := payload)
    have hbays := s.asked_bay 3 f p
    have hstartup := s.asked_startup 3 f p
    have hclear := s.asked_lineClear 3 f p
    have hreplies := s.asked_replies 3 f p
    dsimp only
    generalize s.asked 3 f p = u at *
    have hself : (u.resumeBay b r).bay b = ({ s.bay b with deviation := 0 } : Bay).startOrHold s.lineClear r := by
      rw [State.resumeBay, State.light_bay, State.setBay_bay_self, hbays, hclear]
    have hothers (k : BayNo) (hk : k ≠ b) : (u.resumeBay b r).bay k = s.bay k := by
      rw [State.resumeBay, State.light_bay, State.setBay_bay_ne _ _ _ _ hk, hbays]
    rw [hself] at heval
    have hdone := hexec heval hstartup
    generalize ht : State.placeReply _ p _ = t at hdone
    replace ht := ht.symm
    have hbay' : t.bay b = _ := (congrArg (·.bay b) ht).trans hself
    have hstay : s.OthersStay t b := by
      rw [ht]
      exact hothers
    have hreply := (congrArg (·.link.replies) ht).trans (State.placeReply_replies (u := u.resumeBay b r) hreplies p _)
    have hframe : t = { u with bays := t.bays, lamps := t.lamps, link := { u.link with replies := t.link.replies } } := by
      rw [ht]
      rfl
    refine ⟨t, hdone, ?_⟩
    clear ht heval hexec hdone
    rcases Bay.startOrHold_cases ({ s.bay b with deviation := 0 } : Bay) s.lineClear r with
      ⟨hline, h⟩ | ⟨hline, hhot, h⟩ | ⟨hline, hcool, h⟩
    all_goals rw [h] at hbay' hreply; simp only [hbay', hline]
    · exact ⟨fun _ => ⟨rfl, hreply⟩, fun hno => (by cases hno), fun hno => (by cases hno), rfl, rfl, hstay, hframe⟩
    · exact ⟨fun hno => (by cases hno), fun _ _ => ⟨rfl, hreply⟩, fun _ hno => (by rw [hhot] at hno; cases hno), rfl,
        rfl, hstay, hframe⟩
    · exact ⟨fun hno => (by cases hno), fun _ hno => (by rw [hcool] at hno; cases hno), fun _ _ => ⟨rfl, rfl, rfl, hreply⟩,
        rfl, rfl, hstay, hframe⟩

end Sys2Proof.Proofs
end

