-- ==== Sys2Proof/Proofs/ReadRequests.lean ====
section
/-! The payloads of the read requests, as fields of a width and a value each. -/

namespace Sys2Proof.Machine

open Sys2Proof Sys2Proof.Config

/-! ### Fields, least significant byte first -/

theorem leBytes_getElem? (width : Nat) : ∀ v i : Nat, i < width →
    (leBytes width v)[i]? = some (BitVec.ofNat 8 (v / 256 ^ i)) := by
  induction width with
  | zero => intro v i hi; exact absurd hi (Nat.not_lt_zero i)
  | succ width ih =>
    intro v i hi
    cases i with
    | zero => simp [leBytes]
    | succ i => rw [leBytes, List.getElem?_cons_succ, ih _ _ (Nat.lt_of_succ_lt_succ hi), Nat.div_div_eq_div_mul, pow_succ']

/-- A payload from its fields, each a width and a value. -/
def fieldBytes (l : List (Nat × Nat)) : List Byte := l.flatMap (fun x => leBytes x.1 x.2)

@[simp] theorem fieldBytes_nil : fieldBytes [] = [] := rfl

@[simp] theorem fieldBytes_cons (width v : Nat) (l : List (Nat × Nat)) :
    fieldBytes ((width, v) :: l) = leBytes width v ++ fieldBytes l := rfl

@[simp] theorem fieldBytes_append (l m : List (Nat × Nat)) : fieldBytes (l ++ m) = fieldBytes l ++ fieldBytes m :=
  List.flatMap_append

theorem leBytes_one (v : Nat) : leBytes 1 v = [byteOf v] := rfl

theorem words32_eq_fieldBytes (l : List Nat) : words32 l = fieldBytes (l.map (fun n => (4, min n 4294967295))) := by
  simp [words32, fieldBytes, List.flatMap_map, cap32, max32]

/-- Two's complement in 16 bits (R177). -/
theorem signed16_eq (t : Int) : signed16 t = (t % 65536).toNat := by
  simp [signed16, BitVec.toNat_ofInt]

/-- READ_TALLY has parts 0 of records 1 to 6, and parts 1 of records 4 and 6 (R187). -/
theorem tallyPayload_none {s : State} {n i : Nat} (h : 1 < i ∨ (i = 1 ∧ n ≠ 4 ∧ n ≠ 6)) : s.tallyPayload n i = none := by
  fun_cases State.tallyPayload
  case case9 => rfl
  all_goals omega

end Sys2Proof.Machine

namespace Sys2Proof.Proofs

open Sys2Proof Sys2Proof.Machine Sys2Proof.Config

/-- Settles O47: each payload is its fields in the order of 9.8 (`fieldBytes`), and a request that reads leaves the state
as it is asked. -/
theorem readsAnswer : Obligations.ReadsAnswer := by
  refine ⟨leBytes_getElem?, leBytes_length, ?_, rfl⟩
  intro c code f p s hrow he
  have hrun := he.asked_running
  have hanswers {fields : List (Nat × Nat)} {payload : List Byte}
      (heval : evaluate code f (s.asked code f p) = .done (s.asked code f p) payload)
      (hfields : payload = fieldBytes fields) :
      exec c s = .next ((s.asked code f p).placeReply p (s.replyDone code f (fieldBytes fields))) := by
    rw [← hfields]
    exact exec_done hrow he heval (s.asked_startup code f p)
  intro refused answers y four ended flag entry
  refine ⟨?record, ?tally, ?quarantine, ?identity⟩
  case record =>
    rintro b rfl hbay hb
    have heval : evaluate 12 f (s.asked 12 f p) = _ :=
      State.bayForm_of_bay ((s.asked_isBay 12 f p).trans hbay) hrun hb _
    simp only [State.asked_bay] at heval
    refine ⟨fun hnone => exec_refused hrow he ?_, fun st r hslot =>
      hanswers (payload := recordPayload (.pack st r) r) ?_ ?_⟩
    · rw [heval, hnone]
    · rw [heval, hslot]
      rfl
    · simp only [recordPayload, signed16_eq, fieldBytes_cons, fieldBytes_nil, leBytes_one, List.append_assoc,
        List.cons_append, List.nil_append, List.append_nil]
      simp only [List.cons.injEq, true_and, and_true, List.append_cancel_left_eq, orAbsent16]
      refine ⟨?code, ?target, ?flags, ?hold, ?ended⟩
      case code => cases st <;> rfl
      case target => cases st <;> rfl
      case flags => simp only [bitAt]; cases r.readmitted <;> cases r.fireExposed <;> cases r.settleEarly <;> rfl
      case hold =>
        cases st
        case held c => cases c <;> rfl
        all_goals rfl
      case ended =>
        rcases r.endCause with _ | e
        · rfl
        · cases e <;> rfl
  case tally =>
    rintro rfl h15
    have heval : evaluate 13 f (s.asked 13 f p) = _ := State.nodeForm_of_node rfl hrun h15 _
    have hpart {n i : Nat} {part : List Byte} (h : f.record.toNat = n ∧ f.index.toNat = i)
        (hvalid : ¬ (n < 1 ∨ 6 < n)) (hp : (s.asked 13 f p).tallyPayload n i = some part) :
        evaluate 13 f (s.asked 13 f p) = .done (s.asked 13 f p) part := by
      rw [heval, h.1, h.2, if_neg hvalid, hp]
    have hentry (x : Option FaultEntry) : faultBytes x = fieldBytes (entry x) := by
      rcases x with _ | e
      · rfl
      · simp only [faultBytes, entry]
        cases e.place <;> simp [leBytes_one, byteOf, Place.kindCode, Place.number]
    refine ⟨fun h => exec_refused hrow he (heval.trans (if_pos (by omega))),
      fun h => hanswers (hpart h (by decide) rfl) ?_, fun h => hanswers (hpart h (by decide) rfl) ?_, fun h => hanswers (hpart h (by decide) rfl) ?_,
      fun h => hanswers (hpart h (by decide) rfl) ?_, fun h => hanswers (hpart h (by decide) rfl) ?_,
      fun h => hanswers (hpart h (by decide) rfl) ?_, fun h => hanswers (hpart h (by decide) rfl) ?_,
      fun h => hanswers (hpart h (by decide) rfl) ?_, fun hlow hhigh hno => exec_refused hrow he ?_⟩
    · exact words32_eq_fieldBytes _
    · rw [Tally2.average]
      simp only [fieldBytes_cons, fieldBytes_nil, List.append_assoc, List.append_nil, y]
    · rw [words32_eq_fieldBytes, fieldBytes_append, State.asked_unaccounted]
      rfl
    · exact words32_eq_fieldBytes _
    · rw [words32_eq_fieldBytes, fieldBytes_append]
      simp only [fieldBytes_cons, fieldBytes_nil, List.append_nil, List.append_assoc, four, y]
    · exact words32_eq_fieldBytes _
    · exact words32_eq_fieldBytes _
    · simp only [State.asked_faults, fieldBytes_append, ← hentry]
      simp only [fieldBytes_cons, fieldBytes_nil, List.append_nil]
    · rw [heval, if_neg (by omega), tallyPayload_none hno]
  case quarantine =>
    rintro rfl hbay h15
    have heval : evaluate 14 f (s.asked 14 f p) = _ :=
      State.nodeForm_of_node ((s.asked_isBay 14 f p).trans hbay) hrun h15 _
    rw [State.quarantineRead, State.asked_store, State.asked_unaccounted] at heval
    refine ⟨fun e hlt he' => hanswers (payload := quarantinePayload s.store.length s.capacity e) ?_ ?_,
      fun hlt hpast => exec_refused hrow he ?_,
      fun e hle hlt he' => hanswers (payload := unaccountedPayload s.unaccounted.length e) ?_ ?_,
      fun hle hlt hpast => exec_refused hrow he ?_, fun hle => exec_refused hrow he ?_⟩
    · rw [heval, if_pos hlt, he']
      exact congrArg (fun n => Answer.done _ (quarantinePayload s.store.length n e)) (s.asked_capacity 14 f p)
    · have hcapacity : s.capacity = s.profile.quarantineCapacity := rfl
      simp only [quarantinePayload, hcapacity, fieldBytes_cons, fieldBytes_nil, leBytes_one, List.cons_append,
        List.nil_append, List.append_nil, List.append_assoc, List.cons.injEq, true_and, and_true,
        List.append_cancel_left_eq]
      rcases e.reason with why | _
      · cases why <;> rfl
      · rfl
    · rw [heval, if_pos hlt, List.getElem?_eq_none hpast]
      rfl
    · rw [heval, if_neg (by omega), if_pos hlt, he']
      rfl
    · rfl
    · rw [heval, if_neg (by omega), if_pos hlt, List.getElem?_eq_none hpast]
      rfl
    · rw [heval, if_neg (by omega), if_neg (by omega)]
  case identity =>
    rintro rfl h15
    refine hanswers (State.nodeForm_of_node rfl hrun h15 _) ?_
    rw [State.identityPayload, State.asked_startup]
    cases s.startup.resetCause <;> rfl

end Sys2Proof.Proofs
end

