-- ==== Sys2Proof/Proofs/LineReview.lean ====
section
/-! A review of the line view, case by case: the view moves alone, or line_fire becomes true and stops the bays. -/

namespace Sys2Proof.Machine

open Sys2Proof Sys2Proof.Config

/-- All that line_fire becoming true can change (R38, R73, R89, R163). -/
def State.StopsOnly (s t : State) : Prop :=
  ∃ (bays : Vector Bay 4) (feed : Feed) (lamps : Lamps) (fifo : List HandoffOut) (n : Nat), t =
    { s with bays := bays, feed := feed, lamps := lamps, link := { s.link with fifo := fifo }
             tally := { s.tally with t6 := { s.tally.t6 with handoffDropped := n } } }

theorem State.StopsOnly.refl (s : State) : s.StopsOnly s := ⟨s.bays, s.feed, s.lamps, s.link.fifo, _, rfl⟩

theorem State.StopsOnly.trans {s t u : State} (h : s.StopsOnly t) (k : t.StopsOnly u) : s.StopsOnly u := by
  obtain ⟨_, _, _, _, _, rfl⟩ := h
  obtain ⟨_, _, _, _, _, rfl⟩ := k
  exact ⟨_, _, _, _, _, rfl⟩

theorem State.recallRelease_stopsOnly (s : State) (b : BayNo) : s.StopsOnly (s.recallRelease b) := by
  unfold State.recallRelease
  split
  · split
    · exact .refl s
    · rw [State.placeHandoff_eq (s.setBay b _) _ _ rfl rfl rfl, State.t6With]
      split <;> exact ⟨_, _, _, _, _, rfl⟩
  · exact .refl s

theorem State.lineFireRises_stopsOnly (s : State) : s.StopsOnly s.lineFireRises := by
  have hstop : s.StopsOnly (s.mapBays Bay.lineStop) := ⟨_, _, _, _, _, rfl⟩
  have hrecalled := (((hstop.trans (State.recallRelease_stopsOnly _ 0)).trans (State.recallRelease_stopsOnly _ 1)).trans
    (State.recallRelease_stopsOnly _ 2)).trans (State.recallRelease_stopsOnly _ 3)
  have hlit (u : State) : u.StopsOnly u.losePermissive.light := ⟨_, _, _, _, _, rfl⟩
  exact hrecalled.trans (hlit _)

/-- line_fire stands already, or does not hold: the line view moves alone (R151, R152). -/
theorem State.reviewLine_calm {s : State} (h : s.view.lineFire = true ∨ s.lineFireNow = false) :
    s.reviewLine = s.viewed := by
  rw [s.reviewLine_eq, State.reviewUnlit]
  rcases h with h | h <;> simp [h]

/-- line_fire becomes true (R38, R73, R89, R154). -/
theorem State.reviewLine_rising {s : State} (hfalse : s.view.lineFire = false) (htrue : s.lineFireNow = true) :
    s.reviewLine = s.viewed.lineFireRises := by
  exact if_pos (by rw [hfalse, htrue]; rfl)

theorem State.reviewLine_stopsOnly (s : State) : s.viewed.StopsOnly s.reviewLine := by
  cases hold : s.view.lineFire
  · cases hnow : s.lineFireNow
    · rw [State.reviewLine_calm (.inr hnow)]
      exact .refl _
    · rw [State.reviewLine_rising hold hnow]
      exact s.viewed.lineFireRises_stopsOnly
  · rw [State.reviewLine_calm (.inl hold)]
    exact .refl _

theorem State.lineFireNow_reviewLine (s : State) : s.reviewLine.lineFireNow = s.lineFireNow := by
  rw [State.lineFireNow, s.reviewLine_inputs.1, s.reviewLine_inputs.2]
  rfl

theorem State.linePreNow_reviewLine (s : State) : s.reviewLine.linePreNow = s.linePreNow := by
  rw [State.linePreNow, s.reviewLine_inputs.1, s.reviewLine_inputs.2]
  rfl

/-- A review leaves the line view that the state itself gives (R151, R152). -/
theorem State.reviewLine_view_self (s : State) :
    s.reviewLine.view =
      { s.view with lineFire := s.reviewLine.lineFireNow, linePre := s.reviewLine.linePreNow } := by
  rw [s.reviewLine_view, s.lineFireNow_reviewLine, s.linePreNow_reviewLine]

@[simp] theorem State.reviewLine_lineFire (s : State) : s.reviewLine.view.lineFire = s.lineFireNow := by
  rw [s.reviewLine_view]

/-- A review while line_fire is as it is to be moves line_pre alone (R151, R152). -/
theorem State.reviewLine_of_fire {s : State} (h : s.view.lineFire = s.lineFireNow) :
    s.reviewLine = { s with view := { s.view with linePre := s.linePreNow } } := by
  have hcalm : s.view.lineFire = true ∨ s.lineFireNow = false := by rw [h]; cases s.lineFireNow <;> simp
  rw [State.reviewLine_calm hcalm, State.viewed, ← h]

/-- A review of a lawful line view leaves everything (R151, R152). -/
theorem State.reviewLine_of_law {s : State} (h : s.LineViewLaw) : s.reviewLine = s := by
  rw [State.reviewLine_of_fire h.1, ← h.2]

/-! ### One entry of the peer table -/

theorem State.setPeer_self (s : State) (n : NodeNo) (p : Peer) : (s.setPeer n p).peers[n] = p := by simp [State.setPeer]

theorem State.setPeer_ne (s : State) (n k : NodeNo) (p : Peer) (h : k ≠ n) : (s.setPeer n p).peers[k] = s.peers[k] := by
  have : n.val ≠ k.val := fun e => h (Fin.ext e.symm)
  simp [State.setPeer, Vector.getElem_set_ne, this]

theorem State.setPeer_back (s : State) (n : NodeNo) (p : Peer) : (s.setPeer n p).setPeer n s.peers[n] = s := by
  simp [State.setPeer]

/-- A changed peer entry that shows FIRE only where it did before brings no line_fire (R151). -/
theorem State.lineFireNow_setPeer {s : State} {n : NodeNo} {p : Peer} (h : p.showsFire = true → (s.peers[n]).showsFire = true)
    (hnow : (s.setPeer n p).lineFireNow = true) : s.lineFireNow = true := by
  simp only [State.lineFireNow, Bool.or_eq_true, State.any_peers_iff] at hnow ⊢
  refine hnow.imp_right fun ⟨k, hk⟩ => ?_
  by_cases hkn : k = n
  · subst hkn
    rw [State.setPeer_self] at hk
    exact ⟨k, h hk⟩
  · rw [State.setPeer_ne _ _ _ _ hkn] at hk
    exact ⟨k, hk⟩

/-- A changed peer entry that shows FIRE as it did before leaves what line_fire is to be (R151). -/
theorem State.lineFireNow_setPeer_congr {s : State} {n : NodeNo} {p : Peer} (h : p.showsFire = (s.peers[n]).showsFire) :
    (s.setPeer n p).lineFireNow = s.lineFireNow := by
  refine Bool.eq_iff_iff.2 ⟨State.lineFireNow_setPeer (by rw [h]; exact id), fun hnow => ?_⟩
  refine State.lineFireNow_setPeer (s := s.setPeer n p) (n := n) (p := s.peers[n]) (by rw [State.setPeer_self, h]; exact id) ?_
  rw [State.setPeer_back]
  exact hnow

/-- A changed peer entry that shows PRE as it did before leaves what line_pre is to be (R152). -/
theorem State.linePreNow_setPeer {s : State} {n : NodeNo} {p : Peer} (h : p.showsPre = (s.peers[n]).showsPre) :
    (s.setPeer n p).linePreNow = s.linePreNow := by
  have hsame : (∃ k : NodeNo, ((s.setPeer n p).peers[k]).showsPre = true) ↔ ∃ k : NodeNo, (s.peers[k]).showsPre = true := by
    refine exists_congr fun k => ?_
    by_cases hkn : k = n
    · subst hkn; rw [State.setPeer_self, h]
    · rw [State.setPeer_ne _ _ _ _ hkn]
  rw [← State.any_peers_iff, ← State.any_peers_iff] at hsame
  rw [State.linePreNow, State.linePreNow, Bool.eq_iff_iff.2 hsame]
  rfl

end Sys2Proof.Machine
end

