-- ==== Sys2Proof/Proofs/PeerTable.lean ====
section
/-! What a delivered STATUS and a delivered TALLY do, and the ages of the peer table. -/

namespace Sys2Proof.Machine

open Sys2Proof Sys2Proof.Config

theorem nodeAddress_toNat (n : NodeNo) : (nodeAddress n).toNat = n.val := by revert n; decide

theorem statusInRange_iff (f : StatusFrame) : statusInRange f = true ↔
    f.role.toNat ≤ 2 ∧ f.zone.toNat ≤ 2 ∧ f.profile.toNat ≤ 3 ∧ f.power.toNat ≤ 3 := by
  simp [statusInRange, and_assoc]

/-- An eased reception leaves all but the link's counts and two link tallies (R167). -/
theorem State.eased_eq (s : State) :
    s.eased = { s with link := s.eased.link, tally := { s.tally with t6 := s.eased.tally.t6 } } := s.setErrors_eq _ _

/-- The gap count when a STATUS is taken, by what stood in the entry (R173). -/
theorem Peer.gapsNext_absent {p : Peer} (h : p.state = .absent) (seq : Byte) : p.gapsNext seq = p.gaps := by
  unfold Peer.gapsNext
  split
  · rfl
  · exact if_pos (.inl h)

theorem Peer.gapsNext_fields {p : Peer} {g : StatusFrame} (h : p.state ≠ .absent) (hg : p.fields = some g) (seq : Byte) :
    p.gapsNext seq = if seq = g.seq ∨ seq = g.seq + 1 then p.gaps else min (p.gaps + 1) 255 := by
  simp only [Peer.gapsNext, hg, h, false_or, satAdd]

/-- An entry that becomes STALE or LOST shows FIRE as before (R151). -/
theorem Peer.showsFire_of_state {p q : Peer} (hfields : q.fields = p.fields) (hp : p.state ≠ .absent)
    (hq : q.state ≠ .absent) : q.showsFire = p.showsFire := by
  simp [Peer.showsFire, hfields, hp, hq]

end Sys2Proof.Machine

namespace Sys2Proof.Proofs

open Sys2Proof Sys2Proof.Machine Sys2Proof.Config

/-- Settles O31: a STATUS in range is the entry's new report, and the review of the line does the rest
(`State.reviewLine_calm`, `State.reviewLine_rising`). -/
theorem statusTaken : Obligations.StatusTaken := by
  intro s src dst f n hhears p ranged
  have hexec : exec (.statusReceived src dst f) s = .next (State.takeStatus src f s.eased) :=
    congrArg _ (State.receive_of_hears hhears (by rw [hhears.source]; exact sourceAllowed_status n) (by decide) (by decide)
      (by decide) _)
  have hnode : nodeOf src = some n := by rw [hhears.source]; exact nodeOf_nodeAddress n
  have hpeer : s.eased.peers = s.peers := by rw [State.eased_eq]
  have htake : State.takeStatus src f s.eased =
      if statusInRange f then (s.eased.setPeer n (p.take f)).reviewLine else s.eased.countForeign := by
    rw [State.takeStatus, hnode, hpeer]
  refine ⟨fun hout => ?_, fun hin => ⟨(s.eased.setPeer n (p.take f)).reviewLine, ?_, ?_⟩⟩
  · rw [hexec, htake, if_neg (by rwa [statusInRange_iff])]
  · rw [hexec, htake, if_pos ((statusInRange_iff f).2 hin)]
  have hview := s.setErrors_view s.link.txErrors (s.link.rxErrors - 1)
  have hfire : s.eased.view = s.view := by rw [State.eased_eq]
  have hfeed : s.eased.feed = s.feed := by rw [State.eased_eq]
  have heased := s.eased_eq
  generalize s.eased = e at *
  generalize hv : e.setPeer n (p.take f) = v
  have hentry : v.peers[n] = p.take f := by rw [← hv, State.setPeer_self]
  have hstops := v.reviewLine_stopsOnly
  have hrest : v = { e with peers := v.peers } := by rw [← hv]; rfl
  have hpeers : v.reviewLine.peers = v.peers := v.reviewLine_inputs.2
  have hseen : v.view = s.view := by rw [hrest, hfire]
  have hshows (hzone : f.zone = 2) : v.lineFireNow = true ∧ v.linePreNow = true := by
    simp only [State.lineFireNow, State.linePreNow, Bool.or_eq_true, State.any_peers_iff]
    refine ⟨.inr ⟨n, ?_⟩, .inr ⟨n, ?_⟩⟩ <;> rw [hentry] <;> simp [Peer.showsFire, Peer.showsPre, Peer.take, hzone, codeFire]
  refine ⟨?_, ?_, ?_, fun habsent => ?_, fun g hstate hg => ?_, fun k hk => ?_, ?_, fun hzone => ?_, fun hold hnow => ?_,
    fun hcalm => ?_, ?_⟩
  · rw [hpeers, hentry]; rfl
  · rw [hpeers, hentry]; rfl
  · rw [hpeers, hentry]; rfl
  · rw [hpeers, hentry]; exact Peer.gapsNext_absent habsent _
  · rw [hpeers, hentry]; exact Peer.gapsNext_fields hstate hg _
  · rw [hpeers, ← hv, State.setPeer_ne _ _ _ _ hk, hpeer]
  · rw [v.reviewLine_view_self, hseen]
  · rw [v.reviewLine_view]; exact hshows hzone
  · rw [v.reviewLine_lineFire] at hnow
    have hrises := State.reviewLine_rising (by rw [hseen, hold]) hnow
    obtain ⟨hbays, hlink, htally, hpermissive⟩ := v.viewed.lineFireRises_spec
    have hfeed' : v.reviewLine.feed = s.feed.losePermissive := by
      rw [hrises, hpermissive, ← hfeed, ← hv]
      rfl
    refine ⟨?_, hfeed', ?_, ?_, ?_⟩
    · rw [hrises]
      refine .intro e v.viewed _ (fun r => r) (fun _ => ⟨rfl, rfl⟩) (fun k => ?_) ?_ ?_ ?_ hbays hlink (by rw [htally])
      · rw [← hv]
        change e.bay k = { e.bay k with slot := (e.bay k).slot.onRecord id }
        rw [Slot.onRecord_id]
      all_goals rw [← hv]; rfl
    · rw [hfeed']; exact (Feed.losePermissive_spec _).1
    · rw [hfeed']; exact (Feed.losePermissive_spec _).2.1
    · obtain ⟨_, _, _, _, _, h⟩ := hstops
      rw [h, ← hv]
      rfl
  · rw [v.reviewLine_lineFire] at hcalm
    rw [State.reviewLine_calm (by rwa [hseen]), ← hv]
    rfl
  · obtain ⟨_, _, _, _, _, h⟩ := hstops
    rw [h, ← hv, heased]
    rfl

/-- Settles O32: an entry that grows old shows FIRE as before, so the line view is lawful without a stop; a forgotten one
shows nothing. -/
theorem peersAgeAndAreForgotten : Obligations.PeersAgeAndAreForgotten := by
  refine ⟨fun s n k hage hpresent hlaw => ?stale, fun s n k hage hheard hlaw => ?lost, fun s n hage => ?stopped,
    fun s f p he h15 hlaw => ?forget⟩
  case stopped =>
    exact ⟨congrArg _ (if_neg (by rw [hage]; exact Bool.false_ne_true)),
      congrArg _ (if_neg (by rw [hage]; exact Bool.false_ne_true))⟩
  case stale =>
    have hexec : exec (.peerAgeStale n) s = .next (s.setPeer n { s.peers[n] with state := .stale }).reviewLine :=
      congrArg _ (if_pos (by rw [hage, hpresent]; rfl))
    have hfire := State.lineFireNow_setPeer_congr (s := s) (n := n) (p := { s.peers[n] with state := .stale })
      (Peer.showsFire_of_state rfl (by rw [hpresent]; decide) nofun)
    have hpre := State.linePreNow_setPeer (s := s) (n := n) (p := { s.peers[n] with state := .stale })
      (by unfold Peer.showsPre; rw [hpresent]; rfl)
    rw [hexec]
    exact congrArg _ (State.reviewLine_of_law ⟨hlaw.1.trans hfire.symm, hlaw.2.trans hpre.symm⟩)
  case lost =>
    have hexec : exec (.peerAgeLost n) s = .next (s.losePeer n) := congrArg _ (if_pos (by rw [hage]; rfl))
    have hfire := State.lineFireNow_setPeer_congr (s := s) (n := n) (p := { s.peers[n] with state := .lost, age := none })
      (Peer.showsFire_of_state rfl hheard nofun)
    refine ⟨_, hexec.trans (congrArg _ (State.reviewLine_of_fire (hlaw.1.trans hfire.symm))), rfl, ?_, rfl, rfl, rfl⟩
    have hraised := State.raise_raised s (s.setPeer n { s.peers[n] with state := .lost, age := none }) rfl rfl rfl
      .peerLost (.node n.val) none
    refine hraised.congr ?_
    rfl
  case forget =>
    have heval : evaluate 11 f (s.asked 11 f p) = _ := State.nodeForm_of_node rfl he.asked_running h15 _
    rw [State.asked_peers, State.asked_startup] at heval
    have hown {n : NodeNo} : nodeAddress n = s.startup.straps.node ↔ n.val = s.startup.straps.node.toNat := by
      rw [← BitVec.toNat_inj, nodeAddress_toNat]
    have harg {n : NodeNo} (hn : f.node.toNat = n.val) : nodeArg f.node = some n := by
      rw [nodeArg, dif_pos (by omega)]
      exact congrArg some (Fin.ext hn)
    refine ⟨fun hbad => exec_refused rfl he ?_, fun n hn hother => ?_⟩
    · rw [heval]
      by_cases hnode : f.node.toNat < 12
      · obtain ⟨n, hn⟩ : ∃ n : NodeNo, f.node.toNat = n.val := ⟨⟨_, hnode⟩, rfl⟩
        rw [harg hn]
        exact if_pos (hown.2 (by omega))
      · rw [nodeArg, dif_neg hnode]
    rw [harg hn] at heval
    dsimp only at heval
    rw [if_neg (hown.not.2 hother)] at heval
    refine ⟨fun hheard => exec_refused rfl he (heval.trans (if_neg hheard)), fun hlost => ?_⟩
    rw [if_pos hlost] at heval
    have hexec := exec_done (c := .peerForget f) rfl he heval ((State.reviewLine_startup _).trans (s.asked_startup 11 f p))
    have hfire := s.asked_fire 11 f p
    have hpeers := s.asked_peers 11 f p
    have hview := s.asked_view 11 f p
    have hreplies := s.asked_replies 11 f p
    clear heval
    generalize s.asked 11 f p = u at *
    have hnow : (u.setPeer n Peer.reset).lineFireNow = true → s.view.lineFire = true := by
      intro h
      have hbefore := State.lineFireNow_setPeer (s := u) (n := n) (p := Peer.reset) nofun h
      rw [hlaw.1, State.lineFireNow, ← hfire, ← hpeers]
      exact hbefore
    have hcalm : (u.setPeer n Peer.reset).reviewLine = (u.setPeer n Peer.reset).viewed := by
      refine State.reviewLine_calm ?_
      rw [← Bool.not_eq_true]
      exact (em _).imp_left fun h => (congrArg (·.lineFire) hview).trans (hnow h)
    rw [hcalm] at hexec
    have hset := State.placeReply_replies (s := s) (u := (u.setPeer n Peer.reset).viewed) hreplies p
    refine ⟨_, hexec, ?_, ?_, fun htrue => hnow htrue, fun g hg => ?_, fun q hq => ?_, rfl⟩
    · change (u.setPeer n Peer.reset).peers = _
      rw [State.setPeer, hpeers]
      rfl
    · change (u.setPeer n Peer.reset).viewed.view = _
      rw [State.viewed, State.setPeer, hview]
      rfl
    · rw [hset, Peer.forgetPayload, hg]
    · rw [hset]
      exact Vector.getElem_set_ne _ _ fun h => hq (Fin.ext h.symm)

/-- Settles O33: the comparison sets the count of differences, and its second difference in a row is the raise. -/
theorem tallyCompared : Obligations.TallyCompared := by
  intro s src dst f n o hhears hown
  have hexec : exec (.tallyReceived src dst f) s = .next (State.takeTally src f s.eased) :=
    congrArg _ (State.receive_of_hears hhears (by rw [hhears.source]; exact sourceAllowed_tally n) (by decide) (by decide)
      (by decide) _)
  have hnode : nodeOf src = some n := by rw [hhears.source]; exact nodeOf_nodeAddress n
  have hself : nodeOf s.startup.straps.node = some o := by rw [hown]; exact nodeOf_nodeAddress o
  have hstartup : s.eased.startup = s.startup := by rw [s.eased_eq]
  have hhandoff : s.eased.handoff = s.handoff := by rw [s.eased_eq]
  have htally : s.eased.tally.t1 = s.tally.t1 := by rw [s.eased_eq]
  have hlatch : s.eased.latch = s.latch := by rw [s.eased_eq]
  have hattempt : s.eased.link.attempt = s.link.attempt := by rw [State.eased, State.setErrors_link]
  have hbay : s.eased.isBay = s.isBay := by rw [State.isBay, State.role, hstartup]; rfl
  generalize s.eased = u at *
  rw [State.takeTally, hbay, hstartup, hnode, hself] at hexec
  refine ⟨fun hyes hrecord => ?_, fun hno => hexec.trans (congrArg _ (if_neg ?_))⟩
  · rw [if_pos (by rw [hyes, hrecord]; rfl)] at hexec
    dsimp only [State.reconcile] at hexec
    rw [hhandoff, htally, tallySettledFrom] at hexec
    generalize (f.body.extractLsb' (32 * o.val) 32).toNat = carried at hexec ⊢
    have hraised := State.raise_raised s { u with handoff := { s.handoff with differences := 2 } } hlatch hattempt
      (by rw [hstartup]) .reconcile (.node n.val) none
    by_cases hequal : carried = s.tally.t1.settled
    · rw [decide_eq_true hequal, differencesNext, if_pos rfl, if_neg (by simp)] at hexec
      exact ⟨_, hexec, fun _ => rfl, fun hne => absurd hequal hne, fun _ => nofun,
        fun _ => hlatch, rfl⟩
    · rw [decide_eq_false hequal, differencesNext, if_neg Bool.false_ne_true] at hexec
      by_cases hone : s.handoff.differences = 1
      · rw [hone, if_pos ⟨rfl, rfl⟩] at hexec
        refine ⟨_, hexec, fun heq => absurd heq hequal, fun _ => by rw [hone]; rfl, fun _ _ => hraised,
          fun hnot => absurd ⟨hone, rfl⟩ hnot, rfl⟩
      · rw [if_neg fun h => hone h.2] at hexec
        exact ⟨_, hexec, fun heq => absurd heq hequal, fun _ => rfl, fun h => absurd h hone, fun _ => hlatch, rfl⟩
  · rcases hno with hno | hno
    · rw [hno]; exact Bool.false_ne_true
    · exact fun h => hno (by simpa using (Bool.and_eq_true_iff.1 h).2)

end Sys2Proof.Proofs
end

