-- ==== Sys2Proof/Proofs/AlarmReset.lean ====
section
/-! An ALARM_RESET: the memories of every source, the records it rejects, and the line after it. -/

namespace Sys2Proof.Machine

open Sys2Proof Sys2Proof.Config

/-! ### The records that an ALARM_RESET rejects -/

/-- A bay at an ALARM_RESET that ends FIRE (R140). -/
def Bay.rejectedExposed (x : Bay) : Bay :=
  match x.slot with
  | .pack st r => if st.rejectable && r.fireExposed then x.enter .rejected { r with endCause := some .fireExposed } else x
  | .empty => x
  | .orphan => x

/-- From `s` to `t` the bays of `l` were rejected where their record is exposed, and each rejection was counted (R2, R140). -/
structure State.RejectsExposed (s t : State) (l : List BayNo) : Prop where
  rejected : ∀ b ∈ l, t.bay b = (s.bay b).rejectedExposed
  others : ∀ b ∉ l, t.bay b = s.bay b
  counted : s.tally.t1.rejected ≤ max32 → t.tally.t1.rejected =
    min (s.tally.t1.rejected + l.countP fun b => (s.bay b).slot.exposed) max32
  rest : t = { s with bays := t.bays, tally := { s.tally with t1 := { s.tally.t1 with rejected := t.tally.t1.rejected } } }

theorem State.RejectsExposed.refl (s : State) : s.RejectsExposed s [] where
  rejected := nofun
  others _ _ := rfl
  counted h := (Nat.min_eq_left h).symm
  rest := rfl

/-- One bay, by its slot: rejected and counted, or left (R140). -/
theorem State.rejectExposed_cases (s : State) (b : BayNo) :
    ((s.bay b).slot.exposed = false ∧ (s.bay b).rejectedExposed = s.bay b ∧ s.rejectExposed b = s) ∨
    ((s.bay b).slot.exposed = true ∧
      s.rejectExposed b = { s.setBay b (s.bay b).rejectedExposed with
        tally := { s.tally with t1 := { s.tally.t1 with rejected := bump s.tally.t1.rejected } } }) := by
  simp only [State.rejectExposed, Bay.rejectedExposed, Slot.exposed]
  cases (s.bay b).slot with
  | pack st r =>
    dsimp only
    cases st.rejectable && r.fireExposed
    · exact .inl ⟨rfl, rfl, rfl⟩
    · exact .inr ⟨rfl, rfl⟩
  | empty => exact .inl ⟨rfl, rfl, rfl⟩
  | orphan => exact .inl ⟨rfl, rfl, rfl⟩

theorem State.RejectsExposed.snoc {s t : State} {l : List BayNo} (h : s.RejectsExposed t l) {b : BayNo} (hb : b ∉ l) :
    s.RejectsExposed (t.rejectExposed b) (l ++ [b]) := by
  have hbay := h.others b hb
  have hcount : (l ++ [b]).countP (fun k => (s.bay k).slot.exposed) =
      l.countP (fun k => (s.bay k).slot.exposed) + (s.bay b).slot.exposed.toNat := by
    rw [List.countP_append, List.countP_singleton]
    cases (s.bay b).slot.exposed <;> rfl
  rcases t.rejectExposed_cases b with ⟨hexposed, hsame, heq⟩ | ⟨hexposed, heq⟩
  · rw [hbay] at hexposed hsame
    rw [heq]
    refine ⟨fun k hk => ?_, fun k hk => h.others k fun hl => hk (List.mem_append_left _ hl), fun hle => ?_, h.rest⟩
    · rcases List.mem_append.1 hk with hk | hk
      · exact h.rejected k hk
      · rw [List.mem_singleton.1 hk, hbay, hsame]
    · rw [hcount, hexposed]; exact h.counted hle
  · rw [hbay] at hexposed heq
    have hself : (t.rejectExposed b).bay b = (s.bay b).rejectedExposed := by
      rw [heq]; exact t.setBay_bay_self b _
    have hne (k : BayNo) (hk : k ≠ b) : (t.rejectExposed b).bay k = t.bay k := by
      rw [heq]; exact t.setBay_bay_ne b k _ hk
    refine ⟨fun k hk => ?_, fun k hk => ?_, fun hle => ?_, ?_⟩
    · rcases List.mem_append.1 hk with hk | hk
      · rw [hne k fun hkb => hb (hkb ▸ hk)]; exact h.rejected k hk
      · rw [List.mem_singleton.1 hk, hself]
    · rw [hne k fun hkb => hk (by rw [hkb]; simp)]
      exact h.others k fun hl => hk (List.mem_append_left _ hl)
    · rw [hcount, hexposed, heq]
      change min (t.tally.t1.rejected + 1) max32 = min (_ + (_ + 1)) max32
      rw [h.counted hle]
      omega
    · rw [heq, h.rest]
      rfl

/-- All four bays (R140). -/
theorem State.rejectAllExposed_spec (s : State) : s.RejectsExposed s.rejectAllExposed (List.finRange 4) :=
  ((((State.RejectsExposed.refl s).snoc (b := 0) (by decide)).snoc (b := 1) (by decide)).snoc (b := 2) (by decide)).snoc
    (b := 3) (by decide)

theorem Bay.rejectedExposed_of_exposed {x : Bay} {st : PackState} {r : Record} (hslot : x.slot = .pack st r)
    (hst : st.rejectable = true) (hr : r.fireExposed = true) :
    x.rejectedExposed = x.enter .rejected { r with endCause := some .fireExposed } := by
  rw [Bay.rejectedExposed, hslot]
  exact if_pos (by rw [hst, hr]; rfl)

theorem Bay.rejectedExposed_of_not {x : Bay} (h : x.slot.exposed = false) : x.rejectedExposed = x := by
  simp only [Bay.rejectedExposed, Slot.exposed] at h ⊢
  split
  · next st r hslot =>
    rw [hslot] at h
    exact if_neg (fun h' => Bool.false_ne_true (h.symm.trans h'))
  · rfl
  · rfl

/-! ### Before the line view -/

/-- An ALARM_RESET after which the records of fire are rejected: FIRE at a BAY node (R140). -/
def State.endsFire (s : State) : Bool := s.isBay && decide (s.fire.zone = .fire)

/-- An ALARM_RESET up to the rejection of records (R139, R140). -/
def State.forgotten (s : State) : State :=
  let t := ({ s with fire := s.fire.clear }).onT6 (fun t => { t with alarmResets := bump t.alarmResets })
  if s.endsFire then t.rejectAllExposed else t

/-- An ALARM_RESET up to the review of the line (R122, R139, R140). -/
def State.unalarmed (s : State) : State := s.forgotten.endFlood.driveRelays

theorem State.resetAlarm_eq (s : State) : s.resetAlarm = s.unalarmed.reviewLine.light := rfl

/-- From `s` to `t` the zone became NORMAL, with what belongs to it (R122, R139, R140). -/
structure State.Unalarms (s t : State) : Prop where
  fire : t.fire = { s.fire.clear with fireRelay := false, preRelay := false }
  alarmResets : t.tally.t6 = { s.tally.t6 with alarmResets := bump s.tally.t6.alarmResets }
  ended : s.endsFire = true → (∀ b : BayNo, t.bay b = (s.bay b).rejectedExposed) ∧
    (s.tally.t1.rejected ≤ max32 → t.tally.t1 =
      { s.tally.t1 with rejected := min (s.tally.t1.rejected + s.countBays Slot.exposed) max32 })
  stood : s.endsFire = false → t.bays = s.bays ∧ t.tally.t1 = s.tally.t1
  flooded : s.isShred = true → s.atmos.state = .flood → t.atmos = { s.atmos with
      state := .purging, purge := true, flood := false, qualify := 0, stageTimer := some 0, slow := false, loss := false } ∧
    t.tally.t5 = { s.tally.t5 with purgeEntries := bump s.tally.t5.purgeEntries }
  dry : s.isShred = false ∨ s.atmos.state ≠ .flood → t.atmos = s.atmos ∧ t.tally.t5 = s.tally.t5
  rest : t = { s with fire := t.fire, bays := t.bays, atmos := t.atmos
                      tally := { s.tally with t1 := t.tally.t1, t5 := t.tally.t5, t6 := t.tally.t6 } }

/-- What an ALARM_RESET rejects, and what it leaves to the atmosphere and the line (R139, R140). -/
theorem State.forgotten_spec (s : State) :
    (s.endsFire = true → (∀ b : BayNo, s.forgotten.bay b = (s.bay b).rejectedExposed) ∧
      (s.tally.t1.rejected ≤ max32 → s.forgotten.tally.t1 =
        { s.tally.t1 with rejected := min (s.tally.t1.rejected + s.countBays Slot.exposed) max32 })) ∧
    (s.endsFire = false → s.forgotten.bays = s.bays ∧ s.forgotten.tally.t1 = s.tally.t1) ∧
    s.forgotten = { s with fire := s.fire.clear, bays := s.forgotten.bays
                           tally := { s.tally with t1 := s.forgotten.tally.t1
                                                   t6 := { s.tally.t6 with alarmResets := bump s.tally.t6.alarmResets } } } := by
  unfold State.forgotten
  cases hends : s.endsFire
  · exact ⟨nofun, fun _ => ⟨rfl, rfl⟩, rfl⟩
  · rw [if_pos rfl]
    have hspec := State.rejectAllExposed_spec
      (({ s with fire := s.fire.clear }).onT6 (fun t => { t with alarmResets := bump t.alarmResets }))
    generalize State.rejectAllExposed _ = t at hspec ⊢
    obtain ⟨hrejected, -, hcounted, hrest⟩ := hspec
    refine ⟨fun _ => ⟨fun b => hrejected b (List.mem_finRange b), fun hle => ?_⟩, nofun, ?_⟩
    · rw [s.countBays_eq_countP, hrest]
      exact congrArg (fun n => ({ s.tally.t1 with rejected := n } : Tally1)) (hcounted hle)
    · rw [hrest]
      rfl

theorem State.unalarmed_spec (s : State) : s.Unalarms s.unalarmed := by
  obtain ⟨hended, hstood, hrest⟩ := s.forgotten_spec
  have hshred : s.forgotten.isShred = s.isShred := by rw [State.isShred, State.role, hrest]; rfl
  have hatmos : s.forgotten.atmos = s.atmos := by rw [hrest]
  have htally : s.forgotten.tally.t5 = s.tally.t5 := by rw [hrest]
  unfold State.unalarmed
  by_cases hflood : s.isShred = true ∧ s.atmos.state = .flood
  · have heq : s.forgotten.endFlood = s.forgotten.enterPurging false :=
      if_pos (by rw [hshred, hatmos, hflood.1, hflood.2]; rfl)
    rw [heq]
    refine ⟨?_, ?_, hended, hstood, fun _ _ => ?_, fun hno => ?_, ?_⟩
    · rw [hrest]; rfl
    · rw [hrest]; rfl
    · simp [State.driveRelays, State.enterPurging, State.onT5, hatmos, htally]
    · rw [hflood.1, hflood.2] at hno
      simp at hno
    · rw [hrest]; rfl
  · have heq : s.forgotten.endFlood = s.forgotten := if_neg (by simpa [hshred, hatmos] using hflood)
    rw [heq]
    refine ⟨?_, ?_, hended, hstood, fun hyes hstate => absurd ⟨hyes, hstate⟩ hflood, fun _ => ⟨hatmos, htally⟩, ?_⟩
    · rw [hrest]; rfl
    · rw [hrest]; rfl
    · rw [hrest]; rfl

/-! ### After it -/

/-- What line_fire becoming true leaves of a bay that holds no running or moving pack (R38, R73). -/
theorem State.reviewLine_bay_rejected {s : State} {b : BayNo} {r : Record} (h : (s.bay b).slot = .pack .rejected r) :
    s.reviewLine.bay b = s.bay b := by
  have hkept : (s.bay b).lineStop.recalled = s.bay b := by
    simp only [Bay.lineStop, Bay.recalled, h]
  cases hold : s.view.lineFire
  · cases hnow : s.lineFireNow
    · rw [State.reviewLine_calm (.inr hnow)]
      rfl
    · rw [State.reviewLine_rising hold hnow, (State.lineFireRises_spec _).1]
      exact hkept
  · rw [State.reviewLine_calm (.inl hold)]
    rfl

end Sys2Proof.Machine

namespace Sys2Proof.Proofs

open Sys2Proof Sys2Proof.Machine Sys2Proof.Config

/-- Settles O45: an accepted ALARM_RESET is `State.unalarmed` and a review of the line, which leaves what was rejected. -/
theorem alarmResetEndsTheAlarm : Obligations.AlarmResetEndsTheAlarm := by
  intro s f p he h15
  have heval : evaluate 7 f (s.asked 7 f p) = _ := State.nodeForm_of_node rfl he.asked_running h15 _
  rw [State.asked_fire] at heval
  have halert : s.fire.alert = true ↔ ∃ x ∈ s.fire.sources, x.grade ≠ .none := by
    simp [Fire.alert, Source.atPre]
  refine ⟨fun hatPre => exec_refused rfl he (heval.trans (if_pos (halert.2 hatPre))), fun hnone => ?_⟩
  have hquiet : ¬ s.fire.alert = true := by rw [halert]; push Not; exact hnone
  rw [if_neg hquiet] at heval
  have hdone := exec_done (c := .alarmReset f) rfl he heval ((State.resetAlarm_startup _).trans (s.asked_startup 7 f p))
  rw [State.resetAlarm_eq] at hdone
  have hspec := (s.asked 7 f p).unalarmed_spec
  have hends : (s.asked 7 f p).endsFire = true ↔ s.isBay = true ∧ s.fire.zone = .fire := by
    simp [State.endsFire]
  have hcount : (s.asked 7 f p).countBays Slot.exposed = s.countBays Slot.exposed := by
    rw [State.countBays, State.asked_bays]; rfl
  have hexposed : (s.asked 7 f p).exposedCount =
      if (s.asked 7 f p).endsFire then s.countBays Slot.exposed else 0 := by rw [← hcount]; rfl
  have hbays := s.asked_bays 7 f p
  have hbay := s.asked_bay 7 f p
  have ht1 := s.asked_t1 7 f p
  have ht5 := s.asked_t5 7 f p
  have hatmos := s.asked_atmos 7 f p
  have hfire := s.asked_fire 7 f p
  have hview := s.asked_view 7 f p
  have hfeed := s.asked_feed 7 f p
  have hfifo := s.asked_fifo 7 f p
  have hreplies := s.asked_replies 7 f p
  have hshred := s.asked_isShred 7 f p
  clear heval
  dsimp only
  generalize s.asked 7 f p = u at *
  generalize u.unalarmed = w at hdone hspec
  have hcalm := State.reviewLine_calm (s := w)
  have hlanded (b : BayNo) (r : Record) := State.reviewLine_bay_rejected (s := w) (b := b) (r := r)
  have hstops := w.reviewLine_stopsOnly
  have hviewed := w.reviewLine_view_self
  have hlineFire := w.reviewLine_lineFire
  have hnow := w.lineFireNow_reviewLine
  obtain ⟨_, _, _, _, _, hframe⟩ := hstops
  obtain ⟨hfire', ht6, hended, hstood, hflooded, hdry, hrest⟩ := hspec
  have hwview : w.view = s.view := by rw [hrest, hview]
  generalize w.reviewLine = v at *
  have hvfire : v.fire = { s.fire.clear with fireRelay := false, preRelay := false } := by
    rw [hframe, ← hfire]
    exact hfire'
  have hvt1 : v.tally.t1 = w.tally.t1 := by rw [hframe]; rfl
  have hvt5 : v.tally.t5 = w.tally.t5 := by rw [hframe]; rfl
  have hvatmos : v.atmos = w.atmos := by rw [hframe]; rfl
  have hvreplies : v.link.replies = s.link.replies := by rw [hframe, ← hreplies, hrest]; rfl
  have hset := State.placeReply_replies (s := s) (u := v.light) hvreplies p
  have hvbay (b : BayNo) (r : Record) (h : (w.bay b).slot = .pack .rejected r) : v.bay b = w.bay b := hlanded b r h
  rw [hexposed] at hdone
  refine ⟨_, hdone, ?fire, fun c => ?channels, ?t6, fun hyes => ?ended, fun hno => ?stood, fun hyes hwet => ?flooded,
    fun hdry' => ?dry, ?view, fun hstill => ?still, ?frame⟩
  case fire =>
    change v.fire = { s.fire with
      zone := .normal, clearCount := 0, fireRelay := false, preRelay := false, channels := v.fire.channels
      bayHeat := { s.fire.bayHeat with preMem := 31, fireMem := 31, run := none } }
    rw [hvfire]
    rfl
  case channels =>
    change v.fire.channels[c] = _
    rw [hvfire]
    simp [Fire.clear, Source.forget]
  case t6 =>
    change v.tally.t6 = { u.tally.t6 with
      alarmResets := bump u.tally.t6.alarmResets, handoffDropped := v.tally.t6.handoffDropped }
    have hdropped : v.tally.t6 = { w.tally.t6 with handoffDropped := v.tally.t6.handoffDropped } := by rw [hframe]; rfl
    exact hdropped.trans (by rw [ht6])
  case ended =>
    obtain ⟨hrejected, hcounted⟩ := hended (hends.2 hyes)
    refine ⟨fun b st r hslot hr hst => ?_, fun hle => ?_, ?_⟩
    · have hentered : w.bay b = (s.bay b).enter .rejected { r with endCause := some .fireExposed } := by
        rw [hrejected, hbay]
        refine Bay.rejectedExposed_of_exposed hslot ?_ hr
        rcases hst with rfl | rfl | ⟨c, rfl⟩ | rfl | rfl <;> rfl
      have hfinal := (hvbay b _ (by rw [hentered]; rfl)).trans hentered
      change (v.bay b).slot = _ ∧ (v.bay b).contactor = _ ∧ (v.bay b).sink = _ ∧ (v.bay b).restTimer = _ ∧
        (v.bay b).backoff = _
      rw [hfinal]
      exact ⟨rfl, rfl, rfl, rfl, rfl⟩
    · rw [ht1] at hcounted
      rw [← hcount]
      exact hvt1.trans (hcounted hle)
    · rw [hset, if_pos (hends.2 hyes)]
      rfl
  case stood =>
    have hfalse : u.endsFire = false := by rw [← Bool.not_eq_true, hends]; exact hno
    refine ⟨hvt1.trans ((hstood hfalse).2.trans ht1), ?_⟩
    rw [hset, hfalse]
    rfl
  case flooded =>
    obtain ⟨hpurging, hentries⟩ := hflooded (hshred.trans hyes) (by rw [hatmos]; exact hwet)
    exact ⟨hvatmos.trans (by rw [hpurging, hatmos]), hvt5.trans (by rw [hentries, ht5]; rfl)⟩
  case dry =>
    obtain ⟨hsame, hentries⟩ := hdry (by rw [hshred, hatmos]; exact hdry')
    exact ⟨hvatmos.trans (hsame.trans hatmos), hvt5.trans (hentries.trans ht5)⟩
  case view =>
    rw [hwview] at hviewed
    exact hviewed
  case still =>
    have hquiet' : v = w.viewed := hcalm (by
      rw [hwview, ← hlineFire]
      exact hstill)
    have hwt6 : w.tally.t6.handoffDropped = u.tally.t6.handoffDropped := by rw [ht6]
    have hwfeed : w.feed = s.feed := by rw [hrest, hfeed]
    have hwfifo : w.link.fifo = s.link.fifo := by rw [hrest, hfifo]
    change v.feed = _ ∧ v.link.fifo = _ ∧ v.tally.t6.handoffDropped = _ ∧ ∀ b, _ → v.bay b = _
    rw [hquiet']
    refine ⟨hwfeed, hwfifo, hwt6, fun b hb => ?_⟩
    change w.bay b = s.bay b
    cases hfire' : u.endsFire
    · rw [State.bay, (hstood hfire').1, hbays]
      rfl
    · rw [(hended hfire').1 b, hbay]
      exact Bay.rejectedExposed_of_not (hb.resolve_right fun hno => hno (hends.1 hfire'))
  case frame =>
    rw [hframe]
    clear * - hrest
    rw [hrest]
    rfl

end Sys2Proof.Proofs
end

