-- ==== Sys2Proof/Proofs/Raises.lean ====
section
/-! Several raises at one command: of one cause one after another, and of one cause among others. -/

namespace Sys2Proof.Machine

open Sys2Proof Sys2Proof.Config

/-- As `State.RaisedTimes`, with the entry of the cause the one that is found, so that a further raise counts it on (R145,
R146). -/
structure State.FoundTimes (s t : State) (k : Nat) (c : Cause) (place : Place) (tag : Option Tag) : Prop where
  entry : ∃ e : PendingEntry, findEntry c t.latch.entries = some e ∧ e.cause = c ∧
    s.Folds k place tag (findEntry c s.latch.entries) e
  after : ∀ a : Attempt, s.link.attempt = some a → a.buffer = .alarm c →
    ∃ e : PendingEntry, t.latch.after = some e ∧ (s.latch.after = none → e.cause = c) ∧ s.Folds k place tag s.latch.after e

variable {s t u : State} {k : Nat} {c : Cause} {p : Place} {g : Option Tag}

theorem State.FoundTimes.raisedTimes (h : s.FoundTimes t k c p g) : s.RaisedTimes t k c p g where
  entry := by
    obtain ⟨e, hfound, hcause, hfolds⟩ := h.entry
    exact ⟨e, List.mem_of_find?_eq_some hfound, hcause, hfolds⟩
  after := h.after

theorem State.findEntry_raise (s : State) (c : Cause) (p : Place) (g : Option Tag) :
    findEntry c (s.raise c p g).latch.entries =
      some (foldRaise s.startup.nodeTime c p g (findEntry c s.latch.entries)) := by
  have h := findEntry_insertEntry_self (foldRaise s.startup.nodeTime c p g (findEntry c s.latch.entries)) s.latch.entries
  rwa [foldRaise_cause] at h

/-- The first raise. -/
theorem State.raise_foundTimes (s : State) (c : Cause) (p : Place) (g : Option Tag) :
    s.FoundTimes (s.raise c p g) 1 c p g where
  entry := ⟨_, s.findEntry_raise c p g, foldRaise_cause _ _ _ _ _, foldRaise_folds _ _ _ _ _⟩
  after := (s.raise_raisedIn c p g).after

/-- One more raise of the same cause. -/
theorem State.FoundTimes.raise_same (h : s.FoundTimes t k c p g) (hk : 0 < k)
    (hattempt : t.link.attempt = s.link.attempt) (p' : Place) (g' : Option Tag) :
    s.FoundTimes (t.raise c p' g') (k + 1) c p' g' where
  entry := by
    obtain ⟨e, hfound, -, hfolds⟩ := h.entry
    refine ⟨_, t.findEntry_raise c p' g', foldRaise_cause _ _ _ _ _, ?_⟩
    rw [hfound]
    exact foldRaise_foldRaise_folds hfolds hk _ _ _ _
  after a ha hbuffer := by
    obtain ⟨e, hafter, hcause, hfolds⟩ := h.after a ha hbuffer
    have hattempting : t.attempting c = true := (t.attempting_iff c).2 ⟨a, hattempt.trans ha, hbuffer⟩
    refine ⟨_, if_pos hattempting, fun hnone => ?_, ?_⟩
    · rw [hafter]
      exact hcause hnone
    · rw [hafter]
      exact foldRaise_foldRaise_folds hfolds hk _ _ _ _

theorem State.FoundTimes.of_same (h : s.SameFor u c) (r : u.FoundTimes t k c p g) : s.FoundTimes t k c p g where
  entry := by
    obtain ⟨e, hfound, hcause, hlatest, hnew, hmore⟩ := r.entry
    exact ⟨e, hfound, hcause, hlatest, by rw [← h.entry, ← h.now]; exact hnew, by rw [← h.entry]; exact hmore⟩
  after := (State.RaisedTimes.of_same h r.raisedTimes).after

theorem State.FoundTimes.congr (hl : u.latch = t.latch) (h : s.FoundTimes t k c p g) : s.FoundTimes u k c p g :=
  ⟨by rw [hl]; exact h.entry, by rw [hl]; exact h.after⟩

/-- A raise after others adds its cause to those raised. -/
theorem State.OthersPend.raise {l : List Cause} (h : s.OthersPend t l) (hattempt : t.link.attempt = s.link.attempt)
    (c : Cause) (p : Place) (g : Option Tag) (hc : c ∈ l) : s.OthersPend (t.raise c p g) l :=
  h.trans hattempt ((t.raise_others c p g).mono (by simpa using hc))

/-- Raises are seen in any state with the latch that they made. -/
theorem State.RaisedTimes.onto (r : s.RaisedTimes t k c p g) (h : u.latch = t.latch) : s.RaisedTimes u k c p g := r.congr h

theorem State.Raised.onto (r : s.Raised t c p g) (h : u.latch = t.latch) : s.Raised u c p g := r.congr h

theorem State.OthersPend.onto {l : List Cause} (q : s.OthersPend t l) (h : u.latch = t.latch) : s.OthersPend u l :=
  q.congr rfl rfl h

end Sys2Proof.Machine
end

