-- ==== Sys2Proof/Proofs/FireSample.lean ====
section
/-! One fire sample: the onsets of its channels, the IMPAIRED flag, and the move of the zone. -/

namespace Sys2Proof.Machine

open Sys2Proof Sys2Proof.Config

/-! ### Onsets -/

/-- The fault record entry of a channel's onset (R129). -/
def onsetFault (c : Fin 4) : FaultCause × Place × Option Tag := (.channelFault, .channel c.val, none)

/-- From `s` to `t` the channels of `l` had their onset, one after another (R129). -/
structure State.Onsets (s t : State) (l : List (Fin 4)) : Prop where
  none : l = [] → t.latch = s.latch
  raised : ∀ (m : List (Fin 4)) (c : Fin 4), l = m ++ [c] →
    s.FoundTimes t l.length .channelFault (.channel c.val) Option.none
  others : s.OthersPend t [.channelFault]
  same : ∀ c : Cause, c ≠ .channelFault → s.SameFor t c
  faults : t.faults = s.faultsAfter (l.map onsetFault)
  counted : t.tally.t6.channelFaults =
    if l = [] then s.tally.t6.channelFaults else min (s.tally.t6.channelFaults + l.length) max32
  rest : t = { s with latch := t.latch, faults := t.faults
                      tally := { s.tally with t6 := { s.tally.t6 with channelFaults := t.tally.t6.channelFaults } } }

theorem State.Onsets.refl (s : State) : s.Onsets s [] where
  none _ := rfl
  raised m c h := absurd h (by simp)
  others := .refl _ rfl
  same c _ := .of_latch c rfl rfl rfl
  faults := s.faultsAfter_nil.symm
  counted := (if_pos rfl).symm
  rest := rfl

/-- The onset of one more channel. -/
theorem State.Onsets.snoc {s t : State} {l : List (Fin 4)} (h : s.Onsets t l) (c : Fin 4) :
    s.Onsets (((t.raise .channelFault (.channel c.val) Option.none).onT6
      (fun y => { y with channelFaults := bump y.channelFaults })).enterFault .channelFault (.channel c.val) Option.none)
      (l ++ [c]) := by
  have hattempt : t.link.attempt = s.link.attempt := by rw [h.rest]
  have hnow : t.startup = s.startup := by rw [h.rest]
  refine ⟨fun hl => absurd hl (by simp), fun m d hl => ?_, ?_, fun d hd => ?_, ?_, ?_, ?_⟩
  · obtain rfl : c = d := (List.cons.inj (List.append_inj_right' hl rfl)).1
    refine State.FoundTimes.congr (t := t.raise .channelFault (.channel c.val) Option.none) rfl ?_
    rw [List.length_append]
    rcases List.eq_nil_or_concat l with hnil | ⟨m', e, hsome⟩
    · have hsame : s.SameFor t .channelFault := .of_latch _ (h.none hnil) hattempt (by rw [hnow])
      rw [hnil]
      exact (t.raise_foundTimes _ _ _).of_same hsame
    · have hlen : 0 < l.length := by rw [hsome]; simp
      exact (h.raised m' e (by simpa using hsome)).raise_same hlen hattempt _ _
  · have hraised := h.others.raise hattempt .channelFault (.channel c.val) Option.none (by simp)
    refine hraised.congr rfl rfl ?_
    rfl
  · exact (h.same d hd).trans ((t.raise_sameFor d .channelFault (.channel c.val) Option.none (Ne.symm hd)).trans
      (.of_latch d rfl rfl rfl))
  · rw [List.map_append]
    exact s.enterFault_faultsAfter_append ((t.raise .channelFault (.channel c.val) Option.none).onT6 _) _ h.faults
      (by rw [State.onT6_startup, State.raise_startup, hnow]) _ _ _
  · rw [if_neg (by simp)]
    change min (t.tally.t6.channelFaults + 1) max32 = _
    rw [h.counted, List.length_append]
    split
    · next hnil => rw [hnil]; rfl
    · simp only [List.length_singleton]; omega
  · rw [h.rest]
    rfl

/-- The channels whose fault begins at a sample, in their order (R129). -/
def onsetsOf (before now : Vector Channel 4) : List (Fin 4) :=
  ([0, 1, 2, 3] : List (Fin 4)).filter (fun c => (now[c]).bad && !(before[c]).bad)

theorem State.Onsets.channelOnset {s t : State} {l : List (Fin 4)} {before now : Vector Channel 4}
    (h : s.Onsets t (l.filter (fun c => (now[c]).bad && !(before[c]).bad))) (c : Fin 4) :
    s.Onsets (t.channelOnset before[c] now[c] c.val) ((l ++ [c]).filter (fun c => (now[c]).bad && !(before[c]).bad)) := by
  rw [List.filter_append, List.filter_singleton, State.channelOnset]
  cases (now[c]).bad && !(before[c]).bad
  · exact (List.append_nil (l.filter _)).symm ▸ h
  · exact h.snoc c

/-- The fire controller after the first three steps of a sample (R127 to R132). -/
def State.graded (s : State) (x : FireReading) : Fire :=
  { s.fire with
    channels := channelsNext s.fire.channels x
    bayHeat := if s.isBay = true then s.fire.bayHeat.advance (if s.bayHeat = true then .fire else .none)
      else s.fire.bayHeat
    sampleTimer := some slowPeriod }

theorem State.gradeSources_onsets (s : State) (x : FireReading) :
    ({ s with fire := s.graded x } : State).Onsets (s.gradeSources x)
      (onsetsOf s.fire.channels (channelsNext s.fire.channels x)) :=
  ((((State.Onsets.refl { s with fire := s.graded x }).channelOnset (l := []) 0).channelOnset (l := [0]) 1).channelOnset
    (l := [0, 1]) 2).channelOnset (l := [0, 1, 2]) 3

/-! ### The IMPAIRED flag -/

theorem impairedNow_iff (chs : Vector Channel 4) : impairedNow chs = true ↔
    ((chs[0]).usable = false ∧ (chs[1]).usable = false) ∨ chs.toList.countP Channel.usable < 2 := by
  simp [impairedNow]

/-- From `s` to `t` a sample is made up to its fourth step (R127 to R132, R135). -/
structure State.Sampled (s t : State) (x : FireReading) : Prop where
  fire : t.fire = { s.graded x with impaired := impairedNow (channelsNext s.fire.channels x) }
  impaired : s.fire.impaired = false → t.fire.impaired = true → s.RaisedIn t .zoneImpaired .none none
  channel : ∀ (l : List (Fin 4)) (c : Fin 4), onsetsOf s.fire.channels (channelsNext s.fire.channels x) = l ++ [c] →
    s.RaisedTimes t (onsetsOf s.fire.channels (channelsNext s.fire.channels x)).length .channelFault (.channel c.val) none
  others : s.OthersPend t [.zoneImpaired, .channelFault]
  steady : ¬ (s.fire.impaired = false ∧ t.fire.impaired = true) → s.OthersPend t [.channelFault]
  quiet : onsetsOf s.fire.channels (channelsNext s.fire.channels x) = [] → s.OthersPend t [.zoneImpaired]
  same : ∀ c : Cause, c ≠ .zoneImpaired → c ≠ .channelFault → s.SameFor t c
  faults : t.faults = s.faultsAfter ((onsetsOf s.fire.channels (channelsNext s.fire.channels x)).map onsetFault)
  counted : t.tally.t6.channelFaults = if onsetsOf s.fire.channels (channelsNext s.fire.channels x) = [] then
      s.tally.t6.channelFaults
    else min (s.tally.t6.channelFaults + (onsetsOf s.fire.channels (channelsNext s.fire.channels x)).length) max32
  rest : t = { s with fire := t.fire, latch := t.latch, faults := t.faults
                      tally := { s.tally with t6 := { s.tally.t6 with channelFaults := t.tally.t6.channelFaults } } }

theorem State.sampled_spec (s : State) (x : FireReading) : s.Sampled (s.gradeSources x).checkImpaired x := by
  have h := s.gradeSources_onsets x
  generalize hy : s.gradeSources x = y at h
  generalize hl : onsetsOf s.fire.channels (channelsNext s.fire.channels x) = l at h
  obtain ⟨hnone, hraised, hothers, hsame, hfaults, hcounted, hrest⟩ := h
  have hfire : y.fire = s.graded x := by rw [hrest]
  have hattempt : y.link.attempt = s.link.attempt := by rw [hrest]
  have hbase (c : Cause) : s.SameFor { s with fire := s.graded x } c := .of_latch c rfl rfl rfl
  have hothers' : s.OthersPend y [.channelFault] :=
    State.OthersPend.congr (s := { s with fire := s.graded x }) (t := y) rfl rfl rfl hothers
  have hsame' (c : Cause) (hc : c ≠ .channelFault) : s.SameFor y c := (hbase c).trans (hsame c hc)
  have hfound (m : List (Fin 4)) (c : Fin 4) (h : l = m ++ [c]) :
      s.RaisedTimes y l.length .channelFault (.channel c.val) none := ((hraised m c h).of_same (hbase _)).raisedTimes
  have hstep : y.checkImpaired =
      if impairedNow (channelsNext s.fire.channels x) && !s.fire.impaired then
        ({ y with fire := { s.graded x with impaired := impairedNow (channelsNext s.fire.channels x) } } : State).raise
          .zoneImpaired .none none
      else { y with fire := { s.graded x with impaired := impairedNow (channelsNext s.fire.channels x) } } := by
    rw [State.checkImpaired, hfire]
    rfl
  generalize himpaired : impairedNow (channelsNext s.fire.channels x) = i at hstep ⊢
  subst hl
  cases honset : i && !s.fire.impaired
  · rw [honset, if_neg Bool.false_ne_true] at hstep
    have hsteady : ¬ (s.fire.impaired = false ∧ i = true) := by
      rintro ⟨hclear, hset⟩
      rw [hclear, hset] at honset
      cases honset
    rw [hstep]
    refine ⟨by rw [himpaired], fun hclear hset => absurd ⟨hclear, hset⟩ hsteady,
      fun m c h => (hfound m c h).onto rfl, ?_, fun _ => ?_, fun hempty => ?_,
      fun c _ hc => (hsame' c hc).trans (.of_latch c rfl rfl rfl), hfaults, hcounted, ?_⟩
    · exact (hothers'.mono (m := [.zoneImpaired, .channelFault]) (by simp)).onto rfl
    · exact hothers'.onto rfl
    · exact .refl _ (hnone hempty)
    · rw [hrest]
  · obtain ⟨hset, hclear⟩ : i = true ∧ s.fire.impaired = false := by simpa using honset
    rw [honset, if_pos rfl] at hstep
    rw [hstep]
    have hsees : s.SameFor y .zoneImpaired := hsame' _ (by decide)
    have hraise := y.raise_raisedIn .zoneImpaired .none none
    refine ⟨by rw [himpaired]; rfl, fun _ _ => (hraise.of_same hsees).onto rfl,
      fun m c h => ((hfound m c h).raise hattempt .zoneImpaired .none none (by decide)).onto rfl, ?_,
      fun hno => absurd ⟨hclear, hset⟩ hno, fun hempty => ?_,
      fun c hc hc' => (hsame' c hc').trans ((y.raise_sameFor c .zoneImpaired .none none hc.symm).trans
        (.of_latch c rfl rfl rfl)), hfaults, hcounted, ?_⟩
    · exact ((hothers'.mono (m := [.zoneImpaired, .channelFault]) (by simp)).raise hattempt .zoneImpaired .none none (by simp)).onto rfl
    · exact (State.OthersPend.refl (s := s) (t := y) [.zoneImpaired] (hnone hempty) |>.raise hattempt .zoneImpaired
        .none none (by simp)).onto rfl
    · rw [hrest]
      rfl

theorem State.Sampled.attempt {s t : State} {x : FireReading} (h : s.Sampled t x) :
    t.link.attempt = s.link.attempt := by rw [h.rest]

/-- The raise of a zone's cause after the fourth step (R133, R134). -/
theorem State.Sampled.raise {s t : State} {x : FireReading} (h : s.Sampled t x) {c : Cause} (himp : c ≠ .zoneImpaired)
    (hchan : c ≠ .channelFault) :
    let onsets := onsetsOf s.fire.channels (channelsNext s.fire.channels x)
    let u := t.raise c .none none
    s.RaisedIn u c .none none ∧
    (s.fire.impaired = false → t.fire.impaired = true → s.RaisedIn u .zoneImpaired .none none) ∧
    (∀ (l : List (Fin 4)) (d : Fin 4), onsets = l ++ [d] →
      s.RaisedTimes u onsets.length .channelFault (.channel d.val) none) ∧
    s.OthersPend u [c, .zoneImpaired, .channelFault] ∧
    (¬ (s.fire.impaired = false ∧ t.fire.impaired = true) → s.OthersPend u [c, .channelFault]) ∧
    (onsets = [] → s.OthersPend u [c, .zoneImpaired]) := by
  have hattempt := h.attempt
  refine ⟨(t.raise_raisedIn c .none none).of_same (h.same c himp hchan),
    fun hclear hset => (h.impaired hclear hset).raise hattempt c .none none himp.symm,
    fun l d hl => (h.channel l d hl).raise hattempt c .none none hchan.symm, ?_, fun hsteady => ?_, fun hquiet => ?_⟩
  · exact (h.others.mono (by simp)).raise hattempt c .none none (by simp)
  · exact ((h.steady hsteady).mono (by simp)).raise hattempt c .none none (by simp)
  · exact ((h.quiet hquiet).mono (by simp)).raise hattempt c .none none (by simp)

/-! ### The zone becomes FIRE -/

theorem Feed.losePermissive_idem (f : Feed) : f.losePermissive.losePermissive = f.losePermissive := by
  cases hk : f.kind <;> cases hr : f.rotor <;> cases hf : f.feedback <;>
    simp [Feed.losePermissive, Feed.abandon, Feed.enterStopping, hk, hr, hf]

/-- The mark that FIRE leaves on the records of a BAY node (R137). -/
def State.fireMark (s : State) (r : Record) : Record := if s.isBay = true then { r with fireExposed := true } else r

/-- From `s` to `t` the zone became FIRE, up to the review of the line (R121, R133, R136, R137). -/
structure State.TakesFire (s t : State) : Prop where
  fire : t.fire = { s.fire with zone := .fire, clearCount := 0, fireRelay := true, preRelay := true }
  latch : t.latch = (s.raise .zoneFire .none none).latch
  faults : t.faults = (s.enterFault .zoneFire .none none).faults
  t6 : t.tally.t6 = { s.tally.t6 with fireCount := bump s.tally.t6.fireCount }
  bays : ∀ b : BayNo, t.bay b = { s.bay b with slot := (s.bay b).slot.onRecord s.fireMark }
  flooded : s.isShred = true → s.awake = true → t.feed = s.feed.losePermissive ∧
    t.atmos = { s.atmos with
      state := .flood, purge := true, flood := true, stageTimer := none, slow := false, loss := false } ∧
    t.tally.t5 = { s.tally.t5 with floods := bump s.tally.t5.floods }
  dry : ¬ (s.isShred = true ∧ s.awake = true) → t.feed = s.feed ∧ t.atmos = s.atmos ∧ t.tally.t5 = s.tally.t5
  rest : t = { s with bays := t.bays, feed := t.feed, atmos := t.atmos, fire := t.fire, latch := t.latch
                      faults := t.faults, tally := { s.tally with t5 := t.tally.t5, t6 := t.tally.t6 } }

theorem State.isBay_not_isShred {s : State} (h : s.isBay = true) : s.isShred = false := by
  simp only [State.isBay, State.isShred, decide_eq_true_eq] at h ⊢
  rw [h]
  rfl

theorem State.ownFire_cases (s : State) :
    (s.isBay = true ∧ s.ownFire = s.markExposed) ∨
    (s.isBay = false ∧ (s.isShred = true ∧ s.awake = true) ∧ s.ownFire = s.enterFlood) ∨
    (s.isBay = false ∧ ¬ (s.isShred = true ∧ s.awake = true) ∧ s.ownFire = s) := by
  unfold State.ownFire
  cases hbay : s.isBay
  · by_cases hflood : s.isShred = true ∧ s.awake = true
    · have hyes : (s.isShred && s.awake) = true := by rw [hflood.1, hflood.2]; rfl
      exact .inr (.inl ⟨rfl, hflood, (if_neg Bool.false_ne_true).trans (if_pos hyes)⟩)
    · have hno : ¬ (s.isShred && s.awake) = true := by simpa using hflood
      exact .inr (.inr ⟨rfl, hflood, (if_neg Bool.false_ne_true).trans (if_neg hno)⟩)
  · exact .inl ⟨rfl, rfl⟩

/-- The zone is FIRE, before the blocks of the role act (R133, R137). -/
def State.fireDeclared (s : State) : State :=
  ((({ s with fire := { s.fire with zone := .fire, clearCount := 0 } } : State).raise .zoneFire .none none).onT6
    (fun t => { t with fireCount := bump t.fireCount })).enterFault .zoneFire .none none

theorem State.enterFire_eq (s : State) : s.enterFire = s.fireDeclared.ownFire := rfl

theorem State.enterFlood_eq (s : State) : s.enterFlood = { s with
    feed := s.feed.losePermissive
    atmos := { s.atmos with
      state := .flood, purge := true, flood := true, stageTimer := none, slow := false, loss := false }
    tally := { s.tally with t5 := { s.tally.t5 with floods := bump s.tally.t5.floods } } } := rfl

theorem State.enterFire_takesFire (s : State) : s.TakesFire s.enterFire.driveRelays := by
  rw [s.enterFire_eq]
  have hrest : s.fireDeclared = { s with
      fire := { s.fire with zone := .fire, clearCount := 0 }, latch := (s.raise .zoneFire .none none).latch
      faults := (s.enterFault .zoneFire .none none).faults
      tally := { s.tally with t6 := { s.tally.t6 with fireCount := bump s.tally.t6.fireCount } } } := rfl
  have hcases := s.fireDeclared.ownFire_cases
  generalize hlatch : (s.raise .zoneFire .none none).latch = latch at hrest
  generalize hfaults : (s.enterFault .zoneFire .none none).faults = faults at hrest
  generalize s.fireDeclared = d at *
  subst hrest
  have hother (hbay : s.isBay = false) (b : BayNo) :
      s.bay b = { s.bay b with slot := (s.bay b).slot.onRecord s.fireMark } := by
    have hmark : s.fireMark = id := by
      funext r
      rw [State.fireMark, hbay]
      rfl
    rw [hmark, Slot.onRecord_id]
  rcases hcases with ⟨hbay, heq⟩ | ⟨hbay, hflood, heq⟩ | ⟨hbay, hdry, heq⟩ <;> rw [heq]
  · have hmark : s.fireMark = fun r => { r with fireExposed := true } := by
      funext r
      exact if_pos hbay
    have hshred : s.isShred = false := State.isBay_not_isShred hbay
    refine ⟨rfl, hlatch.symm, hfaults.symm, rfl, fun b => ?_, fun hyes => ?_, fun _ => ⟨rfl, rfl, rfl⟩, rfl⟩
    · rw [hmark]
      exact State.mapBays_bay s (fun x => { x with slot := x.slot.onRecord fun r => { r with fireExposed := true } }) b
    · rw [hshred] at hyes
      cases hyes
  · rw [State.enterFlood_eq]
    exact ⟨rfl, hlatch.symm, hfaults.symm, rfl, hother hbay, fun _ _ => ⟨rfl, rfl, rfl⟩, fun hno => absurd hflood hno, rfl⟩
  · exact ⟨rfl, hlatch.symm, hfaults.symm, rfl, hother hbay, fun hyes hawake => absurd ⟨hyes, hawake⟩ hdry,
      fun _ => ⟨rfl, rfl, rfl⟩, rfl⟩

/-! ### The confirmation test -/

/-- A source in one place meets the first test, and one in another place the second. -/
def PairAt (p q : Source → Bool) (l : List Source) : Prop :=
  ∃ (i j : Nat) (x y : Source), i ≠ j ∧ l[i]? = some x ∧ l[j]? = some y ∧ p x = true ∧ q y = true

theorem any_iff_getElem? (p : Source → Bool) (l : List Source) :
    l.any p = true ↔ ∃ (i : Nat) (x : Source), l[i]? = some x ∧ p x = true := by
  rw [List.any_eq_true]
  exact ⟨fun ⟨x, hx, hp⟩ => (List.getElem?_of_mem hx).imp fun i hi => ⟨x, hi, hp⟩,
    fun ⟨i, x, hi, hp⟩ => ⟨x, List.mem_of_getElem? hi, hp⟩⟩

theorem distinctPair_iff (p q : Source → Bool) (l : List Source) : distinctPair p q l = true ↔ PairAt p q l := by
  induction l with
  | nil => simp [distinctPair, PairAt]
  | cons x xs ih =>
    rw [distinctPair, Bool.or_eq_true, Bool.or_eq_true, Bool.and_eq_true, Bool.and_eq_true, ih, any_iff_getElem?,
      any_iff_getElem?]
    constructor
    · rintro ((⟨hx, j, y, hj, hy⟩ | ⟨hx, i, y, hi, hy⟩) | ⟨i, j, y, z, hij, hi, hj, hy, hz⟩)
      · exact ⟨0, j + 1, x, y, by omega, rfl, hj, hx, hy⟩
      · exact ⟨i + 1, 0, y, x, by omega, hi, rfl, hy, hx⟩
      · exact ⟨i + 1, j + 1, y, z, by omega, hi, hj, hy, hz⟩
    · rintro ⟨i, j, y, z, hij, hi, hj, hy, hz⟩
      match i, j with
      | 0, 0 => exact absurd rfl hij
      | 0, j + 1 =>
        obtain rfl : x = y := Option.some.inj hi
        exact .inl (.inl ⟨hy, j, z, hj, hz⟩)
      | i + 1, 0 =>
        obtain rfl : x = z := Option.some.inj hj
        exact .inl (.inr ⟨hz, i, y, hi, hy⟩)
      | i + 1, j + 1 => exact .inr ⟨i, j, y, z, by omega, hi, hj, hy, hz⟩

/-- Two sources meet a test exactly when a pair in distinct places does. -/
theorem two_le_countP_iff (p : Source → Bool) (l : List Source) : 2 ≤ l.countP p ↔ PairAt p p l := by
  rw [← distinctPair_iff]
  induction l with
  | nil => simp [distinctPair]
  | cons x xs ih =>
    have hany : xs.any p = true ↔ 0 < xs.countP p := by rw [List.any_eq_true, List.countP_pos_iff]
    rw [distinctPair, Bool.or_eq_true, ← ih, Bool.or_self, Bool.and_eq_true, hany, List.countP_cons]
    cases p x
    · simp
    · simp only [if_true, true_and]; omega

theorem Fire.confirmed_iff (f : Fire) : f.confirmed = true ↔
    (f.channels[3]).source.grade = .fire ∨
    (∃ (i j : Nat) (x y : Source), i ≠ j ∧ f.sources[i]? = some x ∧ f.sources[j]? = some y ∧
      ((x.grade = .fire ∧ y.grade = .fire) ∨ (x.grade ≠ .none ∧ y.fireMem ≤ 30) ∨
        (x.grade = .fire ∧ y.preMem ≤ 30))) ∨
    (∃ x ∈ f.sources, x.run = some 20) := by
  have hpersists : f.sources.any Source.persists = true ↔ ∃ x ∈ f.sources, x.run = some 20 := by
    simp [List.any_eq_true, Source.persists]
  rw [Fire.confirmed, Bool.or_eq_true, Bool.or_eq_true, Bool.or_eq_true, Bool.or_eq_true, decide_eq_true_iff,
    two_le_countP_iff, distinctPair_iff, distinctPair_iff, hpersists, or_assoc, or_assoc, or_assoc]
  refine or_congr (by simp [Source.atFire]) ?_
  simp only [PairAt, Source.atFire, Source.atPre, Source.firedLately, Source.preLately, decide_eq_true_eq]
  simp only [and_or_left, exists_or, or_assoc]

end Sys2Proof.Machine
end

