-- ==== Sys2Proof/Proofs/FireZone.lean ====
section
/-! What a fire sample makes of the zone: FIRE, or a move between NORMAL and PRE. -/

namespace Sys2Proof.Machine

open Sys2Proof Sys2Proof.Config

/-! ### The steps of a sample -/

theorem State.moveZone_confirmed {s : State} (hzone : s.fire.zone ≠ .fire) (hconfirmed : s.fire.confirmed = true) :
    s.moveZone = s.enterFire := by
  unfold State.moveZone
  split
  · next h => exact absurd h hzone
  · exact if_pos hconfirmed
  · exact if_pos hconfirmed

theorem State.sampleFire_eq (s : State) (x : FireReading) :
    s.sampleFire x = (s.gradeSources x).checkImpaired.moveZone.driveRelays.reviewLine.light := rfl

theorem exec_fireSample {s : State} {k : Nat} (h : s.fire.sampleTimer = some k) (x : FireReading) :
    exec (.fireSample x) s = .next (s.sampleFire x) := congrArg _ (if_pos (by rw [h]; rfl))

/-- The zone and its clear count after a sample without a confirmation (R134). -/
def Fire.moved (f : Fire) : Zone × Nat :=
  match f.zone with
  | .fire => (.fire, f.clearCount)
  | .normal => if f.alert then (.pre, 0) else (.normal, f.clearCount)
  | .pre => if f.alert then (.pre, 0) else if 29 ≤ f.clearCount then (.normal, 0) else (.pre, f.clearCount + 1)

/-- From `s` to `t` the zone moved as a sample without a confirmation moves it (R134). -/
structure State.ZoneMoves (s t : State) : Prop where
  fire : t.fire = { s.fire with zone := s.fire.moved.1, clearCount := s.fire.moved.2 }
  alerted : s.fire.zone = .normal → s.fire.alert = true →
    t.latch = (s.raise .zonePre .none none).latch ∧ t.tally.t6.preCount = bump s.tally.t6.preCount
  silent : ¬ (s.fire.zone = .normal ∧ s.fire.alert = true) →
    t.latch = s.latch ∧ t.tally.t6.preCount = s.tally.t6.preCount
  rest : t = { s with fire := t.fire, latch := t.latch
                      tally := { s.tally with t6 := { s.tally.t6 with preCount := t.tally.t6.preCount } } }

theorem State.moveZone_zoneMoves {s : State} (h : s.fire.zone = .fire ∨ s.fire.confirmed = false) :
    s.ZoneMoves s.moveZone := by
  cases hzone : s.fire.zone
  case fire =>
    have hmove : s.moveZone = s := by simp only [State.moveZone, hzone]
    rw [hmove]
    refine ⟨?_, fun hn => (by rw [hzone] at hn; cases hn), fun _ => ⟨rfl, rfl⟩, rfl⟩
    simp only [Fire.moved, hzone]
    rw [← hzone]
  case normal =>
    have hconfirmed := h.resolve_left (by rw [hzone]; decide)
    cases halert : s.fire.alert
    · have hmove : s.moveZone = s := by simp [State.moveZone, hzone, hconfirmed, halert]
      rw [hmove]
      refine ⟨?_, fun _ hyes => (by rw [halert] at hyes; cases hyes), fun _ => ⟨rfl, rfl⟩, rfl⟩
      simp only [Fire.moved, hzone, halert]
      rw [← hzone]
      rfl
    · have hmove : s.moveZone = s.enterPre := by simp [State.moveZone, hzone, hconfirmed, halert]
      rw [hmove]
      refine ⟨?_, fun _ _ => ⟨rfl, rfl⟩, fun hno => absurd ⟨hzone, halert⟩ hno, rfl⟩
      simp only [Fire.moved, hzone, halert]
      rfl
  case pre =>
    have hconfirmed := h.resolve_left (by rw [hzone]; decide)
    have hmove : s.moveZone = { s with fire := s.fire.clearStep } := by simp [State.moveZone, hzone, hconfirmed]
    rw [hmove]
    refine ⟨?_, fun hn => (by rw [hzone] at hn; cases hn), fun _ => ⟨rfl, rfl⟩, rfl⟩
    change s.fire.clearStep = _
    simp only [Fire.clearStep, Fire.moved, hzone]
    cases s.fire.alert
    · by_cases hcount : 29 ≤ s.fire.clearCount
      · rw [if_neg Bool.false_ne_true, if_pos (by omega), if_neg Bool.false_ne_true, if_pos hcount]
      · rw [if_neg Bool.false_ne_true, if_neg (by omega), if_neg Bool.false_ne_true, if_neg hcount, ← hzone]
    · rw [if_pos rfl, if_pos rfl, ← hzone]

/-! ### Channels -/

theorem Source.advance_eq (y : Source) (g : Grade) : y.advance g = {
    grade := g, preMem := if g = .none then min (y.preMem + 1) 31 else 0
    fireMem := if g = .fire then 0 else min (y.fireMem + 1) 31
    run := if g = .fire then some ((y.run.map (fun n => min (n + 1) 20)).getD 0) else none } := by
  cases g <;> cases hrun : y.run <;> simp [Source.advance, memoryNext, runNext, hrun]

theorem State.bayHeat_iff (s : State) :
    s.bayHeat = true ↔ ∃ (b : BayNo) (c : Int), (s.bay b).validT = some c ∧ 80 ≤ c := by
  rw [State.bayHeat, s.any_bays_iff]
  refine exists_congr fun b => ?_
  rw [Bay.hot]
  cases (s.bay b).validT with
  | none => simp
  | some c => exact decide_eq_true_iff.trans ⟨fun h => ⟨c, rfl, h⟩, fun ⟨_, hc, h⟩ => Option.some.inj hc ▸ h⟩

/-- The rise of a full ring (R130). -/
theorem ringRise_climbs (ring : List Int) (v climb : Int) :
    ((ringRise ring v).map (fun r => decide (climb ≤ r))).getD false = true ↔
      ∃ (old : Int) (l : List Int), ring = old :: l ∧ l.length = 10 ∧ old + climb ≤ v := by
  rw [ringRise]
  cases ring with
  | nil => simp
  | cons old l =>
    by_cases hlen : l.length = 10
    · simp [hlen]; omega
    · simp [hlen]

/-- A heat channel at a sample, by its key switch and its reading (R128 to R131). -/
theorem Channel.heat_spec (c : Channel) (key : Bool) (d : Option Int) :
    (key = true → c.heat key d = ⟨true, false, [], ⟨.none, 31, 31, none⟩⟩) ∧
    (key = false → (∀ v : Int, d = some v → v < -400 ∨ 2000 < v) →
      c.heat key d = ⟨false, true, [], c.source.advance .none⟩) ∧
    (∀ v : Int, key = false → d = some v → -400 ≤ v → v ≤ 2000 →
      let ring := (c.ring ++ [v]).drop (c.ring.length - 10)
      let climbs := fun rise : Int => ∃ (old : Int) (l : List Int), ring = old :: l ∧ l.length = 10 ∧ old + rise ≤ v
      let graded := fun g : Grade => c.heat key d = ⟨false, false, ring, c.source.advance g⟩
      (700 ≤ v ∨ climbs 200 → graded .fire) ∧
      (¬ (700 ≤ v ∨ climbs 200) → 550 ≤ v ∨ climbs 100 → graded .pre) ∧
      (¬ (550 ≤ v ∨ climbs 100) → graded .none)) := by
  refine ⟨fun hkey => by rw [hkey]; rfl, fun hkey hout => ?_, fun v hkey hd hlow hhigh => ?_⟩
  · have hnone : heatReading d = none := by
      cases d with
      | none => rfl
      | some v => exact if_neg fun h => by have := hout v rfl; omega
    rw [Channel.heat, hkey, hnone]
    rfl
  · intro ring climbs graded
    have hread : heatReading d = some v := by rw [hd]; exact if_pos ⟨hlow, hhigh⟩
    have hring : ringPush c.ring v = ring := by
      simp only [ringPush, ring]
      rw [show c.ring.length + 1 - 11 = c.ring.length - 10 by omega]
    have hgraded {g : Grade} (hg : heatGrade v (ringRise ring v) = g) : graded g := by
      simp only [graded, Channel.heat, hkey, hread, hring, hg]
      rfl
    have hclimbs (rise : Int) := ringRise_climbs ring v rise
    have hhigher (limit rise : Int) : (decide (limit ≤ v) || ((ringRise ring v).map fun r => decide (rise ≤ r)).getD false) =
        true ↔ limit ≤ v ∨ climbs rise := by
      rw [Bool.or_eq_true, decide_eq_true_iff, hclimbs]
    refine ⟨fun h => hgraded ?_, fun hno h => hgraded ?_, fun hno => hgraded ?_⟩
    · exact if_pos ((hhigher 700 200).2 h)
    · exact (if_neg ((hhigher 700 200).not.2 hno)).trans (if_pos ((hhigher 550 100).2 h))
    · have hno' : ¬ (700 ≤ v ∨ climbs 200) := by
        rintro (h | ⟨old, l, hold, hlen, hrise⟩)
        · exact hno (.inl (by omega))
        · exact hno (.inr ⟨old, l, hold, hlen, by omega⟩)
      exact (if_neg ((hhigher 700 200).not.2 hno')).trans (if_neg ((hhigher 550 100).not.2 hno))

/-- The off-gas channel at a sample (R128, R129, R131). -/
theorem Channel.gas_spec (c : Channel) (key : Bool) (d : Option Int) :
    let graded := fun g : Grade => c.gas key d = ⟨false, false, [], c.source.advance g⟩
    (key = true → c.gas key d = ⟨true, false, [], ⟨.none, 31, 31, none⟩⟩) ∧
    (key = false → (∀ v : Int, d = some v → v < 0) → c.gas key d = ⟨false, true, [], c.source.advance .none⟩) ∧
    (∀ v : Int, key = false → d = some v → 0 ≤ v →
      (200 ≤ v → graded .fire) ∧ (50 ≤ v → v < 200 → graded .pre) ∧ (v < 50 → graded .none)) := by
  intro graded
  refine ⟨fun hkey => by rw [hkey]; rfl, fun hkey hout => ?_, fun v hkey hd hlow => ?_⟩
  · have hnone : gasReading d = none := by
      cases d with
      | none => rfl
      | some v => exact if_pos (hout v rfl)
    rw [Channel.gas, hkey, hnone]
    rfl
  · have hread : gasReading d = some (min v 1000) := by rw [hd]; exact if_neg (by omega)
    have hgraded {g : Grade} (hg : gasGrade (min v 1000) = g) : graded g := by
      simp only [graded, Channel.gas, hkey, hread, hg]
      rfl
    refine ⟨fun h => hgraded (if_pos (by omega)), fun h h' => hgraded ?_, fun h => hgraded ?_⟩
    · exact (if_neg (by omega)).trans (if_pos (by omega))
    · exact (if_neg (by omega)).trans (if_neg (by omega))

/-- The flame contact at a sample (R128, R129, R131). -/
theorem Channel.flame_spec (c : Channel) (key : Bool) (ohms : Nat) :
    let graded := fun g : Grade => c.flame key ohms = ⟨false, false, [], c.source.advance g⟩
    (key = true → c.flame key ohms = ⟨true, false, [], ⟨.none, 31, 31, none⟩⟩) ∧
    (key = false → ohms < 100 ∨ 15000 < ohms → c.flame key ohms = ⟨false, true, [], c.source.advance .none⟩) ∧
    (key = false → 100 ≤ ohms → ohms ≤ 1500 → graded .fire) ∧
    (key = false → 1500 < ohms → ohms ≤ 15000 → graded .none) := by
  intro graded
  have hfault (hkey : key = false) (h : loopReading ohms = none) : c.flame key ohms = c.fault := by
    rw [Channel.flame, hkey, h]
    rfl
  have hgraded {active : Bool} (hkey : key = false) (h : loopReading ohms = some active) :
      graded (if active then .fire else .none) := by
    simp only [graded, Channel.flame, hkey, h]
    rfl
  refine ⟨fun hkey => by rw [hkey]; rfl, fun hkey h => ?_, fun hkey hlow hhigh => ?_, fun hkey hlow hhigh => ?_⟩
  · refine hfault hkey ?_
    rw [loopReading]
    split_ifs
    · rfl
    · omega
    · omega
    · rfl
  · exact hgraded hkey ((if_neg (by omega)).trans (if_pos hhigh))
  · exact hgraded hkey ((if_neg (by omega)).trans ((if_neg (by omega)).trans (if_pos hhigh)))

end Sys2Proof.Machine

namespace Sys2Proof.Proofs

open Sys2Proof Sys2Proof.Machine Sys2Proof.Config

/-- Settles O29: the fourth step of a sample (`State.Sampled`), FIRE at the blocks of the role (`State.TakesFire`), and a
review of the line that finds line_fire. -/
theorem fireConfirmed : Obligations.FireConfirmed := by
  refine ⟨Fire.confirmed_iff, fun s x k hk hzone => ?_⟩
  intro chs f onsets mark hconfirmed
  have hexec := exec_fireSample hk x
  rw [s.sampleFire_eq] at hexec
  obtain ⟨hfire, himpaired, -, -, -, -, -, hfaults, hcounted, hrest⟩ := s.sampled_spec x
  obtain ⟨hraised, hraisedImp, hraisedChan, hothers, hsteady, hquiet⟩ :=
    (s.sampled_spec x).raise (c := .zoneFire) (by decide) (by decide)
  generalize (s.gradeSources x).checkImpaired = y at *
  have hmove : y.moveZone = y.enterFire :=
    State.moveZone_confirmed (by rw [hfire]; exact hzone) (by rw [hfire]; exact hconfirmed)
  rw [hmove] at hexec
  obtain ⟨hdfire, hdlatch, hdfaults, hdt6, hdbays, hdflooded, hddry, hdrest⟩ := y.enterFire_takesFire
  generalize y.enterFire.driveRelays = d at *
  have hybay : y.isBay = s.isBay := by rw [State.isBay, State.role, hrest]; rfl
  have hyshred : y.isShred = s.isShred := by rw [State.isShred, State.role, hrest]; rfl
  have hyawake : y.awake = s.awake := by rw [State.awake, hrest]; rfl
  have hmark : y.fireMark = mark := by funext r; rw [State.fireMark, hybay]
  have hdview : d.view = s.view := by rw [hdrest, hrest]
  have hnow : d.lineFireNow = true ∧ d.linePreNow = true := by
    rw [State.lineFireNow, State.linePreNow, hdfire]
    exact ⟨rfl, rfl⟩
  have hview := d.reviewLine_view
  rw [hnow.1, hnow.2, hdview] at hview
  have hcalm (h : s.view.lineFire = true) : d.reviewLine = d.viewed := State.reviewLine_calm (.inl (by rw [hdview, h]))
  have hrises (h : s.view.lineFire = false) : d.reviewLine = d.viewed.lineFireRises :=
    State.reviewLine_rising (by rw [hdview, h]) hnow.1
  have hspec := d.viewed.lineFireRises_spec
  have hinputs := d.reviewLine_inputs.1
  obtain ⟨_, _, _, _, _, hframe⟩ := d.reviewLine_stopsOnly
  generalize d.reviewLine = v at *
  have hlatch : v.latch = (y.raise .zoneFire .none none).latch := by rw [hframe, ← hdlatch]; rfl
  have hvfire : v.fire = { y.fire with zone := .fire, clearCount := 0, fireRelay := true, preRelay := true } :=
    hinputs.trans hdfire
  have hnowy : y.startup = s.startup := by rw [hrest]
  have hvt6 : v.tally.t6 = { y.tally.t6 with
      fireCount := bump y.tally.t6.fireCount, handoffDropped := v.tally.t6.handoffDropped } := by
    have h : v.tally.t6 = { d.tally.t6 with handoffDropped := v.tally.t6.handoffDropped } := by rw [hframe]; rfl
    exact h.trans (by rw [hdt6])
  have himp : v.fire.impaired = y.fire.impaired := by rw [hvfire]
  have hfeed : d.feed = if s.isShred = true ∧ s.awake = true then s.feed.losePermissive else s.feed := by
    have hyfeed : y.feed = s.feed := by rw [hrest]
    rw [hyshred, hyawake, hyfeed] at hdflooded hddry
    split
    · next h => exact (hdflooded h.1 h.2).1
    · next h => exact (hddry h).1
  have hmarked (b : BayNo) : d.bay b = { s.bay b with slot := (s.bay b).slot.onRecord mark } := by
    have hybay' : y.bay b = s.bay b := by rw [hrest]; rfl
    rw [hdbays, hmark, hybay']
  have hvatmos : v.atmos = d.atmos := by rw [hframe]; rfl
  have hvt5 : v.tally.t5 = d.tally.t5 := by rw [hframe]; rfl
  refine ⟨_, hexec, ?fire, ?impaired, hview, hraised.onto hlatch, fun hclear hset => ?raisedImp,
    fun l c hl => (hraisedChan l c hl).onto hlatch, hothers.onto hlatch, fun h => ?steady,
    fun h => (hquiet h).onto hlatch, ?faults, ?t6, fun hold => ?stops, fun hany => ?lost, fun hold hdry => ?kept,
    fun hold => ?still, fun hyes hawake => ?flooded, fun hdry => ?dry, ?frame⟩
  case fire =>
    change v.fire = { f with
      zone := .fire, impaired := v.fire.impaired, clearCount := 0, fireRelay := true, preRelay := true
      sampleTimer := some 1000 }
    rw [hvfire, hfire]
    rfl
  case impaired =>
    change v.fire.impaired = true ↔ _
    rw [himp, hfire]
    exact impairedNow_iff _
  case raisedImp => exact (hraisedImp hclear (himp.symm.trans hset)).onto hlatch
  case steady => exact (hsteady (by rw [← himp]; exact h)).onto hlatch
  case faults =>
    have hvfaults : v.faults = (y.enterFault .zoneFire .none none).faults := by rw [hframe, ← hdfaults]; rfl
    exact hvfaults.trans (s.enterFault_faultsAfter_append y _ hfaults (by rw [hnowy]) _ _ _)
  case t6 =>
    have hyt6 : y.tally.t6 = { s.tally.t6 with channelFaults := y.tally.t6.channelFaults } := by rw [hrest]
    exact hvt6.trans (by rw [hyt6, hcounted]; rfl)
  case stops =>
    obtain ⟨hbays, hlink, htally, -⟩ := hspec
    rw [hrises hold]
    refine .intro s d.viewed _ mark (fun r => ?_) hmarked (by rw [← hnowy, hdrest]; rfl) (by rw [hdrest, hrest]; rfl) ?_
      (fun k => (State.light_bay _ k).trans (hbays k)) ((State.light_link _).trans hlink) (congrArg (·.t6) htally)
    · simp only [mark]
      split <;> exact ⟨rfl, rfl⟩
    · change d.tally.t6.handoffDropped = _
      rw [hdt6, hrest]
  case lost =>
    have hlost : v.feed = s.feed.losePermissive := by
      cases hold : s.view.lineFire
      · rw [hrises hold, hspec.2.2.2]
        change d.feed.losePermissive = _
        rw [hfeed]
        split
        · exact Feed.losePermissive_idem _
        · rfl
      · rw [hcalm hold]
        exact hfeed.trans (if_pos (hany.resolve_left (by rw [hold]; decide)))
    have hidle := Feed.losePermissive_spec s.feed
    rw [← hlost] at hidle
    exact ⟨hlost, hidle.1, hidle.2.1⟩
  case kept =>
    rw [hcalm hold]
    exact hfeed.trans (if_neg hdry)
  case still =>
    rw [hcalm hold]
    refine ⟨fun b hb => ?_, fun b st r hslot => ?_, ?_, ?_⟩
    · refine (hmarked b).trans ?_
      cases hslot : (s.bay b).slot with
      | pack st r => rw [hslot] at hb; cases hb
      | empty => simp only [Slot.onRecord, ← hslot]
      | orphan => simp only [Slot.onRecord, ← hslot]
    · exact (hmarked b).trans (by rw [hslot]; rfl)
    · change d.link = s.link
      rw [hdrest, hrest]
    · change d.tally.t6.handoffDropped = _
      rw [hdt6, hrest]
  case flooded =>
    obtain ⟨-, hatmos, hfloods⟩ := hdflooded (hyshred.trans hyes) (hyawake.trans hawake)
    have hyatmos : y.atmos = s.atmos := by rw [hrest]
    have hyt5 : y.tally.t5 = s.tally.t5 := by rw [hrest]
    exact ⟨hvatmos.trans (by rw [hatmos, hyatmos]), hvt5.trans (by rw [hfloods, hyt5]; rfl)⟩
  case dry =>
    obtain ⟨-, hatmos, hfloods⟩ := hddry (by rw [hyshred, hyawake]; exact hdry)
    exact ⟨hvatmos.trans (by rw [hatmos, hrest]), hvt5.trans (by rw [hfloods, hrest])⟩
  case frame =>
    rw [hframe, hdrest, hrest]
    rfl

/-- Settles O30: the channels by their readings, the fourth step of a sample (`State.Sampled`), and the zone's move without a
confirmation (`Fire.moved`). -/
theorem fireSampleMovesTheZone : Obligations.FireSampleMovesTheZone := by
  refine ⟨Source.advance_eq, State.bayHeat_iff, fun chs x => ⟨?_, ?_, ?_, ?_⟩, fun s x k hk => ?_⟩
  · exact Channel.heat_spec chs[0] x.key0 x.d0
  · exact Channel.heat_spec chs[1] x.key1 x.d1
  · exact Channel.gas_spec chs[2] x.key2 x.d2
  · exact Channel.flame_spec chs[3] x.key3 x.loop
  · intro chs f alert onsets alerted hmay
    have hexec := exec_fireSample hk x
    rw [s.sampleFire_eq] at hexec
    have hsampled := s.sampled_spec x
    obtain ⟨hraised, hraisedImp, hraisedChan, hothers, hsteady, hquiet⟩ :=
      hsampled.raise (c := .zonePre) (by decide) (by decide)
    generalize (s.gradeSources x).checkImpaired = y at *
    have hfire := hsampled.fire
    have hrest := hsampled.rest
    have hzone : y.fire.zone = s.fire.zone := by rw [hfire]; rfl
    have hmoves := State.moveZone_zoneMoves (s := y) (by
      rw [hfire]
      exact hmay)
    have halert : y.fire.alert = true ↔ alert := by
      rw [hfire]
      simp only [Fire.alert, List.any_eq_true, Source.atPre, decide_eq_true_eq, alert]
      rfl
    have hcount : y.fire.clearCount = s.fire.clearCount := by rw [hfire]; rfl
    generalize y.moveZone = z at *
    obtain ⟨hzfire, hzraise, hzsilent, hzrest⟩ := hmoves
    have hview := z.driveRelays.reviewLine_view_self
    have hcalm := State.reviewLine_calm (s := z.driveRelays)
    have hlineFire := z.driveRelays.reviewLine_lineFire
    have hinputs := z.driveRelays.reviewLine_inputs.1
    obtain ⟨_, _, _, _, _, hframe⟩ := z.driveRelays.reviewLine_stopsOnly
    generalize z.driveRelays.reviewLine = v at *
    have hvfire : v.fire = { s.graded x with
        impaired := impairedNow chs, zone := y.fire.moved.1, clearCount := y.fire.moved.2
        fireRelay := decide (y.fire.moved.1 = .fire)
        preRelay := decide (y.fire.moved.1 = .pre ∨ y.fire.moved.1 = .fire) } := by
      rw [hinputs, State.driveRelays, hzfire, hfire]
    have hlatch (h : alerted) : v.latch = (y.raise .zonePre .none none).latch := by
      rw [← (hzraise (hzone.trans h.1) (halert.2 h.2)).1, hframe]; rfl
    have hsilent (h : ¬ alerted) : v.latch = y.latch := by
      rw [← (hzsilent fun h' => h ⟨hzone.symm.trans h'.1, halert.1 h'.2⟩).1, hframe]; rfl
    have himp : v.fire.impaired = y.fire.impaired := by rw [hvfire, hfire]
    have hzview : z.driveRelays.view = s.view := by
      change z.view = s.view
      rw [hzrest, hrest]
    rw [hzview] at hview hcalm
    refine ⟨_, hexec, ?fire, fun h => ?stays, fun h => ?alerted, fun h hno => ?calm, fun h hyes => ?again,
      fun h hno hle => ?clears, fun h hno hlt => ?counts, ?impaired, fun hclear hset => ?raisedImp, fun l c hl => ?channel,
      ?others, fun h => ?notAlerted, fun h => ?steady, fun h => ?quiet, ?faults, ?channelFaults, fun h => ?preCount,
      fun h => ?noPre, hview, fun h => ?still, ?frame⟩
    case fire =>
      change v.fire = { f with
        zone := v.fire.zone, impaired := v.fire.impaired, clearCount := v.fire.clearCount, sampleTimer := some 1000
        fireRelay := decide (v.fire.zone = .fire), preRelay := decide (v.fire.zone ≠ .normal) }
      have hrelay (z : Zone) : decide (z = .pre ∨ z = .fire) = decide (z ≠ .normal) := by cases z <;> rfl
      rw [hvfire, hrelay]
      rfl
    case stays =>
      change v.fire.zone = _ ∧ v.fire.clearCount = _
      rw [hvfire]
      simp [Fire.moved, hzone, h, hcount]
    case alerted =>
      have hyes : y.fire.alert = true := halert.2 h.2
      refine ⟨?_, ?_, hraised.onto (hlatch h)⟩
      · change v.fire.zone = _
        rw [hvfire]
        simp [Fire.moved, hzone, h.1, hyes]
      · change v.fire.clearCount = _
        rw [hvfire]
        simp [Fire.moved, hzone, h.1, hyes]
    case calm =>
      rw [← halert] at hno
      change v.fire.zone = _ ∧ v.fire.clearCount = _
      rw [hvfire]
      simp [Fire.moved, hzone, h, hno, hcount]
    case again =>
      rw [← halert] at hyes
      change v.fire.zone = _ ∧ v.fire.clearCount = _
      rw [hvfire]
      simp [Fire.moved, hzone, h, hyes]
    case clears =>
      rw [← halert] at hno
      change v.fire.zone = _ ∧ v.fire.clearCount = _
      rw [hvfire]
      simp [Fire.moved, hzone, h, hno, hcount, hle]
    case counts =>
      rw [← halert] at hno
      change v.fire.zone = _ ∧ v.fire.clearCount = _
      rw [hvfire]
      simp [Fire.moved, hzone, h, hno, hcount, Nat.not_le.2 hlt]
    case impaired =>
      change v.fire.impaired = true ↔ _
      rw [hvfire]
      exact impairedNow_iff chs
    case raisedImp =>
      have hset' : y.fire.impaired = true := himp.symm.trans hset
      by_cases h : alerted
      · exact (hraisedImp hclear hset').onto (hlatch h)
      · exact (hsampled.impaired hclear hset').onto (hsilent h)
    case channel =>
      by_cases h : alerted
      · exact (hraisedChan l c hl).onto (hlatch h)
      · exact (hsampled.channel l c hl).onto (hsilent h)
    case others =>
      by_cases h : alerted
      · exact hothers.onto (hlatch h)
      · exact (hsampled.others.mono (by simp)).onto (hsilent h)
    case notAlerted => exact hsampled.others.onto (hsilent h)
    case steady =>
      have h' : ¬ (s.fire.impaired = false ∧ y.fire.impaired = true) := by rw [← himp]; exact h
      by_cases ha : alerted
      · exact (hsteady h').onto (hlatch ha)
      · exact ((hsampled.steady h').mono (by simp)).onto (hsilent ha)
    case quiet =>
      by_cases ha : alerted
      · exact (hquiet h).onto (hlatch ha)
      · exact ((hsampled.quiet h).mono (by simp)).onto (hsilent ha)
    case faults =>
      have hvfaults : v.faults = y.faults := by rw [hframe, hzrest]; rfl
      exact hvfaults.trans hsampled.faults
    case channelFaults =>
      have hvchannel : v.tally.t6.channelFaults = y.tally.t6.channelFaults := by rw [hframe, hzrest]; rfl
      exact hvchannel.trans hsampled.counted
    case preCount =>
      have hvpre : v.tally.t6.preCount = z.tally.t6.preCount := by rw [hframe]; rfl
      have hypre : y.tally.t6.preCount = s.tally.t6.preCount := by rw [hrest]
      exact hvpre.trans ((hzraise (hzone.trans h.1) (halert.2 h.2)).2.trans (by rw [hypre]; rfl))
    case noPre =>
      have hvpre : v.tally.t6.preCount = z.tally.t6.preCount := by rw [hframe]; rfl
      have hypre : y.tally.t6.preCount = s.tally.t6.preCount := by rw [hrest]
      exact hvpre.trans ((hzsilent fun h' => h ⟨hzone.symm.trans h'.1, halert.1 h'.2⟩).2.trans hypre)
    case still =>
      have hquiet' : v = z.driveRelays.viewed := hcalm (by rw [← hlineFire]; exact h)
      rw [hquiet', hzrest, hrest]
      exact ⟨rfl, rfl, rfl, rfl⟩
    case frame =>
      rw [hframe, hzrest, hrest]
      rfl

end Sys2Proof.Proofs
end

