-- ==== Sys2Proof/Proofs/Atmosphere.lean ====
section
/-! One atmosphere sample: the readings, the qualification of PURGING, and regulation or loss in INERT. -/

namespace Sys2Proof.Machine

open Sys2Proof Sys2Proof.Config

/-! ### Readings -/

theorem pressureReading_isSome_iff (x : Option Int) :
    (pressureReading x).isSome = true ↔ ∃ p : Int, x = some p ∧ -500 ≤ p ∧ p ≤ 2000 := by
  cases x with
  | none => simp [pressureReading]
  | some p => simp [pressureReading]

theorem pressureLow_iff (x : Option Int) :
    pressureLow x = true ↔ ¬ ∃ p : Int, x = some p ∧ 50 ≤ p ∧ p ≤ 2000 := by
  cases x with
  | none => simp [pressureLow, pressureReading]
  | some p =>
    by_cases h : -500 ≤ p ∧ p ≤ 2000
    · simp [pressureLow, pressureReading, h]
    · simp [pressureLow, pressureReading, h]
      omega

theorem effectiveOxygen_none_left (b : Option Nat) : effectiveOxygen none b = b := by cases b <;> rfl

theorem effectiveOxygen_none_right (a : Option Nat) : effectiveOxygen a none = a := by cases a <;> rfl

theorem disagreeNext_none_left (b : Option Nat) (n : Nat) : disagreeNext none b n = 0 := by cases b <;> rfl

theorem disagreeNext_none_right (a : Option Nat) (n : Nat) : disagreeNext a none n = 0 := by cases a <;> rfl

theorem disagreeNext_apart {v w : Nat} (h : v + 100 < w ∨ w + 100 < v) (n : Nat) :
    disagreeNext (some v) (some w) n = min (n + 1) 5 := if_pos (by omega)

theorem disagreeNext_close {v w : Nat} (h : ¬ (v + 100 < w ∨ w + 100 < v)) (n : Nat) :
    disagreeNext (some v) (some w) n = 0 := if_neg (by omega)

/-! ### Steps 1 and 2 of a sample -/

/-- The fault record entries of the sensors that pass from valid to faulted (R108, R111). -/
def Atmos.sensorFaults (a : Atmos) (x : AtmosReading) : List (FaultCause × Place × Option Tag) :=
  (if a.o2ValidA && !(o2Reading x.o2a).isSome then [(.o2SensorFault, .channel 0, none)] else []) ++
    (if a.o2ValidB && !(o2Reading x.o2b).isSome then [(.o2SensorFault, .channel 1, none)] else []) ++
    (if a.pressureValid && !(pressureReading x.pressure).isSome then [(.pressureFault, .none, none)] else [])

/-- One sensor's entry, after those before it. -/
theorem State.enterIfFaulted_faults {s u : State} {l : List (FaultCause × Place × Option Tag)}
    (hfaults : u.faults = s.faultsAfter l) (hnow : u.startup = s.startup) (before now : Bool) (c : FaultCause)
    (place : Place) : (u.enterIfFaulted before now c place).faults =
      s.faultsAfter (l ++ if before && !now then [(c, place, none)] else []) := by
  unfold State.enterIfFaulted
  split
  · exact s.enterFault_faultsAfter_append u l hfaults (by rw [hnow]) _ _ _
  · rw [List.append_nil]; exact hfaults

theorem State.enterIfFaulted_eq (s : State) (before now : Bool) (c : FaultCause) (place : Place) :
    s.enterIfFaulted before now c place = { s with faults := (s.enterIfFaulted before now c place).faults } := by
  unfold State.enterIfFaulted
  split <;> rfl

/-- The atmosphere controller with the readings of a sample (R107 to R111). -/
def Atmos.readings (a : Atmos) (x : AtmosReading) : Atmos :=
  { a with
    oxygen := effectiveOxygen (o2Reading x.o2a) (o2Reading x.o2b)
    o2ValidA := (o2Reading x.o2a).isSome, o2ValidB := (o2Reading x.o2b).isSome
    pressureValid := (pressureReading x.pressure).isSome
    disagree := disagreeNext (o2Reading x.o2a) (o2Reading x.o2b) a.disagree, sampleTimer := some 1000 }

/-- From `s` to `t` the readings were taken (R107 to R111). -/
structure State.ReadsAtmos (s t : State) (x : AtmosReading) : Prop where
  atmos : t.atmos = s.atmos.readings x
  faults : t.faults = s.faultsAfter (s.atmos.sensorFaults x)
  raised : t.atmos.disagree = 5 → s.atmos.disagree = 4 → t.latch = (s.raise .sensorDisagree .none none).latch
  silent : ¬ (t.atmos.disagree = 5 ∧ s.atmos.disagree = 4) → t.latch = s.latch
  same : s.SameFor t .atmosLost
  rest : t = { s with atmos := t.atmos, latch := t.latch, faults := t.faults }

theorem State.readAtmos_spec (s : State) (x : AtmosReading) : s.ReadsAtmos (s.readAtmos x) x := by
  obtain ⟨u, hu, hrest, hfaults⟩ : ∃ u : State,
      u = (((s.enterIfFaulted s.atmos.o2ValidA (o2Reading x.o2a).isSome .o2SensorFault (.channel 0)).enterIfFaulted
        s.atmos.o2ValidB (o2Reading x.o2b).isSome .o2SensorFault (.channel 1)).enterIfFaulted s.atmos.pressureValid
        (pressureReading x.pressure).isSome .pressureFault .none) ∧
      u = { s with faults := u.faults } ∧ u.faults = s.faultsAfter (s.atmos.sensorFaults x) := by
    have hA := s.enterIfFaulted_faults (u := s) s.faultsAfter_nil.symm rfl s.atmos.o2ValidA (o2Reading x.o2a).isSome
      .o2SensorFault (.channel 0)
    have hAeq := s.enterIfFaulted_eq s.atmos.o2ValidA (o2Reading x.o2a).isSome .o2SensorFault (.channel 0)
    generalize s.enterIfFaulted s.atmos.o2ValidA _ _ _ = u1 at *
    have hB := State.enterIfFaulted_faults hA (by rw [hAeq]) s.atmos.o2ValidB (o2Reading x.o2b).isSome
      .o2SensorFault (.channel 1)
    have hBeq := u1.enterIfFaulted_eq s.atmos.o2ValidB (o2Reading x.o2b).isSome .o2SensorFault (.channel 1)
    generalize u1.enterIfFaulted _ _ _ _ = u2 at *
    refine ⟨_, rfl, ?_, ?_⟩
    · rw [u2.enterIfFaulted_eq, hBeq, hAeq]
    · exact State.enterIfFaulted_faults hB (by rw [hBeq, hAeq]) _ _ _ _
  have hstep : s.readAtmos x =
      if disagreeNext (o2Reading x.o2a) (o2Reading x.o2b) s.atmos.disagree = 5 ∧ s.atmos.disagree = 4 then
        ({ s with faults := u.faults, atmos := s.atmos.readings x } : State).raise .sensorDisagree .none none
      else { s with faults := u.faults, atmos := s.atmos.readings x } := by
    rw [State.readAtmos]
    dsimp only
    rw [← hu, hrest]
    rfl
  rw [hstep, hfaults]
  split
  · next h =>
    have hsame := s.raise_sameFor .atmosLost .sensorDisagree .none none (by decide)
    exact ⟨rfl, rfl, fun _ _ => rfl, fun hno => absurd h hno, hsame.trans ⟨rfl, fun _ => rfl, rfl, rfl⟩, rfl⟩
  · next h =>
    exact ⟨rfl, rfl, fun hfive hfour => absurd ⟨hfive, hfour⟩ h, fun _ => rfl, .of_latch _ rfl rfl rfl, rfl⟩

/-! ### The tests of the state -/

/-- The low-pressure count of a sample in INERT (R111). -/
def Atmos.pressed (a : Atmos) (low : Bool) : Atmos :=
  { a with lowPressure := if low then min (a.lowPressure + 1) 10 else 0 }

/-- INERT is lost by the oxygen or by the tenth low pressure in a row (R120). -/
theorem Atmos.lossCause_iff (a : Atmos) (low : Bool) : (∃ c, (a.pressed low).lossCause = some c) ↔
    (a.oxygen = none ∨ ∃ v : Nat, a.oxygen = some v ∧ 500 < v) ∨ (low = true ∧ 9 ≤ a.lowPressure) := by
  have htenth : 10 ≤ (a.pressed low).lowPressure ↔ low = true ∧ 9 ≤ a.lowPressure := by
    cases low
    · simp [Atmos.pressed]
    · simp [Atmos.pressed]
  rw [← htenth]
  have hoxygen : (a.pressed low).oxygen = a.oxygen := rfl
  unfold Atmos.lossCause
  rw [hoxygen]
  cases a.oxygen with
  | none => simp
  | some v => by_cases hhigh : 500 < v <;> simp [hhigh]

theorem Atmos.lossCause_sensors {a : Atmos} (h : a.oxygen = none) : a.lossCause = some .atmosSensorsLost := by
  rw [Atmos.lossCause, h]

theorem Atmos.lossCause_high {a : Atmos} {v : Nat} (h : a.oxygen = some v) (hhigh : 500 < v) :
    a.lossCause = some .atmosO2High := by
  simp only [Atmos.lossCause, h, hhigh, if_true]

theorem Atmos.lossCause_pressure {a : Atmos} {c : FaultCause} (h : ¬ (a.oxygen = none ∨ ∃ v : Nat, a.oxygen = some v ∧ 500 < v))
    (hc : a.lossCause = some c) : c = .atmosPressureLow := by
  unfold Atmos.lossCause at hc
  cases hoxygen : a.oxygen with
  | none => exact absurd (.inl hoxygen) h
  | some v =>
    have hhigh : ¬ 500 < v := fun hv => h (.inr ⟨v, hoxygen, hv⟩)
    simp only [hoxygen, hhigh, if_false] at hc
    split at hc
    · exact (Option.some.inj hc).symm
    · cases hc

theorem State.holdInert_lost {s : State} {low : Bool} {c : FaultCause} (h : (s.atmos.pressed low).lossCause = some c) :
    s.holdInert low = ({ s with atmos := s.atmos.pressed low } : State).loseInert c := by
  have hstep : s.holdInert low = match (s.atmos.pressed low).lossCause with
      | some c => ({ s with atmos := s.atmos.pressed low } : State).loseInert c
      | none => { s with atmos := { s.atmos.pressed low with purge := valveNext s.atmos.oxygen s.atmos.purge } } := rfl
  rw [hstep, h]

theorem State.holdInert_kept {s : State} {low : Bool} (h : (s.atmos.pressed low).lossCause = none) : s.holdInert low =
    { s with atmos := { s.atmos.pressed low with purge := valveNext s.atmos.oxygen s.atmos.purge } } := by
  have hstep : s.holdInert low = match (s.atmos.pressed low).lossCause with
      | some c => ({ s with atmos := s.atmos.pressed low } : State).loseInert c
      | none => { s with atmos := { s.atmos.pressed low with purge := valveNext s.atmos.oxygen s.atmos.purge } } := rfl
  rw [hstep, h]

theorem State.loseInert_eq (s : State) (c : FaultCause) : s.loseInert c = { s with
    atmos := { s.atmos with
      state := .purging, purge := true, flood := false, qualify := 0, stageTimer := some 0, slow := false, loss := true }
    feed := s.feed.losePermissive, latch := (s.raise .atmosLost .none none).latch
    faults := (s.enterFault c .none none).faults
    tally := { s.tally with t5 := { s.tally.t5 with
      purgeEntries := bump s.tally.t5.purgeEntries, atmosLost := bump s.tally.t5.atmosLost } } } := rfl

/-- What a sample in PURGING makes of the qualification (R115). -/
theorem State.qualify_spec (s : State) :
    (s.atmos.qualifies = true → s.atmos.qualify < 29 →
      s.qualify = { s with atmos := { s.atmos with qualify := s.atmos.qualify + 1 } }) ∧
    (s.atmos.qualifies = true → 29 ≤ s.atmos.qualify →
      s.qualify = ({ s with atmos := { s.atmos with qualify := s.atmos.qualify + 1 } } : State).enterInert) ∧
    (s.atmos.qualifies = false → s.qualify = { s with atmos := { s.atmos with qualify := 0 } }) := by
  refine ⟨fun hyes hlt => ?_, fun hyes hle => ?_, fun hno => ?_⟩
  · rw [State.qualify, hyes]
    exact if_neg (by rw [if_pos rfl]; omega)
  · rw [State.qualify, hyes]
    exact if_pos (by rw [if_pos rfl]; omega)
  · rw [State.qualify, hno]
    exact if_neg (by simp)

/-- The tests of a sample by the state, after the readings (R107). -/
def State.atmosTests (s : State) (low : Bool) : State :=
  match s.atmos.state with
  | .purging => s.qualify
  | .inert => s.holdInert low
  | .air => s
  | .flood => s
  | .lockout => s

theorem State.sampleAtmos_eq (s : State) (x : AtmosReading) :
    s.sampleAtmos x = (s.readAtmos x).atmosTests (pressureLow x.pressure) := rfl

/-- What the tests leave as it is read, and what the loss of INERT raises (R115, R118, R120). -/
structure State.AtmosTests (s t : State) (low : Bool) : Prop where
  oxygen : t.atmos.oxygen = s.atmos.oxygen
  disagree : t.atmos.disagree = s.atmos.disagree
  pressure : t.atmos.pressureValid = s.atmos.pressureValid
  feed : s.atmos.state ≠ .inert → t.feed = s.feed
  lost : ∀ c, s.atmos.state = .inert → (s.atmos.pressed low).lossCause = some c →
    t.latch = (s.raise .atmosLost .none none).latch
  silent : ¬ (s.atmos.state = .inert ∧ ∃ c, (s.atmos.pressed low).lossCause = some c) →
    t.latch = s.latch ∧ t.faults = s.faults
  rest : t = { s with atmos := t.atmos, latch := t.latch, faults := t.faults, feed := t.feed
                      tally := { s.tally with t5 := t.tally.t5 } }

theorem State.atmosTests_spec (s : State) (low : Bool) : s.AtmosTests (s.atmosTests low) low := by
  unfold State.atmosTests
  cases hstate : s.atmos.state
  case purging =>
    obtain ⟨hcounts, henters, hfails⟩ := s.qualify_spec
    dsimp only
    have hlost (c : FaultCause) (hinert : s.atmos.state = .inert) : False := by rw [hstate] at hinert; cases hinert
    cases hq : s.atmos.qualifies
    · rw [hfails hq]
      exact ⟨rfl, rfl, rfl, fun _ => rfl, fun c h _ => (hlost c h).elim, fun _ => ⟨rfl, rfl⟩, rfl⟩
    · by_cases hcount : s.atmos.qualify < 29
      · rw [hcounts hq hcount]
        exact ⟨rfl, rfl, rfl, fun _ => rfl, fun c h _ => (hlost c h).elim, fun _ => ⟨rfl, rfl⟩, rfl⟩
      · rw [henters hq (by omega)]
        exact ⟨rfl, rfl, rfl, fun _ => rfl, fun c h _ => (hlost c h).elim, fun _ => ⟨rfl, rfl⟩, rfl⟩
  case inert =>
    dsimp only
    cases hloss : (s.atmos.pressed low).lossCause with
    | none =>
      rw [State.holdInert_kept hloss]
      exact ⟨rfl, rfl, rfl, fun _ => rfl, fun c _ h => (by rw [hloss] at h; cases h), fun _ => ⟨rfl, rfl⟩, rfl⟩
    | some c =>
      rw [State.holdInert_lost hloss, State.loseInert_eq]
      exact ⟨rfl, rfl, rfl, fun h => absurd hstate h, fun _ _ _ => rfl, fun hno => absurd ⟨hstate, c, hloss⟩ hno, rfl⟩
  all_goals
    exact ⟨rfl, rfl, rfl, fun _ => rfl, fun c h _ => (by rw [hstate] at h; cases h), fun _ => ⟨rfl, rfl⟩, rfl⟩

/-- A sample qualifies by two valid readings within the limit (R115). -/
theorem Atmos.qualifies_readings (y : Atmos) (x : AtmosReading) : (y.readings x).qualifies = true ↔
    ∃ v w : Nat, o2Reading x.o2a = some v ∧ o2Reading x.o2b = some w ∧ v ≤ 400 ∧ w ≤ 400 := by
  unfold Atmos.qualifies Atmos.readings
  cases o2Reading x.o2a <;> cases o2Reading x.o2b <;> simp [effectiveOxygen]

end Sys2Proof.Machine

namespace Sys2Proof.Proofs

open Sys2Proof Sys2Proof.Machine Sys2Proof.Config

/-- Settles O27: the readings of a sample (`State.ReadsAtmos`), then the tests of the state, of which the loss of INERT is
that of `Atmos.lossCause`. -/
theorem atmosphereSample : Obligations.AtmosphereSample := by
  refine ⟨fun i => ⟨fun h => ?_, fun hlow hhigh => ?_, fun hlow hhigh => ?_, fun hlow hhigh => ?_⟩, fun s x k hk => ?_⟩
  · rw [o2Reading]
    split_ifs
    · rfl
    all_goals first | rfl | omega
  · exact (if_neg (by omega)).trans (if_pos hhigh)
  · exact (if_neg (by omega)).trans ((if_neg (by omega)).trans (if_pos hhigh))
  · exact (if_neg (by omega)).trans ((if_neg (by omega)).trans ((if_neg (by omega)).trans (if_pos hhigh)))
  intro a b pressed good low
  have hexec : exec (.atmosSample x) s = .next (s.sampleAtmos x) := congrArg _ (if_pos (by rw [hk]; rfl))
  obtain ⟨hyatmos, hyfaults, hyraised, hysilent, hysame, hyrest⟩ := s.readAtmos_spec x
  rw [s.sampleAtmos_eq] at hexec
  generalize s.readAtmos x = y at *
  have hstate : y.atmos.state = s.atmos.state := by rw [hyatmos]; rfl
  have hlow : pressureLow x.pressure = true ↔ low := pressureLow_iff _
  have hpurging (h : s.atmos.state = .purging) : y.atmosTests (pressureLow x.pressure) = y.qualify := by
    rw [State.atmosTests, hstate, h]
  have hinert (h : s.atmos.state = .inert) :
      y.atmosTests (pressureLow x.pressure) = y.holdInert (pressureLow x.pressure) := by
    rw [State.atmosTests, hstate, h]
  have hidle (h : s.atmos.state = .air ∨ s.atmos.state = .flood ∨ s.atmos.state = .lockout) :
      y.atmosTests (pressureLow x.pressure) = y := by
    rcases h with h | h | h <;> rw [State.atmosTests, hstate, h]
  obtain ⟨hoxygen, hdisagree, hpressure, hzfeed, hzlost, hzsilent, hzrest⟩ := y.atmosTests_spec (pressureLow x.pressure)
  generalize y.atmosTests (pressureLow x.pressure) = z at *
  refine ⟨z, hexec, ?_⟩
  intro read sensors disagrees spoiled leaking lost
  have hvalid : z.atmos.pressureValid = (pressureReading x.pressure).isSome := by rw [hpressure, hyatmos]; rfl
  have hox : z.atmos.oxygen = effectiveOxygen a b := by rw [hoxygen, hyatmos]; rfl
  have hdis : z.atmos.disagree = disagreeNext a b s.atmos.disagree := by rw [hdisagree, hyatmos]; rfl
  have hsensors : y.faults = s.faultsAfter sensors := by
    refine hyfaults.trans (congrArg _ ?_)
    have hpass (before : Bool) (r : Option Nat) : (before && !r.isSome) = true ↔ before = true ∧ r = none := by
      cases before <;> cases r <;> simp
    simp only [Atmos.sensorFaults, sensors, hpass, hvalid, Bool.and_eq_true, Bool.not_eq_true']
    rfl
  have hattempt : y.link.attempt = s.link.attempt := by rw [hyrest]
  have hnow : y.startup = s.startup := by rw [hyrest]
  have hloss : (∃ c, (y.atmos.pressed (pressureLow x.pressure)).lossCause = some c) ↔ spoiled ∨ leaking := by
    rw [y.atmos.lossCause_iff, hlow, ← hoxygen]
    have hcount : y.atmos.lowPressure = s.atmos.lowPressure := by rw [hyatmos]; rfl
    rw [hcount]
  have hlostIff : lost ↔ y.atmos.state = .inert ∧ ∃ c, (y.atmos.pressed (pressureLow x.pressure)).lossCause = some c := by
    rw [hloss, hstate]
  have hzlatch (h : lost) : z.latch = (y.raise .atmosLost .none none).latch := by
    obtain ⟨hin, c, hc⟩ := hlostIff.1 h
    exact hzlost c hin hc
  have hysays (h : disagrees) : y.latch = (s.raise .sensorDisagree .none none).latch :=
    hyraised (hdisagree.symm.trans h.2) h.1
  have hystill (h : ¬ disagrees) : y.latch = s.latch :=
    hysilent fun h' => h ⟨h'.2, hdisagree.trans h'.1⟩
  have hzstill (h : ¬ lost) : z.latch = y.latch ∧ z.faults = y.faults := hzsilent (hlostIff.not.1 h)
  have hypends : s.OthersPend y [.sensorDisagree] := by
    by_cases h : disagrees
    · exact (s.raise_others .sensorDisagree .none none).onto (hysays h)
    · exact .refl _ (hystill h)
  have hread : y.atmos = read := by
    rw [hyatmos]
    simp only [Atmos.readings, read, hox, hvalid, hdis]
    rfl
  have hyfeed : y.feed = s.feed := by rw [hyrest]
  have hytally : y.tally = s.tally := by rw [hyrest]
  refine ⟨fun v w hv hw => ?_, fun ha => ?_, fun hb => ?_, ?_, fun h => ?_, ?_, fun h => ?_, fun h => ?_, fun h h' => ?_,
    fun h => ?_, fun h => ?purging, fun h => ?inert, fun h => ?idle, ?frame⟩
  · rw [hox, hdis, hv, hw]
    exact ⟨rfl, fun h => disagreeNext_apart h _, fun h => disagreeNext_close h _⟩
  · rw [hox, hdis, ha]
    exact ⟨effectiveOxygen_none_left b, disagreeNext_none_left b _⟩
  · rw [hox, hdis, hb]
    exact ⟨effectiveOxygen_none_right a, disagreeNext_none_right a _⟩
  · rw [hvalid]
    exact pressureReading_isSome_iff _
  · have hraised : s.RaisedIn y .sensorDisagree .none none := (s.raise_raisedIn .sensorDisagree .none none).onto (hysays h)
    by_cases hl : lost
    · exact (hraised.raise hattempt .atmosLost .none none (by decide)).onto (hzlatch hl)
    · exact hraised.onto (hzstill hl).1
  · by_cases hl : lost
    · exact ((hypends.mono (by simp)).raise hattempt .atmosLost .none none (by simp)).onto (hzlatch hl)
    · exact (hypends.mono (by simp)).onto (hzstill hl).1
  · by_cases hl : lost
    · exact ((State.OthersPend.refl (s := s) (t := y) [.atmosLost] (hystill h)).raise hattempt .atmosLost .none none
        (by simp)).onto (hzlatch hl)
    · exact .refl _ ((hzstill hl).1.trans (hystill h))
  · exact hypends.onto (hzstill h).1
  · exact (hzstill h').1.trans (hystill h)
  · exact (hzstill h).2.trans hsensors
  case purging =>
    obtain ⟨hcounts, henters, hfails⟩ := y.qualify_spec
    have hgood : y.atmos.qualifies = true ↔ good := by
      rw [hyatmos]
      exact Atmos.qualifies_readings _ x
    have hqualify : y.atmos.qualify = s.atmos.qualify := by rw [hread]
    rw [hqualify, ← hpurging h] at hcounts henters
    rw [← hpurging h] at hfails
    refine ⟨fun hyes hlt => ?_, fun hyes hle => ?_, fun hno => ?_, ?_⟩
    · have hz := hcounts (hgood.2 hyes) hlt
      exact ⟨(congrArg (·.atmos) hz).trans (by rw [hread]), (congrArg (·.tally) hz).trans hytally⟩
    · have hz := henters (hgood.2 hyes) hle
      refine ⟨(congrArg (·.atmos) hz).trans ?_, (congrArg (·.tally) hz).trans ?_⟩
      · simp only [State.enterInert, State.onT5, hread]
      · simp only [State.enterInert, State.onT5, hytally]
        rfl
    · have hz := hfails (by rw [← Bool.not_eq_true, hgood]; exact hno)
      exact ⟨(congrArg (·.atmos) hz).trans (by rw [hread]), (congrArg (·.tally) hz).trans hytally⟩
    · exact (hzfeed (by rw [hstate, h]; decide)).trans hyfeed
  case inert =>
    have hcount (hz : z.atmos.lowPressure = (y.atmos.pressed (pressureLow x.pressure)).lowPressure) :
        (low → z.atmos.lowPressure = min (s.atmos.lowPressure + 1) 10) ∧ (¬ low → z.atmos.lowPressure = 0) := by
      rw [hz, hread]
      exact ⟨fun hyes => if_pos (hlow.2 hyes), fun hno => if_neg (hlow.not.2 hno)⟩
    cases hcause : (y.atmos.pressed (pressureLow x.pressure)).lossCause with
    | some c =>
      have hz := hinert h
      rw [State.holdInert_lost hcause, State.loseInert_eq] at hz
      have hspent : spoiled ∨ leaking := hloss.1 ⟨c, hcause⟩
      have hlosing : lost := ⟨h, hspent⟩
      have hfeed : z.feed = s.feed.losePermissive := (congrArg (·.feed) hz).trans (by rw [← hyfeed])
      have hidlefeed := Feed.losePermissive_spec s.feed
      have hraised : s.RaisedIn z .atmosLost .none none :=
        ((y.raise_raisedIn .atmosLost .none none).of_same hysame).onto (hzlatch hlosing)
      have hfaults : z.faults = s.faultsAfter (sensors ++ [(c, .none, none)]) :=
        (congrArg (·.faults) hz).trans (s.enterFault_faultsAfter_append y _ hsensors (by rw [hnow]) _ _ _)
      refine ⟨fun _ => ⟨(congrArg (·.atmos) hz).trans ?_, hfeed, ?_, ?_, ?_, hraised, fun hnone => ?_, fun v hv hhigh => ?_,
        fun hclean => ?_, ?_⟩, fun hno => absurd hspent hno, hcount (congrArg (·.atmos.lowPressure) hz)⟩
      · have hlp : z.atmos.lowPressure = (y.atmos.pressed (pressureLow x.pressure)).lowPressure :=
          congrArg (·.atmos.lowPressure) hz
        rw [hlp, hread]
        rfl
      · rw [hfeed]; exact hidlefeed.1
      · rw [hfeed]; exact hidlefeed.2.1
      · rw [hfeed]; exact hidlefeed.2.2.2.1
      · have hc := Atmos.lossCause_sensors (a := y.atmos.pressed (pressureLow x.pressure)) (hoxygen.symm.trans hnone)
        rw [hfaults, Option.some.inj (hcause.symm.trans hc)]
      · have hc := Atmos.lossCause_high (a := y.atmos.pressed (pressureLow x.pressure)) (hoxygen.symm.trans hv) hhigh
        rw [hfaults, Option.some.inj (hcause.symm.trans hc)]
      · have hc := Atmos.lossCause_pressure (a := y.atmos.pressed (pressureLow x.pressure))
          (by rw [show (y.atmos.pressed (pressureLow x.pressure)).oxygen = z.atmos.oxygen from hoxygen.symm]; exact hclean)
          hcause
        rw [hfaults, hc]
      · refine (congrArg (·.tally) hz).trans ?_
        rw [← hytally]
        rfl
    | none =>
      have hz := hinert h
      rw [State.holdInert_kept hcause] at hz
      have hkept : ¬ (spoiled ∨ leaking) := by
        rw [← hloss, hcause]
        exact fun ⟨_, hc⟩ => by cases hc
      refine ⟨fun hspent => absurd hspent hkept, fun _ => ⟨?_, (congrArg (·.feed) hz).trans hyfeed,
        (congrArg (·.tally) hz).trans hytally, fun v hv => ?_⟩, hcount (congrArg (·.atmos.lowPressure) hz)⟩
      · rw [hz, hread]
        rfl
      · have hpurge : y.atmos.purge = s.atmos.purge := by rw [hread]
        rw [hoxygen] at hv
        refine (congrArg (·.atmos.purge) hz).trans ?_
        change valveNext y.atmos.oxygen y.atmos.purge = _
        rw [hv, hpurge]
        rfl
  case idle => exact ⟨(congrArg (·.atmos) (hidle h)).trans hread, (congrArg (·.feed) (hidle h)).trans hyfeed,
      (congrArg (·.tally) (hidle h)).trans hytally⟩
  case frame =>
    rw [hzrest, hyrest]

/-- Settles O28: PURGE_SLOW is raised at the first slow deadline of a PURGING, and the second deadline enters LOCKOUT. -/
theorem purgeDeadlines : Obligations.PurgeDeadlines := by
  refine ⟨fun s k hk => ?slow, fun s k hk => ?lockout, fun s hk => ?stopped⟩
  case slow =>
    cases hslow : s.atmos.slow
    · have hexec : exec .purgeSlowDeadline s =
          .next (({ s with atmos := { s.atmos with slow := true } } : State).raise .purgeSlow .none none) :=
        congrArg _ (if_pos (by rw [hk, hslow]; rfl))
      have hraised := State.raise_raised s { s with atmos := { s.atmos with slow := true } } rfl rfl rfl .purgeSlow .none
        none
      exact ⟨_, hexec, rfl, fun _ => hraised, nofun, rfl⟩
    · have hexec : exec .purgeSlowDeadline s = .next s :=
        congrArg _ (if_neg (by rw [hk, hslow]; exact Bool.false_ne_true))
      refine ⟨s, hexec, ?_, nofun, fun _ => rfl, rfl⟩
      rw [← hslow]
  case lockout =>
    have hexec : exec .purgeLockoutDeadline s =
        .next ((s.enterLockout.raise .purgeLockout .none none).enterFault .purgeLockout .none none) :=
      congrArg _ (if_pos (by rw [hk]; rfl))
    have hraised := State.raise_raised s s.enterLockout rfl rfl rfl .purgeLockout .none none
    exact ⟨_, hexec, rfl, hraised.onto rfl,
      s.enterFault_faultsAfter (s.enterLockout.raise .purgeLockout .none none) rfl rfl .purgeLockout .none none, rfl, rfl⟩
  case stopped =>
    exact ⟨congrArg _ (if_neg (by rw [hk]; exact Bool.false_ne_true)),
      congrArg _ (if_neg (by rw [hk]; exact Bool.false_ne_true))⟩

end Sys2Proof.Proofs
end

