-- ==== Sys2Proof/Proofs/FeedControl.lean ====
section
/-! The feed controller: the feed period, the rotor, and the ends of a feed. -/

namespace Sys2Proof.Machine

open Sys2Proof Sys2Proof.Config

/-! ### A reason added to the feed hold -/

/-- A reason is added after a command has made `f` of the feed controller (R88). -/
theorem State.addReason_after (s : State) {f : Feed} (hhold : f.hold = s.feed.hold) (h : HoldReason) (c : FaultCause)
    (place : Place) (tag : Option Tag) : ∃ t : State, ({ s with feed := f } : State).addReason h c place tag = t ∧
      s.FeedHeld t f h c place tag ∧ t.feed.queue = f.queue ∧
      t = { s with feed := t.feed, latch := t.latch, faults := t.faults } := by
  refine ⟨_, rfl, s.addReason_held { s with feed := f } h c place tag hhold rfl rfl rfl rfl, ?_, ?_⟩
  · exact State.addReason_queue _ h c place tag
  · rw [State.addReason_eq]

theorem Feed.abandon_of_inactive {f : Feed} (h : f.kind ≠ .active) : f.abandon = f := if_neg h

/-- What ends a feed in progress when the permissive is lost (R97). -/
theorem Feed.abandon_eq (f : Feed) : f.abandon = { f with
    gate := if f.kind = .active then false else f.gate, kind := if f.kind = .active then .abandoned else f.kind } := by
  unfold Feed.abandon
  split <;> rfl

/-- With the rotor STOPPED the loss of the permissive abandons a feed and does nothing else (R89, R97). -/
theorem Feed.losePermissive_of_stopped {f : Feed} (h : f.rotor = .stopped) : f.losePermissive = f.abandon := by
  have hrotor : f.abandon.rotor = .stopped := by
    unfold Feed.abandon
    split <;> exact h
  refine if_neg ?_
  rw [hrotor]
  nofun

/-- The entry to STOPPING, or at once to STOPPED (R93). -/
theorem Feed.enterStopping_eq (f : Feed) : f.enterStopping = { f with
    run := false, startTimer := none, idleTimer := none
    rotor := if f.feedback = true then .stopping else .stopped
    stopTimer := if f.feedback = true then some 30000 else none } := by
  unfold Feed.enterStopping
  dsimp only
  split <;> rfl

theorem Feed.abandon_sensors (f : Feed) : f.abandon.confirm = f.confirm ∧ f.abandon.feedback = f.feedback ∧
    f.abandon.feedTimer = f.feedTimer := by
  unfold Feed.abandon
  split <;> exact ⟨rfl, rfl, rfl⟩

theorem Feed.enterStopping_sensors (f : Feed) : f.enterStopping.confirm = f.confirm ∧
    f.enterStopping.feedback = f.feedback ∧ f.enterStopping.feedTimer = f.feedTimer := by
  rw [Feed.enterStopping_eq]
  exact ⟨rfl, rfl, rfl⟩

/-- The loss of the permissive leaves the sensors and the feed timer as they are (R89). -/
theorem Feed.losePermissive_sensors (f : Feed) : f.losePermissive.confirm = f.confirm ∧
    f.losePermissive.feedback = f.feedback ∧ f.losePermissive.feedTimer = f.feedTimer := by
  unfold Feed.losePermissive
  dsimp only
  split
  · obtain ⟨h1, h2, h3⟩ := f.abandon.enterStopping_sensors
    obtain ⟨k1, k2, k3⟩ := f.abandon_sensors
    exact ⟨h1.trans k1, h2.trans k2, h3.trans k3⟩
  · exact f.abandon_sensors

/-- With no feed ACTIVE the loss of the permissive leaves the gate and the feed (R89). -/
theorem Feed.losePermissive_of_inactive (f : Feed) (h : f.kind ≠ .active) :
    f.losePermissive.gate = f.gate ∧ f.losePermissive.kind = f.kind := by
  rw [Feed.losePermissive, Feed.abandon_of_inactive h]
  split
  · rw [Feed.enterStopping_eq]
    exact ⟨rfl, rfl⟩
  · exact ⟨rfl, rfl⟩

/-- A reason adds to the hold, and the permissive may be lost by it (R88). -/
theorem State.FeedHeld.feed_cases {s t : State} {f : Feed} {h : HoldReason} {c : FaultCause} {place : Place}
    {tag : Option Tag} (r : s.FeedHeld t f h c place tag) : t.feed = { f with hold := t.feed.hold } ∨
      t.feed = ({ f with hold := t.feed.hold } : Feed).losePermissive := by
  by_cases hclear : s.feed.hold = { stray := false, feed := false, rotor := false }
  · exact .inr (r.feed.trans (if_pos hclear))
  · exact .inl (r.feed.trans (if_neg hclear))

/-- With the rotor STOPPED a reason leaves the rotor, its outputs and its timers as they are (R88, R89). -/
theorem State.FeedHeld.of_stopped {s t : State} {f : Feed} {h : HoldReason} {c : FaultCause} {place : Place}
    {tag : Option Tag} (r : s.FeedHeld t f h c place tag) (hrotor : f.rotor = .stopped) :
    t.feed = { f with hold := t.feed.hold, gate := t.feed.gate, kind := t.feed.kind } := by
  have hlose := Feed.losePermissive_of_stopped (f := { f with hold := t.feed.hold }) hrotor
  rcases r.feed_cases with hfeed | hfeed
  · generalize t.feed = g at hfeed ⊢
    rw [hfeed]
  · rw [hlose, Feed.abandon] at hfeed
    generalize t.feed = g at hfeed ⊢
    split at hfeed
    all_goals rw [hfeed]

/-- With no feed ACTIVE and the rotor STOPPED only the hold changes (R88, R89). -/
theorem State.FeedHeld.of_still {s t : State} {f : Feed} {h : HoldReason} {c : FaultCause} {place : Place}
    {tag : Option Tag} (r : s.FeedHeld t f h c place tag) (hrotor : f.rotor = .stopped) (hkind : f.kind ≠ .active) :
    t.feed = { f with hold := t.feed.hold } := by
  have hlose := Feed.losePermissive_of_stopped (f := { f with hold := t.feed.hold }) hrotor
  exact r.feed_cases.elim id fun hfeed => hfeed.trans (hlose.trans (Feed.abandon_of_inactive hkind))

/-- A reason leaves the sensors and the feed timer as they are (R88, R89). -/
theorem State.FeedHeld.sensors {s t : State} {f : Feed} {h : HoldReason} {c : FaultCause} {place : Place}
    {tag : Option Tag} (r : s.FeedHeld t f h c place tag) :
    t.feed.confirm = f.confirm ∧ t.feed.feedback = f.feedback ∧ t.feed.feedTimer = f.feedTimer := by
  rcases r.feed_cases with hfeed | hfeed
  · rw [hfeed]
    exact ⟨rfl, rfl, rfl⟩
  · rw [hfeed]
    exact Feed.losePermissive_sensors _

/-- With no feed in progress a reason opens no gate and begins no feed (R88, R89). -/
theorem State.FeedHeld.of_noFeed {s t : State} {f : Feed} {h : HoldReason} {c : FaultCause} {place : Place}
    {tag : Option Tag} (r : s.FeedHeld t f h c place tag) (hkind : f.kind = .none) :
    t.feed.gate = f.gate ∧ t.feed.kind = .none := by
  have hlose := ({ f with hold := t.feed.hold } : Feed).losePermissive_of_inactive (by rw [hkind]; nofun)
  rcases r.feed_cases with hfeed | hfeed
  · rw [hfeed]
    exact ⟨rfl, hkind⟩
  · rw [hfeed]
    exact ⟨hlose.1, hlose.2.trans hkind⟩

/-! ### The idle timer -/

theorem State.refreshIdle_eq (s : State) : s.refreshIdle =
    { s with feed := { s.feed with idleTimer := s.refreshIdle.feed.idleTimer } } := by
  unfold State.refreshIdle
  split
  · split <;> rfl
  · rfl

/-- An idle timer that does not run starts when the rotor runs for nothing (R92). -/
theorem State.refreshIdle_starts {s : State} (h : s.feed.idleTimer = none) : s.refreshIdle.feed.idleTimer =
    if s.feed.rotor = .running ∧ s.feed.queue = [] ∧ s.chute.reservation = none then some 60000 else none := by
  unfold State.refreshIdle
  rw [h]
  split <;> rfl

/-- While the rotor has work the idle timer does not run (R92). -/
theorem State.refreshIdle_stops {s : State}
    (h : ¬ (s.feed.rotor = .running ∧ s.feed.queue = [] ∧ s.chute.reservation = none)) :
    s.refreshIdle = { s with feed := { s.feed with idleTimer := none } } := if_neg h

/-! ### The feed period -/

theorem State.idleLine_iff (s : State) : s.idleLine = true ↔
    s.chute.reservation = none ∧ ∀ n : NodeNo, (s.peers[n]).hasReleasable = false := by
  rw [State.idleLine, Bool.and_eq_true, Option.isNone_iff_eq_none, Bool.not_eq_true', ← Bool.not_eq_true,
    s.any_peers_iff, not_exists]
  simp only [Bool.not_eq_true]

/-- The head has waited to the limit when this period's wait reaches it (R83, R90). -/
theorem headAged_advanceWaits (q : List QueueEntry) : headAged (advanceWaits q) = true ↔
    ∃ (e : QueueEntry) (l : List QueueEntry), q = e :: l ∧ 120000 ≤ e.wait + 100 := by
  cases q with
  | nil => simp [headAged, advanceWaits]
  | cons e l => simp [headAged, advanceWaits, waitMs]

/-- A rotor that does not run feeds nothing (R94). -/
theorem State.checkFeed_idle {s : State} (h : s.mayFeed = false) : s.checkFeed = s := by
  rw [State.checkFeed, h]
  rfl

theorem State.checkStart_idle {s : State} (h : s.mayStart = false) : s.checkStart = s := by
  rw [State.checkStart, h]
  rfl

theorem State.checkStart_of_cause {s : State} (h : s.mayStart = true) {c : Flush} (hc : s.flushCause = some c) :
    s.checkStart = s.startRotor c := by
  rw [State.checkStart, h, hc]
  rfl

theorem State.checkStart_of_none {s : State} (hc : s.flushCause = none) : s.checkStart = s := by
  rw [State.checkStart, hc, ite_self]

/-- The state of a feed period after the waits have advanced (R83). -/
def State.waited (s : State) : State :=
  { s with feed := { s.feed with queue := advanceWaits s.feed.queue, periodTimer := some fastPeriod } }

theorem exec_feedPeriod {s : State} {k : Nat} (h : s.feed.periodTimer = some k) :
    exec .feedPeriodExpiry s = .next s.waited.checkStart.checkFeed :=
  congrArg _ (if_pos (by rw [h]; rfl))

/-- The requirements of a start, but for the flush condition (R90). -/
theorem State.waited_mayStart_iff {s : State} (h : s.feed.rotor = .stopped) : s.waited.mayStart = true ↔
    s.permissive = true ∧ s.fire.impaired = false ∧ s.feed.feedback = false ∧ s.feed.queue ≠ [] := by
  have hqueue : s.waited.feed.queue.isEmpty = false ↔ s.feed.queue ≠ [] := by
    change (List.map _ _).isEmpty = false ↔ _
    rw [List.isEmpty_map, List.isEmpty_eq_false_iff]
  rw [State.mayStart_iff, hqueue]
  exact ⟨fun hmay => hmay.2, fun hmay => ⟨h, hmay⟩⟩

/-- The requirements of a feed, but for the head (R94). -/
theorem State.waited_mayFeed_iff (s : State) : s.waited.mayFeed = true ↔
    s.feed.rotor = .running ∧ s.permissive = true ∧ s.feed.kind = .none ∧ s.feed.confirm = false :=
  State.mayFeed_iff s.waited

/-- With the rotor STOPPED the period is the start check (R90). -/
theorem State.feedPeriod_of_stopped {s : State} (h : s.feed.rotor = .stopped) :
    s.waited.checkStart.checkFeed = s.waited.checkStart := by
  refine State.checkFeed_idle ?_
  rw [← Bool.not_eq_true, State.mayFeed_iff]
  have hnot : s.waited.checkStart.feed.rotor ≠ .running := by
    unfold State.checkStart
    split
    · exact h ▸ nofun
    · split
      · exact nofun
      · exact h ▸ nofun
  exact fun hmay => hnot hmay.1

/-- With the rotor not STOPPED the period is the feed start check (R94). -/
theorem State.feedPeriod_of_turning {s : State} (h : s.feed.rotor ≠ .stopped) :
    s.waited.checkStart.checkFeed = s.waited.checkFeed := by
  refine congrArg _ (State.checkStart_idle ?_)
  rw [← Bool.not_eq_true, State.mayStart_iff]
  exact fun hmay => h hmay.1

end Sys2Proof.Machine

namespace Sys2Proof.Proofs

open Sys2Proof Sys2Proof.Machine Sys2Proof.Config

/-- Settles O23: the period is the start check, by the first flush condition that holds. -/
theorem feedPeriodStartsTheRotor : Obligations.FeedPeriodStartsTheRotor := by
  intro s k htimer hstopped aged ready full old idle asked starts
  have hready : s.waited.mayStart = true ↔ ready := s.waited_mayStart_iff hstopped
  have hfull : s.waited.profile.batchWatermark ≤ s.waited.feed.queue.length ↔ full := by
    change _ ≤ (List.map _ _).length ↔ _
    rw [List.length_map]
    rfl
  have hold : headAged s.waited.feed.queue = true ↔ old := headAged_advanceWaits _
  have hidle : s.waited.idleLine = true ↔ idle := s.idleLine_iff
  have hwater (h1 : full) : s.waited.flushCause = some .watermark := if_pos (hfull.2 h1)
  have hage (h1 : ¬ full) (h2 : old) : s.waited.flushCause = some .age := by
    rw [State.flushCause, if_neg (mt hfull.1 h1), if_pos (hold.2 h2)]
  have hline (h1 : ¬ full) (h2 : ¬ old) (h3 : idle) : s.waited.flushCause = some .idleLine := by
    rw [State.flushCause, if_neg (mt hfull.1 h1), if_neg (mt hold.1 h2), if_pos (hidle.2 h3)]
  have hrest (h1 : ¬ full) (h2 : ¬ old) (h3 : ¬ idle) :
      s.waited.flushCause = if s.feed.flush then some .request else none := by
    rw [State.flushCause, if_neg (mt hfull.1 h1), if_neg (mt hold.1 h2), if_neg (mt hidle.1 h3)]
    rfl
  have hbegins (hr : ready) {c : Flush} (hc : s.waited.flushCause = some c) :
      s.waited.checkStart = s.waited.startRotor c := State.checkStart_of_cause (hready.2 hr) hc
  refine ⟨s.waited.checkStart, (exec_feedPeriod htimer).trans (by rw [State.feedPeriod_of_stopped hstopped]),
    ?starts, ?byWatermark, ?byAge, ?byIdleLine, ?byRequest, ?waits, ?frame⟩
  case starts =>
    intro hr hany
    have hsome : ∃ c : Flush, s.waited.flushCause = some c := by
      by_cases h1 : full
      · exact ⟨_, hwater h1⟩
      by_cases h2 : old
      · exact ⟨_, hage h1 h2⟩
      by_cases h3 : idle
      · exact ⟨_, hline h1 h2 h3⟩
      · exact ⟨_, (hrest h1 h2 h3).trans (if_pos (((hany.resolve_left h1).resolve_left h2).resolve_left h3))⟩
    obtain ⟨c, hc⟩ := hsome
    rw [hbegins hr hc]
    rfl
  case byWatermark =>
    intro hr h1
    rw [hbegins hr (hwater h1)]
    rfl
  case byAge =>
    intro hr h1 h2
    rw [hbegins hr (hage h1 h2)]
    rfl
  case byIdleLine =>
    intro hr h1 h2 h3
    rw [hbegins hr (hline h1 h2 h3)]
    rfl
  case byRequest =>
    intro hr h1 h2 h3 h4
    rw [hbegins hr ((hrest h1 h2 h3).trans (if_pos h4))]
    rfl
  case waits =>
    rintro (hno | hno)
    · rw [State.checkStart_idle (by rw [← Bool.not_eq_true, hready]; exact hno)]
      rfl
    · obtain ⟨h1, h2, h3, h4⟩ : ¬ full ∧ ¬ old ∧ ¬ idle ∧ ¬ asked := by simpa only [not_or] using hno
      rw [State.checkStart_of_none ((hrest h1 h2 h3).trans (if_neg h4))]
      rfl
  case frame =>
    unfold State.checkStart
    split
    · rfl
    · split
      · next c _ => cases c <;> rfl
      · rfl

/-- Settles O24: the period is the feed start check, with the head test on the node's own limit. -/
theorem feedPeriodFeedsTheHead : Obligations.FeedPeriodFeedsTheHead := by
  intro s k htimer hturning age ready
  have hready : s.waited.mayFeed = true ↔ ready := s.waited_mayFeed_iff
  have hexec := (exec_feedPeriod htimer).trans (congrArg _ (State.feedPeriod_of_turning hturning))
  by_cases hr : ready
  case neg =>
    refine ⟨s.waited, hexec.trans (congrArg _ (State.checkFeed_idle (by rw [← Bool.not_eq_true, hready]; exact hr))),
      fun e l h => absurd h hr, fun e l h => absurd h hr, fun _ => rfl⟩
  have hcheck : s.waited.checkFeed = match s.waited.feed.queue with
      | [] => s.waited
      | e :: _ => if e.pack.restV ≤ e.pack.s * s.profile.reboundLimit then
          { s.waited with feed := { s.waited.feed with
            gate := true, queue := feedHead s.waited.feed.queue, kind := .active, feedTimer := some feedMs } }
        else s.waited.addReason .feed .reboundHigh (.bay e.pack.bay.val) (some e.pack.tag) := by
    rw [State.checkFeed, hready.2 hr]
    rfl
  have hqueue : s.waited.feed.queue = s.feed.queue.map age := rfl
  rw [hqueue] at hcheck
  obtain ⟨hrunning, hpermissive, hkind, hconfirm⟩ := hr
  have hclear := (HoldSet.isSet_false_iff _).1 (s.permissive_iff.1 hpermissive).2.2
  have hinactive : s.feed.kind ≠ .active := by rw [hkind]; nofun
  have hnotReady : ¬ ready ∨ s.feed.queue = [] → s.feed.queue = [] :=
    fun h => h.resolve_left (not_not_intro ⟨hrunning, hpermissive, hkind, hconfirm⟩)
  by_cases hempty : s.feed.queue = []
  · rw [hempty] at hcheck
    exact ⟨s.waited, hexec.trans (congrArg _ hcheck), fun e l _ h => absurd (hempty.symm.trans h) nofun,
      fun e l _ h => absurd (hempty.symm.trans h) nofun, fun _ => rfl⟩
  · obtain ⟨e, l, hq⟩ := List.exists_cons_of_ne_nil hempty
    rw [hq] at hcheck
    change s.waited.checkFeed = if e.pack.restV ≤ e.pack.s * s.profile.reboundLimit then _ else _ at hcheck
    by_cases hlimit : e.pack.restV ≤ e.pack.s * s.profile.reboundLimit
    · rw [if_pos hlimit] at hcheck
      refine ⟨_, hexec.trans (congrArg _ hcheck), ?_, ?_, ?_⟩
      · rintro e' l' - h -
        obtain ⟨rfl, rfl⟩ := List.cons.inj (hq.symm.trans h)
        rfl
      · rintro e' l' - h hover
        obtain ⟨rfl, rfl⟩ := List.cons.inj (hq.symm.trans h)
        omega
      · exact fun h => absurd (hnotReady h) hempty
    · rw [if_neg hlimit] at hcheck
      obtain ⟨t, ht, hheld, hkeep, hrest⟩ := s.addReason_after (f := s.waited.feed) rfl .feed .reboundHigh
        (.bay e.pack.bay.val) (some e.pack.tag)
      refine ⟨t, hexec.trans (congrArg _ (hcheck.trans ht)), ?_, ?_, ?_⟩
      · rintro e' l' - h hwithin
        obtain ⟨rfl, rfl⟩ := List.cons.inj (hq.symm.trans h)
        exact absurd hwithin hlimit
      · rintro e' l' - h -
        obtain ⟨rfl, rfl⟩ := List.cons.inj (hq.symm.trans h)
        have hfeed : t.feed = ({ s.waited.feed with hold := t.feed.hold } : Feed).enterStopping := by
          refine (hheld.feed.trans (if_pos hclear)).trans ?_
          rw [Feed.losePermissive, Feed.abandon_of_inactive (by exact hinactive)]
          exact if_pos (.inr hrunning)
        rw [Feed.enterStopping_eq] at hfeed
        exact ⟨hheld, by rw [hfeed]; rfl, hkeep, by rw [hfeed], by rw [hfeed]; rfl, hrest⟩
      · exact fun h => absurd (hnotReady h) hempty

/-- Settles O25: the feedback by the state of the rotor, each timer, and the loss of the permissive. -/
theorem rotorFeedbackAndTimers : Obligations.RotorFeedbackAndTimers := by
  refine ⟨fun s hshred hawake hoff => ?on, fun s hshred hawake hon => ⟨?again, ?off⟩, fun s k htimer => ?start,
    fun s k htimer => ?stop, fun s k htimer => ?idle, fun f => ?lost⟩
  case on =>
    have hexec : exec .rotorFeedbackOn s = .next s.feedbackRises :=
      congrArg _ (if_pos (by rw [State.shredAwake, hshred, hawake, hoff]; rfl))
    cases hrotor : s.feed.rotor with
    | starting =>
      have hrises : s.feedbackRises = ({ s with feed := { s.feed with
          feedback := true, rotor := .running, startTimer := none } } : State).refreshIdle := by
        rw [State.feedbackRises, hrotor]
      rw [hrises, State.refreshIdle_eq] at hexec
      refine ⟨_, hexec, rfl, rfl, fun _ => ⟨fun hidle => ?_, rfl⟩, nofun, nofun, rfl⟩
      exact (State.refreshIdle_starts (s := { s with feed := { s.feed with
        feedback := true, rotor := .running, startTimer := none } }) hidle).trans (if_congr (and_iff_right rfl) rfl rfl)
    | stopped =>
      obtain ⟨t, ht, hheld, hqueue, hrest⟩ := s.addReason_after (f := { s.feed with feedback := true }) rfl .rotor
        .rotorUncommanded .none none
      have hrises : s.feedbackRises = t := by rw [State.feedbackRises, hrotor, ← ht]
      refine ⟨t, hexec.trans (congrArg _ hrises), hheld.sensors.2.1, hqueue, nofun, fun _ => ⟨hheld, ?_⟩, nofun, hrest⟩
      rw [hheld.of_stopped hrotor]
      exact hrotor
    | running =>
      have hrises : s.feedbackRises = { s with feed := { s.feed with feedback := true } } := by
        rw [State.feedbackRises, hrotor]
      exact ⟨_, hexec.trans (congrArg _ hrises), rfl, rfl, nofun, nofun, fun _ => rfl, rfl⟩
    | stopping =>
      have hrises : s.feedbackRises = { s with feed := { s.feed with feedback := true } } := by
        rw [State.feedbackRises, hrotor]
      exact ⟨_, hexec.trans (congrArg _ hrises), rfl, rfl, nofun, nofun, fun _ => rfl, rfl⟩
  case again => exact congrArg _ (if_neg (by rw [hon, Bool.not_true, Bool.and_false]; exact Bool.false_ne_true))
  case off =>
    have hexec : exec .rotorFeedbackOff s = .next s.feedbackFalls :=
      congrArg _ (if_pos (by rw [State.shredAwake, hshred, hawake, hon]; rfl))
    cases hrotor : s.feed.rotor with
    | running =>
      obtain ⟨t, ht, hheld, hqueue, hrest⟩ := s.addReason_after (f := { s.feed with
        feedback := false, run := false, rotor := .stopped, idleTimer := none
        gate := if s.feed.kind = .active then false else s.feed.gate
        kind := if s.feed.kind = .active then .abandoned else s.feed.kind }) rfl .rotor .rotorStall .none none
      have hfalls : s.feedbackFalls = t := by
        rw [State.feedbackFalls, hrotor, ← ht]
        dsimp only
        rw [Feed.stall, Feed.abandon_eq]
      have hinactive : (if s.feed.kind = .active then FeedKind.abandoned else s.feed.kind) ≠ .active := by
        split_ifs with h
        · nofun
        · exact h
      have hfeed := hheld.of_still rfl hinactive
      refine ⟨t, hexec.trans (congrArg _ hfalls), by rw [hfeed], hqueue,
        fun _ => ⟨hheld, by rw [hfeed], by rw [hfeed], fun h => ⟨?_, ?_, by rw [hfeed]⟩⟩, nofun, nofun, hrest⟩
      · rw [hfeed]
        exact if_pos h
      · rw [hfeed]
        exact if_pos h
    | stopping =>
      have hfalls : s.feedbackFalls = { s with feed := { s.feed with
          feedback := false, rotor := .stopped, stopTimer := none } } := by rw [State.feedbackFalls, hrotor]
      exact ⟨_, hexec.trans (congrArg _ hfalls), rfl, rfl, nofun, fun _ => rfl, nofun, rfl⟩
    | stopped =>
      have hfalls : s.feedbackFalls = { s with feed := { s.feed with feedback := false } } := by
        rw [State.feedbackFalls, hrotor]
      exact ⟨_, hexec.trans (congrArg _ hfalls), rfl, rfl, nofun, nofun, fun _ => rfl, rfl⟩
    | starting =>
      have hfalls : s.feedbackFalls = { s with feed := { s.feed with feedback := false } } := by
        rw [State.feedbackFalls, hrotor]
      exact ⟨_, hexec.trans (congrArg _ hfalls), rfl, rfl, nofun, nofun, fun _ => rfl, rfl⟩
  case start =>
    obtain ⟨t, ht, hheld, hqueue, hrest⟩ := s.addReason_after (f := { s.feed with
      run := false, startTimer := none, rotor := .stopped }) rfl .rotor .rotorStart .none none
    have hfeed := hheld.of_stopped rfl
    exact ⟨t, (congrArg _ (if_pos (by rw [htimer]; rfl))).trans (congrArg _ ht), hheld, by rw [hfeed], by rw [hfeed],
      by rw [hfeed], hqueue, hrest⟩
  case stop =>
    obtain ⟨t, ht, hheld, hqueue, hrest⟩ := s.addReason_after (f := { s.feed with
      run := false, stopTimer := none, rotor := .stopped }) rfl .rotor .rotorStop .none none
    have hfeed := hheld.of_stopped rfl
    exact ⟨t, (congrArg _ (if_pos (by rw [htimer]; rfl))).trans (congrArg _ ht), hheld, by rw [hfeed], by rw [hfeed],
      by rw [hfeed], hqueue, hrest⟩
  case idle =>
    exact (congrArg _ (if_pos (by rw [htimer]; rfl))).trans (by rw [Feed.enterStopping_eq])
  case lost =>
    intro g
    have habandon : f.abandon = g := f.abandon_eq
    refine ⟨fun hturns => ?_, fun hstands => ?_⟩
    · rw [Feed.losePermissive, habandon]
      refine (if_pos hturns).trans ?_
      rw [Feed.enterStopping_eq]
    · rw [Feed.losePermissive, habandon]
      refine if_neg ?_
      change ¬ (f.rotor = .starting ∨ f.rotor = .running)
      rcases hstands with h | h
      · rw [h]; nofun
      · rw [h]; nofun

/-- Settles O26: a confirmation by what stands in progress, and the feed timer by the kind of the feed. -/
theorem feedEnds : Obligations.FeedEnds := by
  refine ⟨fun s hshred hawake hclear => ?confirmed, fun s hset => ?again, fun s hshred hawake => ?cleared,
    fun s k e l htimer hqueue => ?expires⟩
  case again => exact congrArg _ (if_neg (by rw [hset, Bool.not_true, Bool.and_false]; exact Bool.false_ne_true))
  case cleared => exact congrArg _ (if_pos (by rw [State.shredAwake, hshred, hawake]; rfl))
  case confirmed =>
    have hexec : exec .feedConfirmSet s = .next s.confirmRises :=
      congrArg _ (if_pos (by rw [State.shredAwake, hshred, hawake, hclear]; rfl))
    by_cases hkind : s.feed.kind = .none
    · obtain ⟨t, ht, hheld, hqueue, hrest⟩ := s.addReason_after (f := { s.feed with confirm := true }) rfl .feed
        .feedUnexpected .none none
      have hrises : s.confirmRises = t := by rw [State.confirmRises, hkind, ← ht]
      exact ⟨t, hexec.trans (congrArg _ hrises), fun e l h => absurd hkind h,
        fun _ => ⟨hheld, hqueue, hheld.sensors.1, hrest⟩⟩
    · have hrises : s.confirmRises = ({ s with feed := { s.feed with confirm := true } } : State).confirmFeed := by
        rw [State.confirmRises]
        split
        · next h => exact absurd h hkind
        · rfl
        · rfl
      refine ⟨_, hexec, fun e l _ hqueue => ?_, fun h => absurd h hkind⟩
      have hconfirm : s.confirmRises = State.onT4 ({ s with feed := { s.feed with
          confirm := true, feedTimer := none, gate := false, kind := .none, queue := l
          flush := s.feed.flush && !l.isEmpty } } : State).refreshIdle (fun t => { t with
            shredded := bump t.shredded, shreddedEnergy := satAdd max64 t.shreddedEnergy e.pack.energy }) := by
        rw [hrises, State.confirmFeed]
        dsimp only
        rw [hqueue]
        rfl
      rw [hconfirm]
      generalize hu : ({ s with feed := { s.feed with
          confirm := true, feedTimer := none, gate := false, kind := .none, queue := l
          flush := s.feed.flush && !l.isEmpty } } : State) = u
      have hspec := u.refreshIdle_spec
      have heq := u.refreshIdle_eq
      have hstarts := u.refreshIdle_starts
      generalize u.refreshIdle = v at *
      rw [heq, ← hu]
      rw [← hu] at hspec hstarts
      refine ⟨rfl, hspec, fun hidle hl hruns => ?_, rfl, rfl⟩
      have h := hstarts hidle
      split_ifs at h with hc
      · exact h
      · exact absurd h hruns
  case expires =>
    have hexec : exec .feedTimerExpiry s = .next s.feedExpires := congrArg _ (if_pos (by rw [htimer]; rfl))
    have hgive : s.feed.giveUp = { s.feed with
        gate := false, kind := .none, feedTimer := none, queue := { e with feeding := false } :: l } := by
      rw [Feed.giveUp, hqueue]
      rfl
    rw [State.feedExpires, hgive, hqueue] at hexec
    dsimp only [headPlace] at hexec
    cases hkind : s.feed.kind with
    | none =>
      rw [hkind] at hexec
      exact ⟨_, hexec, rfl, rfl, rfl, rfl, nofun, nofun⟩
    | abandoned =>
      rw [hkind] at hexec
      exact ⟨_, hexec, rfl, rfl, rfl, rfl, nofun, fun _ => rfl⟩
    | active =>
      obtain ⟨t, ht, hheld, hkeep, hrest⟩ := s.addReason_after (f := { s.feed with
        gate := false, kind := .none, feedTimer := none, queue := { e with feeding := false } :: l }) rfl .feed
        .feedTimeout (.bay e.pack.bay.val) (some e.pack.tag)
      rw [hkind] at hexec
      obtain ⟨hgate, hnone⟩ := hheld.of_noFeed rfl
      exact ⟨t, hexec.trans (congrArg _ ht), hgate, hnone, hheld.sensors.2.2, hkeep, fun _ => ⟨hheld, hrest⟩, nofun⟩

end Sys2Proof.Proofs
end

