-- ==== Sys2Proof/Proofs/Chute.lean ====
section
/-! The shred side of a handoff: an OFFER, the end of a reservation, and an arrival at the chute. -/

namespace Sys2Proof.Machine

open Sys2Proof Sys2Proof.Config

variable {s : State} {f : HandoffFrame} {n : NodeNo} {b : BayNo} {message : Byte}

/-! ### A HANDOFF taken -/

theorem State.fifoWith_told (s : State) (message : Byte) (f : HandoffFrame) (n : NodeNo) (h : HandoffOut) :
    (s.told message f n).fifoWith h = s.fifoWith h := by
  rw [State.fifoWith, State.told_running, State.told_fifo, State.fifoWith]

/-- All that placing a frame does in the state in which a HANDOFF is taken (R63, R163). -/
theorem State.placeHandoff_told (s : State) (message : Byte) (f : HandoffFrame) (n : NodeNo) {u : State}
    (hstartup : u.startup = s.startup) (hlink : u.link = (s.told message f n).link)
    (htally : u.tally = (s.told message f n).tally) (h : HandoffOut) :
    u.placeHandoff h = { u with link := { u.link with fifo := s.fifoWith h }
                                tally := { u.tally with t6 := (s.told message f n).t6With } } := by
  rw [← s.fifoWith_told message f n]
  exact State.placeHandoff_eq _ _ h (hstartup.trans (s.told_startup ..).symm) (by rw [hlink]) (by rw [htally])

/-! ### OFFER -/

theorem State.declineReason_told (s : State) (message : Byte) (f : HandoffFrame) (n : NodeNo) :
    (s.told message f n).declineReason f n = s.declineReason f n := by
  rw [State.told, s.heard_eq]
  rfl

theorem takeOffer_of_shred (hshred : s.isShred = true) (hrun : s.startup.life = .running)
    (hs : 1 ≤ f.s.toNat ∧ f.s.toNat ≤ 32) :
    (∀ r : DeclineReason, s.declineReason f n = some r →
      State.takeOffer f n b s = s.placeHandoff { plainHandoff .decline n f.tag b with reason := some r }) ∧
    (s.declineReason f n = none → State.takeOffer f n b s = s.reserve f n b) := by
  have htest : State.takeOffer f n b s = (s.declineReason f n).elim (s.reserve f n b)
      (fun r => s.placeHandoff { plainHandoff .decline n f.tag b with reason := some r }) := by
    rw [State.takeOffer, hshred, State.running, hrun, if_neg (by decide), if_neg (by omega)]
    cases s.declineReason f n <;> rfl
  exact ⟨fun r hr => by rw [htest, hr]; rfl, fun hr => by rw [htest, hr]; rfl⟩

/-- An OFFER that fails a condition is declined with its reason (R75). -/
theorem exec_offer_declined (h : s.HearsHandoff 0 f n b) (hshred : s.isShred = true) (hrun : s.startup.life = .running)
    (hs : 1 ≤ f.s.toNat ∧ f.s.toNat ≤ 32) {r : DeclineReason} (hr : s.declineReason f n = some r) :
    exec (.offerReceived f) s =
      .next ((s.told 0 f n).placeHandoff { plainHandoff .decline n f.tag b with reason := some r }) :=
  (congrArg _ (State.receiveHandoff_of_hears h _)).trans <| congrArg _ <|
    (takeOffer_of_shred ((s.told_isShred 0 f n).trans hshred) (by rw [State.told_startup]; exact hrun) hs).1 r
      ((s.declineReason_told 0 f n).trans hr)

/-- An OFFER that meets every condition is taken (R76). -/
theorem exec_offer_taken (h : s.HearsHandoff 0 f n b) (hshred : s.isShred = true) (hrun : s.startup.life = .running)
    (hs : 1 ≤ f.s.toNat ∧ f.s.toNat ≤ 32) (hr : s.declineReason f n = none) :
    exec (.offerReceived f) s = .next ((s.told 0 f n).reserve f n b) :=
  (congrArg _ (State.receiveHandoff_of_hears h _)).trans <| congrArg _ <|
    (takeOffer_of_shred ((s.told_isShred 0 f n).trans hshred) (by rw [State.told_startup]; exact hrun) hs).2
      ((s.declineReason_told 0 f n).trans hr)

theorem exec_offer_foreign (h : s.HearsHandoff 0 f n b) (hshred : s.isShred = true) (hrun : s.startup.life = .running)
    (hs : f.s.toNat = 0 ∨ 32 < f.s.toNat) : exec (.offerReceived f) s = .next (s.told 0 f n).countForeign := by
  refine (congrArg _ (State.receiveHandoff_of_hears h _)).trans ?_
  rw [State.takeOffer, State.told_isShred, State.told_running, hshred, State.running, hrun, if_neg (by decide),
    if_pos (by omega)]

/-- With no reservation the intake is the queue (R86). -/
theorem State.intake_of_free (h : s.chute.reservation = none) : s.intake = s.feed.queue.length := by
  rw [State.intake, h]
  rfl

/-- With no reservation the tags are those of the queue (R18). -/
theorem State.queued_iff_of_free (h : s.chute.reservation = none) (tag : Tag) :
    s.queued tag = true ↔ ∃ e ∈ s.feed.queue, e.pack.tag = tag := by
  rw [State.queued, decide_eq_true_eq, State.shredTags, h]
  simp

/-- The conditions of R75 that precede the queue's. -/
structure State.TakesOffers (s : State) : Prop where
  heard : s.view.silent = false
  inert : s.atmos.state = .inert
  line : s.view.lineFire = false
  held : s.feed.hold.isSet = false
  free : s.chute.reservation = none

theorem State.TakesOffers.declineReason_eq (h : s.TakesOffers) (f : HandoffFrame) (n : NodeNo) :
    s.declineReason f n = if 8 ≤ s.feed.queue.length then some .queueFull
      else if s.queued f.tag then some .duplicate
      else if (s.peers[n]).state ≠ .present then some .notReady else none := by
  rw [State.declineReason, h.heard, h.inert, h.line, h.held, State.intake_of_free h.free, h.free]
  rfl

/-- The state after an OFFER is taken (R76). -/
theorem State.reserve_told (s : State) (f : HandoffFrame) (n : NodeNo) (b : BayNo) :
    (s.told 0 f n).reserve f n b = { s.told 0 f n with
      chute := { s.chute with
        reservation := some { tag := f.tag, source := n, bay := b, s := f.s.toNat, energy := f.energy.toNat
                              restV := f.restV.toNat }
        arrivalTimer := some 30000, conveyor := true }
      feed := { s.feed with idleTimer := none }
      link := { (s.told 0 f n).link with fifo := s.fifoWith (plainHandoff .take n f.tag b) }
      tally := { (s.told 0 f n).tally with t6 := (s.told 0 f n).t6With } } := by
  rw [State.reserve, State.refreshIdle_stops (fun h => Option.some_ne_none _ h.2.2), ← State.told_chute s 0 f n, ← State.told_feed s 0 f n]
  refine s.placeHandoff_told 0 f n ?_ ?_ ?_ _
  · exact s.told_startup 0 f n
  · rfl
  · rfl

/-! ### The end of a reservation -/

theorem State.dropReservation_eq (s : State) : s.dropReservation = { s with
    chute := { s.chute with reservation := none, arrivalTimer := none, conveyor := false }
    feed := { s.feed with idleTimer := s.dropReservation.feed.idleTimer } } :=
  State.refreshIdle_eq _

/-- The idle timer starts where the rotor now runs for nothing (R78, R92). -/
theorem State.dropReservation_starts (h : s.feed.idleTimer = none) : s.dropReservation.feed.idleTimer =
    if s.feed.rotor = .running ∧ s.feed.queue = [] then some 60000 else none :=
  (State.refreshIdle_starts (s := { s with chute := { s.chute with
    reservation := none, arrivalTimer := none, conveyor := false } }) h).trans
    (if_congr (and_congr_right' (and_iff_left rfl)) rfl rfl)

theorem State.reservedFor_iff (s : State) (tag : Tag) (n : NodeNo) : s.reservedFor tag n = true ↔
    ∃ e : Offered, s.chute.reservation = some e ∧ e.tag = tag ∧ e.source = n := by
  rw [State.reservedFor]
  cases s.chute.reservation with
  | none => simp
  | some e => simp

theorem exec_withdraw (h : s.HearsHandoff 3 f n b) (hshred : s.isShred = true) (hrun : s.startup.life = .running) :
    exec (.withdrawReceived f) s = .next (if s.reservedFor f.tag n then (s.told 3 f n).dropReservation
      else (s.told 3 f n).countForeign) := by
  refine (congrArg _ (State.receiveHandoff_of_hears h _)).trans ?_
  have hreserved : (s.told 3 f n).reservedFor f.tag n = s.reservedFor f.tag n := by
    rw [State.reservedFor, State.told_chute]
    rfl
  rw [State.takeWithdraw, State.told_isShred, State.told_running, hshred, State.running, hrun, hreserved]
  rfl

/-! ### An arrival -/

/-- The state after the reserved pack has arrived (R77, R83). -/
theorem State.arrive_eq (s : State) (e : Offered) : s.arrive e = { s with
    chute := { s.chute with reservation := none, arrivalTimer := none, conveyor := false }
    feed := { s.feed with queue := s.feed.queue ++ [{ pack := e, wait := 0, feeding := false }], idleTimer := none }
    link := { s.link with fifo := s.fifoWith (plainHandoff .settle e.source e.tag e.bay) }
    tally := { s.tally with
      t4 := { s.tally.t4 with
        settledFrom := s.tally.t4.settledFrom.set e.source.val (bump s.tally.t4.settledFrom[e.source]) e.source.isLt }
      t6 := s.t6With } } := by
  rw [State.arrive]
  dsimp only
  rw [State.refreshIdle_stops (fun h => List.append_ne_nil_of_right_ne_nil _ (List.cons_ne_nil _ _) h.2.1),
    State.placeHandoff_eq s]
  all_goals rfl

end Sys2Proof.Machine

namespace Sys2Proof.Proofs

open Sys2Proof Sys2Proof.Machine Sys2Proof.Config

/-- Settles O20: the conditions of R75 in their order, and what a taken OFFER leaves. -/
theorem offerTakenOrDeclined : Obligations.OfferTakenOrDeclined := by
  refine ⟨fun s f n b h hshred hrun hheard hinert hline hhold hfree hroom hnew hpresent hlow hhigh => ?_,
    fun s f n b h hshred hrun => ?_⟩
  · have htakes : s.TakesOffers := ⟨hheard, hinert, hline, (HoldSet.isSet_false_iff _).2 hhold, hfree⟩
    have hreason : s.declineReason f n = none := by
      rw [htakes.declineReason_eq, if_neg (by omega), if_neg, if_neg (not_not_intro hpresent)]
      rw [State.queued_iff_of_free hfree]
      exact fun ⟨e, he, htag⟩ => hnew e he htag
    have hexec := exec_offer_taken h hshred hrun ⟨hlow, hhigh⟩ hreason
    rw [s.reserve_told] at hexec
    refine ⟨_, hexec, rfl, rfl, ?_, rfl, rfl⟩
    rw [State.accepting]
    exact (congrArg (· && _) (Bool.and_false _)).trans (Bool.false_and _)
  · intro u declines
    refine ⟨exec_offer_foreign h hshred hrun, fun hlow hhigh => ?_⟩
    have hdecline {r : DeclineReason} (hr : s.declineReason f n = some r) : declines r := by
      refine (exec_offer_declined h hshred hrun ⟨hlow, hhigh⟩ hr).trans ?_
      rw [s.placeHandoff_told 0 f n (s.told_startup ..) rfl rfl]
    refine ⟨fun hsilent => hdecline (if_pos hsilent), fun hheard hinert => ?_, fun hheard hinert => ⟨fun hfire => ?_,
      fun hline => ⟨fun hheld => ?_, fun hheld => ⟨fun hbusy => ?_, fun hfree => ?_⟩⟩⟩⟩
    · refine hdecline ?_
      rw [State.declineReason, hheard, if_neg Bool.false_ne_true, if_pos hinert]
    · refine hdecline ?_
      rw [State.declineReason, hheard, if_neg Bool.false_ne_true, if_neg (not_not_intro hinert), if_pos hfire]
    · refine hdecline ?_
      rw [State.declineReason, hheard, if_neg Bool.false_ne_true, if_neg (not_not_intro hinert), hline,
        if_neg Bool.false_ne_true, if_pos hheld]
    · refine hdecline ?_
      rw [State.declineReason, hheard, if_neg Bool.false_ne_true, if_neg (not_not_intro hinert), hline,
        if_neg Bool.false_ne_true, hheld, if_neg Bool.false_ne_true, if_pos (Option.isSome_iff_ne_none.2 hbusy)]
    · have htakes : s.TakesOffers := ⟨hheard, hinert, hline, hheld, hfree⟩
      have hreason := htakes.declineReason_eq f n
      have hqueued := State.queued_iff_of_free hfree f.tag
      refine ⟨fun hfull => hdecline (hreason.trans (if_pos hfull)), fun hroom => ⟨fun hdouble => hdecline ?_,
        fun hnew hpresent => hdecline ?_⟩⟩
      · rw [hreason, if_neg (by omega), if_pos (hqueued.2 hdouble)]
      · rw [hreason, if_neg (by omega), if_neg, if_pos hpresent]
        rw [hqueued]
        exact fun ⟨e, he, htag⟩ => hnew e he htag

/-- Settles O21: both ends drop the reservation (`dropReservation_eq`). -/
theorem reservationEnds : Obligations.ReservationEnds := by
  refine ⟨fun s f n b h hshred hrun => ?withdraw, fun s k htimer => ?expiry⟩
  case withdraw =>
    have hexec := exec_withdraw h hshred hrun
    refine ⟨_, hexec, fun e hreserved htag hsource => ?_, fun hother => ?_⟩
    · rw [if_pos ((s.reservedFor_iff _ _).2 ⟨e, hreserved, htag, hsource⟩)]
      have hfeed := s.told_feed 3 f n
      have hstarts := State.dropReservation_starts (s := s.told 3 f n)
      rw [hfeed] at hstarts
      rw [State.dropReservation_eq, hfeed, s.told_chute]
      exact ⟨rfl, rfl, hstarts, rfl⟩
    · rw [if_neg]
      rw [s.reservedFor_iff]
      exact fun ⟨e, hreserved, hmatch⟩ => hother e hreserved hmatch
  case expiry =>
    have hexec : exec .arrivalTimerExpiry s = .next (s.dropReservation.onT4
        (fun t => { t with arrivalMissed := bump t.arrivalMissed })) := congrArg _ (if_pos (by rw [htimer]; rfl))
    refine ⟨_, hexec, ?_⟩
    have hstarts := State.dropReservation_starts (s := s)
    rw [State.dropReservation_eq]
    exact ⟨rfl, rfl, hstarts, rfl⟩

/-- Settles O22: a reserved pack (`arrive_eq`), a stray, and the sensor. -/
theorem chuteArrival : Obligations.ChuteArrival := by
  refine fun s hshred hawake => ⟨fun hclear => ?_, fun hset => ?_, ?_⟩
  · have hexec : exec .chuteArrival s = .next s.arrival :=
      congrArg _ (if_pos (by rw [State.shredAwake, hshred, hawake, hclear]; rfl))
    rw [State.arrival] at hexec
    cases hreserved : s.chute.reservation with
    | some e =>
      rw [hreserved] at hexec
      dsimp only at hexec
      rw [State.arrive_eq] at hexec
      refine ⟨_, hexec, rfl, fun e' he' => ?_, nofun⟩
      obtain rfl := Option.some.inj he'
      refine ⟨rfl, rfl, rfl, ?_, fun k hk => ?_, ?_, rfl⟩
      · exact Vector.getElem_set_self e.source.isLt
      · exact Vector.getElem_set_ne e.source.isLt k.isLt (fun heq => hk (Fin.ext heq.symm))
      · rw [State.intake, State.intake, hreserved]
        simp
    | none =>
      rw [hreserved] at hexec
      dsimp only [State.stray] at hexec
      generalize hu : State.onT4 ({ s with chute := { s.chute with sensor := true } } : State) _ = u at hexec
      have hheld := s.addReason_held u .stray .stray .none none (by rw [← hu]; rfl) (by rw [← hu]; rfl)
        (by rw [← hu]; rfl) (by rw [← hu]; rfl) (by rw [← hu]; rfl)
      have hqueue := u.addReason_queue .stray .stray .none none
      have hrest := u.addReason_eq .stray .stray .none none
      generalize u.addReason .stray .stray .none none = t at *
      subst hu
      refine ⟨t, hexec, by rw [hrest]; rfl, nofun, fun _ => ⟨hheld, hqueue, by rw [hrest]; rfl, ?_⟩⟩
      rw [hrest]
      rfl
  · exact congrArg _ (if_neg (by rw [hset, Bool.not_true, Bool.and_false]; exact Bool.false_ne_true))
  · exact congrArg _ (if_pos (by rw [State.shredAwake, hshred, hawake]; rfl))

end Sys2Proof.Proofs
end

