-- ==== Sys2Proof/Proofs/HandoffBay.lean ====
section
/-! The bay side of a handoff: the four timers, the answers to an offer, and SETTLE. -/

namespace Sys2Proof.Machine

open Sys2Proof Sys2Proof.Config

variable {s t : State} {f : HandoffFrame} {n : NodeNo} {b : BayNo} {message : Byte}

/-- What the bay table of a state with one bay changed shows. -/
theorem State.bays_of_setBay {x : Bay} (h : t.bays = (s.setBay b x).bays) : t.bay b = x ∧ s.OthersStay t b := by
  have hbay (k : BayNo) : t.bay k = (s.setBay b x).bay k := by rw [State.bay, h, State.bay]
  exact ⟨(hbay b).trans (s.setBay_bay_self b x), fun k hk => (hbay k).trans (s.setBay_bay_ne b k x hk)⟩

/-- Nothing differs in the bay table. -/
theorem State.othersStay_of_bays (h : t.bays = s.bays) : s.OthersStay t b := fun k _ => by rw [State.bay, h, State.bay]

/-! ### The timers -/

/-- A release has jammed (R69, R163). -/
theorem State.jam_eq (s : State) (b : BayNo) (n : NodeNo) (r : Record) : s.jam b n r = { s with
    bays := (s.setBay b { (s.bay b).backToSafe r with jammed := true }).bays
    latch := (s.raise .jam (.bay b.val) (some r.tag)).latch
    link := { s.link with fifo := s.fifoWith (plainHandoff .withdraw n r.tag b) }
    tally := { s.tally with t3 := { s.tally.t3 with jams := bump s.tally.t3.jams }, t6 := s.t6With } } := by
  rw [State.jam, State.placeHandoff_eq s]
  all_goals rfl

/-- A release with settle_early has ended by its timer (R72). -/
theorem State.stick_eq (s : State) (b : BayNo) (r : Record) : s.stick b r = { s with
    bays := (s.setBay b { (s.bay b).vacate with stuck := true }).bays
    latch := (s.raise .sensorStuck (.bay b.val) (some r.tag)).latch
    tally := { s.tally with t1 := { s.tally.t1 with settled := bump s.tally.t1.settled } } } := by
  have hbay : (s.settle b).bay b = (s.bay b).vacate := s.setBay_bay_self b _
  have hbays : ((s.settle b).setBay b { (s.bay b).vacate with stuck := true }).bays =
      (s.setBay b { (s.bay b).vacate with stuck := true }).bays := by
    change ((s.setBay b (s.bay b).vacate).setBay b _).bays = _
    rw [State.setBay_setBay]
  rw [State.stick, hbay, ← hbays]
  rfl

/-- A pack is not confirmed in time (R70). -/
theorem State.loseTransit_eq (s : State) (b : BayNo) (n : NodeNo) (r : Record) : s.loseTransit b n r = { s with
    bays := (s.setBay b (s.bay b).vacate).bays
    unaccounted := s.unaccounted ++ [{ tag := r.tag, bay := b, shred := n, time := s.startup.nodeTime }]
    latch := if s.unaccounted.isEmpty then (s.raise .transitLost (.bay b.val) (some r.tag)).latch else s.latch
    tally := { s.tally with t3 := { s.tally.t3 with transitLost := bump s.tally.t3.transitLost } } } := by
  unfold State.loseTransit
  dsimp only
  split <;> rfl

/-! ### The answers to an offer -/

/-- The bay offers the pack `tag` to node `n` (R67, R68). -/
def Bay.offersTo (x : Bay) (tag : Tag) (n : NodeNo) : Prop := ∃ r : Record, x.slot = .pack (.offered n) r ∧ r.tag = tag

theorem exec_take_offered (h : s.HearsHandoff 1 f n b) (hbay : s.isBay = true) (hrun : s.startup.life = .running)
    {r : Record} (hslot : (s.bay b).slot = .pack (.offered n) r) (htag : r.tag = f.tag) :
    exec (.takeReceived f) s = .next (if s.lineClear && !r.fireExposed then ((s.told 1 f n).release b n r).light
      else (((s.told 1 f n).setBay b ((s.bay b).backToSafe r)).placeHandoff (plainHandoff .withdraw n f.tag b)).light) := by
  refine (congrArg _ (State.receiveHandoff_of_hears h _)).trans ?_
  rw [State.takeTaken, State.told_isBay, State.told_running, hbay, State.running, hrun, State.told_bay, hslot,
    State.told_lineClear]
  have hmatch : n = n ∧ r.tag = f.tag := ⟨rfl, htag⟩
  exact congrArg Host.Outcome.next (if_pos hmatch)

theorem exec_take_other (h : s.HearsHandoff 1 f n b) (hbay : s.isBay = true) (hrun : s.startup.life = .running)
    (hother : ¬ (s.bay b).offersTo f.tag n) :
    exec (.takeReceived f) s = .next ((s.told 1 f n).placeHandoff (plainHandoff .withdraw n f.tag b)) := by
  refine (congrArg _ (State.receiveHandoff_of_hears h _)).trans ?_
  rw [State.takeTaken, State.told_isBay, State.told_running, hbay, State.running, hrun, State.told_bay]
  refine congrArg Host.Outcome.next ?_
  refine (if_neg (by decide)).trans ?_
  dsimp only
  split
  · next m r hslot => exact if_neg fun hm : m = n ∧ r.tag = f.tag => hother ⟨r, hm.1 ▸ hslot, hm.2⟩
  · rfl

theorem exec_decline_offered (h : s.HearsHandoff 2 f n b) (hbay : s.isBay = true) (hrun : s.startup.life = .running)
    {r : Record} (hslot : (s.bay b).slot = .pack (.offered n) r) (htag : r.tag = f.tag) :
    exec (.declineReceived f) s = .next (((s.told 2 f n).setBay b ((s.bay b).backToSafe r)).onT3
      (fun t => { t with declines := bump t.declines })).light := by
  refine (congrArg _ (State.receiveHandoff_of_hears h _)).trans ?_
  rw [State.takeDecline, State.told_isBay, State.told_running, hbay, State.running, hrun, State.told_bay, hslot]
  have hmatch : n = n ∧ r.tag = f.tag := ⟨rfl, htag⟩
  exact congrArg Host.Outcome.next (if_pos hmatch)

theorem exec_decline_other (h : s.HearsHandoff 2 f n b) (hbay : s.isBay = true) (hrun : s.startup.life = .running)
    (hother : ¬ (s.bay b).offersTo f.tag n) : exec (.declineReceived f) s = .next (s.told 2 f n).countForeign := by
  refine (congrArg _ (State.receiveHandoff_of_hears h _)).trans ?_
  rw [State.takeDecline, State.told_isBay, State.told_running, hbay, State.running, hrun, State.told_bay]
  refine congrArg Host.Outcome.next ?_
  refine (if_neg (by decide)).trans ?_
  split
  · next m r hslot => exact if_neg fun hm : m = n ∧ r.tag = f.tag => hother ⟨r, hm.1 ▸ hslot, hm.2⟩
  · rfl

/-- A bay of the state in which a HANDOFF is taken changes (R63). -/
theorem State.bays_of_told {x : Bay} (h : t.bays = ((s.told message f n).setBay b x).bays) :
    t.bay b = x ∧ s.OthersStay t b :=
  State.bays_of_setBay (h.trans (by rw [State.setBay, State.told_bays]; rfl))

/-! ### SETTLE -/

theorem Bay.settles_iff (x : Bay) (tag : Tag) (n : NodeNo) : x.settles tag n = true ↔
    ∃ r : Record, x.slot = .pack (.inTransit n) r ∧ r.tag = tag := by
  unfold Bay.settles
  split
  · next m r hslot => rw [decide_eq_true_eq, hslot]; aesop
  · next hno => exact ⟨nofun, fun ⟨r, hslot, _⟩ => absurd hslot (hno n r)⟩

theorem Bay.settlesEarly_iff (x : Bay) (tag : Tag) (n : NodeNo) : x.settlesEarly tag n = true ↔
    ∃ r : Record, x.slot = .pack (.releasing n) r ∧ r.tag = tag ∧ r.settleEarly = false := by
  unfold Bay.settlesEarly
  split
  · next m r hslot => rw [Bool.and_eq_true, decide_eq_true_eq, Bool.not_eq_true', hslot]; aesop
  · next hno => exact ⟨nofun, fun ⟨r, hslot, _⟩ => absurd hslot (hno n r)⟩

end Sys2Proof.Machine

namespace Sys2Proof.Proofs

open Sys2Proof Sys2Proof.Machine Sys2Proof.Config

/-- Settles O17: each timer by the state it times. -/
theorem handoffTimersExpire : Obligations.HandoffTimersExpire := by
  refine ⟨fun s b k n r htimer hslot => ?answer, fun s b => ?backoff, fun s b k n r htimer hslot => ?release,
    fun s b k n r htimer hslot => ?transit⟩
  case answer =>
    have hexec : exec (.answerTimerExpiry b) s = .next (s.answerExpires b) :=
      congrArg Host.Outcome.next (if_pos (by rw [htimer]; rfl))
    rw [State.answerExpires, hslot] at hexec
    obtain ⟨hbay, hothers⟩ := State.bays_of_setBay
      (t := (s.setBay b ((s.bay b).backToSafe r)).light) (State.light_bays _)
    refine ⟨_, hexec, ?_, ?_, ?_, ?_, hothers, rfl⟩
    all_goals
      rw [hbay]
      rfl
  case backoff =>
    obtain ⟨hbay, hothers⟩ := State.bays_of_setBay (t := s.setBay b { s.bay b with backoff := none }) rfl
    exact ⟨_, rfl, hbay, hothers, rfl⟩
  case release =>
    have hexec : exec (.releaseTimerExpiry b) s = .next (s.releaseExpires b) :=
      congrArg Host.Outcome.next (if_pos (by rw [htimer]; rfl))
    rw [State.releaseExpires, hslot] at hexec
    dsimp only at hexec
    by_cases hearly : r.settleEarly = true
    case neg =>
      rw [if_neg hearly] at hexec
      have heq := s.jam_eq b n r
      generalize s.jam b n r = u at hexec heq
      have hraised := s.raise_raised s rfl rfl rfl .jam (.bay b.val) (some r.tag)
      obtain ⟨hbay, hothers⟩ := State.bays_of_setBay (t := u.light) ((State.light_bays u).trans (by rw [heq]))
      refine ⟨_, hexec, by rw [hbay]; rfl, by rw [hbay]; rfl, hothers, fun _ => ⟨by rw [hbay]; rfl, by rw [hbay]; rfl,
        by rw [hbay], ?_, by rw [State.light_link, heq], by rw [State.light_tally, heq]; rfl⟩,
        fun h => absurd h hearly, by rw [heq]; rfl⟩
      exact hraised.onto (by rw [State.light_latch, heq])
    case pos =>
      rw [if_pos hearly] at hexec
      have heq := s.stick_eq b r
      generalize s.stick b r = u at hexec heq
      have hraised := s.raise_raised s rfl rfl rfl .sensorStuck (.bay b.val) (some r.tag)
      obtain ⟨hbay, hothers⟩ := State.bays_of_setBay (t := u.light) ((State.light_bays u).trans (by rw [heq]))
      refine ⟨_, hexec, by rw [hbay]; rfl, by rw [hbay]; rfl, hothers, fun h => absurd hearly (by rw [h]; nofun),
        fun _ => ⟨by rw [hbay]; rfl, by rw [hbay], ?_, by rw [State.light_link, heq], by rw [State.light_tally, heq]; rfl⟩, by rw [heq]; rfl⟩
      exact hraised.onto (by rw [State.light_latch, heq])
  case transit =>
    have hexec : exec (.transitTimerExpiry b) s = .next (s.transitExpires b) :=
      congrArg Host.Outcome.next (if_pos (by rw [htimer]; rfl))
    rw [State.transitExpires, hslot] at hexec
    dsimp only at hexec
    have heq := s.loseTransit_eq b n r
    generalize s.loseTransit b n r = u at hexec heq
    have hraised := s.raise_raised s rfl rfl rfl .transitLost (.bay b.val) (some r.tag)
    obtain ⟨hbay, hothers⟩ := State.bays_of_setBay (t := u.light) ((State.light_bays u).trans (by rw [heq]))
    refine ⟨_, hexec, by rw [hbay]; rfl, by rw [hbay]; rfl, hothers, by rw [State.light_unaccounted, heq],
      by rw [State.light_tally, heq]; rfl, fun hempty => ?_, fun hsome => ?_, by rw [heq]; rfl⟩
    · refine hraised.onto ?_
      rw [State.light_latch, heq, hempty]
      rfl
    · rw [State.light_latch, heq]
      exact if_neg (by rw [List.isEmpty_iff]; exact hsome)

/-- Settles O18: a TAKE and a DECLINE, each by whether the bay offers that pack to that node. -/
theorem answersToAnOffer : Obligations.AnswersToAnOffer := by
  refine ⟨fun s f n b h hbay hrun => ?take, fun s f n b h hbay hrun => ?decline⟩
  case take =>
    have hinj {r r' : Record} (hr : (s.bay b).slot = .pack (.offered n) r) (hr' : (s.bay b).slot = .pack (.offered n) r') :
        r' = r := by
      rw [hr] at hr'
      exact (Slot.pack.inj hr').2.symm
    by_cases hoffered : (s.bay b).offersTo f.tag n
    · obtain ⟨r, hslot, htag⟩ := hoffered
      have hexec := exec_take_offered h hbay hrun hslot htag
      by_cases hgo : (s.lineClear && !r.fireExposed) = true
      · rw [if_pos hgo] at hexec
        rw [Bool.and_eq_true, Bool.not_eq_true'] at hgo
        obtain ⟨hat, hothers⟩ := State.bays_of_told (t := ((s.told 1 f n).release b n r).light) (State.light_bays _)
        rw [State.told_bay] at hat
        refine ⟨_, hexec, fun r' hr' _ _ _ => ?_, fun r' hr' _ hno => ?_, fun hno => absurd htag (hno r hslot), hothers,
          rfl⟩
        · obtain rfl := hinj hslot hr'
          rw [hat]
          exact ⟨rfl, rfl, rfl, rfl, rfl, rfl⟩
        · obtain rfl := hinj hslot hr'
          rw [hgo.1, hgo.2] at hno
          exact absurd hno (by decide)
      · rw [if_neg hgo] at hexec
        have heq := s.placeHandoff_told 1 f n (u := (s.told 1 f n).setBay b ((s.bay b).backToSafe r))
          (s.told_startup 1 f n) rfl rfl (plainHandoff .withdraw n f.tag b)
        generalize State.placeHandoff _ _ = v at heq hexec
        obtain ⟨hat, hothers⟩ := State.bays_of_told (s := s) (t := v.light) ((State.light_bays v).trans (by rw [heq]))
        refine ⟨_, hexec, fun r' hr' _ hclear hsafe => ?_, fun r' hr' _ _ => ?_, fun hno => absurd htag (hno r hslot),
          hothers, by rw [heq]; rfl⟩
        · obtain rfl := hinj hslot hr'
          rw [hclear, hsafe] at hgo
          exact absurd rfl hgo
        · obtain rfl := hinj hslot hr'
          rw [hat, State.light_link, State.light_tally, heq]
          exact ⟨rfl, rfl, rfl, rfl, rfl, rfl⟩
    · have hexec := exec_take_other h hbay hrun hoffered
      have heq := s.placeHandoff_told 1 f n (u := s.told 1 f n) (s.told_startup 1 f n) rfl rfl
        (plainHandoff .withdraw n f.tag b)
      generalize State.placeHandoff _ _ = v at heq hexec
      have hbays : v.bays = s.bays := by rw [heq, ← s.told_bays 1 f n]
      refine ⟨_, hexec, fun r hslot htag => absurd ⟨r, hslot, htag⟩ hoffered,
        fun r hslot htag => absurd ⟨r, hslot, htag⟩ hoffered, fun _ => ⟨hbays, by rw [heq], by rw [heq]⟩,
        State.othersStay_of_bays hbays, by rw [heq]⟩
  case decline =>
    by_cases hoffered : (s.bay b).offersTo f.tag n
    · obtain ⟨r, hslot, htag⟩ := hoffered
      have hexec := exec_decline_offered h hbay hrun hslot htag
      obtain ⟨hat, hothers⟩ := State.bays_of_told (s := s) (t := (((s.told 2 f n).setBay b ((s.bay b).backToSafe r)).onT3
        (fun t => { t with declines := bump t.declines })).light) (State.light_bays _)
      refine ⟨_, hexec, fun r' hr' _ => ?_, fun hno => absurd htag (hno r hslot)⟩
      rw [hslot] at hr'
      obtain rfl := (Slot.pack.inj hr').2
      rw [hat]
      exact ⟨rfl, rfl, rfl, hothers, rfl, rfl⟩
    · exact ⟨_, exec_decline_other h hbay hrun hoffered, fun r hslot htag => absurd ⟨r, hslot, htag⟩ hoffered,
        fun _ => rfl⟩

/-- Settles O19: the four places of the tag in their order. -/
theorem settleByWhereTheTagStands : Obligations.SettleByWhereTheTagStands := by
  intro s f n x h hbay
  generalize hu : s.told 4 f n = u
  have hexec : exec (.settleReceived f) s = .next (State.takeSettle f n x u) := by
    rw [← hu]
    exact congrArg _ (State.receiveHandoff_of_hears h _)
  have hk (k : BayNo) : u.bay k = s.bay k := by rw [← hu]; exact s.told_bay 4 f n k
  have hlow (p : Bay → Bool) : u.lowestBay p = s.lowestBay p := by
    rw [State.lowestBay, State.lowestBay]
    simp only [hk]
  have hlate : u.unaccounted = s.unaccounted := by rw [← hu]; exact s.told_unaccounted 4 f n
  have ht1 : u.tally.t1 = s.tally.t1 := by rw [← hu]; exact s.told_t1 4 f n
  have hbays : u.bays = s.bays := by rw [← hu]; exact s.told_bays 4 f n
  rw [State.takeSettle, ← hu, s.told_isBay, s.told_startup, hu, hbay, hlow, hlow, hlate] at hexec
  clear hu
  refine ⟨_, hexec, fun hlisten => ?listen, fun hlife => ?_⟩
  case listen => exact if_pos (by rw [hlisten]; rfl)
  rw [if_neg (by rw [decide_eq_false hlife]; decide)]
  have hinj {st : PackState} {k : BayNo} {r r' : Record} (hr : (s.bay k).slot = .pack st r)
      (hr' : (s.bay k).slot = .pack st r') : r' = r := by
    rw [hr] at hr'
    exact (Slot.pack.inj hr').2.symm
  refine ⟨fun b r hslot htag hfirst => ?arrived, fun l m e hlist hmatch hbefore hnone => ?late,
    fun b r hslot htag hearly hfirst hnone hno => ?early, fun hnone hno => ?foreign⟩
  case arrived =>
    rw [(s.lowestBay_eq_some_iff _ b).2 ⟨((s.bay b).settles_iff _ _).2 ⟨r, hslot, htag⟩, hfirst⟩]
    dsimp only
    have hset : (u.settle b).light.bays = (s.setBay b (s.bay b).vacate).bays := by
      rw [State.light_bays, State.settle, hk]
      change (u.setBay b _).bays = _
      rw [State.setBay, hbays]
      rfl
    obtain ⟨hat, hothers⟩ := State.bays_of_setBay hset
    refine ⟨by rw [hat]; rfl, by rw [hat]; rfl, hothers, ?_⟩
    rw [← ht1]
    rfl
  case late =>
    have hfind : (l ++ e :: m).findIdx? (fun e => decide (e.tag = f.tag ∧ e.shred = n)) = some l.length :=
      findIdx?_append_cons m (fun i hi => decide_eq_false (hbefore i hi)) (decide_eq_true hmatch)
    rw [(s.lowestBay_eq_none_iff _).2 hnone, hlist, hfind]
    dsimp only
    rw [State.settleLate, hlate, hlist, eraseIdx_append_cons, ← ht1]
    rfl
  case early =>
    have hbayEarly := ((s.bay b).settlesEarly_iff _ _).2 ⟨r, hslot, htag, hearly⟩
    rw [(s.lowestBay_eq_none_iff _).2 hnone, List.findIdx?_eq_none_iff.2 (fun i hi => decide_eq_false (hno i hi)),
      (s.lowestBay_eq_some_iff _ b).2 ⟨hbayEarly, hfirst⟩]
    dsimp only
    have hnew : (u.bay b).settleEarly =
        { s.bay b with slot := .pack (.releasing n) { r with settleEarly := true }, gate := false } := by
      rw [hk, Bay.settleEarly, hslot]
    rw [hnew]
    obtain ⟨hat, hothers⟩ := State.bays_of_setBay (s := s) (b := b) (t := u.setBay b { s.bay b with
      slot := .pack (.releasing n) { r with settleEarly := true }, gate := false }) (by
        rw [State.setBay, hbays]
        rfl)
    exact ⟨hat, hothers, rfl⟩
  case foreign =>
    rw [(s.lowestBay_eq_none_iff _).2 (fun k => (hnone k).1),
      List.findIdx?_eq_none_iff.2 (fun i hi => decide_eq_false (hno i hi)),
      (s.lowestBay_eq_none_iff _).2 (fun k => (hnone k).2)]

end Sys2Proof.Proofs
end

