-- ==== Sys2Proof/Proofs/Conversion.lean ====
section
/-! A conversion of a bay: what it reads, the start check and the hold evaluation, the discharge sample, and the test at
the end of a rest. -/

namespace Sys2Proof.Machine

open Sys2Proof Sys2Proof.Config

/-! ### What a conversion reads -/

theorem judgeBay_t (x : BayReading) : (judgeBay x).t = x.t.filter (fun c => decide (-40 ≤ c ∧ c ≤ 150)) := by
  unfold judgeBay
  cases x.t with
  | none => rfl
  | some c => simp [Option.filter]

/-- All three readings are valid (R21). -/
theorem judgeBay_of_valid {x : BayReading} {c : Int} (hv : x.v ≤ 12000) (hi : x.i ≤ 6000) (ht : x.t = some c)
    (hlow : -40 ≤ c) (hhigh : c ≤ 150) :
    judgeBay x = { presence := x.presence, v := some x.v, i := some x.i, t := some c } := by
  simp [judgeBay, ht, vLimit, iLimit, hv, hi, hlow, hhigh]

/-- A conversion is valid (R21). -/
theorem judgeBay_valid_iff (x : BayReading) : (judgeBay x).valid = true ↔
    x.v ≤ 12000 ∧ x.i ≤ 6000 ∧ x.t.filter (fun c => decide (-40 ≤ c ∧ c ≤ 150)) ≠ none := by
  rw [← judgeBay_t, Readings.valid, Bool.and_eq_true, Bool.and_eq_true, Option.isSome_iff_ne_none (o := (judgeBay x).t),
    and_assoc]
  refine and_congr ?_ (and_congr ?_ Iff.rfl)
  · by_cases h : x.v ≤ 12000 <;> simp [judgeBay, vLimit, h]
  · by_cases h : x.i ≤ 6000 <;> simp [judgeBay, iLimit, h]

theorem filter_ne_none_iff (t : Option Int) : t.filter (fun c => decide (-40 ≤ c ∧ c ≤ 150)) ≠ none ↔
    ∃ c : Int, t = some c ∧ -40 ≤ c ∧ c ≤ 150 := by
  cases t with
  | none => simp
  | some c => simp [Option.filter]

/-- The thermal flag after a conversion (R23). -/
theorem thermalNext_iff (p : Profile) (t : Option Int) (flag : Bool) : thermalNext p t flag = true ↔
    (∃ c : Int, t = some c ∧ p.tStop ≤ c) ∨ (flag = true ∧ ∀ c : Int, t = some c → p.tDerate < c) := by
  cases t with
  | none => simp [thermalNext]
  | some c =>
    by_cases hstop : p.tStop ≤ c
    · simp [thermalNext, hstop]
    · by_cases hcool : c ≤ p.tDerate
      · simp [thermalNext, hstop, hcool]
      · simp [thermalNext, hstop, not_le.1 hcool]

/-- The measurement fields after a conversion (R22). -/
theorem Record.measure_judgeBay (r : Record) (x : BayReading) : r.measure (judgeBay x) =
    let temp : Option Int := x.t.filter (fun c => decide (-40 ≤ c ∧ c ≤ 150))
    { r with
      lastV := if x.v ≤ 12000 then x.v else r.lastV, lastI := if x.i ≤ 6000 then x.i else r.lastI
      lastT := temp.getD r.lastT, peakT := (temp.map (max r.peakT)).getD r.peakT } := by
  dsimp only
  rw [← judgeBay_t, Record.measure]
  congr 1
  · change (if x.v ≤ 12000 then some x.v else none).getD r.lastV = _
    split <;> rfl
  · change (if x.i ≤ 6000 then some x.i else none).getD r.lastI = _
    split <;> rfl
  · cases (judgeBay x).t <;> rfl

/-- The bay with the readings of a conversion (R20, R21). -/
def Bay.judged (y : Bay) (x : BayReading) : Bay :=
  { y with latest := judgeBay x, convTimer := some fastPeriod, product := 0 }

/-- The bay with the readings, and measured by them (R20 to R23). -/
def Bay.read (y : Bay) (p : Profile) (x : BayReading) : Bay := (y.judged x).measure p

/-- A bay that holds a record, with the readings. -/
theorem Bay.read_slot {y : Bay} {st : PackState} {r : Record} (h : y.slot = .pack st r) (p : Profile) (x : BayReading) :
    (y.read p x).slot = .pack st (r.measure (judgeBay x)) := by
  rw [Bay.read, Bay.measure]
  dsimp only [Bay.judged]
  rw [h]
  rfl

theorem Bay.read_thermal_iff (y : Bay) (p : Profile) (x : BayReading) : (y.read p x).thermal = true ↔
    (∃ c : Int, x.t.filter (fun c => decide (-40 ≤ c ∧ c ≤ 150)) = some c ∧ p.tStop ≤ c) ∨
      (y.thermal = true ∧ ∀ c : Int, x.t.filter (fun c => decide (-40 ≤ c ∧ c ≤ 150)) = some c → p.tDerate < c) := by
  rw [← judgeBay_t]
  exact thermalNext_iff p (judgeBay x).t y.thermal

/-! ### The course of a conversion -/

/-- From `s` to `u` the bay `b` became `y`, with an effect on the latch. -/
structure State.Reads (s u : State) (b : BayNo) (y : Bay) : Prop where
  bays : u.bays = (s.setBay b y).bays
  rest : u = { s with bays := u.bays, latch := u.latch }

/-- From `s` by way of `u` to `t` the bay `b` became `y`, with this fault record and these tallies. -/
structure State.Becomes (s u t : State) (b : BayNo) (y : Bay) (faults : FaultRecord) (tally : Tally) : Prop where
  bay : t.bay b = y
  others : s.OthersStay t b
  rest : t = { s with bays := t.bays, latch := u.latch, faults := faults, tally := tally, lamps := t.lamps }

variable {s u : State} {b : BayNo} {y z : Bay}

theorem State.Reads.bay (h : s.Reads u b y) : u.bay b = y := (State.bays_of_setBay h.bays).1

theorem State.Reads.setBay (h : s.Reads u b y) (z : Bay) : s.Reads (u.setBay b z) b z where
  bays := by
    change (u.bays.set b.val z b.isLt) = s.bays.set b.val z b.isLt
    rw [h.bays]
    exact Vector.set_set ..
  rest := by
    rw [h.rest]
    rfl

/-- A raise of BAY_OVERHEAT reaches the latch only (R47). -/
theorem State.Reads.heats (h : s.Reads u b y) (before : Bool) : s.Reads (u.raiseHeat before b) b y := by
  have hheat := u.raiseHeat_eq before b
  generalize u.raiseHeat before b = v at hheat ⊢
  refine ⟨?_, ?_⟩
  · rw [hheat]
    exact h.bays
  · rw [hheat, h.rest]

theorem State.Reads.lineClear (h : s.Reads u b y) : u.lineClear = s.lineClear := by
  rw [h.rest]
  rfl

theorem State.Reads.profile (h : s.Reads u b y) : u.profile = s.profile := by
  rw [h.rest]
  rfl

/-- The lamps follow at the end. -/
theorem State.becomes_light {v : State} {faults : FaultRecord} {tally : Tally} (hbays : v.bays = (s.setBay b z).bays)
    (hrest : v = { s with bays := v.bays, latch := u.latch, faults := faults, tally := tally }) :
    s.Becomes u v.light b z faults tally := by
  obtain ⟨hbay, hothers⟩ := State.bays_of_setBay (t := v.light) ((State.light_bays v).trans hbays)
  refine ⟨hbay, hothers, ?_⟩
  rw [hrest]
  rfl

theorem State.Reads.stays (h : s.Reads u b y) : s.Becomes u u.light b y s.faults s.tally :=
  State.becomes_light h.bays h.rest

theorem State.Reads.becomes (h : s.Reads u b y) (z : Bay) : s.Becomes u (u.setBay b z).light b z s.faults s.tally :=
  State.becomes_light (h.setBay z).bays (h.setBay z).rest

theorem State.Reads.rejects (h : s.Reads u b y) (r : Record) (c : EndCause) :
    s.Becomes u (u.reject b r c).light b (y.enter .rejected { r with endCause := some c }) s.faults
      { s.tally with t1 := { s.tally.t1 with rejected := bump s.tally.t1.rejected } } := by
  rw [State.reject, h.bay]
  refine State.becomes_light (h.setBay _).bays ?_
  rw [h.rest]
  rfl

theorem State.Reads.faults (h : s.Reads u b y) (r : Record) (c : FaultCause) :
    s.Becomes u (u.holdFault b r c).light b (y.enter (.held .fault) r) (s.faultsAfter [(c, .bay b.val, some r.tag)])
      s.tally := by
  have henter := s.enterFault_faultsAfter (u.setBay b (y.enter (.held .fault) r)) (by rw [h.rest]; rfl)
    (by rw [h.rest]; rfl) c (.bay b.val) (some r.tag)
  rw [State.holdFault, h.bay]
  refine State.becomes_light (h.setBay _).bays ?_
  rw [← henter, h.rest]
  rfl

/-- The state of a conversion before the regulator acts (R20). -/
def State.sensed (s : State) (b : BayNo) (x : BayReading) : State :=
  ((s.setBay b ((s.bay b).judged x)).presenceStep b).measureStep b (s.condition .bayOverheat)

theorem exec_conversion (h : (s.bay b).convTimer.isSome = true) (x : BayReading) :
    exec (.bayConversion b x) s = .next ((s.sensed b x).regulate b).light := congrArg Host.Outcome.next (if_pos h)

theorem State.presenceStep_of_set (h : (u.bay b).latest.presence = true) : u.presenceStep b = u := if_pos h

/-- With presence set the readings are all that changes before the regulator acts (R8, R20). -/
theorem State.sensed_reads (s : State) (b : BayNo) {x : BayReading} (h : x.presence = true) :
    s.Reads (s.sensed b x) b ((s.bay b).read s.profile x) := by
  have hjudged : s.Reads (s.setBay b ((s.bay b).judged x)) b ((s.bay b).judged x) := ⟨rfl, rfl⟩
  have hset : ((s.setBay b ((s.bay b).judged x)).bay b).latest.presence = true := by rw [hjudged.bay]; exact h
  rw [State.sensed, State.presenceStep_of_set hset, State.measureStep, hjudged.bay, hjudged.profile]
  exact (hjudged.setBay _).heats _

/-! ### The regulator by the state of the bay (R20) -/

variable {r : Record}

theorem State.regulate_admitted (h : (u.bay b).slot = .pack .admitted r) : u.regulate b = u.startCheck b r := by
  rw [State.regulate, h]

theorem State.regulate_held {c : HoldCause} (h : (u.bay b).slot = .pack (.held c) r) :
    u.regulate b = u.holdCheck b c r := by rw [State.regulate, h]

theorem State.regulate_resting (h : (u.bay b).slot = .pack .resting r) : u.regulate b = u.restEnd b r := by
  rw [State.regulate, h]

theorem State.regulate_discharging (h : (u.bay b).slot = .pack .discharging r) : u.regulate b = u.sample b r := by
  rw [State.regulate, h]

/-- The regulator leaves every other state as it is (R20). -/
theorem State.regulate_idle (h : (u.bay b).slot = .empty ∨ (u.bay b).slot = .orphan ∨
    ∃ (st : PackState) (r : Record), (u.bay b).slot = .pack st r ∧
      (st = .safe ∨ (∃ n, st = .offered n ∨ st = .releasing n ∨ st = .inTransit n) ∨ st = .rejected ∨ st = .missing)) :
    u.regulate b = u := by
  rw [State.regulate]
  rcases h with h | h | ⟨st, r, h, rfl | ⟨n, rfl | rfl | rfl⟩ | rfl | rfl⟩
  all_goals rw [h]

theorem Bay.startOrHold_lineStop (y : Bay) (r : Record) : y.startOrHold false r = y.enter (.held .lineStop) r := rfl

theorem Bay.startOrHold_thermal (h : y.thermal = true) (r : Record) :
    y.startOrHold true r = y.enter (.held .thermal) r := by
  rw [Bay.startOrHold, h]
  rfl

theorem Bay.startOrHold_discharge (h : y.thermal = false) (r : Record) : y.startOrHold true r = y.discharge r := by
  rw [Bay.startOrHold, h]
  rfl

/-- The start check, and the hold evaluation, by the readings (R25, R41). -/
theorem State.Reads.startCheck (h : s.Reads u b y) (r : Record) :
    (y.latest.valid = true → s.Becomes u (u.startCheck b r).light b (y.startOrHold s.lineClear r) s.faults s.tally) ∧
    (y.latest.valid = false → s.Becomes u (u.startCheck b r).light b (y.enter (.held .fault) r)
      (s.faultsAfter [(.measurement, .bay b.val, some r.tag)]) s.tally) := by
  rw [State.startCheck, h.bay, h.lineClear]
  refine ⟨fun hvalid => ?_, fun hinvalid => ?_⟩
  · rw [if_pos hvalid]
    exact h.becomes _
  · rw [hinvalid, if_neg Bool.false_ne_true]
    exact h.faults r .measurement

/-! ### The discharge sample -/

/-- The deviation is not excessive (R28). -/
theorem deviates_eq_false_iff (i prev : Nat) : deviates i prev = false ↔
    i ≤ prev + (prev / 10 + 100) ∧ prev ≤ i + (prev / 10 + 100) := by
  rw [deviates, decide_eq_false_iff_not, absDiff]
  omega

/-- The deviation count stays below its bound (R28). -/
theorem deviationNext_lt_iff (i prev count : Nat) : deviationNext i prev count < 20 ↔
    (i ≤ prev + (prev / 10 + 100) ∧ prev ≤ i + (prev / 10 + 100)) ∨ count < 19 := by
  rw [← deviates_eq_false_iff, deviationNext]
  cases deviates i prev with
  | false => simp
  | true => simp; omega

/-- A sample without a valid reading (R28). -/
theorem State.sample_of_invalid {r : Record} (h : (u.bay b).latest.valid = false) :
    u.sample b r = u.holdFault b r .measurement := by
  unfold State.sample
  dsimp only
  split
  · next hv hi ht => rw [Readings.valid, hv, hi, ht] at h; exact absurd h nofun
  · rfl

/-- A sample with valid readings (R28). -/
theorem State.sample_of_valid {r : Record} {v i : Nat} {c : Int} (hv : y.latest.v = some v) (hi : y.latest.i = some i)
    (ht : y.latest.t = some c) (hy : u.bay b = y) :
    u.sample b r = if 20 ≤ deviationNext i y.prevSetpoint y.deviation then
      (u.setBay b { y with deviation := 20 }).holdFault b r .deviation
    else (u.setBay b { y with
      deviation := deviationNext i y.prevSetpoint y.deviation, product := v * i }).endOrCommand b (r.integrate v i) v c := by
  rw [State.sample, hy]
  dsimp only
  rw [hv, hi, ht]

theorem Record.chargeLimit_iff (r : Record) : r.chargeLimit = true ↔ ∃ k : Nat, r.capacity = some k ∧ k * 540000 ≤ r.q := by
  unfold Record.chargeLimit
  cases r.capacity <;> simp

theorem Record.timeUp_iff (r : Record) : r.timeUp = true ↔ r.timeLimit * 60000 ≤ r.dischargeMs := decide_eq_true_iff

/-- The endings of a sample, and the new setpoint, in their order (R31 to R36). -/
theorem State.Reads.endOrCommand (h : s.Reads u b y) (r : Record) (v : Nat) (c : Int) :
    (r.chargeLimit = true → s.Becomes u (u.endOrCommand b r v c).light b
      (y.enter .rejected { r with endCause := some .chargeLimit }) s.faults
      { s.tally with t1 := { s.tally.t1 with rejected := bump s.tally.t1.rejected } }) ∧
    (r.chargeLimit ≠ true → (r.timeUp = true → s.Becomes u (u.endOrCommand b r v c).light b
        (y.enter .rejected { r with endCause := some .timeLimit }) s.faults
        { s.tally with t1 := { s.tally.t1 with rejected := bump s.tally.t1.rejected } }) ∧
      (r.timeUp ≠ true → (v ≤ r.s * s.profile.safeCell →
          s.Becomes u (u.endOrCommand b r v c).light b (y.rest s.profile r v) s.faults s.tally) ∧
        (¬ v ≤ r.s * s.profile.safeCell → (s.profile.tStop ≤ c →
            s.Becomes u (u.endOrCommand b r v c).light b (y.enter (.held .thermal) r) s.faults s.tally) ∧
          (¬ s.profile.tStop ≤ c → s.Becomes u (u.endOrCommand b r v c).light b (y.command r
            (setpointNext (targetCurrent s.profile r.s v c y.share) y.prevSetpoint s.view.linePre)) s.faults s.tally)))) := by
  have hview : u.view = s.view := by rw [h.rest]
  rw [State.endOrCommand, h.profile, h.bay, hview]
  dsimp only
  refine ⟨fun hcharge => ?_, fun hcharge => ⟨fun htime => ?_, fun htime => ⟨fun hsafe => ?_, fun hsafe => ⟨fun hhot => ?_,
    fun hhot => ?_⟩⟩⟩⟩
  · rw [if_pos hcharge]
    exact h.rejects r .chargeLimit
  · rw [if_neg hcharge, if_pos htime]
    exact h.rejects r .timeLimit
  · rw [if_neg hcharge, if_neg htime, if_pos hsafe]
    exact h.becomes _
  · rw [if_neg hcharge, if_neg htime, if_neg hsafe, if_pos hhot]
    exact h.becomes _
  · rw [if_neg hcharge, if_neg htime, if_neg hsafe, if_neg hhot]
    exact h.becomes _

/-- A sample that passes stage 1: what it hands to the stages after it (R28 to R30). -/
theorem State.Reads.sample {x : BayReading} {r : Record} {c : Int} (h : s.Reads u b ((s.bay b).read s.profile x))
    (hslot : (s.bay b).slot = .pack .discharging r) (hx : judgeBay x =
      { presence := x.presence, v := some x.v, i := some x.i, t := some c })
    (hd : deviationNext x.i (s.bay b).prevSetpoint (s.bay b).deviation < 20) :
    ∃ v : State, s.Reads v b { (s.bay b).read s.profile x with
        deviation := deviationNext x.i (s.bay b).prevSetpoint (s.bay b).deviation, product := x.v * x.i } ∧
      u.regulate b = v.endOrCommand b ((r.measure (judgeBay x)).integrate x.v x.i) x.v c := by
  have hlatest : ((s.bay b).read s.profile x).latest = judgeBay x := rfl
  refine ⟨_, h.setBay _, ?_⟩
  rw [State.regulate_discharging (by rw [h.bay, Bay.read_slot hslot]),
    State.sample_of_valid (v := x.v) (i := x.i) (c := c) (by rw [hlatest, hx]) (by rw [hlatest, hx])
      (by rw [hlatest, hx]) h.bay]
  exact if_neg (Nat.not_le.2 hd)

/-! ### The end of a rest -/

/-- The rebound test (R45, R46). -/
theorem State.Reads.rebounds (h : s.Reads u b y) (m : Record) (v : Nat) :
    (v ≤ m.s * s.profile.reboundLimit → s.Becomes u (u.rebound b m v).light b
      (y.enter .safe { m with reboundV := some v }) s.faults { s.tally with t2 := s.tally.t2.add m }) ∧
    (¬ v ≤ m.s * s.profile.reboundLimit →
      (m.round < s.profile.maxRounds → s.Becomes u (u.rebound b m v).light b
        (y.startOrHold s.lineClear { m with reboundV := some v, round := m.round + 1 }) s.faults s.tally) ∧
      (¬ m.round < s.profile.maxRounds → s.Becomes u (u.rebound b m v).light b
        (y.enter .rejected { m with reboundV := some v, endCause := some .rebound }) s.faults
        { s.tally with t1 := { s.tally.t1 with rejected := bump s.tally.t1.rejected } })) := by
  rw [State.rebound, h.profile, h.bay, h.lineClear]
  dsimp only
  refine ⟨fun hsafe => ?_, fun hsafe => ⟨fun hround => ?_, fun hround => ?_⟩⟩
  · rw [if_pos hsafe]
    refine State.becomes_light (h.setBay _).bays ?_
    rw [h.rest]
    rfl
  · rw [if_neg hsafe, if_pos hround]
    exact h.becomes _
  · rw [if_neg hsafe, if_neg hround]
    exact h.rejects _ .rebound

/-- Whatever the test yields, the bay, the tallies and the lamps are all that changes (R45, R46). -/
theorem State.Reads.rebound_becomes (h : s.Reads u b y) (m : Record) (v : Nat) :
    ∃ (z : Bay) (tally : Tally), s.Becomes u (u.rebound b m v).light b z s.faults tally := by
  obtain ⟨hsafe, hlater⟩ := h.rebounds m v
  by_cases hlow : v ≤ m.s * s.profile.reboundLimit
  · exact ⟨_, _, hsafe hlow⟩
  · by_cases hround : m.round < s.profile.maxRounds
    · exact ⟨_, _, (hlater hlow).1 hround⟩
    · exact ⟨_, _, (hlater hlow).2 hround⟩

/-- The test is made where it is owed and the V is valid (R45). -/
theorem State.restEnd_made {m : Record} {v : Nat} (howed : (u.bay b).restOwed = true) (hv : (u.bay b).latest.v = some v) :
    u.restEnd b m = u.rebound b m v := by
  rw [State.restEnd, if_pos howed, hv]

theorem State.restEnd_waits {m : Record} (h : (u.bay b).restOwed = false ∨ (u.bay b).latest.v = none) :
    u.restEnd b m = u := by
  rw [State.restEnd]
  rcases h with h | h
  · rw [h, if_neg Bool.false_ne_true]
  · rw [h, ite_self]

end Sys2Proof.Machine

namespace Sys2Proof.Proofs

open Sys2Proof Sys2Proof.Machine Sys2Proof.Config

/-- Settles O7: the start check and the hold evaluation are one (`Reads.startCheck`), and a FAULT hold stays. -/
theorem startCheckAndHoldEvaluation : Obligations.StartCheckAndHoldEvaluation := by
  intro s b x r htimer hpresence temp m ok hot
  have hreads := s.sensed_reads b hpresence
  have hexec := exec_conversion htimer x
  have hm : m = r.measure (judgeBay x) := (r.measure_judgeBay x).symm
  have hok : ((s.bay b).read s.profile x).latest.valid = true ↔ ok := judgeBay_valid_iff x
  have hhot : ((s.bay b).read s.profile x).thermal = true ↔ hot := Bay.read_thermal_iff ..
  clear_value m ok hot temp
  generalize s.sensed b x = u at hreads hexec
  refine ⟨fun hslot => ?checked, fun hslot => ?held⟩
  case held =>
    have hread := Bay.read_slot hslot s.profile x
    have hregulate : u.regulate b = u := by
      rw [State.regulate_held (by rw [hreads.bay, hread])]
      exact if_pos rfl
    rw [hregulate] at hexec
    obtain ⟨hbay, hothers, hrest⟩ := hreads.stays
    refine ⟨_, hexec, ?_, ?_, ?_, ?_, ?_, ?_, by rw [hrest], by rw [hrest], hothers⟩
    · rw [hbay, hread, hm]
    all_goals rw [hbay]
    · rfl
    · rfl
    · rfl
    · rfl
    · exact hhot
  case checked =>
    have hregulate : u.regulate b = u.startCheck b m := by
      rw [hm]
      rcases hslot with hslot | hslot | hslot
      · rw [State.regulate_admitted (by rw [hreads.bay, Bay.read_slot hslot])]
      · rw [State.regulate_held (by rw [hreads.bay, Bay.read_slot hslot])]
        exact if_neg nofun
      · rw [State.regulate_held (by rw [hreads.bay, Bay.read_slot hslot])]
        exact if_neg nofun
    have htag : m.tag = r.tag := by rw [hm]; rfl
    rw [hregulate] at hexec
    obtain ⟨hstart, hfault⟩ := hreads.startCheck m
    generalize (u.startCheck b m).light = t at hexec hstart hfault
    generalize (s.bay b).read s.profile x = y at hstart hfault hhot hok
    by_cases hvalid : ok
    case neg =>
      obtain ⟨hbay, hothers, hrest⟩ := hfault (by rw [← Bool.not_eq_true, hok]; exact hvalid)
      refine ⟨t, hexec, fun _ => ⟨by rw [hbay]; rfl, by rw [hrest, htag]⟩, fun h => absurd h hvalid,
        fun h => absurd h hvalid, fun h => absurd h hvalid, ?_, by rw [hbay]; rfl, by rw [hbay]; exact hhot,
        fun h => absurd h hvalid, by rw [hrest], hothers⟩
      rw [hbay]
      exact ⟨nofun, fun h => absurd h.1 hvalid⟩
    obtain ⟨hbay, hothers, hrest⟩ := hstart (hok.2 hvalid)
    have hfaults : t.faults = s.faults := by rw [hrest]
    have htally : t.tally = s.tally := by rw [hrest]
    clear hrest
    cases hclear : s.lineClear with
    | false =>
      rw [hclear, Bay.startOrHold_lineStop] at hbay
      refine ⟨t, hexec, fun h => absurd hvalid h, fun _ _ => by rw [hbay]; rfl, fun _ => nofun, fun _ => nofun, ?_,
        by rw [hbay]; rfl, by rw [hbay]; exact hhot, fun _ => hfaults, htally, hothers⟩
      rw [hbay]
      exact ⟨nofun, fun h => absurd h.2.1 nofun⟩
    | true =>
      by_cases hwarm : hot
      · rw [hclear, Bay.startOrHold_thermal (hhot.2 hwarm)] at hbay
        refine ⟨t, hexec, fun h => absurd hvalid h, fun _ => nofun, fun _ _ _ => by rw [hbay]; rfl,
          fun _ _ h => absurd hwarm h, ?_, by rw [hbay]; rfl, by rw [hbay]; exact hhot, fun _ => hfaults, htally, hothers⟩
        rw [hbay]
        exact ⟨nofun, fun h => absurd hwarm h.2.2⟩
      · rw [hclear, Bay.startOrHold_discharge (by rw [← Bool.not_eq_true, hhot]; exact hwarm)] at hbay
        refine ⟨t, hexec, fun h => absurd hvalid h, fun _ => nofun, fun _ _ h => absurd h hwarm,
          fun _ _ _ => ⟨by rw [hbay]; rfl, by rw [hbay]; rfl, by rw [hbay]; rfl⟩, ?_, by rw [hbay]; rfl,
          by rw [hbay]; exact hhot, fun _ => hfaults, htally, hothers⟩
        rw [hbay]
        exact ⟨fun _ => ⟨hvalid, rfl, hwarm⟩, fun _ => rfl⟩

/-- Settles O8: a sample that no ending takes comes to the new setpoint. -/
theorem dischargeSampleSetsTheCurrent : Obligations.DischargeSampleSetsTheCurrent := by
  intro s b x r c htimer hpresence hslot hv hi ht hlow hhigh prev p follows hfollows hcharge htime hsafe hcool
    derate power least set
  have hx := judgeBay_of_valid hv hi ht hlow hhigh
  have hd := (deviationNext_lt_iff x.i (s.bay b).prevSetpoint (s.bay b).deviation).2 hfollows
  obtain ⟨u, hreads, hregulate⟩ := (s.sensed_reads b hpresence).sample hslot hx hd
  have hexec := exec_conversion htimer x
  rw [hregulate, hx] at hexec
  generalize hm : (r.measure _).integrate x.v x.i = m at hexec
  have hnotCharged : m.chargeLimit ≠ true := by
    rw [ne_eq, m.chargeLimit_iff, ← hm]
    rintro ⟨k, hk, hover⟩
    exact absurd hover (not_le.2 (hcharge k hk))
  have hnotTimed : m.timeUp ≠ true := by
    rw [ne_eq, m.timeUp_iff, ← hm]
    exact not_le.2 htime
  have hnotSafe : ¬ x.v ≤ m.s * s.profile.safeCell := by
    rw [← hm]
    exact not_le.2 hsafe
  obtain ⟨hbay, hothers, hrest⟩ := (((hreads.endOrCommand m x.v c).2 hnotCharged).2 hnotTimed |>.2 hnotSafe).2
    (not_le.2 hcool)
  refine ⟨_, hexec, ?_⟩
  generalize (u.endOrCommand b m x.v c).light = t at hbay hothers hrest ⊢
  rw [hbay, ← hm]
  refine ⟨rfl, rfl, rfl, rfl, rfl, fun h => if_neg (by rw [(deviates_eq_false_iff _ _).2 h]; nofun),
    fun h => if_pos (by rw [← Bool.not_eq_false, deviates_eq_false_iff]; exact h), rfl, ?_, ?_, hothers⟩
  · rw [hrest]
  · rw [hrest]

/-- Settles O9: the endings in their order (`Reads.endOrCommand`). -/
theorem dischargeSampleEndings : Obligations.DischargeSampleEndings := by
  intro s b x r c htimer hpresence hslot hv hi ht hlow hhigh prev p hfollows m charged timed safe hends
  have hx := judgeBay_of_valid hv hi ht hlow hhigh
  have hd := (deviationNext_lt_iff x.i (s.bay b).prevSetpoint (s.bay b).deviation).2 hfollows
  obtain ⟨u, hreads, hregulate⟩ := (s.sensed_reads b hpresence).sample hslot hx hd
  have hexec := exec_conversion htimer x
  rw [hregulate, hx] at hexec
  generalize hn : (r.measure _).integrate x.v x.i = n at hexec
  have hmn : { n with setpoint := 0 } = m := by rw [← hn]; rfl
  have hcharged : n.chargeLimit = true ↔ charged := by
    rw [n.chargeLimit_iff, ← hn]
    exact Iff.rfl
  have htimed : n.timeUp = true ↔ timed := by
    rw [n.timeUp_iff, ← hn]
    exact Iff.rfl
  have hsafe : x.v ≤ n.s * s.profile.safeCell ↔ safe := by
    rw [← hn]
    exact Iff.rfl
  obtain ⟨hcharge, hlater⟩ := hreads.endOrCommand n x.v c
  clear hn
  clear_value m charged timed safe
  refine ⟨_, hexec, ?_⟩
  generalize (u.endOrCommand b n x.v c).light = t at hcharge hlater ⊢
  subst hmn
  by_cases h1 : charged
  · obtain ⟨hbay, hothers, hrest⟩ := hcharge (hcharged.2 h1)
    rw [hbay]
    exact ⟨fun _ => rfl, fun h => absurd h1 h, fun _ => by rw [hrest]; rfl, fun h => absurd h1 h, fun h => absurd h1 h,
      fun h => absurd h1 h, rfl, rfl, rfl, rfl, rfl, by rw [hrest], hothers⟩
  obtain ⟨htime, hlater⟩ := hlater (mt hcharged.1 h1)
  by_cases h2 : timed
  · obtain ⟨hbay, hothers, hrest⟩ := htime (htimed.2 h2)
    rw [hbay]
    exact ⟨fun h => absurd h h1, fun _ _ => rfl, fun _ => by rw [hrest]; rfl, fun _ h => absurd h2 h,
      fun _ h => absurd h2 h, fun _ h => absurd h2 h, rfl, rfl, rfl, rfl, rfl, by rw [hrest], hothers⟩
  obtain ⟨hrests, hlater⟩ := hlater (mt htimed.1 h2)
  by_cases h3 : safe
  · obtain ⟨hbay, hothers, hrest⟩ := hrests (hsafe.2 h3)
    rw [hbay]
    exact ⟨fun h => absurd h h1, fun _ h => absurd h h2, fun h => h.elim (absurd · h1) (absurd · h2),
      fun _ _ _ => ⟨rfl, rfl, rfl⟩, fun _ _ h => absurd h3 h, fun _ _ => by rw [hrest], rfl, rfl, rfl, rfl, rfl,
      by rw [hrest], hothers⟩
  · have hstop := ((hends.resolve_left h1).resolve_left h2).resolve_left h3
    obtain ⟨hbay, hothers, hrest⟩ := (hlater (mt hsafe.1 h3)).1 hstop
    rw [hbay]
    exact ⟨fun h => absurd h h1, fun _ h => absurd h h2, fun h => h.elim (absurd · h1) (absurd · h2),
      fun _ _ h => absurd h h3, fun _ _ _ => rfl, fun _ _ => by rw [hrest], rfl, rfl, rfl, rfl, rfl, by rw [hrest],
      hothers⟩

/-- Settles O10: stage 1 ends the sample by a reading, or by the deviation count. -/
theorem dischargeSampleFaults : Obligations.DischargeSampleFaults := by
  intro s b x r htimer hpresence hslot prev invalid deviates hends
  have hreads := s.sensed_reads b hpresence
  have hexec := exec_conversion htimer x
  have hread := Bay.read_slot hslot s.profile x
  have hvalid : ((s.bay b).read s.profile x).latest.valid = true ↔ ¬ invalid := by
    rw [not_not, ← filter_ne_none_iff]
    exact judgeBay_valid_iff x
  generalize s.sensed b x = u at hreads hexec
  rw [State.regulate_discharging (by rw [hreads.bay, hread])] at hexec
  by_cases hbad : invalid
  · rw [State.sample_of_invalid (by rw [hreads.bay, ← Bool.not_eq_true, hvalid]; exact not_not_intro hbad)] at hexec
    obtain ⟨hbay, hothers, hrest⟩ := hreads.faults (r.measure (judgeBay x)) .measurement
    refine ⟨_, hexec, ?_⟩
    generalize State.light _ = t at hbay hothers hrest ⊢
    rw [hbay]
    exact ⟨rfl, rfl, rfl, rfl, rfl, fun _ => ⟨by rw [hrest]; rfl, rfl⟩, fun h => absurd hbad h, by rw [hrest], hothers⟩
  · obtain ⟨hv, hi, c, ht, hlow, hhigh⟩ := not_not.1 hbad
    have hx := judgeBay_of_valid hv hi ht hlow hhigh
    have hlatest : ((s.bay b).read s.profile x).latest = judgeBay x := rfl
    have hcount : ¬ deviationNext x.i (s.bay b).prevSetpoint (s.bay b).deviation < 20 := by
      rw [deviationNext_lt_iff, not_or, not_lt]
      exact hends.resolve_left hbad
    rw [State.sample_of_valid (v := x.v) (i := x.i) (c := c) (by rw [hlatest, hx]) (by rw [hlatest, hx])
      (by rw [hlatest, hx]) hreads.bay] at hexec
    have hexec := hexec.trans (congrArg (fun v : State => Host.Outcome.next v.light) (if_pos (Nat.not_lt.1 hcount)))
    obtain ⟨hbay, hothers, hrest⟩ := (hreads.setBay { (s.bay b).read s.profile x with deviation := 20 }).faults
      (r.measure (judgeBay x)) .deviation
    refine ⟨_, hexec, ?_⟩
    generalize State.light _ = t at hbay hothers hrest ⊢
    rw [hbay]
    exact ⟨rfl, rfl, rfl, rfl, rfl, fun h => absurd h hbad, fun _ => ⟨by rw [hrest]; rfl, rfl⟩, by rw [hrest], hothers⟩

/-- Settles O13: the test of the rest's end (`Reads.rebounds`), at the timer or at the first valid V. -/
theorem restEndsByTheReboundTest : Obligations.RestEndsByTheReboundTest := by
  unfold Obligations.RestEndsByTheReboundTest
  intro tested
  have htested {s u : State} {b : BayNo} {y : Bay} (h : s.Reads u b y) (m : Record) (v : Nat) {hot : Prop}
      (hhot : y.thermal = true ↔ hot) : tested s (u.rebound b m v).light b m v hot := by
    obtain ⟨hsafe, hlater⟩ := h.rebounds m v
    generalize (u.rebound b m v).light = t at hsafe hlater
    by_cases hlow : v ≤ m.s * s.profile.reboundLimit
    · obtain ⟨hbay, hothers, hrest⟩ := hsafe hlow
      have hno : ¬ m.s * s.profile.reboundLimit < v := Nat.not_lt.2 hlow
      refine ⟨?_, ?_, fun _ => ⟨?_, by rw [hrest]; rfl⟩, fun h => absurd h hno, fun h => absurd h hno, by rw [hrest]⟩
      all_goals
        rw [hbay]
        rfl
    · by_cases hround : m.round < s.profile.maxRounds
      · obtain ⟨hbay, hothers, hrest⟩ := (hlater hlow).1 hround
        have hno : ¬ s.profile.maxRounds ≤ m.round := Nat.not_le.2 hround
        have hfaults : t.faults = s.faults := by rw [hrest]
        have htally : t.tally = s.tally := by rw [hrest]
        clear hrest
        cases hclear : s.lineClear with
        | false =>
          rw [hclear, Bay.startOrHold_lineStop] at hbay
          refine ⟨by rw [hbay]; rfl, by rw [hbay]; rfl, fun h => absurd h hlow, fun _ _ => ⟨fun _ => by rw [hbay]; rfl,
            fun h => absurd (hclear.symm.trans h) nofun, fun h => absurd (hclear.symm.trans h) nofun, htally⟩,
            fun _ h => absurd h hno, hfaults⟩
        | true =>
          have hopen : ¬ s.lineClear = false := by rw [hclear]; nofun
          by_cases hwarm : hot
          · rw [hclear, Bay.startOrHold_thermal (hhot.2 hwarm)] at hbay
            refine ⟨by rw [hbay]; rfl, by rw [hbay]; rfl, fun h => absurd h hlow, fun _ _ => ⟨fun h => absurd h hopen,
              fun _ _ => by rw [hbay]; rfl, fun _ h => absurd hwarm h, htally⟩, fun _ h => absurd h hno, hfaults⟩
          · rw [hclear, Bay.startOrHold_discharge (by rw [← Bool.not_eq_true, hhot]; exact hwarm)] at hbay
            refine ⟨by rw [hbay]; rfl, by rw [hbay]; rfl, fun h => absurd h hlow, fun _ _ => ⟨fun h => absurd h hopen,
              fun _ h => absurd h hwarm, fun _ _ => ?_, htally⟩, fun _ h => absurd h hno, hfaults⟩
            rw [hbay]
            exact ⟨rfl, rfl, rfl, rfl⟩
      · obtain ⟨hbay, hothers, hrest⟩ := (hlater hlow).2 hround
        refine ⟨?_, ?_, fun h => absurd h hlow, fun _ h => absurd h hround, fun _ _ => ⟨?_, by rw [hrest]; rfl⟩,
          by rw [hrest]⟩
        all_goals
          rw [hbay]
          rfl
  refine ⟨fun s b r n htimer hslot => ?expiry, fun s b x r htimer hpresence hslot => ?conversion⟩
  case expiry =>
    have hexec : exec (.restTimerExpiry b) s = .next (s.restExpires b) :=
      congrArg Host.Outcome.next (if_pos (by rw [htimer]; rfl))
    have hreads : s.Reads (s.setBay b { s.bay b with restTimer := none, restOwed := true }) b
        { s.bay b with restTimer := none, restOwed := true } := ⟨rfl, rfl⟩
    have hlatch : (s.setBay b { s.bay b with restTimer := none, restOwed := true }).latch = s.latch := rfl
    rw [State.restExpires, hslot] at hexec
    dsimp only at hexec
    cases hv : (s.bay b).latest.v with
    | none =>
      rw [State.restEnd_waits (by rw [hreads.bay]; exact .inr hv)] at hexec
      obtain ⟨hbay, hothers, hrest⟩ := hreads.stays
      refine ⟨_, hexec, fun _ => ⟨hbay, by rw [hrest]⟩, nofun, hothers, ?_⟩
      rw [hrest, hlatch]
    | some v =>
      rw [State.restEnd_made (v := v) (by rw [hreads.bay]) (by rw [hreads.bay]; exact hv)] at hexec
      generalize s.setBay b _ = u at hreads hexec hlatch
      have hdone := htested hreads r v (hot := (s.bay b).thermal = true) Iff.rfl
      obtain ⟨z, tally, -, hothers, hrest⟩ := hreads.rebound_becomes r v
      refine ⟨_, hexec, nofun, fun v' hv' => Option.some.inj hv' ▸ hdone, hothers, ?_⟩
      generalize State.light _ = t at hrest ⊢
      rw [hrest, hlatch]
  case conversion =>
    have hm := r.measure_judgeBay x
    have hreads := s.sensed_reads b hpresence
    have hexec := exec_conversion htimer x
    have hread := Bay.read_slot hslot s.profile x
    have hhot := Bay.read_thermal_iff (s.bay b) s.profile x
    have howed : ((s.bay b).read s.profile x).restOwed = (s.bay b).restOwed := rfl
    have htimerRest : ((s.bay b).read s.profile x).restTimer = (s.bay b).restTimer := rfl
    have hlatest : ((s.bay b).read s.profile x).latest.v = if x.v ≤ 12000 then some x.v else none := rfl
    generalize s.sensed b x = u at hreads hexec
    generalize (s.bay b).read s.profile x = y at *
    rw [State.regulate_resting (by rw [hreads.bay, hread])] at hexec
    by_cases hmade : (s.bay b).restOwed = true ∧ x.v ≤ 12000
    · rw [State.restEnd_made (v := x.v) (by rw [hreads.bay, howed, hmade.1])
        (by rw [hreads.bay, hlatest, if_pos hmade.2])] at hexec
      have hdone := htested hreads (r.measure (judgeBay x)) x.v hhot
      obtain ⟨z, tally, -, hothers, hrest⟩ := hreads.rebound_becomes (r.measure (judgeBay x)) x.v
      refine ⟨_, hexec, fun _ _ => ?_, fun hno => ?_, hothers⟩
      · rw [hm] at hdone ⊢
        exact hdone
      · rw [hmade.1] at hno
        exact absurd hmade.2 (Nat.not_le.2 (hno.resolve_left nofun))
    · have hwaits : y.restOwed = false ∨ y.latest.v = none := by
        rw [howed, hlatest, ite_eq_right_iff]
        cases h : (s.bay b).restOwed with
        | false => exact .inl rfl
        | true => exact .inr fun hv => absurd ⟨h, hv⟩ hmade
      rw [State.restEnd_waits (by rw [hreads.bay]; exact hwaits)] at hexec
      obtain ⟨hbay, hothers, hrest⟩ := hreads.stays
      refine ⟨_, hexec, fun h hv => absurd ⟨h, hv⟩ hmade, fun _ => ⟨?_, ?_, ?_, ?_, ?_⟩, hothers⟩
      · rw [hbay, hread, hm]
      · rw [hbay, howed]
      · rw [hbay, htimerRest]
      · rw [hrest]
      · rw [hrest]

end Sys2Proof.Proofs
end

