-- ==== Sys2Proof/Proofs/Presence.lean ====
section
/-! What a conversion that shows presence cleared does, and what every conversion leaves as it is. -/

namespace Sys2Proof.Machine

open Sys2Proof Sys2Proof.Config

variable {s u : State} {b : BayNo} {y z : Bay} {r : Record} {fifo : List HandoffOut} {tally : Tally}

/-! ### Step 1 with presence clear (R8, R9, R69, R70, R72) -/

/-- From `s` to `u` the bay `b` became `y`, with these handoff frames and tallies, and an effect on the latch. -/
structure State.Leaves (s u : State) (b : BayNo) (y : Bay) (fifo : List HandoffOut) (tally : Tally) : Prop where
  bays : u.bays = (s.setBay b y).bays
  rest : u = { s with bays := u.bays, latch := u.latch, link := { s.link with fifo := fifo }, tally := tally }

theorem State.Leaves.bay (h : s.Leaves u b y fifo tally) : u.bay b = y := (State.bays_of_setBay h.bays).1

theorem State.leaves_setBay (s : State) (b : BayNo) (y : Bay) : s.Leaves (s.setBay b y) b y s.link.fifo s.tally :=
  ⟨rfl, rfl⟩

theorem State.Leaves.setBay (h : s.Leaves u b y fifo tally) (z : Bay) : s.Leaves (u.setBay b z) b z fifo tally where
  bays := by
    change u.bays.set b.val z b.isLt = s.bays.set b.val z b.isLt
    rw [h.bays]
    exact Vector.set_set ..
  rest := by
    rw [h.rest]
    rfl

theorem State.Leaves.heats (h : s.Leaves u b y fifo tally) (before : Bool) :
    s.Leaves (u.raiseHeat before b) b y fifo tally := by
  have hheat := u.raiseHeat_eq before b
  generalize u.raiseHeat before b = v at hheat ⊢
  refine ⟨?_, ?_⟩
  · rw [hheat]
    exact h.bays
  · rw [hheat, h.rest]

/-- A bay without presence, before the state is left (R72). -/
def Bay.unstuck (y : Bay) : Bay := { y with stuck := false }

theorem State.losePack_leaves (h : s.Leaves u b y fifo tally) (r : Record) :
    s.Leaves (u.losePack b r) b { y.enter .missing r with deviation := 0 } fifo tally := by
  rw [State.losePack, h.bay]
  exact h.setBay _

theorem State.depart_leaves (h : s.Leaves u b y fifo tally) (n : NodeNo) (r : Record) :
    s.Leaves (u.depart b n r) b { y.enter (.inTransit n) r with transitTimer := some 40000 } fifo tally := by
  rw [State.depart, h.bay]
  exact h.setBay _

theorem State.settle_leaves (h : s.Leaves u b y fifo s.tally) : s.Leaves (u.settle b) b y.vacate fifo
    { s.tally with t1 := { s.tally.t1 with settled := bump s.tally.t1.settled } } := by
  rw [State.settle, h.bay]
  refine ⟨(h.setBay _).bays, ?_⟩
  rw [h.rest]
  rfl

theorem State.placeHandoff_leaves (h : s.Leaves u b y s.link.fifo s.tally) (f : HandoffOut) :
    s.Leaves (u.placeHandoff f) b y (s.fifoWith f) { s.tally with t6 := s.t6With } := by
  have hplace := State.placeHandoff_eq s u f (by rw [h.rest]) (by rw [h.rest]) (by rw [h.rest])
  generalize u.placeHandoff f = v at hplace ⊢
  refine ⟨?_, ?_⟩
  · rw [hplace]
    exact h.bays
  · rw [hplace, h.rest]

/-- What step 1 makes of a bay that shows presence clear. -/
theorem State.presenceStep_clear (s : State) (b : BayNo) (hclear : y.latest.presence = false) :
    ((y.slot = .empty ∨ y.slot = .orphan ∨ ∃ (st : PackState) (r : Record), y.slot = .pack st r ∧
        ((∃ n, st = .inTransit n) ∨ st = .rejected ∨ st = .missing)) →
      s.Leaves ((s.setBay b y).presenceStep b) b y.unstuck s.link.fifo s.tally) ∧
    (∀ (st : PackState) (r : Record), y.slot = .pack st r →
      st = .admitted ∨ st = .discharging ∨ (∃ c, st = .held c) ∨ st = .resting ∨ st = .safe →
      s.Leaves ((s.setBay b y).presenceStep b) b { y.unstuck.enter .missing r with deviation := 0 } s.link.fifo s.tally) ∧
    (∀ (n : NodeNo) (r : Record), y.slot = .pack (.offered n) r →
      s.Leaves ((s.setBay b y).presenceStep b) b { y.unstuck.enter .missing r with deviation := 0 }
        (s.fifoWith (plainHandoff .withdraw n r.tag b)) { s.tally with t6 := s.t6With }) ∧
    (∀ (n : NodeNo) (r : Record), y.slot = .pack (.releasing n) r →
      (r.settleEarly = false → s.Leaves ((s.setBay b y).presenceStep b) b
        { y.unstuck.enter (.inTransit n) r with transitTimer := some 40000 } s.link.fifo s.tally) ∧
      (r.settleEarly = true → s.Leaves ((s.setBay b y).presenceStep b) b y.unstuck.vacate s.link.fifo
        { s.tally with t1 := { s.tally.t1 with settled := bump s.tally.t1.settled } })) := by
  have hunstuck := (s.leaves_setBay b y).setBay y.unstuck
  rw [State.presenceStep, (s.leaves_setBay b y).bay, hclear, if_neg Bool.false_ne_true]
  change s.Leaves (State.setBay _ b { y with stuck := false }) b _ _ _ at hunstuck
  generalize State.setBay (State.setBay _ _ _) b _ = u at hunstuck ⊢
  refine ⟨?_, ?_, ?_, ?_⟩
  · rintro (h | h | ⟨st, r, h, ⟨n, rfl⟩ | rfl | rfl⟩)
    all_goals
      rw [h]
      exact hunstuck
  · rintro st r h (rfl | rfl | ⟨c, rfl⟩ | rfl | rfl)
    all_goals
      rw [h]
      exact State.losePack_leaves hunstuck r
  · intro n r h
    rw [h]
    exact State.placeHandoff_leaves (State.losePack_leaves hunstuck r) _
  · intro n r h
    rw [h]
    refine ⟨fun hlate => ?_, fun hearly => ?_⟩
    · dsimp only
      rw [hlate, if_neg Bool.false_ne_true]
      exact State.depart_leaves hunstuck n r
    · dsimp only
      rw [hearly, if_pos rfl]
      exact State.settle_leaves hunstuck

/-- A bay that the regulator leaves as it is (R20). -/
def Slot.Idle (x : Slot) : Prop := x = .empty ∨ x = .orphan ∨ ∃ (st : PackState) (r : Record), x = .pack st r ∧
  (st = .safe ∨ (∃ n, st = .offered n ∨ st = .releasing n ∨ st = .inTransit n) ∨ st = .rejected ∨ st = .missing)

theorem Slot.Idle.onRecord {x : Slot} (h : x.Idle) (g : Record → Record) : (x.onRecord g).Idle := by
  obtain rfl | rfl | ⟨st, r, rfl, hst⟩ := h
  · exact .inl rfl
  · exact .inr (.inl rfl)
  · exact .inr (.inr ⟨st, g r, rfl, hst⟩)

/-- From `s` to `t` a conversion left the bay `b` as `z`. -/
structure State.Left (s t : State) (b : BayNo) (z : Bay) (fifo : List HandoffOut) (tally : Tally) : Prop where
  bay : t.bay b = z
  others : s.OthersStay t b
  rest : t = { s with bays := t.bays, latch := t.latch, link := { s.link with fifo := fifo }, tally := tally
                      lamps := t.lamps }

/-- The rest of a conversion after step 1 with presence clear: the readings, and nothing for the regulator (R20). -/
theorem State.Leaves.converts {x : BayReading}
    (h : s.Leaves ((s.setBay b ((s.bay b).judged x)).presenceStep b) b z fifo tally) (hidle : z.slot.Idle)
    (htimer : (s.bay b).convTimer.isSome = true) : ∃ t : State, exec (.bayConversion b x) s = .next t ∧
      s.Left t b (z.measure s.profile) fifo tally ∧
      t.latch = ((((s.setBay b ((s.bay b).judged x)).presenceStep b).setBay b (z.measure s.profile)).raiseHeat
        (s.condition .bayOverheat) b).latch := by
  have hprofile : ((s.setBay b ((s.bay b).judged x)).presenceStep b).profile = s.profile := by
    rw [h.rest]
    rfl
  have hmeasured := (h.setBay (z.measure s.profile)).heats (s.condition .bayOverheat)
  have hsensed : s.sensed b x = (((s.setBay b ((s.bay b).judged x)).presenceStep b).setBay b
      (z.measure s.profile)).raiseHeat (s.condition .bayOverheat) b := by
    rw [State.sensed, State.measureStep, h.bay, hprofile]
  rw [← hsensed] at hmeasured ⊢
  generalize hu : s.sensed b x = u at hmeasured ⊢
  obtain ⟨hbay, hothers⟩ := State.bays_of_setBay (t := u.light) ((State.light_bays u).trans hmeasured.bays)
  refine ⟨u.light, ?_, ⟨hbay, hothers, ?_⟩, rfl⟩
  · rw [exec_conversion htimer, hu, State.regulate_idle]
    rw [hmeasured.bay]
    exact hidle.onRecord _
  · rw [hmeasured.rest]
    rfl

end Sys2Proof.Machine

namespace Sys2Proof.Proofs

open Sys2Proof Sys2Proof.Machine Sys2Proof.Config

/-- Settles O11: the state of the bay decides what a clear presence does (`presenceStep_clear`). -/
theorem presenceClears : Obligations.PresenceClears := by
  intro s b x st r htimer hclear hslot
  have hslotJudged : ((s.bay b).judged x).slot = .pack st r := hslot
  obtain ⟨hidle, hlost, hoffered, hreleasing⟩ := s.presenceStep_clear b (y := (s.bay b).judged x) hclear
  have hgroup : (st = .admitted ∨ st = .discharging ∨ (∃ c, st = .held c) ∨ st = .resting ∨ st = .safe) ∨
      (∃ n, st = .offered n) ∨ (∃ n, st = .releasing n) ∨ (∃ n, st = .inTransit n) ∨ st = .rejected ∨ st = .missing := by
    cases st <;> simp
  have hmissing : ({ ((s.bay b).judged x).unstuck.enter .missing r with deviation := 0 } : Bay).slot.Idle :=
    .inr (.inr ⟨_, _, rfl, .inr (.inr (.inr rfl))⟩)
  rcases hgroup with hst | ⟨n, rfl⟩ | ⟨n, rfl⟩ | hst
  · obtain ⟨t, hexec, ⟨hbay, hothers, hrest⟩, -⟩ := (hlost st r hslotJudged hst).converts hmissing htimer
    refine ⟨t, hexec, fun _ => ?_, fun n hn => by simp [hn] at hst, fun n hn => by simp [hn] at hst,
      fun n hn => by simp [hn] at hst, fun h => ?_, by rw [hbay]; rfl, by rw [hrest], hothers⟩
    · rw [hbay]
      exact ⟨rfl, rfl, rfl, rfl, rfl, rfl, rfl, by rw [hrest], by rw [hrest]⟩
    · rcases h with ⟨n, rfl⟩ | rfl | rfl
      all_goals simp at hst
  · obtain ⟨t, hexec, ⟨hbay, hothers, hrest⟩, -⟩ := (hoffered n r hslotJudged).converts hmissing htimer
    refine ⟨t, hexec, fun h => by simp at h, fun n' hn => ?_, fun n' hn => by simp at hn, fun n' hn => by simp at hn,
      fun h => by simp at h, by rw [hbay]; rfl, by rw [hrest], hothers⟩
    obtain rfl := PackState.offered.inj hn
    rw [hbay]
    exact ⟨rfl, rfl, by rw [hrest], by rw [hrest]⟩
  · obtain ⟨hdepart, hsettle⟩ := hreleasing n r hslotJudged
    by_cases hearly : r.settleEarly = true
    · obtain ⟨t, hexec, ⟨hbay, hothers, hrest⟩, -⟩ := (hsettle hearly).converts (.inl rfl) htimer
      refine ⟨t, hexec, fun h => by simp at h, fun n' hn => by simp at hn,
        fun n' _ h => absurd hearly (by rw [h]; exact Bool.false_ne_true), fun n' _ _ => ?_, fun h => by simp at h,
        by rw [hbay]; rfl, by rw [hrest], hothers⟩
      rw [hbay]
      exact ⟨rfl, rfl, by rw [hrest], by rw [hrest]; rfl⟩
    · obtain ⟨t, hexec, ⟨hbay, hothers, hrest⟩, -⟩ := (hdepart (Bool.not_eq_true _ ▸ hearly)).converts
        (.inr (.inr ⟨_, _, rfl, .inr (.inl ⟨n, .inr (.inr rfl)⟩)⟩)) htimer
      refine ⟨t, hexec, fun h => by simp at h, fun n' hn => by simp at hn, fun n' hn _ => ?_,
        fun n' _ h => absurd h hearly, fun h => by simp at h, by rw [hbay]; rfl, by rw [hrest], hothers⟩
      obtain rfl := PackState.releasing.inj hn
      rw [hbay]
      exact ⟨rfl, rfl, rfl, rfl, by rw [hrest], by rw [hrest]⟩
  · have hkeeps : ((s.bay b).judged x).unstuck.slot = .pack st r := hslotJudged
    obtain ⟨t, hexec, ⟨hbay, hothers, hrest⟩, -⟩ := (hidle (.inr (.inr ⟨st, r, hslotJudged, hst⟩))).converts
      (.inr (.inr ⟨st, r, hkeeps, .inr (hst.imp (fun ⟨n, hn⟩ => ⟨n, .inr (.inr hn)⟩) id)⟩)) htimer
    have hmeasured : (((s.bay b).judged x).unstuck.measure s.profile).slot = .pack st (r.measure (judgeBay x)) := by
      rw [Bay.measure]
      dsimp only
      rw [hkeeps]
      rfl
    refine ⟨t, hexec, fun h => ?_, fun n hn => by simp [hn] at hst, fun n hn => by simp [hn] at hst,
      fun n hn => by simp [hn] at hst, fun _ => ?_, by rw [hbay]; rfl, by rw [hrest], hothers⟩
    · rcases hst with ⟨n, rfl⟩ | rfl | rfl
      all_goals simp at h
    · rw [hbay]
      exact ⟨hmeasured, rfl, by rw [hrest], by rw [hrest]⟩

end Sys2Proof.Proofs
end

