-- ==== Sys2Proof/Proofs/ConversionFrame.lean ====
section
/-! What every conversion does and what it can reach. -/

namespace Sys2Proof.Machine

open Sys2Proof Sys2Proof.Config

variable {s t u v : State} {b : BayNo} {x : BayReading} {y z : Bay} {r : Record}

/-! ### What the regulator leaves of the measurement -/

/-- What BAY_OVERHEAT reads of a bay: the last T and the tag of its record (R47). -/
def Slot.heat (x : Slot) : Option (Int × Tag) := x.record.map fun r => (r.lastT, r.tag)

/-- The heat and the readings of the bay are those of `y`. -/
structure Bay.Senses (y z : Bay) : Prop where
  heat : z.slot.heat = y.slot.heat
  convTimer : z.convTimer = y.convTimer
  latest : z.latest = y.latest
  thermal : z.thermal = y.thermal
  validT : z.validT = y.validT

theorem Bay.Senses.refl (y : Bay) : y.Senses y := ⟨rfl, rfl, rfl, rfl, rfl⟩

/-- A new state with a record of the same T and tag. -/
theorem Bay.senses_enter (h : y.slot.heat = some (r.lastT, r.tag)) (st : PackState) : y.Senses (y.enter st r) :=
  ⟨h.symm, rfl, rfl, rfl, rfl⟩

theorem Bay.senses_startOrHold (h : y.slot.heat = some (r.lastT, r.tag)) (clear : Bool) :
    y.Senses (y.startOrHold clear r) := by
  obtain ⟨-, heq⟩ | ⟨-, -, heq⟩ | ⟨-, -, heq⟩ := y.startOrHold_cases clear r
  · rw [heq]
    exact Bay.senses_enter h _
  · rw [heq]
    exact Bay.senses_enter h _
  · rw [heq]
    exact ⟨h.symm, rfl, rfl, rfl, rfl⟩

/-- The tallies that the regulator can reach (R2, R46). -/
def State.RegulatorTally (s : State) (tally : Tally) : Prop :=
  tally = { s.tally with t1 := { s.tally.t1 with rejected := tally.t1.rejected }, t2 := tally.t2 }

theorem State.Becomes.of_latch {faults : FaultRecord} {tally : Tally} (h : s.Becomes v t b z faults tally)
    (hlatch : v.latch = u.latch) : s.Becomes u t b z faults tally :=
  ⟨h.bay, h.others, hlatch ▸ h.rest⟩

/-- A regulator step that keeps what the measurement read. -/
def State.Regulates (s u t : State) (b : BayNo) (y : Bay) : Prop :=
  ∃ (z : Bay) (faults : FaultRecord) (tally : Tally),
    s.Becomes u t b z faults tally ∧ y.Senses z ∧ s.RegulatorTally tally

theorem State.Reads.startCheck_regulates (h : s.Reads u b y) (hheat : y.slot.heat = some (r.lastT, r.tag)) :
    s.Regulates u (u.startCheck b r).light b y := by
  obtain ⟨hvalid, hinvalid⟩ := h.startCheck r
  cases hv : y.latest.valid with
  | true => exact ⟨_, _, _, hvalid hv, Bay.senses_startOrHold (by exact hheat) _, rfl⟩
  | false => exact ⟨_, _, _, hinvalid hv, Bay.senses_enter (by exact hheat) _, rfl⟩

theorem State.Reads.rebound_regulates (h : s.Reads u b y) (hheat : y.slot.heat = some (r.lastT, r.tag)) (v : Nat) :
    s.Regulates u (u.rebound b r v).light b y := by
  obtain ⟨hsafe, hlater⟩ := h.rebounds r v
  by_cases hlow : v ≤ r.s * s.profile.reboundLimit
  · exact ⟨_, _, _, hsafe hlow, Bay.senses_enter (by exact hheat) _, rfl⟩
  · by_cases hround : r.round < s.profile.maxRounds
    · exact ⟨_, _, _, (hlater hlow).1 hround, Bay.senses_startOrHold (by exact hheat) _, rfl⟩
    · exact ⟨_, _, _, (hlater hlow).2 hround, Bay.senses_enter (by exact hheat) _, rfl⟩

theorem State.Reads.endOrCommand_regulates (h : s.Reads u b y) (hheat : y.slot.heat = some (r.lastT, r.tag)) (v : Nat)
    (c : Int) : s.Regulates u (u.endOrCommand b r v c).light b y := by
  obtain ⟨hcharge, hlater⟩ := h.endOrCommand r v c
  by_cases h1 : r.chargeLimit = true
  · exact ⟨_, _, _, hcharge h1, Bay.senses_enter (by exact hheat) _, rfl⟩
  obtain ⟨htime, hlater⟩ := hlater h1
  by_cases h2 : r.timeUp = true
  · exact ⟨_, _, _, htime h2, Bay.senses_enter (by exact hheat) _, rfl⟩
  obtain ⟨hsafe, hlater⟩ := hlater h2
  by_cases h3 : v ≤ r.s * s.profile.safeCell
  · exact ⟨_, _, _, hsafe h3, ⟨hheat.symm, rfl, rfl, rfl, rfl⟩, rfl⟩
  obtain ⟨hhot, hcool⟩ := hlater h3
  by_cases h4 : s.profile.tStop ≤ c
  · exact ⟨_, _, _, hhot h4, Bay.senses_enter (by exact hheat) _, rfl⟩
  · exact ⟨_, _, _, hcool h4, ⟨hheat.symm, rfl, rfl, rfl, rfl⟩, rfl⟩

theorem State.Reads.sample_regulates (h : s.Reads u b y) (hheat : y.slot.heat = some (r.lastT, r.tag)) :
    s.Regulates u (u.sample b r).light b y := by
  cases hvalid : y.latest.valid with
  | false =>
    rw [State.sample_of_invalid (by rw [h.bay]; exact hvalid)]
    exact ⟨_, _, _, h.faults r .measurement, Bay.senses_enter (by exact hheat) _, rfl⟩
  | true =>
    rw [Readings.valid, Bool.and_eq_true, Bool.and_eq_true] at hvalid
    obtain ⟨⟨hv, hi⟩, ht⟩ := hvalid
    obtain ⟨v, hv⟩ := Option.isSome_iff_exists.1 hv
    obtain ⟨i, hi⟩ := Option.isSome_iff_exists.1 hi
    obtain ⟨c, ht⟩ := Option.isSome_iff_exists.1 ht
    rw [State.sample_of_valid hv hi ht h.bay]
    split
    · have hfault := (h.setBay { y with deviation := 20 }).faults r .deviation
      exact ⟨_, _, _, hfault.of_latch rfl, ⟨hheat.symm, rfl, rfl, rfl, rfl⟩, rfl⟩
    · obtain ⟨z, faults, tally, hbecomes, hsenses, htally⟩ := (h.setBay { y with
        deviation := deviationNext i y.prevSetpoint y.deviation, product := v * i }).endOrCommand_regulates
          (r := r.integrate v i) hheat v c
      exact ⟨z, faults, tally, hbecomes.of_latch rfl, ⟨hsenses.heat, hsenses.convTimer, hsenses.latest, hsenses.thermal,
        hsenses.validT⟩, htally⟩

theorem State.Reads.stays_regulates (h : s.Reads u b y) : s.Regulates u u.light b y :=
  ⟨_, _, _, h.stays, .refl y, rfl⟩

/-- The regulator keeps what the measurement read (R20). -/
theorem State.Reads.regulates (h : s.Reads u b y) : s.Regulates u (u.regulate b).light b y := by
  cases hslot : y.slot with
  | empty =>
    rw [State.regulate_idle (by rw [h.bay]; exact .inl hslot)]
    exact h.stays_regulates
  | orphan =>
    rw [State.regulate_idle (by rw [h.bay]; exact .inr (.inl hslot))]
    exact h.stays_regulates
  | pack st r =>
    have hat : (u.bay b).slot = .pack st r := by rw [h.bay, hslot]
    have hheat : y.slot.heat = some (r.lastT, r.tag) := by rw [hslot]; rfl
    cases st with
    | admitted =>
      rw [State.regulate_admitted hat]
      exact h.startCheck_regulates hheat
    | held c =>
      rw [State.regulate_held hat, State.holdCheck]
      split
      · exact h.stays_regulates
      · exact h.startCheck_regulates hheat
    | resting =>
      rw [State.regulate_resting hat]
      by_cases hmade : (u.bay b).restOwed = false ∨ (u.bay b).latest.v = none
      · rw [State.restEnd_waits hmade]
        exact h.stays_regulates
      · rw [not_or, Bool.not_eq_false, ← ne_eq, Option.ne_none_iff_exists'] at hmade
        obtain ⟨howed, v, hv⟩ := hmade
        rw [State.restEnd_made howed hv]
        exact h.rebound_regulates hheat v
    | discharging =>
      rw [State.regulate_discharging hat]
      exact h.sample_regulates hheat
    | _ =>
      rw [State.regulate_idle (by rw [hat]; exact .inr (.inr ⟨_, r, rfl, by simp⟩))]
      exact h.stays_regulates

/-! ### The course of every conversion -/

/-- The heat of the bays decides on BAY_OVERHEAT (R47). -/
theorem State.overheat_iff_heat (s : State) : s.condition .bayOverheat = true ↔
    ∃ (k : BayNo) (c : Int) (g : Tag), (s.bay k).slot.heat = some (c, g) ∧ 80 ≤ c := by
  rw [s.overheat_iff]
  refine exists_congr fun k => ⟨fun ⟨r, hr, hhot⟩ => ⟨r.lastT, r.tag, by rw [Slot.heat, hr]; rfl, hhot⟩, ?_⟩
  rintro ⟨c, g, hheat, hhot⟩
  obtain ⟨r, hr, heq⟩ := Option.map_eq_some_iff.1 hheat
  exact ⟨r, hr, (Prod.mk.inj heq).1 ▸ hhot⟩

/-- From `s` to `t` the bay `b` was read, and `v` is the state in which BAY_OVERHEAT is judged (R20, R47). -/
structure State.Converts (s v t : State) (b : BayNo) (x : BayReading) : Prop where
  others : s.OthersStay t b
  convTimer : (t.bay b).convTimer = some 100
  latest : (t.bay b).latest = judgeBay x
  thermal : (t.bay b).thermal = thermalNext s.profile (judgeBay x).t (s.bay b).thermal
  validT : (t.bay b).validT = (judgeBay x).t.or (s.bay b).validT
  rest : t = { s with bays := t.bays, latch := t.latch, faults := t.faults, lamps := t.lamps
                      link := { s.link with fifo := t.link.fifo }
                      tally := { s.tally with
                        t1 := { s.tally.t1 with settled := t.tally.t1.settled, rejected := t.tally.t1.rejected }
                        t2 := t.tally.t2
                        t6 := { s.tally.t6 with handoffDropped := t.tally.t6.handoffDropped } } }
  heat : ∀ k : BayNo, (t.bay k).slot.heat = (v.bay k).slot.heat
  judged : v.latch = s.latch ∧ v.link.attempt = s.link.attempt ∧ v.startup = s.startup ∧ s.OthersStay v b
  latch : t.latch = (v.raiseHeat (s.condition .bayOverheat) b).latch

/-- The onset of BAY_OVERHEAT (R47). -/
theorem State.Converts.onset (h : s.Converts v t b x) (hbefore : s.condition .bayOverheat = false)
    (hafter : t.condition .bayOverheat = true) : ∃ r : Record, (t.bay b).slot.record = some r ∧ 80 ≤ r.lastT ∧
      s.Raised t .bayOverheat (.bay b.val) (some r.tag) := by
  obtain ⟨hlatch, hattempt, hstartup, hothers⟩ := h.judged
  obtain ⟨k, c, g, hheat, hhot⟩ := t.overheat_iff_heat.1 hafter
  have hk : k = b := by
    by_contra hne
    refine absurd (s.overheat_iff_heat.2 ⟨k, c, g, ?_, hhot⟩) (by rw [hbefore]; exact Bool.false_ne_true)
    rw [← hothers k hne, ← h.heat]
    exact hheat
  subst hk
  obtain ⟨r, hr, heq⟩ := Option.map_eq_some_iff.1 hheat
  obtain ⟨q, hq, heq'⟩ := Option.map_eq_some_iff.1 ((h.heat k).symm.trans hheat)
  obtain ⟨rfl, rfl⟩ := Prod.mk.inj heq
  have htag : q.tag = r.tag := (Prod.mk.inj heq').2
  have hnow : v.condition .bayOverheat = true :=
    v.overheat_iff_heat.2 ⟨k, r.lastT, r.tag, (h.heat k).symm.trans hheat, hhot⟩
  refine ⟨r, hr, hhot, (s.raise_raised v hlatch hattempt (by rw [hstartup]) .bayOverheat (.bay k.val)
    (some r.tag)).onto ?_⟩
  rw [h.latch, hbefore, State.raiseHeat_of_onset hq hnow, htag]

/-- Without an onset nothing is raised (R47). -/
theorem State.Converts.calm (h : s.Converts v t b x)
    (hcalm : s.condition .bayOverheat = true ∨ t.condition .bayOverheat = false) : t.latch = s.latch := by
  obtain ⟨hlatch, -, -, -⟩ := h.judged
  have hsame : v.condition .bayOverheat = t.condition .bayOverheat := by
    rw [Bool.eq_iff_iff, v.overheat_iff_heat, t.overheat_iff_heat]
    simp only [h.heat]
  rw [h.latch, State.raiseHeat_of_none b (by rw [hsame]; exact hcalm), hlatch]

/-- The bay is measured in the state in which step 1 left it (R20). -/
theorem State.sensed_of_set (s : State) (b : BayNo) {x : BayReading} (h : x.presence = true) :
    ∃ v : State, s.Reads v b ((s.bay b).read s.profile x) ∧ v.latch = s.latch ∧
      s.sensed b x = v.raiseHeat (s.condition .bayOverheat) b := by
  have hjudged : s.Reads (s.setBay b ((s.bay b).judged x)) b ((s.bay b).judged x) := ⟨rfl, rfl⟩
  have hset : ((s.setBay b ((s.bay b).judged x)).bay b).latest.presence = true := by rw [hjudged.bay]; exact h
  refine ⟨_, hjudged.setBay _, rfl, ?_⟩
  rw [State.sensed, State.presenceStep_of_set hset, State.measureStep, hjudged.bay, hjudged.profile]
  rfl

theorem Bay.measure_validT (y : Bay) (p : Profile) : (y.measure p).validT = y.latest.t.or y.validT := by
  unfold Bay.measure
  cases y.latest.t <;> rfl

/-- A conversion with presence set (R20). -/
theorem State.converts_of_set (h : x.presence = true) (htimer : (s.bay b).convTimer.isSome = true) :
    ∃ v t : State, exec (.bayConversion b x) s = .next t ∧ s.Converts v t b x := by
  obtain ⟨v, hreads, hlatch, hsensed⟩ := s.sensed_of_set b h
  obtain ⟨z, faults, tally, ⟨hbay, hothers, hrest⟩, hsenses, htally⟩ :=
    (hreads.heats (s.condition .bayOverheat)).regulates
  have hvothers := (State.bays_of_setBay hreads.bays).2
  refine ⟨v, _, (exec_conversion htimer x).trans (by rw [hsensed]), ?_⟩
  generalize State.light _ = t at hbay hothers hrest ⊢
  exact {
    others := hothers
    convTimer := by rw [hbay, hsenses.convTimer]; rfl
    latest := by rw [hbay, hsenses.latest]; rfl
    thermal := by rw [hbay, hsenses.thermal]; rfl
    validT := by rw [hbay, hsenses.validT]; exact Bay.measure_validT _ _
    rest := by rw [hrest, htally]
    heat := fun k => by
      by_cases hk : k = b
      · rw [hk, hbay, hsenses.heat, hreads.bay]
      · rw [hothers k hk, hvothers k hk]
    judged := ⟨hlatch, by rw [hreads.rest], by rw [hreads.rest], hvothers⟩
    latch := by rw [hrest] }

/-- The tallies that step 1 can reach (R71, R163). -/
def State.PresenceTally (s : State) (tally : Tally) : Prop :=
  tally = { s.tally with t1 := { s.tally.t1 with settled := tally.t1.settled }
                         t6 := { s.tally.t6 with handoffDropped := tally.t6.handoffDropped } }

theorem State.t6With_dropped (s : State) :
    s.t6With = { s.tally.t6 with handoffDropped := s.t6With.handoffDropped } := by
  rw [State.t6With]
  split <;> rfl

theorem State.presenceStep_latch (u : State) (b : BayNo) : (u.presenceStep b).latch = u.latch := by
  unfold State.presenceStep
  dsimp only
  repeat' split
  all_goals simp [State.losePack, State.depart]

/-- The readings of `y` stand in `z`, for which the regulator does nothing. -/
structure Bay.Rests (y z : Bay) : Prop where
  idle : z.slot.Idle
  convTimer : z.convTimer = y.convTimer
  latest : z.latest = y.latest
  thermal : z.thermal = y.thermal
  validT : z.validT = y.validT

theorem Bay.rests_enter {st : PackState} (h : st = .missing ∨ ∃ n, st = .inTransit n) (y : Bay) (r : Record) :
    y.Rests (y.unstuck.enter st r) where
  idle := .inr (.inr ⟨st, _, rfl, h.elim (fun h => .inr (.inr (.inr h))) fun ⟨n, h⟩ => .inr (.inl ⟨n, .inr (.inr h)⟩)⟩)
  convTimer := rfl
  latest := rfl
  thermal := rfl
  validT := rfl

/-- Step 1 with presence clear leaves a bay for which the regulator does nothing (R8, R20). -/
theorem State.presenceStep_leaves (s : State) (b : BayNo) (hclear : y.latest.presence = false) :
    ∃ (z : Bay) (fifo : List HandoffOut) (tally : Tally), s.Leaves ((s.setBay b y).presenceStep b) b z fifo tally ∧
      y.Rests z ∧ s.PresenceTally tally := by
  obtain ⟨hidle, hlost, hoffered, hreleasing⟩ := s.presenceStep_clear b hclear
  have hmissing (r : Record) : y.Rests { y.unstuck.enter .missing r with deviation := 0 } := by
    have h := Bay.rests_enter (.inl rfl) y r
    exact ⟨h.idle, rfl, rfl, rfl, rfl⟩
  cases hslot : y.slot with
  | empty => exact ⟨_, _, _, hidle (.inl hslot), ⟨.inl hslot, rfl, rfl, rfl, rfl⟩, rfl⟩
  | orphan => exact ⟨_, _, _, hidle (.inr (.inl hslot)), ⟨.inr (.inl hslot), rfl, rfl, rfl, rfl⟩, rfl⟩
  | pack st r =>
    have hkeeps (hst : (∃ n, st = .inTransit n) ∨ st = .rejected ∨ st = .missing) : y.Rests y.unstuck :=
      ⟨.inr (.inr ⟨st, r, hslot, .inr (hst.imp (fun ⟨n, hn⟩ => ⟨n, .inr (.inr hn)⟩) id)⟩), rfl, rfl, rfl, rfl⟩
    cases st with
    | inTransit n =>
      exact ⟨_, _, _, hidle (.inr (.inr ⟨_, r, hslot, .inl ⟨n, rfl⟩⟩)), hkeeps (.inl ⟨n, rfl⟩), rfl⟩
    | rejected =>
      exact ⟨_, _, _, hidle (.inr (.inr ⟨_, r, hslot, .inr (.inl rfl)⟩)), hkeeps (.inr (.inl rfl)), rfl⟩
    | missing =>
      exact ⟨_, _, _, hidle (.inr (.inr ⟨_, r, hslot, .inr (.inr rfl)⟩)), hkeeps (.inr (.inr rfl)), rfl⟩
    | offered n =>
      refine ⟨_, _, _, hoffered n r hslot, hmissing r, ?_⟩
      rw [State.PresenceTally, s.t6With_dropped]
    | releasing n =>
      obtain ⟨hdepart, hsettle⟩ := hreleasing n r hslot
      by_cases hearly : r.settleEarly = true
      · exact ⟨_, _, _, hsettle hearly, ⟨.inl rfl, rfl, rfl, rfl, rfl⟩, rfl⟩
      · have h := Bay.rests_enter (.inr ⟨n, rfl⟩) y r
        exact ⟨_, _, _, hdepart (Bool.not_eq_true _ ▸ hearly), ⟨h.idle, rfl, rfl, rfl, rfl⟩, rfl⟩
    | _ => exact ⟨_, _, _, hlost _ r hslot (by simp), hmissing r, rfl⟩

/-- A conversion with presence clear (R20). -/
theorem State.converts_of_clear (h : x.presence = false) (htimer : (s.bay b).convTimer.isSome = true) :
    ∃ v t : State, exec (.bayConversion b x) s = .next t ∧ s.Converts v t b x := by
  obtain ⟨z, fifo, tally, hleaves, hrests, htally⟩ := s.presenceStep_leaves b (y := (s.bay b).judged x) h
  have hlatch := (s.setBay b ((s.bay b).judged x)).presenceStep_latch b
  obtain ⟨t, hexec, ⟨hbay, hothers, hrest⟩, hheat⟩ := hleaves.converts hrests.idle htimer
  have hmeasured := hleaves.setBay (z.measure s.profile)
  have hset : (State.setBay ((s.setBay b ((s.bay b).judged x)).presenceStep b) b (z.measure s.profile)).latch =
    s.latch := hlatch
  generalize State.setBay (State.presenceStep _ b) b _ = v at hmeasured hheat hset
  have hvothers := (State.bays_of_setBay hmeasured.bays).2
  refine ⟨v, t, hexec, {
    others := hothers
    convTimer := by rw [hbay]; exact hrests.convTimer
    latest := by rw [hbay]; exact hrests.latest
    thermal := ?_
    validT := ?_
    rest := by rw [hrest, htally]
    heat := fun k => ?_
    judged := ⟨hset, by rw [hmeasured.rest], by rw [hmeasured.rest], hvothers⟩
    latch := hheat }⟩
  · rw [hbay, Bay.measure]
    dsimp only
    rw [hrests.latest, hrests.thermal]
    rfl
  · rw [hbay, Bay.measure_validT, hrests.latest, hrests.validT]
    rfl
  · by_cases hk : k = b
    · rw [hk, hbay, hmeasured.bay]
    · rw [hothers k hk, hvothers k hk]

/-! ### A conversion that moves no bay -/

theorem Bay.read_onRecord (y : Bay) (p : Profile) (x : BayReading) :
    (y.read p x).slot = y.slot.onRecord (fun r => r.measure (judgeBay x)) := rfl

/-- A bay that moves nowhere is read, and nothing else changes (R20, R72). -/
theorem State.conversion_stays (hexec : exec (.bayConversion b x) s = .next t)
    (htimer : (s.bay b).convTimer.isSome = true)
    (h : x.presence = true ∧ (s.bay b).slot.Idle ∨ ((s.bay b).slot = .empty ∨ (s.bay b).slot = .orphan ∨
      ∃ (st : PackState) (r : Record), (s.bay b).slot = .pack st r ∧
        ((∃ n, st = .inTransit n) ∨ st = .rejected ∨ st = .missing))) :
    t.bay b = { (s.bay b).read s.profile x with stuck := (s.bay b).stuck && x.presence } ∧ t.faults = s.faults ∧
      t.link = s.link ∧ t.tally = s.tally := by
  have hidle : (s.bay b).slot.Idle := by
    refine h.elim And.right fun h => h.imp id (Or.imp id ?_)
    exact fun ⟨st, r, hslot, hst⟩ => ⟨st, r, hslot, .inr (hst.imp (fun ⟨n, hn⟩ => ⟨n, .inr (.inr hn)⟩) id)⟩
  cases hpresence : x.presence with
  | true =>
    have hreads := s.sensed_reads b hpresence
    have hstays : (s.sensed b x).regulate b = s.sensed b x :=
      State.regulate_idle (by rw [hreads.bay]; exact hidle.onRecord _)
    rw [exec_conversion htimer, hstays] at hexec
    obtain ⟨hbay, -, hrest⟩ := hreads.stays
    obtain rfl := Host.Outcome.next.inj hexec
    rw [hbay, Bool.and_true]
    exact ⟨rfl, by rw [hrest], by rw [hrest], by rw [hrest]⟩
  | false =>
    rw [hpresence] at h
    have hleaves := (s.presenceStep_clear b (y := (s.bay b).judged x) hpresence).1 (h.resolve_left (fun h => nomatch h.1))
    obtain ⟨u, hu, ⟨hbay, -, hrest⟩, -⟩ := hleaves.converts hidle htimer
    obtain rfl := Host.Outcome.next.inj (hexec.symm.trans hu)
    rw [hbay, Bool.and_false]
    exact ⟨rfl, by rw [hrest], by rw [hrest], by rw [hrest]⟩

end Sys2Proof.Machine

namespace Sys2Proof.Proofs

open Sys2Proof Sys2Proof.Machine Sys2Proof.Config

theorem profileOf_derate_lt_stop (p : BitVec 2) : (profileOf p).tDerate < (profileOf p).tStop := by
  unfold profileOf
  split_ifs
  all_goals decide

/-- Settles O12: presence set or clear, `Converts` says what the conversion did; a bay that moves nowhere is read. -/
theorem conversionFrame : Obligations.ConversionFrame := by
  intro s b x
  by_cases htimer : (s.bay b).convTimer.isSome = true
  case neg =>
    have hexec : exec (.bayConversion b x) s = .next s := congrArg Host.Outcome.next (if_neg htimer)
    exact ⟨s, hexec, fun h => absurd h htimer, fun _ _ => rfl, rfl, rfl, rfl, rfl, fun _ => rfl⟩
  have hconverts : ∃ v t : State, exec (.bayConversion b x) s = .next t ∧ s.Converts v t b x := by
    cases h : x.presence with
    | true => exact State.converts_of_set h htimer
    | false => exact State.converts_of_clear h htimer
  obtain ⟨v, t, hexec, hconv⟩ := hconverts
  have hthermal := hconv.thermal
  have hvalidT := hconv.validT
  rw [judgeBay_t] at hthermal hvalidT
  refine ⟨t, hexec, fun _ => ?_, hconv.others, ?link, ?t1, ?t6, ?frame, fun h => by rw [h] at htimer; cases htimer⟩
  intro temp
  refine ⟨hconv.convTimer, ?latest, fun hnone => ?cold, fun c hc => ?warm, ?_⟩
  case latest =>
    rw [hconv.latest, show temp = (judgeBay x).t from (judgeBay_t x).symm]
    rfl
  case cold =>
    rw [show Option.filter _ x.t = none from hnone] at hthermal hvalidT
    exact ⟨hthermal, hvalidT⟩
  case warm =>
    rw [show Option.filter _ x.t = some c from hc] at hthermal hvalidT
    rw [hthermal]
    have hcool : s.profile.tDerate < s.profile.tStop := profileOf_derate_lt_stop _
    refine ⟨hvalidT, fun h => if_pos h, fun h => (if_neg (by omega)).trans (if_pos h),
      fun h h' => (if_neg (by omega)).trans (if_neg (by omega))⟩
  intro heated
  have hheated (u : State) : u.condition .bayOverheat = true ↔ heated u := u.overheat_iff
  refine ⟨fun hbefore hafter => hconv.onset ?_ ((hheated t).2 hafter), fun hcalm => hconv.calm ?_, ?_⟩
  · rw [← Bool.not_eq_true, hheated]
    exact hbefore
  · rw [hheated, ← Bool.not_eq_true (t.condition _), hheated]
    exact hcalm
  intro stays measured
  have hstay {y : Slot} (hread : ((s.bay b).read s.profile x).slot = y)
      (h : x.presence = true ∧ (s.bay b).slot.Idle ∨ ((s.bay b).slot = .empty ∨ (s.bay b).slot = .orphan ∨
        ∃ (st : PackState) (r : Record), (s.bay b).slot = .pack st r ∧
          ((∃ n, st = .inTransit n) ∨ st = .rejected ∨ st = .missing))) : stays y := by
    obtain ⟨hbay, hfaults, hlink, htally⟩ := State.conversion_stays hexec htimer h
    refine ⟨?_, hfaults, hlink, htally⟩
    rw [hbay, ← hread]
    rfl
  refine ⟨?_, fun st r hslot => ?_⟩
  · rintro (h | h)
    · exact hstay (by rw [Bay.read_onRecord, h]; rfl) (.inr (.inl h))
    · exact hstay (by rw [Bay.read_onRecord, h]; rfl) (.inr (.inr (.inl h)))
  · have hread : ((s.bay b).read s.profile x).slot = .pack st (measured r) := by
      rw [Bay.read_slot hslot, Record.measure_judgeBay]
    refine ⟨fun hst hpresence => hstay hread (.inl ⟨hpresence, .inr (.inr ⟨st, r, hslot, hst.imp id ?_⟩)⟩),
      fun hst => hstay hread (.inr (.inr (.inr ⟨st, r, hslot, hst⟩)))⟩
    exact fun ⟨n, hn⟩ => .inl ⟨n, hn.imp id .inl⟩
  all_goals rw [hconv.rest]

end Sys2Proof.Proofs
end

