-- ==== Sys2Proof/Proofs/LinkErrors.lean ====
section
/-! The error counts, the link state, and the end of an attempt. -/

namespace Sys2Proof.Machine

open Sys2Proof Sys2Proof.Config

variable {s t u v : State} {tx rx : Nat}

/-! ### Error counts (R167 to R169) -/

/-- What of the link and of the tallies follows the error counts. -/
theorem State.setErrors_rest (s : State) (tx rx : Nat) : s.setErrors tx rx = { s with
    link := { s.link with
      txErrors := (s.setErrors tx rx).link.txErrors, rxErrors := (s.setErrors tx rx).link.rxErrors
      state := (s.setErrors tx rx).link.state, sightings := (s.setErrors tx rx).link.sightings }
    tally := { s.tally with t6 := { s.tally.t6 with
      passiveEntries := (s.setErrors tx rx).tally.t6.passiveEntries
      offEntries := (s.setErrors tx rx).tally.t6.offEntries } } } := by
  unfold State.setErrors
  repeat' split
  all_goals rfl

/-- While the link is not OFF the counts take effect (R167 to R169). -/
theorem State.setErrors_counted (h : s.link.state ≠ .off) (tx rx : Nat) : s.Counted (s.setErrors tx rx) tx rx := by
  unfold State.setErrors
  rw [if_neg h]
  by_cases hoff : 255 < tx
  · rw [if_pos hoff]
    exact ⟨fun hin => absurd hoff (Nat.not_lt.2 hin), fun _ => ⟨rfl, rfl⟩, (if_neg fun hp => absurd hoff
      (Nat.not_lt.2 hp.2.1)).symm, (if_pos hoff).symm⟩
  · rw [if_neg hoff]
    have hin := Nat.not_lt.1 hoff
    by_cases hpassive : 128 ≤ tx ∨ 128 ≤ rx
    · rw [if_pos hpassive]
      dsimp only
      by_cases hactive : s.link.state = .active
      · rw [if_pos hactive]
        exact ⟨fun _ => ⟨rfl, rfl, (if_pos hpassive).symm⟩, fun h => absurd h hoff,
          (if_pos ⟨hactive, hin, hpassive⟩).symm, (if_neg hoff).symm⟩
      · rw [if_neg hactive]
        exact ⟨fun _ => ⟨rfl, rfl, (if_pos hpassive).symm⟩, fun h => absurd h hoff,
          (if_neg fun hp => hactive hp.1).symm, (if_neg hoff).symm⟩
    · rw [if_neg hpassive]
      exact ⟨fun _ => ⟨rfl, rfl, (if_neg hpassive).symm⟩, fun h => absurd h hoff,
        (if_neg fun hp => hpassive hp.2.2).symm, (if_neg hoff).symm⟩

theorem State.Counted.congr (h : s.Counted v tx rx) (htx : t.link.txErrors = v.link.txErrors)
    (hrx : t.link.rxErrors = v.link.rxErrors) (hstate : t.link.state = v.link.state)
    (hsightings : t.link.sightings = v.link.sightings) (hpassive : t.tally.t6.passiveEntries = v.tally.t6.passiveEntries)
    (hoff : t.tally.t6.offEntries = v.tally.t6.offEntries) : s.Counted t tx rx where
  within hin := by rw [htx, hrx, hstate]; exact h.within hin
  passed hout := by rw [hstate, hsightings]; exact h.passed hout
  passive := hpassive.trans h.passive
  off := hoff.trans h.off

theorem State.receiving_iff (s : State) : s.receiving = true ↔ s.awake = true ∧ s.link.state ≠ .off := by
  rw [State.receiving, Bool.and_eq_true, decide_eq_true_eq]

/-! ### The end of an attempt (R164, R165) -/

/-- The formations of an attempt's end depend on the slots, their sequences and the overruns only (R165). -/
theorem State.AttemptEnds.of_same {status : Option StatusFrame} {tally : Option TallyFrame}
    (h : u.AttemptEnds t status tally) (hsdue : u.link.statusDue = s.link.statusDue)
    (htdue : u.link.tallyDue = s.link.tallyDue) (hsseq : u.link.statusSeq = s.link.statusSeq)
    (htseq : u.link.tallySeq = s.link.tallySeq) (hover : u.tally.t6.statusOverrun = s.tally.t6.statusOverrun) :
    s.AttemptEnds t status tally where
  attempt := h.attempt
  after := h.after
  due := h.due
  statusStays := by rw [← hsdue, ← hsseq]; exact h.statusStays
  statusFormed := by rw [← hsdue, ← hsseq]; exact h.statusFormed
  tallyStays := by rw [← htdue, ← htseq]; exact h.tallyStays
  tallyFormed := by rw [← htdue, ← htseq, ← hsdue, ← hover]; exact h.tallyFormed
  overrun := by rw [← hsdue, ← htdue, ← hover]; exact h.overrun

/-- The end of an attempt leaves the counts and the link state (R165). -/
theorem State.endAttempt_counted (h : s.Counted v tx rx) : s.Counted v.endAttempt tx rx := by
  obtain ⟨-, -, hlink, htally⟩ := v.endAttempt_ends
  exact h.congr (by rw [hlink]) (by rw [hlink]) (by rw [hlink]) (by rw [hlink]) (by rw [htally]) (by rw [htally])

end Sys2Proof.Machine

namespace Sys2Proof.Proofs

open Sys2Proof Sys2Proof.Machine Sys2Proof.Config

/-- Settles O36: the counts by `setErrors_counted`, the end of an attempt by `endAttempt_ends`. -/
theorem linkErrors : Obligations.LinkErrors := by
  unfold Obligations.LinkErrors
  intro kept
  have hkept {s v : State} (hv : v = { s with
      link := { s.link with
        txErrors := v.link.txErrors, rxErrors := v.link.rxErrors, state := v.link.state, sightings := v.link.sightings }
      tally := { s.tally with t6 := { s.tally.t6 with
        passiveEntries := v.tally.t6.passiveEntries, offEntries := v.tally.t6.offEntries } } }) : kept s v.endAttempt := by
    obtain ⟨hends, hrest, hlink, htally⟩ := v.endAttempt_ends
    have hsame : s.AttemptEnds v.endAttempt s.link.status s.link.tally := by
      refine State.AttemptEnds.of_same (u := v) ?_ ?_ ?_ ?_ ?_ ?_
      · have hslots : v.link.status = s.link.status ∧ v.link.tally = s.link.tally := ⟨by rw [hv], by rw [hv]⟩
        rw [← hslots.1, ← hslots.2]
        exact hends
      all_goals rw [hv]
    generalize v.endAttempt = t at *
    refine ⟨hsame, ?_, ?_, ?_⟩
    · rw [hrest, hv]
    · rw [hlink, hv]
    · rw [hrest, htally, hv]
  refine ⟨fun s hreceiving => ?receive, fun s hreceiving => ?eased, fun s ackOnly a hattempt hon => ?transmit,
    fun s a hattempt => ?lost, fun s ackOnly hnone => ?idle, fun s hoff => ?sight, fun s hon => ?noSight⟩
  case receive =>
    refine ⟨s.setErrors s.link.txErrors (min (s.link.rxErrors + 1) 255), congrArg Host.Outcome.next (if_pos hreceiving),
      State.setErrors_counted (s.receiving_iff.1 hreceiving).2 _ _, ?_⟩
    rw [State.setErrors_rest]
  case eased => exact State.setErrors_counted (s.receiving_iff.1 hreceiving).2 _ _
  case transmit =>
    have htx : (if ackOnly = true ∧ s.link.state = .passive then s.link.txErrors else s.link.txErrors + 8) =
        txErrorsNext s.link.txErrors ackOnly (decide (s.link.state = .passive)) := by
      simp only [txErrorsNext, Bool.and_eq_true, decide_eq_true_eq]
    rw [htx]
    exact ⟨_, congrArg Host.Outcome.next (if_pos (by rw [hattempt]; rfl)),
      State.endAttempt_counted (State.setErrors_counted hon _ _), hkept (State.setErrors_rest _ _ _)⟩
  case lost =>
    obtain ⟨-, -, hlink, htally⟩ := s.endAttempt_ends
    exact ⟨s.endAttempt, congrArg Host.Outcome.next (if_pos (by rw [hattempt]; rfl)), hkept rfl, by rw [hlink],
      by rw [hlink], by rw [hlink], by rw [hlink], by rw [htally], by rw [htally]⟩
  case idle =>
    exact ⟨congrArg Host.Outcome.next (if_neg (by rw [hnone]; exact Bool.false_ne_true)),
      congrArg Host.Outcome.next (if_neg (by rw [hnone]; exact Bool.false_ne_true))⟩
  case sight =>
    refine ⟨{ s with link := s.link.sight }, congrArg Host.Outcome.next (if_pos hoff), fun hless => ?_, fun hlast => ?_⟩
    · rw [Link.sight, if_neg (by omega)]
    · rw [Link.sight, if_pos (by omega)]
  case noSight => exact congrArg Host.Outcome.next (if_neg hon)

end Sys2Proof.Proofs
end

