-- ==== Sys2Proof/Proofs/TransmitSuccess.lean ====
section
/-! The success of an attempt, and the raises of the cause under attempt. -/

namespace Sys2Proof.Machine

open Sys2Proof Sys2Proof.Config

variable {s t u v : State} {b : Buffer}

/-- An entry of a cause that does not stand in the set joins it (R144). -/
theorem mem_insertEntry_iff {e : PendingEntry} {l : List PendingEntry} (h : ∀ x ∈ l, x.cause ≠ e.cause)
    (x : PendingEntry) : x ∈ insertEntry e l ↔ x ∈ l ∨ x = e := by
  induction l with
  | nil => simp [insertEntry]
  | cons y ys ih =>
    rw [insertEntry, if_neg (h y (List.mem_cons_self ..)).symm]
    split
    · simp [or_comm]
    · rw [List.mem_cons, ih fun z hz => h z (List.mem_cons_of_mem _ hz), List.mem_cons, or_assoc]

/-- The pending set after the success of an ALARM (R147). -/
theorem Latch.mem_sent_iff {l : Latch} {c : Cause} (h : ∀ e : PendingEntry, l.after = some e → e.cause = c)
    (x : PendingEntry) : x ∈ l.sent c ↔ (x ∈ l.entries ∧ x.cause ≠ c) ∨ l.after = some x := by
  have hrest (y : PendingEntry) : y ∈ l.entries.filter (fun e => decide (e.cause ≠ c)) ↔
      y ∈ l.entries ∧ y.cause ≠ c := by rw [List.mem_filter, decide_eq_true_eq]
  unfold Latch.sent
  cases hafter : l.after with
  | none => simp
  | some e =>
    dsimp only
    rw [mem_insertEntry_iff, hrest, Option.some.injEq, eq_comm (a := x)]
    intro y hy
    rw [h e hafter]
    exact ((hrest y).1 hy).2

/-! ### The owner of the frame (R54, R147, R153, R164, R181) -/

/-- What the owner of a frame can change. -/
theorem State.sent_rest (s : State) (b : Buffer) : s.sent b = { s with
    link := { s.link with
      alarmSeq := (s.sent b).link.alarmSeq, fifo := (s.sent b).link.fifo, replies := (s.sent b).link.replies
      status := (s.sent b).link.status, tally := (s.sent b).link.tally }
    latch := { s.latch with entries := (s.sent b).latch.entries }
    view := (s.sent b).view, headroom := { s.headroom with basis := (s.sent b).headroom.basis }
    requests := (s.sent b).requests } := by
  cases b with
  | reply p =>
    unfold State.sent State.replySent State.answerHeld
    dsimp only
    split <;> rfl
  | _ => rfl

theorem State.sent_slots (s : State) (b : Buffer) :
    (s.sent b).link.status = (if b = .status then none else s.link.status) ∧
    (s.sent b).link.tally = (if b = .tally then none else s.link.tally) ∧
    (s.sent b).link.fifo = (if b = .handoff then s.link.fifo.tail else s.link.fifo) := by
  cases b with
  | reply p =>
    unfold State.sent State.replySent State.answerHeld
    dsimp only
    split <;> exact ⟨rfl, rfl, rfl⟩
  | _ => exact ⟨rfl, rfl, rfl⟩

/-- The reply slot of a terminal whose request waits is filled again (R181). -/
theorem State.sent_reply (s : State) (p : TerminalNo) :
    (s.requests.held[p] = none → (s.sent (.reply p)).link.replies = s.link.replies.set p.val none p.isLt ∧
      (s.sent (.reply p)).requests = s.requests) ∧
    (∀ h : HeldRequest, s.requests.held[p] = some h →
      (s.sent (.reply p)).link.replies =
        s.link.replies.set p.val (some (s.replyOf h.code h.bay h.number (some .busy) [])) p.isLt ∧
      (s.sent (.reply p)).requests = { s.requests with held := s.requests.held.set p.val none p.isLt }) := by
  have hsent : s.sent (.reply p) =
      ({ s with link := { s.link with replies := s.link.replies.set p.val none p.isLt } } : State).answerHeld p := rfl
  rw [hsent, State.answerHeld]
  refine ⟨fun hnone => ?_, fun h hheld => ?_⟩
  · dsimp only
    rw [hnone]
    exact ⟨rfl, rfl⟩
  · dsimp only
    rw [hheld]
    exact ⟨Vector.set_set .., rfl⟩

/-- The frames that are not a STATUS, an ALARM or a REPLY leave the owners of those alone. -/
theorem State.sent_others (s : State) (b : Buffer) :
    (b ≠ .status → (s.sent b).view = s.view ∧ (s.sent b).headroom = s.headroom) ∧
    ((∀ c, b ≠ .alarm c) → (s.sent b).latch.entries = s.latch.entries ∧ (s.sent b).link.alarmSeq = s.link.alarmSeq) ∧
    ((∀ p, b ≠ .reply p) → (s.sent b).requests = s.requests ∧ (s.sent b).link.replies = s.link.replies) := by
  cases b with
  | reply p =>
    refine ⟨fun _ => ?_, fun _ => ?_, fun h => absurd rfl (h p)⟩
    all_goals
      unfold State.sent State.replySent State.answerHeld
      dsimp only
      split <;> exact ⟨rfl, rfl⟩
  | alarm c => exact ⟨fun _ => ⟨rfl, rfl⟩, fun h => absurd rfl (h c), fun _ => ⟨rfl, rfl⟩⟩
  | status => exact ⟨fun h => absurd rfl h, fun _ => ⟨rfl, rfl⟩, fun _ => ⟨rfl, rfl⟩⟩
  | handoff => exact ⟨fun _ => ⟨rfl, rfl⟩, fun _ => ⟨rfl, rfl⟩, fun _ => ⟨rfl, rfl⟩⟩
  | tally => exact ⟨fun _ => ⟨rfl, rfl⟩, fun _ => ⟨rfl, rfl⟩, fun _ => ⟨rfl, rfl⟩⟩

/-- The own STATUS has gone out (R54, R153). -/
theorem State.sent_status (s : State) {f : StatusFrame} (h : s.link.status = some f) :
    (s.sent .status).view = { s.view with silent := false, silenceTimer := some 500 } ∧
    (s.sent .status).headroom.basis = if s.isBay = true then (f.block.extractLsb' 0 16).toNat else s.headroom.basis := by
  refine ⟨rfl, ?_⟩
  change (match s.link.status with
    | some f => if s.isBay then statusPower f else s.headroom.basis
    | none => s.headroom.basis) = _
  rw [h]
  rfl

/-- From `s` to `w` a frame of buffer `b` has gone out: its buffer, its owner, and the error counts (R164, R167). -/
structure State.Sends (s w : State) (b : Buffer) : Prop where
  rest : w = { s with
    link := { s.link with
      txErrors := w.link.txErrors, rxErrors := w.link.rxErrors, state := w.link.state, sightings := w.link.sightings
      alarmSeq := w.link.alarmSeq, fifo := w.link.fifo, replies := w.link.replies, status := w.link.status
      tally := w.link.tally }
    latch := { s.latch with entries := w.latch.entries }
    view := w.view, headroom := { s.headroom with basis := w.headroom.basis }, requests := w.requests
    tally := { s.tally with t6 := { s.tally.t6 with
      passiveEntries := w.tally.t6.passiveEntries, offEntries := w.tally.t6.offEntries } } }
  status : w.link.status = if b = .status then none else s.link.status
  tally : w.link.tally = if b = .tally then none else s.link.tally
  fifo : w.link.fifo = if b = .handoff then s.link.fifo.tail else s.link.fifo
  alarm : ∀ c : Cause, b = .alarm c → w.latch.entries = s.latch.sent c ∧ w.link.alarmSeq = s.link.alarmSeq + 1
  noAlarm : (∀ c, b ≠ .alarm c) → w.latch.entries = s.latch.entries ∧ w.link.alarmSeq = s.link.alarmSeq
  reply : ∀ p : TerminalNo, b = .reply p →
    (s.requests.held[p] = none → w.link.replies = s.link.replies.set p.val none p.isLt ∧ w.requests = s.requests) ∧
    (∀ h : HeldRequest, s.requests.held[p] = some h →
      w.link.replies = s.link.replies.set p.val (some (s.replyOf h.code h.bay h.number (some .busy) [])) p.isLt ∧
      w.requests = { s.requests with held := s.requests.held.set p.val none p.isLt })
  noReply : (∀ p, b ≠ .reply p) → w.requests = s.requests ∧ w.link.replies = s.link.replies
  shown : ∀ f : StatusFrame, b = .status → s.link.status = some f →
    w.view = { s.view with silent := false, silenceTimer := some 500 } ∧
    w.headroom.basis = if s.isBay = true then (f.block.extractLsb' 0 16).toNat else s.headroom.basis
  noStatus : b ≠ .status → w.view = s.view ∧ w.headroom = s.headroom

theorem State.setErrors_sends (s : State) (tx rx : Nat) (b : Buffer) : s.Sends ((s.setErrors tx rx).sent b) b := by
  have herrors := s.setErrors_rest tx rx
  generalize s.setErrors tx rx = v at herrors ⊢
  have hlink : v.link.status = s.link.status ∧ v.link.tally = s.link.tally ∧ v.link.fifo = s.link.fifo ∧
      v.link.replies = s.link.replies ∧ v.link.alarmSeq = s.link.alarmSeq :=
    ⟨by rw [herrors], by rw [herrors], by rw [herrors], by rw [herrors], by rw [herrors]⟩
  obtain ⟨hlstatus, hltally, hlfifo, hlreplies, hlseq⟩ := hlink
  have hlatch : v.latch = s.latch := by rw [herrors]
  have hview : v.view = s.view := by rw [herrors]
  have hheadroom : v.headroom = s.headroom := by rw [herrors]
  have hrequests : v.requests = s.requests := by rw [herrors]
  have hrole : v.isBay = s.isBay := by rw [herrors]; rfl
  have hcode (h : HeldRequest) : v.replyOf h.code h.bay h.number (some .busy) [] =
      s.replyOf h.code h.bay h.number (some .busy) [] := by rw [herrors]; rfl
  obtain ⟨hstatus, htally, hfifo⟩ := v.sent_slots b
  obtain ⟨hnoStatus, hnoAlarm, hnoReply⟩ := v.sent_others b
  have hrest := v.sent_rest b
  refine ⟨?_, ?_, ?_, ?_, fun c hc => ?_, fun h => ?_, fun p hp => ?_, fun h => ?_, fun f hb hf => ?_, fun h => ?_⟩
  · rw [hrest, herrors]
  · rw [hstatus, hlstatus]
  · rw [htally, hltally]
  · rw [hfifo, hlfifo]
  · rw [hc, ← hlatch, ← hlseq]
    exact ⟨rfl, rfl⟩
  · rw [← hlatch, ← hlseq]
    exact hnoAlarm h
  · have hsent := v.sent_reply p
    rw [hrequests, hlreplies] at hsent
    simp only [hcode] at hsent
    rw [hp]
    exact hsent
  · rw [← hrequests, ← hlreplies]
    exact hnoReply h
  · rw [hb, ← hview, ← hrole, ← hheadroom]
    exact v.sent_status (hlstatus.trans hf)
  · rw [← hview, ← hheadroom]
    exact hnoStatus h

end Sys2Proof.Machine

namespace Sys2Proof.Proofs

open Sys2Proof Sys2Proof.Machine Sys2Proof.Config

/-- Settles O39: what the owner of each buffer does (`sent_rest` and the lemmas after it), between the counts and the end of
the attempt. -/
theorem transmitSuccess : Obligations.TransmitSuccess := by
  refine ⟨fun s c place tag => ⟨s.raise_raised s rfl rfl rfl c place tag, rfl, s.attempting_iff c, fun hattempt => ?raised⟩,
    fun s a hattempt hplain hon => ?success⟩
  case raised =>
    refine ⟨foldRaise s.startup.nodeTime c place tag s.latch.after, if_pos hattempt, ?_⟩
    cases hafter : s.latch.after with
    | none => exact ⟨rfl, rfl, fun _ => ⟨rfl, rfl, rfl⟩, nofun⟩
    | some x =>
      refine ⟨rfl, rfl, nofun, fun y hy => ?_⟩
      obtain rfl := Option.some.inj hy
      exact ⟨rfl, rfl, rfl⟩
  case success =>
    have hsucceed : exec .transmitSuccess s =
        .next ((s.setErrors (s.link.txErrors - 1) s.link.rxErrors).sent a.buffer).endAttempt := by
      change Host.Outcome.next _ = _
      rw [hattempt]
      exact congrArg Host.Outcome.next (if_neg (by rw [hplain]; exact Bool.false_ne_true))
    have hsends := s.setErrors_sends (s.link.txErrors - 1) s.link.rxErrors a.buffer
    have hcounted := State.setErrors_counted hon (s.link.txErrors - 1) s.link.rxErrors
    have hcounts : s.Counted ((s.setErrors (s.link.txErrors - 1) s.link.rxErrors).sent a.buffer) (s.link.txErrors - 1)
        s.link.rxErrors := by
      have hrest := State.sent_rest (s.setErrors (s.link.txErrors - 1) s.link.rxErrors) a.buffer
      exact hcounted.congr (by rw [hrest]) (by rw [hrest]) (by rw [hrest]) (by rw [hrest]) (by rw [hrest]) (by rw [hrest])
    generalize State.sent _ a.buffer = w at hsends hcounts hsucceed
    have hended := State.endAttempt_counted hcounts
    obtain ⟨hends, hrest, hlink, htally⟩ := w.endAttempt_ends
    have hsame : s.AttemptEnds w.endAttempt (if a.buffer = .status then none else s.link.status)
        (if a.buffer = .tally then none else s.link.tally) := by
      rw [hsends.status, hsends.tally] at hends
      exact hends.of_same (by rw [hsends.rest]) (by rw [hsends.rest]) (by rw [hsends.rest]) (by rw [hsends.rest])
        (by rw [hsends.rest])
    have hentries : w.endAttempt.latch.entries = w.latch.entries := by rw [hrest]
    have hview : w.endAttempt.view = w.view := by rw [hrest]
    have hheadroom : w.endAttempt.headroom = w.headroom := by rw [hrest]
    have hrequests : w.endAttempt.requests = w.requests := by rw [hrest]
    have hslots : w.endAttempt.link.fifo = w.link.fifo ∧ w.endAttempt.link.replies = w.link.replies ∧
        w.endAttempt.link.alarmSeq = w.link.alarmSeq := ⟨by rw [hlink], by rw [hlink], by rw [hlink]⟩
    obtain ⟨hfifo, hreplies, hseq⟩ := hslots
    refine ⟨w.endAttempt, hsucceed, hended, hsame, fun c hc hafter => ⟨?_, fun e => ?_⟩, ?_, fun p hp => ?_,
      fun f hb hf => ?_, fun hb => ?_, fun hb => ?_, fun hb => ?_, by rw [hlink, hsends.rest], by rw [hlink, hsends.rest],
      ?_⟩
    · rw [hseq, (hsends.alarm c hc).2]
    · rw [hentries, (hsends.alarm c hc).1]
      exact Latch.mem_sent_iff hafter e
    · rw [hfifo, hsends.fifo]
    · rw [hreplies, hrequests]
      exact hsends.reply p hp
    · rw [hview, hheadroom]
      exact hsends.shown f hb hf
    · rw [hview, hheadroom]
      exact hsends.noStatus hb
    · rw [hentries, hseq]
      exact hsends.noAlarm hb
    · rw [hrequests, hreplies]
      exact hsends.noReply hb
    · generalize w.endAttempt = t at *
      rw [hrest, htally, hsends.rest]

end Sys2Proof.Proofs
end

