-- ==== Sys2Proof/Proofs/SilencePeriods.lean ====
section
/-! Silence, and the two periods of the link. -/

namespace Sys2Proof.Machine

open Sys2Proof Sys2Proof.Config

variable {s t u : State} {x : Bay} {r : Record}

/-! ### A line stop at one bay (R38) -/

/-- The states that a line stop ends (R38). -/
def Slot.Stops (x : Slot) (r : Record) : Prop :=
  x = .pack .discharging r ∨ x = .pack .admitted r ∨ x = .pack (.held .thermal) r

theorem Bay.lineStop_of_stops (h : x.slot.Stops r) : x.lineStop = x.enter (.held .lineStop) r := by
  unfold Bay.lineStop
  rcases h with h | h | h
  all_goals rw [h]

theorem Bay.lineStop_of_others (h : ∀ r : Record, ¬ x.slot.Stops r) : x.lineStop = x := by
  unfold Bay.lineStop
  split
  · next r hslot => exact absurd (.inl hslot) (h r)
  · next r hslot => exact absurd (.inr (.inl hslot)) (h r)
  · next r hslot => exact absurd (.inr (.inr hslot)) (h r)
  · rfl

/-! ### Silence (R153) -/

theorem State.fallSilent_eq (s : State) : s.fallSilent = { s with
    view := { s.view with silent := true, silenceTimer := none }, headroom := { s.headroom with basis := 0 }
    bays := (s.mapBays Bay.lineStop).bays, feed := s.feed.losePermissive, lamps := s.fallSilent.lamps } := rfl

theorem State.fallSilent_bay (s : State) (b : BayNo) : s.fallSilent.bay b = (s.bay b).lineStop :=
  (congrArg (·[b]) (congrArg State.bays s.fallSilent_eq)).trans (s.mapBays_bay Bay.lineStop b)

/-! ### The periods (R165) -/

theorem State.underAttempt_iff (s : State) (b : Buffer) :
    s.underAttempt b = true ↔ ∃ a : Attempt, s.link.attempt = some a ∧ a.buffer = b := by
  unfold State.underAttempt
  cases s.link.attempt <;> simp

theorem State.underAttempt_false {b : Buffer} (h : ∀ a : Attempt, s.link.attempt = some a → a.buffer ≠ b) :
    s.underAttempt b = false := by
  rw [← Bool.not_eq_true, s.underAttempt_iff]
  exact fun ⟨a, ha, hb⟩ => h a ha hb

/-- A formation in place of an unsent frame counts an overrun (R165). -/
theorem Tally6.afterFormation_overrun {α : Type} (x : Tally6) (o : Option α) [Decidable (o = none)] :
    (x.afterFormation o.isSome).statusOverrun = if o = none then x.statusOverrun else min (x.statusOverrun + 1) 4294967295 := by
  cases o with
  | none => exact (if_pos rfl).symm
  | some a => exact (if_neg nofun).symm

/-- What a formed STATUS says does not depend on the link (R170). -/
theorem State.StatusOf.of_link {f : StatusFrame} {l : Link} (h : ({ s with link := l } : State).StatusOf f) :
    s.StatusOf f := State.StatusOf.congr (s := { s with link := l }) (t := s) rfl h

end Sys2Proof.Machine

namespace Sys2Proof.Proofs

open Sys2Proof Sys2Proof.Machine Sys2Proof.Config

/-- Settles O37: silence by `fallSilent_eq`, each period by whether its frame is under attempt, and the codes. -/
theorem silenceAndPeriods : Obligations.SilenceAndPeriods := by
  refine ⟨fun s k htimer => ?silence, fun s k htimer => ?status, fun s k htimer => ?tally, fun _ _ _ => rfl, rfl, rfl,
    fun s b => ?safe⟩
  case silence =>
    have hexec : exec .silenceTimerExpiry s = .next s.fallSilent :=
      congrArg Host.Outcome.next (if_pos (by rw [htimer]; rfl))
    have hbay := s.fallSilent_bay
    have heq := s.fallSilent_eq
    generalize s.fallSilent = t at hexec hbay heq
    have hfeed : t.feed = s.feed.losePermissive := by rw [heq]
    obtain ⟨hkind, hrotor, -, -, -⟩ := s.feed.losePermissive_spec
    refine ⟨t, hexec, by rw [heq], by rw [heq], hfeed, by rw [hfeed]; exact hkind, by rw [hfeed]; exact hrotor,
      fun b r hstops => ?_, fun b hothers => ?_, ?_⟩
    · rw [hbay, Bay.lineStop_of_stops hstops]
      exact ⟨rfl, rfl, rfl, rfl⟩
    · rw [hbay, Bay.lineStop_of_others fun r hstops => ?_]
      obtain ⟨h1, h2, h3⟩ := hothers r
      exact hstops.elim h1 (Or.rec h2 h3)
    · rw [heq]
  case status =>
    have hexec : exec .statusPeriodExpiry s = .next (if s.underAttempt .status then
        { s with link := { s.link with statusTimer := some 100, statusDue := true } }
        else ({ s with link := { s.link with statusTimer := some 100 } } : State).placeStatus) :=
      congrArg Host.Outcome.next (if_pos (by rw [htimer]; rfl))
    refine ⟨_, hexec, fun hunder => if_pos ((s.underAttempt_iff _).2 hunder), fun hfree => ?_⟩
    rw [State.underAttempt_false hfree, if_neg Bool.false_ne_true, State.placeStatus_eq]
    refine ⟨⟨_, rfl, rfl, (State.formStatus_statusOf _).of_link⟩, ?_, ?_⟩
    · exact Tally6.afterFormation_overrun s.tally.t6 s.link.status
    · rw [Tally6.afterFormation_eq]
  case tally =>
    have hexec : exec .tallyPeriodExpiry s = .next (if s.underAttempt .tally then
        { s with link := { s.link with tallyTimer := some 1000, tallyDue := true } }
        else ({ s with link := { s.link with tallyTimer := some 1000 } } : State).placeTally) :=
      congrArg Host.Outcome.next (if_pos (by rw [htimer]; rfl))
    refine ⟨_, hexec, fun hunder => if_pos ((s.underAttempt_iff _).2 hunder), fun hfree => ?_⟩
    rw [State.underAttempt_false hfree, if_neg Bool.false_ne_true, State.placeTally_eq]
    refine ⟨⟨_, rfl, rfl, State.TallyOf.congr rfl (State.formTally_tallyOf _)⟩, ?_, ?_⟩
    · exact Tally6.afterFormation_overrun s.tally.t6 s.link.tally
    · rw [Tally6.afterFormation_eq]
  case safe =>
    cases (s.bay b).slot with
    | pack st r => cases st <;> simp [Slot.isSafe, Slot.isOffered]
    | empty => simp [Slot.isSafe, Slot.isOffered]
    | orphan => simp [Slot.isSafe, Slot.isOffered]

end Sys2Proof.Proofs
end

