-- ==== Sys2Proof/Proofs/FramesJudged.lean ====
section
/-! How a received frame is judged: every row of a frame is one reception, and what its verdict does. -/

namespace Sys2Proof

/-! ### The bytes of a row's frame -/

theorem HandoffFrame.bytes_length (m : Byte) (f : HandoffFrame) : (f.bytes m).length = 16 := by
  simp [HandoffFrame.bytes, Machine.leBytes_length]

theorem RequestFrame.bytes_length (m : Byte) (f : RequestFrame) : (f.bytes m).length = 16 := by
  simp [RequestFrame.bytes, Machine.leBytes_length]

theorem StatusFrame.bytes_length (f : StatusFrame) : f.bytes.length = 32 := by
  simp [StatusFrame.bytes, Machine.leBytes_length]

theorem TallyFrame.bytes_length (f : TallyFrame) : f.bytes.length = 64 := by
  simp [TallyFrame.bytes, Machine.leBytes_length]

theorem AlarmFrame.bytes_length (f : AlarmFrame) : f.bytes.length = 16 := by
  simp [AlarmFrame.bytes, Machine.leBytes_length]

end Sys2Proof

namespace Sys2Proof.Machine

open Sys2Proof Sys2Proof.Config

variable {s t : State} {w : WireFrame} {c : Instr} {f : HandoffFrame} {m : Byte} {n : NodeNo}

/-- A field of one byte is that byte. -/
theorem fieldAt_head (d : List Byte) : BitVec.ofNat 8 (fieldAt d 0 1) = d.getD 0 0 := by
  cases d with
  | nil => rfl
  | cons b d => simp [fieldAt, leNat]

/-! ### Every frame is one reception -/

/-- The state after the frame is received: judged by its own bits, and delivered to some block (R160). -/
def State.Receives (s : State) (w : WireFrame) (t : State) : Prop :=
  ∃ deliver : State → State, t = s.receive (w.classic || w.extended) w.kind w.src w.dst w.data.length deliver

theorem State.Receives.of_plain {kind : BitVec 3} {src dst : Address} {d : List Byte} {k : Nat} (hlength : d.length = k)
    (deliver : State → State) : s.Receives (plainFrame kind src dst d) (s.receive false kind src dst k deliver) :=
  ⟨deliver, by rw [← hlength]; rfl⟩

theorem State.Receives.handoff (m : Byte) (f : HandoffFrame) (take : NodeNo → BayNo → State → State) :
    s.Receives (handoffWire m f) (s.receiveHandoff m f take) :=
  .of_plain (f.bytes_length m) _

theorem State.Receives.request (code : Byte) (f : RequestFrame) (eval : State → Answer) :
    s.Receives (requestWire code f) (s.serve code f eval) :=
  .of_plain (f.bytes_length code) _

theorem kindLength_of_kind {kind : BitVec 3} {k : Nat} (h : kindLength kind = some k) :
    (kind = kindAlarm ∧ k = 16) ∨ (kind = kindHandoff ∧ k = 16) ∨ (kind = kindRequest ∧ k = 16) ∨
      (kind = kindStatus ∧ k = 32) ∨ (kind = kindTally ∧ k = 64) := by
  unfold kindLength at h
  split at h
  · next hkind => rcases hkind with rfl | rfl | rfl <;> simp_all
  · split at h
    · simp_all
    · split at h <;> simp_all

theorem State.Receives.wire (s : State) (w : WireFrame) : s.Receives w (s.receiveWire w) := by
  unfold State.Receives State.receiveWire
  by_cases hodd : (w.classic || w.extended) = true
  · rw [if_pos hodd, hodd]
    exact ⟨_, rfl⟩
  rw [if_neg hodd, (Bool.not_eq_true _).mp hodd]
  by_cases hlength : kindLength w.kind = some w.data.length
  · rw [if_neg (not_not_intro hlength)]
    rcases kindLength_of_kind hlength with ⟨hkind, hk⟩ | ⟨hkind, hk⟩ | ⟨hkind, hk⟩ | ⟨hkind, hk⟩ | ⟨hkind, hk⟩
    all_goals rw [hkind, hk]
    case inl | inr.inr.inr.inl | inr.inr.inr.inr => exact ⟨_, rfl⟩
    · rw [if_pos rfl, State.receiveMessage, State.receiveHandoff]
      exact ⟨_, rfl⟩
    · exact ⟨_, (if_neg (by decide)).trans (if_pos rfl)⟩
  · rw [if_pos hlength]
    exact ⟨_, rfl⟩

/-- Every row that stands for a frame is the reception of that frame. -/
theorem exec_receives (h : encodeFrame c = some w) (s : State) : ∃ t : State, exec c s = .next t ∧ s.Receives w t := by
  cases c <;> cases h
  case foreignFrameReceived => exact ⟨_, rfl, .wire s w⟩
  case framePassedBy => exact ⟨_, rfl, .wire s w⟩
  case statusReceived f => exact ⟨_, rfl, .of_plain f.bytes_length _⟩
  case tallyReceived f => exact ⟨_, rfl, .of_plain f.bytes_length _⟩
  case alarmReceived f => exact ⟨_, rfl, .of_plain f.bytes_length _⟩
  case offerReceived | takeReceived | declineReceived | withdrawReceived | settleReceived =>
    exact ⟨_, rfl, .handoff _ _ _⟩
  all_goals exact ⟨_, rfl, .request _ _ _⟩

/-! ### The verdicts (R160) -/

theorem State.Receives.deaf (h : s.Receives w t) (hdeaf : s.receiving = false) : t = s := by
  obtain ⟨deliver, rfl⟩ := h
  rw [State.receive, hdeaf]
  rfl

theorem State.Receives.clashes (h : s.Receives w t) (hreceiving : s.receiving = true)
    (hjudge : s.judge (w.classic || w.extended) w.kind w.src w.dst w.data.length = .clash) : t = s.eased.clash := by
  obtain ⟨deliver, rfl⟩ := h
  rcases s.receive_spec (w.classic || w.extended) w.kind w.src w.dst w.data.length deliver with h | h | h | h | h
  all_goals simp_all

theorem State.Receives.foreign (h : s.Receives w t) (hreceiving : s.receiving = true)
    (hjudge : s.judge (w.classic || w.extended) w.kind w.src w.dst w.data.length = .foreign) :
    t = s.eased.countForeign := by
  obtain ⟨deliver, rfl⟩ := h
  rcases s.receive_spec (w.classic || w.extended) w.kind w.src w.dst w.data.length deliver with h | h | h | h | h
  all_goals simp_all

theorem State.Receives.passedBy (h : s.Receives w t) (hreceiving : s.receiving = true)
    (hjudge : s.judge (w.classic || w.extended) w.kind w.src w.dst w.data.length = .passedBy) : t = s.eased := by
  obtain ⟨deliver, rfl⟩ := h
  rcases s.receive_spec (w.classic || w.extended) w.kind w.src w.dst w.data.length deliver with h | h | h | h | h
  all_goals simp_all

theorem State.judge_foreign_form {odd : Bool} {kind : BitVec 3} {src dst : Address} {k : Nat}
    (hother : src ≠ s.startup.straps.node) (h : odd = true ∨ 6 ≤ kind.toNat ∨ src = 15) :
    s.judge odd kind src dst k = .foreign := by
  rw [State.judge, if_neg hother, if_pos h]

theorem State.judge_foreign_table {odd : Bool} {kind : BitVec 3} {src dst : Address} {k : Nat}
    (hother : src ≠ s.startup.straps.node) (hdst : dst = s.startup.straps.node ∨ dst = 15)
    (h : sourceAllowed kind src = false ∨ destinationAllowed kind dst = false ∨ kindLength kind ≠ some k) :
    s.judge odd kind src dst k = .foreign := by
  have hours : ¬ (dst ≠ s.startup.straps.node ∧ dst ≠ 15) := by tauto
  have hno : ¬ (sourceAllowed kind src = true ∧ destinationAllowed kind dst = true ∧ kindLength kind = some k) := by
    rintro ⟨hsrc, hdst, hlength⟩
    simp [hsrc, hdst, hlength] at h
  rw [State.judge, if_neg hother, if_neg hours, if_neg hno]
  exact ite_self _

theorem State.judge_passedBy {kind : BitVec 3} {src dst : Address} {k : Nat} (hother : src ≠ s.startup.straps.node)
    (hkind : kind.toNat < 6) (hsrc : src ≠ 15) (hdst : dst ≠ s.startup.straps.node ∧ dst ≠ 15) :
    s.judge false kind src dst k = .passedBy := by
  have hform : ¬ (false = true ∨ 6 ≤ kind.toNat ∨ src = 15) := by
    rintro (h | h | h)
    · exact nomatch h
    · omega
    · exact hsrc h
  rw [State.judge, if_neg hother, if_neg hform, if_pos hdst]

theorem State.eased_repeated (s : State) (a : Fin 15) (bytes : List Byte) :
    s.eased.repeated a bytes = s.repeated a bytes := by
  rw [State.repeated, show s.eased.filter = s.filter by simp [State.eased], State.repeated]

/-! ### A HANDOFF that the agent does not take (R63, R73, R75) -/

/-- A heard HANDOFF that names no bay, or that the agent's rule counts foreign, is foreign and stands in the repeat
filter. -/
theorem State.receiveHandoff_foreign (h : s.HearsNode m f n) (take : NodeNo → BayNo → State → State)
    (hforeign : ∀ b : BayNo, handoffBay f = some b → take n b (s.told m f n) = (s.told m f n).countForeign) :
    s.receiveHandoff m f take = (s.told m f n).countForeign := by
  have hj : s.judge false kindHandoff f.src f.dst 16 = .delivered := by
    refine State.judge_delivered h.other ?_ ?_ ?_ (by decide) (by decide) (.inl h.addressed)
    · rw [h.source]; exact sourceAllowed_handoff n
    · rw [h.source]; exact nodeAddress_ne_15 n
    · rw [h.addressed]; simpa [destinationAllowed] using h.own
  have hn : nodeOf f.src = some n := by rw [h.source]; exact nodeOf_nodeAddress n
  have hf : filterOf f.src = some (nodePlace n) := by rw [h.source]; exact filterOf_nodeAddress n
  have hq : ¬ s.eased.repeated (nodePlace n) (f.bytes m) = true := by
    rw [State.eased_repeated, h.fresh]
    decide
  have htold : State.told s m f n = { s.eased with
      filter := s.eased.filter.set (nodePlace n).val ⟨some (f.bytes m), some repeatMs⟩ (nodePlace n).isLt } := by
    simp [State.told, State.heard, State.eased]
  unfold State.receiveHandoff
  rw [State.receive_delivered h.receiving hj]
  simp only [hf, hn, State.filtered_spec, if_neg hq]
  rw [← htold]
  split
  · next b hb => exact hforeign b hb
  · rfl

theorem exec_of_handoffRow (h : handoffRow c = some (m, f)) (s : State) : exec c s = .next (s.receiveMessage m f) := by
  cases c <;> cases h
  all_goals rfl

theorem handoffBay_none (h : f.tag = 0 ∨ 3 < f.bay.toNat) : handoffBay f = none := by
  unfold handoffBay
  split
  · rfl
  · next htag => exact dif_neg (by have := h.resolve_left htag; omega)

theorem exec_foreignFrame_handoff (hformat : w.classic = false ∧ w.extended = false) (hkind : w.kind = kindHandoff)
    (hlength : w.data.length = 16) (s : State) : exec (.foreignFrameReceived w) s =
      .next (s.receiveMessage (w.data.getD 0 0) (HandoffFrame.ofBytes w.src w.dst w.data)) := by
  refine congrArg Host.Outcome.next ?_
  rw [State.receiveWire, hformat.1, hformat.2, hlength, hkind, fieldAt_head]
  rfl

/-- The lifecycles and roles that do not take a message of the exchange (R73, R75, R79). -/
def State.Declines (s : State) (m : Byte) : Prop :=
  ((m = 0 ∨ m = 3) ∧ (s.isShred = false ∨ s.startup.life ≠ .running)) ∨
    ((m = 1 ∨ m = 2) ∧ (s.isBay = false ∨ s.startup.life ≠ .running)) ∨
    (m = 4 ∧ (s.isBay = false ∨ s.startup.life = .listen))

theorem State.receiveMessage_declined (h : s.HearsNode m f n) (hdeclines : s.Declines m) :
    s.receiveMessage m f = (s.told m f n).countForeign := by
  have hrun : s.startup.life ≠ .running → (s.told m f n).running = false := fun hlife => by
    rw [State.told_running]
    exact decide_eq_false hlife
  have hgate {p q : Bool} (h : p = false ∨ q = false) : (!p || !q) = true := by
    rcases h with rfl | rfl
    · rfl
    · exact Bool.or_true _
  refine s.receiveHandoff_foreign h _ fun b _ => ?_
  rcases hdeclines with ⟨rfl | rfl, hno⟩ | ⟨rfl | rfl, hno⟩ | ⟨rfl, hno⟩
  · exact if_pos (hgate (hno.imp (s.told_isShred 0 f n).trans hrun))
  · refine if_neg ?_
    have hclosed := hgate (hno.imp (s.told_isShred 3 f n).trans hrun)
    rw [← Bool.not_and, Bool.not_eq_true'] at hclosed
    rw [hclosed, Bool.false_and]
    nofun
  · exact if_pos (hgate (hno.imp (s.told_isBay 1 f n).trans hrun))
  · exact if_pos (hgate (hno.imp (s.told_isBay 2 f n).trans hrun))
  · refine if_pos ?_
    rcases hno with hbay | hlife
    · rw [State.told_isBay, hbay]
      rfl
    · rw [State.told_startup, hlife]
      exact Bool.or_true _

/-! ### A repeat (R162) -/

theorem filterOf_of_val {src : Address} {a : Fin 15} (h : src.toNat = a.val) : filterOf src = some a := by
  rw [filterOf, dif_pos (by omega)]
  exact congrArg some (Fin.ext h)

/-- What a repeat of a frame of one station to this node is (R162). -/
structure State.Repeats (s : State) (kind : BitVec 3) (src dst : Address) (a : Fin 15) (bytes : List Byte) : Prop where
  receiving : s.receiving = true
  delivered : s.judge false kind src dst 16 = .delivered
  allowed : sourceAllowed kind src = true
  place : src.toNat = a.val
  again : s.repeated a bytes = true

theorem State.Repeats.receiveHandoff {a : Fin 15} (h : s.Repeats kindHandoff f.src f.dst a (f.bytes m))
    (take : NodeNo → BayNo → State → State) : s.receiveHandoff m f take = s.eased := by
  have hnode : nodeOf f.src = some ⟨f.src.toNat, _⟩ := dif_pos (by have := of_decide_eq_true h.allowed; omega)
  unfold State.receiveHandoff
  rw [State.receive_delivered h.receiving h.delivered]
  simp only [filterOf_of_val h.place, hnode, State.filtered_spec]
  rw [if_pos ((s.eased_repeated ..).trans h.again)]

theorem State.Repeats.serve {a : Fin 15} {f : RequestFrame} {code : Byte}
    (h : s.Repeats kindRequest f.src f.dst a (f.bytes code)) (eval : State → Answer) : s.serve code f eval = s.eased := by
  have hterminal : terminalOf f.src = some ⟨f.src.toNat - 12, _⟩ := dif_pos (of_decide_eq_true h.allowed)
  unfold State.serve
  rw [State.receive_delivered h.receiving h.delivered]
  simp only [filterOf_of_val h.place, hterminal, State.filtered_spec]
  rw [if_pos ((s.eased_repeated ..).trans h.again)]

/-- A repeat is discarded, whatever row of the exchange or of the requests it is (R162). -/
theorem exec_repeat {a : Fin 15} (hframe : encodeFrame c = some w) (hnotForeign : ∀ v, c ≠ .foreignFrameReceived v)
    (hnotPassed : ∀ v, c ≠ .framePassedBy v) (hkind : w.kind = kindHandoff ∨ w.kind = kindRequest)
    (h : s.Repeats w.kind w.src w.dst a w.data) : exec c s = .next s.eased := by
  cases c <;> cases hframe
  case foreignFrameReceived => exact absurd rfl (hnotForeign w)
  case framePassedBy => exact absurd rfl (hnotPassed w)
  case statusReceived | tallyReceived | alarmReceived => exact absurd hkind (not_or.mpr ⟨nofun, nofun⟩)
  case offerReceived | takeReceived | declineReceived | withdrawReceived | settleReceived =>
    exact congrArg _ (h.receiveHandoff _)
  all_goals exact congrArg _ (h.serve _)

end Sys2Proof.Machine

namespace Sys2Proof.Proofs

open Sys2Proof Sys2Proof.Machine Sys2Proof.Config

/-- Settles O34, by the verdict on the frame and, for a HANDOFF delivered, by what the agent's rule makes of it. -/
theorem framesJudged : Obligations.FramesJudged := by
  refine ⟨fun s src dst f n h => ?alarm, fun s w hreceiving hother h => ?disallowed,
    fun s w hreceiving hwell hother hdst => ?passed, fun s c m f n hrow h hnone => ?tagless,
    fun s c m f n b hrow h hdeclines => ?declined, fun s w n hclassic hextended hkind hlength => ?message,
    fun s c w a hframe hnotForeign hnotPassed hkind hreceiving hother hdst hown hsrc ha hrepeat => ?again,
    fun s c w hframe hdeaf => ?deaf, fun s a => ?window⟩
  case alarm =>
    have hsource : sourceAllowed kindAlarm src = true := by rw [h.source]; exact sourceAllowed_alarm n
    exact congrArg _ (State.receive_of_hears h hsource (by decide) (by decide) (by decide) _)
  case disallowed =>
    refine congrArg _ ((State.Receives.wire s w).foreign hreceiving ?_)
    rcases h with h | h | h | h | ⟨hdst, h⟩
    · exact State.judge_foreign_form hother (.inl (by rw [h]; rfl))
    · exact State.judge_foreign_form hother (.inl (by rw [h, Bool.or_true]))
    · exact State.judge_foreign_form hother (.inr (.inl h))
    · exact State.judge_foreign_form hother (.inr (.inr h))
    · exact State.judge_foreign_table hother hdst h
  case passed =>
    simp only [Instr.wellFormed, Bool.and_eq_true, decide_eq_true_eq, Bool.not_eq_true'] at hwell
    obtain ⟨⟨⟨⟨⟨_, hclassic⟩, hextended⟩, hkind⟩, hsrc⟩, hall⟩ := hwell
    refine congrArg _ ((State.Receives.wire s w).passedBy hreceiving ?_)
    rw [hclassic, hextended]
    exact State.judge_passedBy hother hkind hsrc ⟨hdst, hall⟩
  case tagless =>
    rw [exec_of_handoffRow hrow]
    exact congrArg _ (State.receiveHandoff_foreign h _ fun b hb => by rw [handoffBay_none hnone] at hb; exact nomatch hb)
  case declined =>
    rw [exec_of_handoffRow hrow]
    exact congrArg _ (State.receiveMessage_declined h.toHearsNode hdeclines)
  case message =>
    intro m f hm h
    replace hm : 4 < (w.data.getD 0 0).toNat := hm
    rw [exec_foreignFrame_handoff ⟨hclassic, hextended⟩ hkind hlength]
    refine congrArg _ (State.receiveHandoff_foreign h _ fun b _ => ?_)
    split
    case h_6 => rfl
    all_goals omega
  case again =>
    refine exec_repeat hframe hnotForeign hnotPassed hkind ⟨hreceiving, ?_, hsrc, ha, hrepeat⟩
    have hlast : w.src ≠ 15 := fun h => absurd ha (by rw [h]; exact fun e => absurd a.isLt (by rw [← e]; decide))
    have hours : destinationAllowed w.kind w.dst = true := by
      rw [destinationAllowed, if_pos hkind, hdst]
      exact decide_eq_true hown
    refine State.judge_delivered hother hsrc hlast hours ?_ ?_ (.inl hdst)
    · rcases hkind with hkind | hkind
      all_goals rw [hkind]; rfl
    · rcases hkind with hkind | hkind
      all_goals rw [hkind]; decide
  case deaf =>
    obtain ⟨t, hexec, ht⟩ := exec_receives hframe s
    rw [hexec, ht.deaf hdeaf]
  case window => rfl

end Sys2Proof.Proofs
end

