-- ==== Sys2Proof/Proofs/Clash.lean ====
section
/-! A clash: the entry to SAFE-STOP, block by block. -/

namespace Sys2Proof.Machine

open Sys2Proof Sys2Proof.Config

variable {s t : State} {x : Bay} {r : Record}

/-! ### What SAFE-STOP does to one bay (R38, R73) -/

/-- The states that the entry to SAFE-STOP takes back to SAFE (R73). -/
def Slot.Returns (x : Slot) (r : Record) : Prop :=
  ∃ n : NodeNo, x = .pack (.offered n) r ∨ (x = .pack (.releasing n) r ∧ r.settleEarly = false)

theorem Bay.safeStop_of_stops (h : x.slot.Stops r) :
    x.safeStop = { x.enter (.held .lineStop) r with gate := false } := by
  rw [← Bay.lineStop_of_stops h]
  unfold Bay.safeStop
  rcases h with h | h | h
  all_goals rw [h]

theorem Bay.safeStop_of_returns (h : x.slot.Returns r) : x.safeStop = x.enter .safe r := by
  unfold Bay.safeStop
  obtain ⟨n, h | ⟨h, hearly⟩⟩ := h
  · rw [h]
  · rw [h]
    exact if_neg (by rw [hearly]; nofun)

theorem Bay.safeStop_of_others (h : ∀ r : Record, ¬ x.slot.Stops r ∧ ¬ x.slot.Returns r) :
    x.safeStop = { x with gate := false } := by
  unfold Bay.safeStop
  split
  · next n r hslot => exact absurd ⟨n, .inl hslot⟩ (h r).2
  · next n r hslot =>
    refine if_pos (by_contra fun hearly => (h r).2 ⟨n, .inr ⟨hslot, ?_⟩⟩)
    rwa [Bool.not_eq_true] at hearly
  · rw [Bay.lineStop_of_others fun r => (h r).1]

theorem Bay.safeStop_not_discharging (x : Bay) : x.safeStop.slot.isDischarging = false := by
  by_cases hstops : ∃ r : Record, x.slot.Stops r
  · obtain ⟨r, hr⟩ := hstops
    rw [Bay.safeStop_of_stops hr]
    rfl
  by_cases hreturns : ∃ r : Record, x.slot.Returns r
  · obtain ⟨r, hr⟩ := hreturns
    rw [Bay.safeStop_of_returns hr]
    rfl
  rw [Bay.safeStop_of_others fun r => ⟨fun h => hstops ⟨r, h⟩, fun h => hreturns ⟨r, h⟩⟩]
  have hno : ∀ r : Record, x.slot ≠ .pack .discharging r := fun r h => hstops ⟨r, .inl h⟩
  unfold Slot.isDischarging
  split
  · next r h => exact absurd h (hno r)
  · rfl

/-! ### The entry to SAFE-STOP (R176, R178) -/

/-- With the rotor not commanded to turn, a reservation that ends leaves the idle timer stopped (R92). -/
theorem State.dropReservation_still (h : s.feed.rotor.commanded = false) : s.dropReservation = { s with
    chute := { s.chute with reservation := none, arrivalTimer := none, conveyor := false }
    feed := { s.feed with idleTimer := none } } := by
  have hrotor : s.feed.rotor ≠ .running := fun hrun => by rw [hrun] at h; exact nomatch h
  exact State.refreshIdle_stops fun hidle => hrotor hidle.1

theorem State.enterSafeStop_eq (s : State) : s.enterSafeStop = { s with
    startup := { s.startup with life := .safeStop, listenTimer := none }
    view := { s.view with silent := false, silenceTimer := none }
    link := { s.link with attempt := none, fifo := [], replies := Vector.replicate 3 none, status := none, tally := none
                          statusTimer := none, tallyTimer := none, statusDue := false, tallyDue := false }
    latch := { s.latch with after := none }
    requests := { held := Vector.replicate 3 none, resetPending := false }
    bays := (s.mapBays Bay.safeStop).bays
    chute := { s.chute with reservation := none, arrivalTimer := none, conveyor := false }
    feed := { s.feed.losePermissive with idleTimer := none }
    lamps := s.enterSafeStop.lamps } := by
  obtain ⟨-, hstill, -⟩ := s.feed.losePermissive_spec
  have hlit {u v : State} (h : u = v) : u.light = { v with lamps := u.light.lamps } := by
    subst h
    rfl
  exact hlit (State.dropReservation_still hstill)

/-- The state after a clash in LISTEN or RUNNING (R176). -/
theorem State.clash_eq (h : s.startup.life ≠ .safeStop) : s.eased.clash = { s with
    startup := { s.startup with life := .safeStop, listenTimer := none }
    view := { s.view with silent := false, silenceTimer := none }
    link := { s.eased.link with
      attempt := none, fifo := [], replies := Vector.replicate 3 none, status := none, tally := none
      statusTimer := none, tallyTimer := none, statusDue := false, tallyDue := false }
    tally := s.eased.tally
    latch := { s.latch with after := none }
    faults := s.faultsAfter [(.clash, .node s.startup.straps.node.toNat, none)]
    requests := { held := Vector.replicate 3 none, resetPending := false }
    bays := (s.mapBays Bay.safeStop).bays
    chute := { s.chute with reservation := none, arrivalTimer := none, conveyor := false }
    feed := { s.feed.losePermissive with idleTimer := none }
    lamps := s.eased.enterSafeStop.lamps } := by
  have hrest : s.eased = { s with link := s.eased.link, tally := s.eased.tally } := by
    conv_lhs => rw [State.eased, State.setErrors_rest]
    conv_rhs => rw [State.eased, State.setErrors_rest]
  have hfaults : (s.eased.enterSafeStop.enterFault .clash (.node s.startup.straps.node.toNat) none).faults =
      s.faultsAfter [(.clash, .node s.startup.straps.node.toNat, none)] :=
    State.enterFault_faultsAfter s _ (by rw [State.enterSafeStop_eq, hrest]) (by rw [State.enterSafeStop_eq, hrest]) _ _ _
  have hstartup : s.eased.startup = s.startup := by rw [hrest]
  have hsafe := s.eased.enterSafeStop_eq
  rw [State.clash, hstartup, if_neg h, ← hfaults]
  generalize s.eased.enterSafeStop = u at hsafe
  generalize s.eased = v at hrest hsafe
  change ({ u with faults := (u.enterFault .clash (.node s.startup.straps.node.toNat) none).faults } : State) = _
  generalize (u.enterFault .clash (.node s.startup.straps.node.toNat) none).faults = record
  rw [hsafe, hrest]
  rfl

end Sys2Proof.Machine

namespace Sys2Proof.Proofs

open Sys2Proof Sys2Proof.Machine Sys2Proof.Config

/-- Settles O35: the frame is a clash by its source, and the entry to SAFE-STOP by `enterSafeStop_eq`. -/
theorem clashEntersSafeStop : Obligations.ClashEntersSafeStop := by
  intro s c w hframe hreceiving hown
  obtain ⟨t, hexec, ht⟩ := exec_receives hframe s
  have hclash : t = s.eased.clash := ht.clashes hreceiving (if_pos hown)
  rw [hexec, ht.clashes hreceiving (if_pos hown)]
  refine ⟨fun hlife => congrArg _ (if_pos ?_), fun hlife => ⟨_, rfl, ?_⟩⟩
  · rw [← hlife]
    exact congrArg (·.life) (State.setErrors_startup ..)
  have heq := State.clash_eq (s := s) (by rcases hlife with h | h; all_goals rw [h]; nofun)
  have hbay (b : BayNo) : s.eased.clash.bay b = (s.bay b).safeStop := by
    rw [heq]
    exact s.mapBays_bay Bay.safeStop b
  generalize s.eased.clash = t at heq hbay
  have hquiet : t.Quiet := by
    rw [heq]
    exact ⟨rfl, rfl, fun k => Vector.getElem_replicate .., rfl, rfl, ⟨rfl, rfl⟩, rfl, rfl⟩
  have hfeed : t.feed = { s.feed.losePermissive with idleTimer := none } := by rw [heq]
  obtain ⟨hkind, hrotor, -, -, -⟩ := s.feed.losePermissive_spec
  refine ⟨by rw [heq], hquiet, by rw [heq], by rw [heq], by rw [heq], by rw [heq], hfeed, by rw [hfeed]; exact hkind,
    by rw [hfeed]; exact hrotor, by rw [heq], by rw [heq], by rw [heq], fun b => ?_, by rw [heq]⟩
  rw [hbay]
  refine ⟨fun r hr => ?_, fun r hr => ?_, fun hno => Bay.safeStop_of_others hno, (s.bay b).safeStop_not_discharging⟩
  · rw [Bay.safeStop_of_stops hr]
    exact ⟨rfl, rfl, rfl, rfl, rfl⟩
  · rw [Bay.safeStop_of_returns hr]
    exact ⟨rfl, rfl, rfl, rfl, rfl⟩

end Sys2Proof.Proofs
end

