-- ==== Sys2Proof/Proofs/Decoding.lean ====
section
/-! The bytes of a frame, and the row that they spell. -/

namespace Sys2Proof

open Sys2Proof.Machine

/-! ### Fields of bytes -/

@[simp] theorem fieldAt_cons_zero (b : Byte) (l : List Byte) : fieldAt (b :: l) 0 1 = b.toNat := by
  simp [fieldAt, leNat]

@[simp] theorem fieldAt_cons_succ (b : Byte) (l : List Byte) (k n : Nat) : fieldAt (b :: l) (k + 1) n = fieldAt l k n := rfl

/-- A field behind a number's bytes is a field of what follows them. -/
theorem fieldAt_behind {n k : Nat} (h : n ≤ k) (x m : Nat) (l : List Byte) :
    fieldAt (leBytes n x ++ l) k m = fieldAt l (k - n) m := by
  conv_lhs => rw [← Nat.add_sub_cancel' h, fieldAt, ← List.drop_drop, List.drop_left' (leBytes_length n x)]
  rfl

theorem fieldAt_leBytes_last (n x : Nat) : fieldAt (leBytes n x) 0 n = x % 256 ^ n := by
  rw [← List.append_nil (leBytes n x), fieldAt_leBytes]

/-- A word of `n` bytes is read back from them. -/
theorem ofNat_mod_bytes {w n : Nat} (hw : w = 8 * n) (x : BitVec w) : BitVec.ofNat w (x.toNat % 256 ^ n) = x := by
  have hpow : 256 ^ n = 2 ^ w := by rw [hw, Nat.pow_mul]
  rw [hpow, Nat.mod_eq_of_lt x.isLt, BitVec.ofNat_toNat, BitVec.setWidth_eq]

/-! ### The fields of a frame are read back -/

theorem HandoffFrame.ofBytes_bytes (m : Byte) (f : HandoffFrame) : HandoffFrame.ofBytes f.src f.dst (f.bytes m) = f := by
  simp [-Nat.reducePow, HandoffFrame.ofBytes, HandoffFrame.bytes, fieldAt_behind, fieldAt_leBytes, fieldAt_leBytes_last,
    ofNat_mod_bytes]

theorem RequestFrame.ofBytes_bytes (m : Byte) (f : RequestFrame) : RequestFrame.ofBytes f.src f.dst (f.bytes m) = f := by
  simp [-Nat.reducePow, RequestFrame.ofBytes, RequestFrame.bytes, fieldAt_behind, fieldAt_leBytes, fieldAt_leBytes_last,
    ofNat_mod_bytes]

theorem StatusFrame.ofBytes_bytes (f : StatusFrame) : StatusFrame.ofBytes f.bytes = f := by
  simp [-Nat.reducePow, StatusFrame.ofBytes, StatusFrame.bytes, fieldAt_behind, fieldAt_leBytes, fieldAt_leBytes_last,
    ofNat_mod_bytes]

theorem TallyFrame.ofBytes_bytes (f : TallyFrame) : TallyFrame.ofBytes f.bytes = f := by
  simp [-Nat.reducePow, TallyFrame.ofBytes, TallyFrame.bytes, fieldAt_behind, fieldAt_leBytes, fieldAt_leBytes_last,
    ofNat_mod_bytes]

theorem AlarmFrame.ofBytes_bytes (f : AlarmFrame) : AlarmFrame.ofBytes f.bytes = f := by
  simp [-Nat.reducePow, AlarmFrame.ofBytes, AlarmFrame.bytes, fieldAt_behind, fieldAt_leBytes, fieldAt_leBytes_last,
    ofNat_mod_bytes]

/-! ### The row of a frame (R177) -/

theorem decodeFrame_handoffWire (m : Byte) (f : HandoffFrame) :
    decodeFrame (handoffWire m f) = decodeHandoff (handoffWire m f) := by
  have hlength : kindLength kindHandoff = some (f.bytes m).length := by rw [f.bytes_length]; rfl
  exact (if_neg nofun).trans <| (if_neg (not_not_intro hlength)).trans <| (if_neg nofun).trans <| if_pos rfl

theorem decodeFrame_requestWire (code : Byte) (f : RequestFrame) :
    decodeFrame (requestWire code f) = decodeRequest (requestWire code f) := by
  have hlength : kindLength kindRequest = some (f.bytes code).length := by rw [f.bytes_length]; rfl
  exact (if_neg nofun).trans <| (if_neg (not_not_intro hlength)).trans <| (if_neg nofun).trans <|
    (if_neg nofun).trans <| if_pos rfl

theorem fieldAt_handoffWire (m : Byte) (f : HandoffFrame) : fieldAt (handoffWire m f).data 0 1 = m.toNat :=
  fieldAt_cons_zero m _

theorem fieldAt_requestWire (code : Byte) (f : RequestFrame) : fieldAt (requestWire code f).data 0 1 = code.toNat :=
  fieldAt_cons_zero code _

theorem ofBytes_handoffWire (m : Byte) (f : HandoffFrame) :
    HandoffFrame.ofBytes (handoffWire m f).src (handoffWire m f).dst (handoffWire m f).data = f :=
  f.ofBytes_bytes m

theorem ofBytes_requestWire (code : Byte) (f : RequestFrame) :
    RequestFrame.ofBytes (requestWire code f).src (requestWire code f).dst (requestWire code f).data = f :=
  f.ofBytes_bytes code

/-- A HANDOFF decodes to the row of its message. -/
theorem handoffRow_decode {i : Instr} {m : Byte} {f : HandoffFrame} (h : handoffRow i = some (m, f)) :
    decodeFrame (handoffWire m f) = i := by
  rw [decodeFrame_handoffWire, decodeHandoff, fieldAt_handoffWire, ofBytes_handoffWire]
  cases i <;> cases h
  all_goals rfl

theorem decode_alarm (src dst : Address) (f : AlarmFrame) :
    decodeFrame (plainFrame kindAlarm src dst f.bytes) = .alarmReceived src dst f := by
  have hlength : kindLength kindAlarm = some f.bytes.length := by rw [f.bytes_length]; rfl
  exact (if_neg nofun).trans <| (if_neg (not_not_intro hlength)).trans <|
    (if_pos rfl).trans (congrArg _ f.ofBytes_bytes)

theorem decode_status (src dst : Address) (f : StatusFrame) :
    decodeFrame (plainFrame kindStatus src dst f.bytes) = .statusReceived src dst f := by
  have hlength : kindLength kindStatus = some f.bytes.length := by rw [f.bytes_length]; rfl
  exact (if_neg nofun).trans <| (if_neg (not_not_intro hlength)).trans <| (if_neg nofun).trans <|
    (if_neg nofun).trans <| (if_neg nofun).trans <| (if_pos rfl).trans (congrArg _ f.ofBytes_bytes)

theorem decode_tally (src dst : Address) (f : TallyFrame) :
    decodeFrame (plainFrame kindTally src dst f.bytes) = .tallyReceived src dst f := by
  have hlength : kindLength kindTally = some f.bytes.length := by rw [f.bytes_length]; rfl
  exact (if_neg nofun).trans <| (if_neg (not_not_intro hlength)).trans <| (if_neg nofun).trans <|
    (if_neg nofun).trans <| (if_neg nofun).trans <| (if_neg nofun).trans <|
    (if_pos rfl).trans (congrArg _ f.ofBytes_bytes)

end Sys2Proof

namespace Sys2Proof.Proofs

open Sys2Proof Sys2Proof.Machine

/-- Settles O60, row by row. -/
theorem framesDecodeToTheirRows : Obligations.FramesDecodeToTheirRows := by
  intro i w hframe hwell hplain
  cases i <;> cases hframe
  case foreignFrameReceived => exact absurd rfl (hplain w).1
  case framePassedBy => exact absurd rfl (hplain w).2
  case alarmReceived => exact decode_alarm ..
  case statusReceived => exact decode_status ..
  case tallyReceived => exact decode_tally ..
  case offerReceived | takeReceived | declineReceived | withdrawReceived | settleReceived => exact handoffRow_decode rfl
  case unknownRequest code f =>
    rw [decodeFrame_requestWire, decodeRequest, fieldAt_requestWire, ofBytes_requestWire]
    have hcode : code.toNat = 0 ∨ 16 < code.toNat := (of_decide_eq_true hwell).imp_left (congrArg BitVec.toNat)
    split
    case h_17 => rw [BitVec.ofNat_toNat, BitVec.setWidth_eq]
    all_goals omega
  all_goals
    rw [decodeFrame_requestWire, decodeRequest, fieldAt_requestWire, ofBytes_requestWire]
    rfl

end Sys2Proof.Proofs
end

