-- ==== Sys2Proof/Proofs/TransmitSelect.lean ====
section
/-! A transmit selection: the lowest kind that holds a frame, and the bytes of each frame. -/

namespace Sys2Proof.Machine

open Sys2Proof Sys2Proof.Config

variable {s : State}

/-! ### Numbers as bytes -/

theorem leBytes_mod (n x : Nat) : leBytes n (x % 256 ^ n) = leBytes n x := by
  induction n generalizing x with
  | zero => rfl
  | succ n ih =>
    have hlow : BitVec.ofNat 8 (x % 256 ^ (n + 1)) = BitVec.ofNat 8 x := by
      refine BitVec.eq_of_toNat_eq ?_
      rw [BitVec.toNat_ofNat, BitVec.toNat_ofNat]
      exact Nat.mod_mod_of_dvd x (Dvd.intro_left _ (Nat.pow_succ ..).symm)
    have hhigh : x % 256 ^ (n + 1) / 256 = x / 256 % 256 ^ n := by
      rw [Nat.pow_succ, Nat.mul_comm, Nat.mod_mul_right_div_self]
    rw [leBytes, hlow, hhigh, ih, leBytes]

/-- A word of `n` bytes carries a number as its `n` bytes (R177). -/
theorem leBytes_ofNat {w n : Nat} (hw : w = 8 * n) (x : Nat) : leBytes n (BitVec.ofNat w x).toNat = leBytes n x := by
  have hpow : 256 ^ n = 2 ^ w := by rw [hw, Nat.pow_mul]
  rw [BitVec.toNat_ofNat, ← hpow, leBytes_mod]

theorem byteOf_toNat (x : Byte) : byteOf x.toNat = x := by
  rw [byteOf, BitVec.ofNat_toNat, BitVec.setWidth_eq]

theorem identifier_toNat (kind : BitVec 3) (src dst : Address) :
    (identifier kind src dst).toNat = kind.toNat * 256 + src.toNat * 16 + dst.toNat := by
  have hkind := kind.isLt
  have hsrc := src.isLt
  have hdst := dst.isLt
  exact Nat.mod_eq_of_lt (by omega)

theorem terminalAddress_toNat (p : TerminalNo) : (terminalAddress p).toNat = 12 + p.val := by revert p; decide

/-! ### The bytes of each frame (R177) -/

theorem State.formAlarm_bytes (s : State) (e : PendingEntry) {z : Nat} {place : List (Nat × Nat)}
    (hzone : byteOf z = s.fire.zone.code) (hplace : fieldBytes place = [e.place.kindCode, byteOf e.place.number]) :
    (s.formAlarm e).bytes = fieldBytes ([(1, e.cause.priority), (1, e.cause.priority), (1, e.count),
      (1, if s.condition e.cause = true then 1 else 0), (1, z)] ++ place ++
      [(1, s.link.alarmSeq.toNat), (4, e.first.toNat), (4, (e.tag.getD 0).toNat)]) := by
  simp [hplace, hzone, leBytes_one, byteOf_toNat, AlarmFrame.bytes, State.formAlarm, bitAt]

theorem HandoffOut.bytes_eq (own : Address) (h : HandoffOut) {message reason : Nat}
    (hmessage : byteOf message = h.message.code)
    (hreason : byteOf reason = (h.reason.map DeclineReason.code).getD 0) :
    h.bytes own = fieldBytes [(1, message), (1, h.bay.val), (1, h.s), (1, reason), (4, h.tag.toNat), (4, h.energy),
      (2, h.restV), (2, 0)] := by
  cases hr : h.reason with
  | none =>
    rw [hr] at hreason
    simp [-BitVec.toNat_ofNat, HandoffOut.bytes, HandoffFrame.bytes, hr, hreason, leBytes_one, ← hmessage, leBytes_ofNat]
  | some r =>
    rw [hr] at hreason
    simp [-BitVec.toNat_ofNat, HandoffOut.bytes, HandoffFrame.bytes, hr, hreason, leBytes_one, ← hmessage, leBytes_ofNat]

theorem StatusFrame.bytes_eq (f : StatusFrame) : f.bytes = fieldBytes [(1, f.seq.toNat), (1, f.role.toNat),
    (1, f.lifecycle.toNat), (1, f.zone.toNat), (1, f.flags.toNat), (1, f.profile.toNat), (1, f.power.toNat),
    (1, f.pending.toNat), (4, f.time.toNat), (3, f.causes.toNat), (1, f.spare.toNat), (16, f.block.toNat)] := by
  simp [leBytes_one, byteOf_toNat, StatusFrame.bytes]

theorem TallyFrame.bytes_eq (f : TallyFrame) : f.bytes = fieldBytes [(1, f.record.toNat), (1, f.seq.toNat),
    (4, f.time.toNat), (58, f.body.toNat)] := by
  simp [leBytes_one, byteOf_toNat, TallyFrame.bytes]

/-- The shortest allowed length that holds a payload (R159, R177). -/
theorem replyLength_spec {k : Nat} (h : k ≤ 56) : replyLength k ∈ [8, 12, 16, 20, 24, 32, 48, 64] ∧
    8 + k ≤ replyLength k ∧ ∀ n ∈ [8, 12, 16, 20, 24, 32, 48, 64], 8 + k ≤ n → replyLength k ≤ n := by
  have hall : ∀ k < 57, replyLength k ∈ [8, 12, 16, 20, 24, 32, 48, 64] ∧ 8 + k ≤ replyLength k ∧
      ∀ n ∈ [8, 12, 16, 20, 24, 32, 48, 64], 8 + k ≤ n → replyLength k ≤ n := by decide
  exact hall k (by omega)

theorem Reply.bytes_eq (r : Reply) : r.bytes = fieldBytes [(1, r.code.toNat), (1, if r.reason = none then 0 else 1),
    (1, (r.reason.map (fun x => x.code.toNat)).getD 0), (1, r.bay.toNat), (2, r.number.toNat),
    (1, r.payload.length), (1, r.role.toNat)] ++ r.payload ++
    List.replicate (replyLength r.payload.length - (8 + r.payload.length)) 0 := by
  cases hreason : r.reason with
  | none =>
    have hzero : byteOf 0 = 0 := rfl
    simp [Reply.bytes, hreason, leBytes_one, byteOf_toNat, bitAt, hzero]
  | some x => simp [Reply.bytes, hreason, leBytes_one, byteOf_toNat, bitAt]

/-! ### The selection (R164) -/

theorem exec_transmitSelection (hrun : s.startup.life = .running) (hlink : s.link.state ≠ .off)
    (hfree : s.link.attempt = none) : exec .transmitSelection s =
      .next { s with link := { s.link with attempt := s.select }, latch := { s.latch with after := none } } := by
  refine congrArg Host.Outcome.next (if_pos ?_)
  rw [State.maySelect, State.running, hrun, hfree, decide_eq_true hlink]
  rfl

theorem findSome?_first {g : TerminalNo → Option Reply} {p : TerminalNo} {r : Reply} (hfull : g p = some r)
    (hempty : ∀ q : TerminalNo, q < p → g q = none) :
    ([0, 1, 2] : List TerminalNo).findSome? (fun q => (g q).map (fun x => (q, x))) = some (p, r) := by
  match p with
  | 0 => simp [hfull]
  | 1 => simp [hempty 0 (by decide), hfull]
  | 2 => simp [hempty 0 (by decide), hempty 1 (by decide), hfull]

theorem State.firstReply_of_first {p : TerminalNo} {r : Reply} (hfull : s.link.replies[p] = some r)
    (hempty : ∀ q : TerminalNo, q < p → s.link.replies[q] = none) : s.firstReply = some (p, r) :=
  findSome?_first (g := fun q => s.link.replies[q]) hfull hempty

theorem State.firstReply_of_empty (hempty : ∀ q : TerminalNo, s.link.replies[q] = none) : s.firstReply = none :=
  List.findSome?_eq_none_iff.2 fun q _ => by rw [hempty q]; rfl

/-- What an attempt of this buffer with these bytes leaves (R164). -/
theorem exec_attempts (hrun : s.startup.life = .running) (hlink : s.link.state ≠ .off) (hfree : s.link.attempt = none)
    {b : Buffer} {i : BitVec 11} {d data : List Byte} {ident : Nat}
    (hselect : s.select = some { buffer := b, ident := i, data := d }) (hident : i.toNat = ident) (hdata : d = data) :
    ∃ t : State, exec .transmitSelection s = .next t ∧
      (∃ a : Attempt, t.link = { s.link with attempt := some a } ∧ a.buffer = b ∧ a.ident.toNat = ident ∧ a.data = data) ∧
      t = { s with link := t.link, latch := { s.latch with after := none } } := by
  refine ⟨_, exec_transmitSelection hrun hlink hfree, ⟨⟨b, i, d⟩, ?_, rfl, hident, hdata⟩, rfl⟩
  rw [hselect]

end Sys2Proof.Machine

namespace Sys2Proof.Proofs

open Sys2Proof Sys2Proof.Machine Sys2Proof.Config

/-- Settles O38: the selection by the lowest kind that holds a frame, the bytes by the form of each frame, and the
conditions one by one. -/
theorem transmitSelection : Obligations.TransmitSelection := by
  refine ⟨fun s => ?selection, fun s => ?conditions, rfl, rfl, fun _ _ _ _ => rfl⟩
  case selection =>
    intro own attempts fields
    have hident (kind : BitVec 3) (dst : Address) {k d : Nat} (hkind : kind.toNat = k) (hdst : dst.toNat = d) :
        (identifier kind own dst).toNat = k * 256 + own.toNat * 16 + d := by
      rw [identifier_toNat, hkind, hdst]
    refine ⟨fun hidle => ?idle, fun hrun hlink hfree => ⟨fun e l hentries => ?alarm, fun h l hentries hfifo => ?handoff,
      fun p r hentries hfifo hfull hempty hsize => ?reply, fun hentries hfifo hreplies => ?rest⟩⟩
    case idle =>
      refine congrArg Host.Outcome.next (if_neg ?_)
      rw [State.maySelect, Bool.and_eq_true, Bool.and_eq_true, State.running, decide_eq_true_eq, decide_eq_true_eq,
        Option.isNone_iff_eq_none]
      rintro ⟨⟨hrun, hlink⟩, hfree⟩
      rcases hidle with h | h | h
      · exact h hrun
      · exact hlink h
      · exact h hfree
    case alarm =>
      refine exec_attempts hrun hlink hfree (by rw [State.select, hentries]) ?_ (s.formAlarm_bytes e ?_ ?_)
      · rw [hident _ _ (k := 0) (d := 15) rfl rfl]
        omega
      · cases s.fire.zone <;> rfl
      · cases e.place <;> rfl
    case handoff =>
      refine exec_attempts hrun hlink hfree (by rw [State.select, hentries, hfifo]) ?_ (h.bytes_eq own ?_ ?_)
      · rw [hident _ _ (k := 1) rfl (nodeAddress_toNat _)]
        omega
      · cases h.message <;> rfl
      · rcases h.reason with _ | r
        · rfl
        · cases r <;> rfl
    case reply =>
      obtain ⟨hmem, hfits, hleast⟩ := replyLength_spec hsize
      refine ⟨_, hmem, hfits, hleast, exec_attempts hrun hlink hfree
        (by rw [State.select, hentries, hfifo, State.firstReply_of_first hfull hempty]) ?_ r.bytes_eq⟩
      rw [hident _ _ (k := 3) rfl (terminalAddress_toNat _)]
      omega
    case rest =>
      have hreply := State.firstReply_of_empty hreplies
      refine ⟨fun f hstatus => ?status, fun f hstatus htally => ?tally, fun hstatus htally => ?none⟩
      case status =>
        refine exec_attempts hrun hlink hfree (by rw [State.select, hentries, hfifo, hreply, hstatus]) ?_
          (StatusFrame.bytes_eq f)
        rw [hident _ _ (k := 4) (d := 15) rfl rfl]
        omega
      case tally =>
        refine exec_attempts hrun hlink hfree (by rw [State.select, hentries, hfifo, hreply, hstatus, htally]) ?_
          (TallyFrame.bytes_eq f)
        rw [hident _ _ (k := 5) (d := 15) rfl rfl]
        omega
      case none =>
        rw [exec_transmitSelection hrun hlink hfree, State.select, hentries, hfifo, hreply, hstatus, htally, ← hfree]
  case conditions =>
    refine ⟨decide_eq_true_iff, decide_eq_true_iff, s.overheat_iff, Iff.rfl, decide_eq_true_iff, Iff.rfl, ?_, Iff.rfl,
      Iff.rfl, ?_, Iff.rfl, Iff.rfl, decide_eq_true_iff, decide_eq_true_iff, s.any_bays_iff _, ?_, decide_eq_true_iff,
      s.any_bays_iff _⟩
    · rw [State.condition, Bool.not_eq_true', ← Bool.not_eq_true, List.isEmpty_iff]
    · rw [State.condition, Vector.any_toList, Vector.any_eq_true]
      simp only [Bool.and_eq_true, Bool.not_eq_true']
      exact (Fin.exists_iff (p := fun c : Fin 4 => s.fire.channels[c].faulted = true ∧
        s.fire.channels[c].isolated = false)).symm
    · rw [State.condition, s.any_peers_iff]
      simp only [decide_eq_true_eq]

end Sys2Proof.Proofs
end
